-- ==== Sys2Proof/Word.lean ====
section
/-! DEFINITION. The two word types of the link protocol engine: the byte, unit of the wire (spec 30 R80),
and the 32-bit quantities of the host port (spec 10 R20). Every quantity is unsigned (spec 00 R9). -/

namespace Sys2Proof

/-- A byte: the unit of the wire protocol (R80). -/
abbrev Byte := BitVec 8

/-- The 32-bit quantities of the host port: `addr`, `wdata`, `len`, `rdata` (R20). -/
abbrev Word := BitVec 32

end Sys2Proof
end

