-- ==== Sys2Proof/Config.lean ====
section
/-! DEFINITION. What an implementation fixes (spec 00 R6, R7, R8): the enumerations the parameters range over, the
record `Params` of every parameter, all of it plain data, and the FREE VALUES of the model, constants without a body.
The default VALUES of the parameters stand in Sys2Proof/Machine/Params.lean. -/

namespace Sys2Proof

/-- The 11 command kinds (R82), in the table's order. -/
inductive Cmd where
  | dmaWrite | dmaRead | internalWrite | internalRead | terminate | repeatCmd
  | dmaExtWrite | dmaExtRead | singleWrite | singleRead | reset
  deriving DecidableEq, Repr

/-- The opcode classes of the parser (R172); they partition the 11 kinds. -/
inductive CmdClass where
  | resetClass | writeClass | registerRead | bulkRead
  deriving DecidableEq, Repr

/-- The four order tags of a write chunk (R89). -/
inductive OrderTag where
  | first | middle | last | single
  deriving DecidableEq, Repr

/-- `XFER_STYLE` (R26): command and response in one `transact`, or `transmit` then `receive`. -/
inductive XferStyle where
  | combined | separate
  deriving DecidableEq, Repr

/-- `RD_PAYLOAD_ORDER` (R58). -/
inductive ByteOrder where
  | bigEndian | littleEndian
  deriving DecidableEq, Repr

/-- The enumeration that `S.chunk_size` ranges over (R22): a name for each of the six members of `CHUNK_SIZES`, after the value
R6 gives it. How many bytes it stands for is the parameter's (`ChunkSizes`). -/
inductive ChunkSize where
  | c256 | c512 | c1024 | c2048 | c4096 | c8192
  deriving DecidableEq, Repr

/-- The two filler values of the reset-class frames, `FILL_FF` and `FILL_00` (R6): which of the two a command takes. -/
inductive Filler where
  | ff | zero
  deriving DecidableEq, Repr

/-- The 11 opcode bytes `OPC_*` (R7, R82). -/
structure Opcodes where
  dmaWrite : Byte
  dmaRead : Byte
  internalWrite : Byte
  internalRead : Byte
  terminate : Byte
  repeatCmd : Byte
  dmaExtWrite : Byte
  dmaExtRead : Byte
  singleWrite : Byte
  singleRead : Byte
  reset : Byte
  deriving DecidableEq, Repr

/-- `PAD(class)` (R186): placeholder bytes of a `Combined` exchange, for each class with checksum mode on and off. -/
structure Pads where
  resetOn : Nat
  resetOff : Nat
  writeOn : Nat
  writeOff : Nat
  regReadOn : Nat
  regReadOff : Nat
  bulkReadOn : Nat
  bulkReadOff : Nat
  deriving DecidableEq, Repr

/-- `CHUNK_SIZES` (R6): the six legal values of `chunk_size`, in bytes. -/
structure ChunkSizes where
  c256 : Nat
  c512 : Nat
  c1024 : Nat
  c2048 : Nat
  c4096 : Nat
  c8192 : Nat
  deriving DecidableEq, Repr

/-- `SEL(chunk_size)` (R7): the selector code of each chunk size. -/
structure SelCodes where
  c256 : Word
  c512 : Word
  c1024 : Word
  c2048 : Word
  c4096 : Word
  c8192 : Word
  deriving DecidableEq, Repr

/-- What `RDINT` needs of the platform (R298): `INT_STATUS_ADDR` and where the 8-bit field `INT_LINES_FIELD(v)` lies,
given as the bit number of its bit 0. R7 lists the two apart and says nothing of one configured without the other; that they
come together is DESIGN CHOICE, notes/assumptions/25.md. -/
structure IntStatus where
  addr : Word
  linesLsb : Nat
  deriving DecidableEq, Repr

/-- What `SYNC` needs of the platform (R300): `INT_ENABLE_ADDR` and the function `INT_ENABLE_VALUE(v, n)`, given by the
bits of the register that enable lines and by the value those bits take for each count `n` from 0 to 8. The bits outside
`mask` are kept. R7 lists the address and the function apart and says nothing of one configured without the other; that they
come together is DESIGN CHOICE, notes/assumptions/25.md. -/
structure IntEnable where
  addr : Word
  mask : Word
  codes : List Word
  deriving DecidableEq, Repr

/-- The parameters of R6 and R7, in the tables' order. `none` for an address
means "not configured" (R296); `INT_STATUS_ADDR` and `INT_ENABLE_ADDR` are configured together with their functions (DESIGN
CHOICE, notes/assumptions/25.md). `chipIdOk` is the predicate
`CHIP_ID_OK(v)` as data: a list of (mask, value) pairs, and `v` is accepted when `v AND mask = value` for one of them
(every set of 32-bit values can be written so). -/
structure Params where
  crc7Seed : BitVec 7
  crc7TableSize : Nat
  nOpcodes : Nat
  clocklessThreshold : Word
  statusOk : Byte
  sentinelNibble : BitVec 4
  scanBudget : Nat
  maxRetry : Nat
  retryDelay : Nat
  chunkSizes : ChunkSizes
  chunkDefault : ChunkSize
  bulkMin : Nat
  intLinesMax : Nat
  fillFF : Byte
  fill00 : Byte
  regPayloadLen : Nat
  dataCkLen : Nat
  cmdCkLen : Nat
  crc7Poly : BitVec 7
  opc : Opcodes
  fillReset : Filler
  fillTerminate : Filler
  fillRepeat : Filler
  tagBase : Byte
  ordFirst : BitVec 4
  ordMiddle : BitVec 4
  ordLast : BitVec 4
  ordSingle : BitVec 4
  xferStyle : XferStyle
  pad : Pads
  rdPayloadOrder : ByteOrder
  probeAddr : Word
  protoCtrlAddr : Word
  crcEnMask : Word
  pktSelMask : Word
  pktSelShift : Nat
  sel : SelCodes
  chipIdAddr : Word
  chipIdOk : List (Word × Word)
  pendingSizeAddr : Option Word
  intClearAddr : Option Word
  intStatus : Option IntStatus
  intEnable : Option IntEnable
  deriving DecidableEq, Repr

/-- FREE VALUE (spec 00 R14, 93 U1): whether the `n`-th transport call succeeds, for a call beyond the answers that
`State.answers` lists. Nothing is known of it. -/
opaque Config.answerOk : Nat → Bool

/-- FREE VALUE (spec 00 R13, R14, 93 U1): byte `i` of what the `n`-th transport call captures, for a byte that
`State.answers` does not list. Nothing is known of it. -/
opaque Config.answerByte : Nat → Nat → Byte

/-- FREE VALUE (spec 44 R240, 93 U12): byte `i` of the host buffer after the failed bulk read that ended when `n`
transport calls had been made, or that began with `n` made and was abandoned (R350). Nothing is known of it, but two such
buffers of one run with the same `n` have the same bytes (DESIGN CHOICE, notes/assumptions/10.md and 16.md). -/
opaque Config.failedReadByte : Nat → Nat → Byte

end Sys2Proof
end

