-- ==== Sys2Proof/Machine/Params.lean ====
section
/-! DEFINITION. The values of the parameters (spec 00 R6, R7, spec 42 R186), the constraints they must satisfy (R8) and
the selections made on them. The values marked GK in the spec (opcodes, polynomial, tags, fillers, peer addresses) are
its general-knowledge defaults, not statements of its source: PRESUMED, notes/assumptions/2.md. -/

namespace Sys2Proof.Machine

/-- The default opcode bytes (R82). PRESUMED (the spec's GK default, notes/assumptions/2.md). -/
def defaultOpcodes : Opcodes where
  dmaWrite := 0xC1
  dmaRead := 0xC2
  internalWrite := 0xC3
  internalRead := 0xC4
  terminate := 0xC5
  repeatCmd := 0xC6
  dmaExtWrite := 0xC7
  dmaExtRead := 0xC8
  singleWrite := 0xC9
  singleRead := 0xCA
  reset := 0xCF

/-- The default `PAD` (R186), from `SCAN_BUDGET`. -/
def defaultPads (scanBudget : Nat) : Pads where
  resetOn := 3
  resetOff := 3
  writeOn := 2
  writeOff := 2
  regReadOn := 2 + scanBudget + 4 + 2
  regReadOff := 2 + scanBudget + 4
  bulkReadOn := 2 + scanBudget
  bulkReadOff := 2 + scanBudget

/-- The parameters at the values of R6 and the defaults of R7. -/
def defaultParams : Params where
  crc7Seed := 0x7F
  crc7TableSize := 256
  nOpcodes := 11
  clocklessThreshold := 0x30
  statusOk := 0x00
  sentinelNibble := 0xF
  scanBudget := 10
  maxRetry := 10
  retryDelay := 1
  chunkSizes := { c256 := 256, c512 := 512, c1024 := 1024, c2048 := 2048, c4096 := 4096, c8192 := 8192 }
  chunkDefault := .c8192
  bulkMin := 5
  intLinesMax := 8
  fillFF := 0xFF
  fill00 := 0x00
  regPayloadLen := 4
  dataCkLen := 2
  cmdCkLen := 1
  crc7Poly := 0x09
  opc := defaultOpcodes
  fillReset := .ff
  fillTerminate := .zero
  fillRepeat := .zero
  tagBase := 0xF0
  ordFirst := 1
  ordMiddle := 2
  ordLast := 3
  ordSingle := 3
  xferStyle := .combined
  pad := defaultPads 10
  rdPayloadOrder := .bigEndian
  probeAddr := 0x0024
  protoCtrlAddr := 0x0024
  crcEnMask := 0x0000000C
  pktSelMask := 0x00000070
  pktSelShift := 4
  sel := { c256 := 0, c512 := 1, c1024 := 2, c2048 := 3, c4096 := 4, c8192 := 5 }
  chipIdAddr := 0x001000
  chipIdOk := [(0, 0)]
  pendingSizeAddr := none
  intClearAddr := none
  intStatus := none
  intEnable := none

/-- The largest bulk length, the capacity of the 24-bit size field (R63). -/
def bulkMax : Nat := 0xFFFFFF

/-- The number of bytes a chunk size stands for (R6, R22). -/
def chunkBytes (z : ChunkSizes) : ChunkSize → Nat
  | .c256 => z.c256
  | .c512 => z.c512
  | .c1024 => z.c1024
  | .c2048 => z.c2048
  | .c4096 => z.c4096
  | .c8192 => z.c8192

/-- The names of the six chunk sizes (R22). -/
def allChunkSizes : List ChunkSize :=
  [.c256, .c512, .c1024, .c2048, .c4096, .c8192]

/-- `SEL(chunk_size)` (R7). -/
def selCode (sel : SelCodes) : ChunkSize → Word
  | .c256 => sel.c256
  | .c512 => sel.c512
  | .c1024 => sel.c1024
  | .c2048 => sel.c2048
  | .c4096 => sel.c4096
  | .c8192 => sel.c8192

/-- The opcode byte of a command kind (R82). -/
def opcOf (o : Opcodes) : Cmd → Byte
  | .dmaWrite => o.dmaWrite
  | .dmaRead => o.dmaRead
  | .internalWrite => o.internalWrite
  | .internalRead => o.internalRead
  | .terminate => o.terminate
  | .repeatCmd => o.repeatCmd
  | .dmaExtWrite => o.dmaExtWrite
  | .dmaExtRead => o.dmaExtRead
  | .singleWrite => o.singleWrite
  | .singleRead => o.singleRead
  | .reset => o.reset

/-- The 11 command kinds (R82). -/
def allCmds : List Cmd :=
  [.dmaWrite, .dmaRead, .internalWrite, .internalRead, .terminate, .repeatCmd, .dmaExtWrite, .dmaExtRead, .singleWrite,
    .singleRead, .reset]

/-- The command kind an opcode byte names, `none` for a byte that is none of the 11 (R95, R154). -/
def cmdOfByte (o : Opcodes) (b : Byte) : Option Cmd :=
  allCmds.find? fun k => opcOf o k == b

/-- The class of a command kind (R172). -/
def classOf : Cmd → CmdClass
  | .reset | .terminate | .repeatCmd => .resetClass
  | .singleRead | .internalRead => .registerRead
  | .dmaRead | .dmaExtRead => .bulkRead
  | .singleWrite | .internalWrite | .dmaWrite | .dmaExtWrite => .writeClass

/-- `PAD(class)` in the given checksum mode (R186). -/
def padOf (p : Pads) : CmdClass → Bool → Nat
  | .resetClass, ck => if ck then p.resetOn else p.resetOff
  | .writeClass, ck => if ck then p.writeOn else p.writeOff
  | .registerRead, ck => if ck then p.regReadOn else p.regReadOff
  | .bulkRead, ck => if ck then p.bulkReadOn else p.bulkReadOff

/-- The order code of a tag (R89). -/
def ordOf (P : Params) : OrderTag → BitVec 4
  | .first => P.ordFirst
  | .middle => P.ordMiddle
  | .last => P.ordLast
  | .single => P.ordSingle

/-- The header byte of a write chunk, `TAG_BASE OR order` (R89). -/
def tagByte (P : Params) (t : OrderTag) : Byte :=
  P.tagBase ||| (ordOf P t).zeroExtend 8

/-- `CHIP_ID_OK(v)` (R7, R43). -/
def chipIdAccepts (accepted : List (Word × Word)) (v : Word) : Bool :=
  accepted.any fun p => (v &&& p.1) == p.2

/-- `INT_LINES_FIELD(v)` (R298): the 8-bit field whose bit 0 is bit `linesLsb` of `v`. -/
def intLinesField (c : IntStatus) (v : Word) : BitVec 8 :=
  v.extractLsb' c.linesLsb 8

/-- `INT_ENABLE_VALUE(v, n)` (R300): the bits in the mask take the value for `n` lines, the others are kept. -/
def intEnableValue (c : IntEnable) (v : Word) (n : Nat) : Word :=
  (v &&& ~~~c.mask) ||| (c.codes.getD n 0 &&& c.mask)

/-- The sizes of R6 that a register or a format of fixed width goes with: a table index of 8 bits (R29), the 11 kinds of
`Cmd`, a count of 4 bits (R23), the 4 bytes of `R_PAYLOAD` and 2 of `R_CK` (R32), the one checksum byte of a frame (R87).
R8 does not list them; that a parameter set has them at the values R6 states is DESIGN CHOICE,
notes/assumptions/21.md. -/
def fixedSizes (P : Params) : Bool :=
  decide (P.crc7TableSize = 256) && decide (P.nOpcodes = allCmds.length) && decide (P.intLinesMax = 8) &&
    decide (P.regPayloadLen = 4) && decide (P.dataCkLen = 2) && decide (P.cmdCkLen = 1)

/-- The members of `CHUNK_SIZES` are apart, and each is a value of `B_N`, 1 to 8192 (R35). R8 does not ask for either; that a
parameter set has it is DESIGN CHOICE, notes/assumptions/21.md. -/
def chunkSizesOk (z : ChunkSizes) : Bool :=
  (allChunkSizes.map (chunkBytes z)).Nodup && allChunkSizes.all fun c => decide (1 ≤ chunkBytes z c ∧ chunkBytes z c ≤ 8192)

/-- The constraints of R8: distinct opcodes, at least one attempt, at least one byte scanned, the order codes apart as
the document demands. (`CRC7_POLY < 0x80` and `chunk_size` in `CHUNK_SIZES` hold by type.) That `TAG_BASE` is a high
nibble (R7), the chunk sizes and the fixed sizes of R6 are the last conjuncts. -/
def paramsWf (P : Params) : Bool :=
  (allCmds.map (opcOf P.opc)).Nodup && decide (1 ≤ P.maxRetry) && decide (1 ≤ P.scanBudget) &&
    (P.ordFirst != P.ordMiddle) && (P.ordMiddle != P.ordLast) && (P.ordFirst != P.ordLast) && (P.ordFirst != P.ordSingle) &&
    (P.tagBase.extractLsb' 0 4 == 0) && chunkSizesOk P.chunkSizes && fixedSizes P

end Sys2Proof.Machine
end

