-- ==== Sys2Proof/Machine/Crc.lean ====
section
/-! DEFINITION. The CRC7 engine as a pure function (spec 40). All of it is for any 7-bit polynomial. A seed with bit 7 set
cannot be presented: the seed is 7 bits by type (R128). -/

namespace Sys2Proof.Machine

/-- One bit of the serial definition: feedback bit, shift left by one, exclusive-or with the polynomial (R121). -/
def crcBit (poly : BitVec 7) (c : BitVec 7) (bit : Bool) : BitVec 7 :=
  if c.getLsbD 6 ^^ bit then (c <<< 1) ^^^ poly else c <<< 1

/-- The low `k` bits of `b`, most significant first (R121). -/
def crcBits (poly : BitVec 7) (b : Byte) : Nat → BitVec 7 → BitVec 7
  | 0, c => c
  | k + 1, c => crcBits poly b k (crcBit poly c (b.getLsbD k))

/-- `serial(c, b)` (R121). -/
def crcSerial (poly : BitVec 7) (c : BitVec 7) (b : Byte) : BitVec 7 :=
  crcBits poly b 8 c

/-- `CRC7_TABLE[i]` (R122), `i` of 8 bits: `CRC7_TABLE_SIZE` entries. -/
def crcTable (poly : BitVec 7) (i : Byte) : BitVec 7 :=
  crcSerial poly 0 i

/-- The byte step, `CRC7_TABLE[trunc_8((c << 1) XOR b)]` (R123). -/
def crcStep (poly : BitVec 7) (c : BitVec 7) (b : Byte) : BitVec 7 :=
  crcTable poly ((c.zeroExtend 8 <<< 1) ^^^ b)

/-- `crc7(seed, bytes)` (R120). -/
def crc7 (poly : BitVec 7) : BitVec 7 → List Byte → BitVec 7
  | c, [] => c
  | c, b :: rest => crc7 poly (crcStep poly c b) rest

/-- A CRC as the checksum byte: shifted left by one, bit 0 zero (R87, R126). -/
def ckOfCrc (c : BitVec 7) : Byte :=
  c.zeroExtend 8 <<< 1

/-- `ck_byte(f)` (R126). -/
def ckByte (P : Params) (f : List Byte) : Byte :=
  ckOfCrc (crc7 P.crc7Poly P.crc7Seed f)

/-- The checksum at the end of a frame: `CMD_CK_LEN` (R6) times the checksum byte, one byte at its value of R6. -/
def ckField (P : Params) (c : Byte) : List Byte :=
  List.replicate P.cmdCkLen c

/-- The frame with the checksum byte appended when checksum mode is on (R87, R153). -/
def withCk (P : Params) (ck : Bool) (body : List Byte) : List Byte :=
  if ck then body ++ ckField P (ckByte P body) else body

end Sys2Proof.Machine
end

