-- ==== Sys2Proof/Syntax.lean ====
section
/-! DEFINITION. The instructions: one constructor for each of the 26 rows of spec/opcode_table.json (11 wire commands,
4 write chunks, 10 host operations, the reserved host codes), with the operands the spec's rules give each; and the two
shapes in which an instruction is presented, a host request (spec 10 R20) or the bytes of a frame or chunk
(spec 30 R80). -/

namespace Sys2Proof

/-- One instruction. The operands of the wire commands are the framer's (R140: `addr`, `data`, `size` of 32 bits,
`clockless` of 1), of the chunks the payload (R157 to R160), of the host operations the request fields read (R100). -/
inductive Instr where
  /-- `DMA_WRITE` (R146). -/
  | dmaWrite (addr size : Word)
  /-- `DMA_READ` (R147). -/
  | dmaRead (addr size : Word)
  /-- `INTERNAL_WRITE` (R150). -/
  | internalWrite (addr data : Word) (clockless : Bool)
  /-- `INTERNAL_READ` (R142). -/
  | internalRead (addr : Word) (clockless : Bool)
  /-- `TERMINATE` (R144). -/
  | terminate
  /-- `REPEAT` (R145). -/
  | repeatCmd
  /-- `DMA_EXT_WRITE` (R148). -/
  | dmaExtWrite (addr size : Word)
  /-- `DMA_EXT_READ` (R149). -/
  | dmaExtRead (addr size : Word)
  /-- `SINGLE_WRITE` (R151). -/
  | singleWrite (addr data : Word)
  /-- `SINGLE_READ` (R141). -/
  | singleRead (addr : Word)
  /-- `RESET` (R143). -/
  | reset
  /-- `DATA_FIRST` (R157). -/
  | dataFirst (payload : List Byte)
  /-- `DATA_MIDDLE` (R158). -/
  | dataMiddle (payload : List Byte)
  /-- `DATA_LAST` (R159). -/
  | dataLast (payload : List Byte)
  /-- `DATA_SINGLE` (R160). -/
  | dataSingle (payload : List Byte)
  /-- `NEGOTIATE` (R281). -/
  | negotiate
  /-- `RDREG` (R203). -/
  | rdreg (addr : Word)
  /-- `WRREG` (R204). -/
  | wrreg (addr wdata : Word)
  /-- `RDBULK` (R235). -/
  | rdbulk (addr len buf : Word)
  /-- `WRBULK` (R235). -/
  | wrbulk (addr len buf : Word)
  /-- `RDPEND` (R297). -/
  | rdpend
  /-- `RDINT` (R298). -/
  | rdint
  /-- `CLRINT` (R299). -/
  | clrint (mask : Word)
  /-- `SYNC` (R300). -/
  | sync (count : Word)
  /-- `RSTBUS` (R206). -/
  | rstbus
  /-- A reserved host operation code, `0xA` to `0xF` (R101). -/
  | reserved (code : BitVec 4)
  deriving DecidableEq, Repr

/-- A host request (R20). `buf` is the handle of the host buffer; its width is the model's (notes/assumptions/6.md). -/
structure Request where
  op : BitVec 4
  addr : Word
  wdata : Word
  len : Word
  buf : Word
  deriving DecidableEq, Repr

/-- How an instruction is presented: a request on the host port, or a command frame or write chunk as its bytes with
checksum mode off (R81, R89). -/
inductive Packet where
  | request (r : Request)
  | wire (bytes : List Byte)
  deriving DecidableEq, Repr

end Sys2Proof
end

