-- ==== Sys2Proof/Machine/State.lean ====
section
/-! DEFINITION. The state of the link protocol engine as plain data (spec 10), the environment's part that a step reads
(spec 00 R13, R14, spec 10 R20), and the state after reset (R45, R350). -/

namespace Sys2Proof.Machine

/-- The error causes of R310, `ok` (code `0x0`) among them. -/
inductive Cause where
  | ok | transportError | commandEchoMismatch | badStatus | resetRequired | frameTooShort | peerUnresponsive
  | invalidOpcode | peerNotPresent | rejected
  deriving DecidableEq, Repr

/-- The sequencer states (R33). -/
inductive Seq where
  | idle | build | cmdXfer | rspSkip | rspEcho | rspStatus | rspScan | rspData | rspCk | chunkTx | chunkScan | chunkRx
  | chunkCk | retryDelayA | retryReset | retryDelayB | neg1 | neg2a | neg2b | neg3 | neg4 | negProbe | done
  deriving DecidableEq, Repr

/-- The session registers, the document's `BusSession` (R21 to R26). -/
structure Session where
  /-- `S.checksum_enabled` (R21). -/
  checksumEnabled : Bool
  /-- `S.chunk_size` (R22). -/
  chunkSize : ChunkSize
  /-- `S.interrupt_line_count`, 4 bits (R23). -/
  interruptLineCount : BitVec 4
  /-- `S.enhanced_throughput_mode` (R24); no rule reads or writes it. -/
  enhancedThroughputMode : Bool
  /-- `S.negotiated` (R25). -/
  negotiated : Bool
  /-- `S.xfer_style` (R26). -/
  xferStyle : XferStyle
  deriving DecidableEq, Repr

/-- The nine bytes of the command frame buffer `FB[0..8]` (R30). -/
structure FrameBuf where
  b0 : Byte
  b1 : Byte
  b2 : Byte
  b3 : Byte
  b4 : Byte
  b5 : Byte
  b6 : Byte
  b7 : Byte
  b8 : Byte
  deriving DecidableEq, Repr

/-- Four bytes in wire order (`R_PAYLOAD`, R32). -/
structure Bytes4 where
  b0 : Byte
  b1 : Byte
  b2 : Byte
  b3 : Byte
  deriving DecidableEq, Repr

/-- Two bytes in wire order (`R_CK`, R32). -/
structure Bytes2 where
  b0 : Byte
  b1 : Byte
  deriving DecidableEq, Repr

/-- The datapath registers (R28, R30, R31, R32, R36). -/
structure Datapath where
  /-- `CRC`, 7 bits (R28). -/
  crc : BitVec 7
  /-- `FB` (R30). -/
  fb : FrameBuf
  /-- `FLEN`, 4 bits (R30). -/
  flen : BitVec 4
  /-- `CAP`, the captured response bytes not yet consumed (R31). -/
  cap : List Byte
  /-- `FETCH`: the reader may call `receive` (R31). -/
  fetch : Bool
  /-- `R_ECHO` (R32). -/
  rEcho : Byte
  /-- `R_STATUS` (R32). -/
  rStatus : Byte
  /-- `R_HDR` (R32). -/
  rHdr : Byte
  /-- `R_PAYLOAD` (R32). -/
  rPayload : Bytes4
  /-- `R_CK` (R32). -/
  rCk : Bytes2
  /-- `R_CK_VALID` (R32). -/
  rCkValid : Bool
  /-- `SCAN_CNT` (R36); its width follows the parameter `SCAN_BUDGET`. -/
  scanCnt : Nat
  deriving DecidableEq, Repr

/-- The bulk sequencer registers (R35). -/
structure Bulk where
  /-- `B_ADDR`, 24 bits. -/
  addr : BitVec 24
  /-- `B_LEN`, 24 bits. -/
  len : BitVec 24
  /-- `B_OFF`, 24 bits. -/
  off : BitVec 24
  /-- `B_N`, 14 bits. -/
  n : BitVec 14
  /-- `B_TAG`, 2 bits. -/
  tag : OrderTag
  deriving DecidableEq, Repr

/-- The retry controller's registers (R34). -/
structure Retry where
  /-- `ATTEMPT`; its width follows the parameter `MAX_RETRY`. -/
  attempt : Nat
  /-- `LAST_ERR` (its 4-bit code is `causeCode`). -/
  lastErr : Cause
  deriving DecidableEq, Repr

/-- The completion registers (R37). -/
structure Completion where
  /-- `ok`. -/
  ok : Bool
  /-- `err`, 4 bits. -/
  err : BitVec 4
  /-- `rdata`, 32 bits. -/
  rdata : Word
  deriving DecidableEq, Repr

/-- The tags of the log port (R339). -/
inductive LogTag where
  | resetFailed | unexpectedInterruptBits
  deriving DecidableEq, Repr

/-- One event on a port of the engine (R13, R15, R20). `ok` and the bytes `r` are the environment's answer; the bytes of a
call that failed are unspecified (R13) and are not recorded. -/
inductive PortEvent where
  | transmit (w : List Byte) (ok : Bool)
  | receive (n : Nat) (ok : Bool) (r : List Byte)
  | transact (w : List Byte) (ok : Bool) (r : List Byte)
  | delay (ms : Nat)
  | log (tag : LogTag)
  | complete (c : Completion)
  deriving DecidableEq, Repr

/-- A port event with the sequencer state in which it occurred (R33) and the states that had called it, the innermost
first. -/
structure Event where
  seq : Seq
  ret : List Seq
  port : PortEvent
  deriving DecidableEq, Repr

/-- What the environment answers to one transport call (R13, R14). -/
structure Answer where
  ok : Bool
  bytes : List Byte
  deriving DecidableEq, Repr

/-- One item the outside presents to the engine. The buffers are the host's (R54, R230), and the spec does not say whether the
host writes them between two operations or during one; no item here does (DESIGN CHOICE, notes/assumptions/24.md). Nor does an
item change the configuration inputs that a reset samples (R353): every reset of a run samples the same values (DESIGN CHOICE,
notes/assumptions/27.md). -/
inductive Input where
  /-- An instruction: a host request, or a frame or chunk for the framer. -/
  | packet (p : Packet)
  /-- An instruction, and the reset input asserted after `n` port events of its execution (R350). -/
  | packetThenReset (p : Packet) (n : Nat)
  /-- The reset input asserted and released between operations (R350). -/
  | reset
  deriving DecidableEq, Repr

/-- The machine. -/
structure State where
  /-- The configuration (spec 00 R6, R7): no instruction writes it. `XFER_STYLE` and the initial `chunk_size` are inputs that
  each reset samples (R353); here no step changes them either (DESIGN CHOICE, notes/assumptions/27.md). -/
  cfg : Params
  /-- The session registers (R21 to R26). -/
  session : Session
  /-- The datapath registers (R28 to R32, R36). -/
  dp : Datapath
  /-- The bulk sequencer registers (R35). -/
  bulk : Bulk
  /-- The retry controller's registers (R34). -/
  retry : Retry
  /-- The request latches `Q_*` (R38). -/
  req : Request
  /-- The completion registers (R37). -/
  compl : Completion
  /-- `SEQ` (R33). -/
  seq : Seq
  /-- The return stack beside `SEQ` (R33): the sequencer states whose step is being executed, the innermost first. -/
  ret : List Seq
  /-- The host's buffers (R54). Along a run only `RDBULK`, completed or abandoned, changes them: the host's own writes are left
  out (DESIGN CHOICE, notes/assumptions/24.md). -/
  mem : List Host.Cell
  /-- MODEL FIELD: what the outside will present, in order (R20, R102). -/
  inputs : List Input
  /-- MODEL FIELD: the environment's answers to the coming transport calls, in order (R14). -/
  answers : List Answer
  /-- MODEL FIELD: the number of transport calls made; it indexes the free values. -/
  calls : Nat
  /-- MODEL FIELD: the port events so far, oldest first (R5). -/
  trace : List Event
  deriving DecidableEq, Repr

/-- Why the machine is stuck. -/
inductive Fault where
  /-- Raised by `step` alone, when `SEQ` is not `IDLE`: the spec has no transition for a request presented during an
  operation (R360, 93 U10). SAFE: no state that a run reaches is in it. -/
  | notIdle
  deriving DecidableEq, Repr

/-- Why a packet is refused. -/
inductive Refusal where
  /-- An instruction without a meaning; raised by `exec` alone. SAFE. -/
  | notModelled (mnemonic : String)
  /-- Raised by `step` alone, for bytes that are no frame of their opcode's length, or no byte at all: the framer of the
  spec is never given such a thing (R81, R140). SAFE. -/
  | malformedPacket
  deriving DecidableEq, Repr

/-- The session registers after reset (R45): the chunk size and the transfer style are sampled from the configuration
(R353). -/
def resetSession (P : Params) : Session where
  checksumEnabled := true
  chunkSize := P.chunkDefault
  interruptLineCount := 0
  enhancedThroughputMode := false
  negotiated := false
  xferStyle := P.xferStyle

/-- The datapath after reset: `CAP` empty and `FETCH` 0 (R45); the spec gives the others no value, and they are zero here
(DESIGN CHOICE, notes/assumptions/3.md). -/
def resetDatapath : Datapath where
  crc := 0
  fb := ⟨0, 0, 0, 0, 0, 0, 0, 0, 0⟩
  flen := 0
  cap := []
  fetch := false
  rEcho := 0
  rStatus := 0
  rHdr := 0
  rPayload := ⟨0, 0, 0, 0⟩
  rCk := ⟨0, 0⟩
  rCkValid := false
  scanCnt := 0

/-- The bulk registers after reset (DESIGN CHOICE, notes/assumptions/3.md). -/
def resetBulk : Bulk where
  addr := 0
  len := 0
  off := 0
  n := 0
  tag := .single

/-- The engine with the given configuration right after reset (R45, R350), no host buffer written, nothing presented. -/
def resetWith (P : Params) : State where
  cfg := P
  session := resetSession P
  dp := resetDatapath
  bulk := resetBulk
  retry := { attempt := 0, lastErr := .ok }
  req := { op := 0, addr := 0, wdata := 0, len := 0, buf := 0 }
  compl := { ok := false, err := 0, rdata := 0 }
  seq := .idle
  ret := []
  mem := []
  inputs := []
  answers := []
  calls := 0
  trace := []

/-- The machine right after reset, with the default parameters (R45). -/
def State.reset : State :=
  resetWith defaultParams

end Sys2Proof.Machine
end

