-- ==== Sys2Proof/Machine/Flags.lean ====
section
/-! DEFINITION. The status outputs (spec 10 R37: the engine has no arithmetic condition codes): the error codes and classes
of spec 60 R310 and R327, and the completion an outcome becomes (spec 43 R209). -/

namespace Sys2Proof.Machine

/-- The 4-bit code of a cause (R310). -/
def causeCode : Cause → BitVec 4
  | .ok => 0x0
  | .transportError => 0x1
  | .commandEchoMismatch => 0x2
  | .badStatus => 0x3
  | .resetRequired => 0x4
  | .frameTooShort => 0x5
  | .peerUnresponsive => 0x6
  | .invalidOpcode => 0x7
  | .peerNotPresent => 0x8
  | .rejected => 0x9

/-- Whether the retry controller retries after the cause (R262, R310, R327). -/
def retryable : Cause → Bool
  | .transportError | .commandEchoMismatch | .badStatus | .resetRequired => true
  | .ok | .frameTooShort | .peerUnresponsive | .invalidOpcode | .peerNotPresent | .rejected => false

/-- An outcome (R12): `Ok(value)` or `Err(E)`. -/
inductive Res (α : Type) where
  | ok (a : α)
  | err (e : Cause)
  deriving DecidableEq, Repr

/-- The completion of an outcome (R209). -/
def completionOf : Res Word → Completion
  | .ok v => { ok := true, err := 0, rdata := v }
  | .err e => { ok := false, err := causeCode e, rdata := 0 }

end Sys2Proof.Machine
end

