-- ==== Sys2Proof/Machine/Operands.lean ====
section
/-! DEFINITION. Byte order and operand forms (spec 00 R10, spec 20 R51, R57, R58, spec 30 R83 to R86): how an address, a
size and a data word stand in a frame, and the body (frame without checksum byte) of each of the 11 commands
(spec 41 R141 to R151). -/

namespace Sys2Proof.Machine

/-- `be16(v)` of the low 16 bits (R10, R84). -/
def be16 (v : Word) : List Byte :=
  [v.extractLsb' 8 8, v.extractLsb' 0 8]

/-- `be24(v)` of the low 24 bits (R10, R83); bits 31 to 24 are dropped (R73). -/
def be24 (v : Word) : List Byte :=
  [v.extractLsb' 16 8, v.extractLsb' 8 8, v.extractLsb' 0 8]

/-- `be32(v)` (R10, R85). -/
def be32 (v : Word) : List Byte :=
  [v.extractLsb' 24 8, v.extractLsb' 16 8, v.extractLsb' 8 8, v.extractLsb' 0 8]

/-- Four bytes, the first the most significant: `from_be32` (R10). -/
def word32 (b0 b1 b2 b3 : Byte) : Word :=
  (b0.zeroExtend 32 <<< 24) ||| (b1.zeroExtend 32 <<< 16) ||| (b2.zeroExtend 32 <<< 8) ||| b3.zeroExtend 32

/-- `from_be32` of a byte sequence (R10). -/
def fromBe32 (p : List Byte) : Word :=
  word32 (p.getD 0 0) (p.getD 1 0) (p.getD 2 0) (p.getD 3 0)

/-- `from_le32` of a byte sequence (R10). -/
def fromLe32 (p : List Byte) : Word :=
  word32 (p.getD 3 0) (p.getD 2 0) (p.getD 1 0) (p.getD 0 0)

/-- The value of a register read payload (R58). -/
def payloadValue (order : ByteOrder) (p : List Byte) : Word :=
  match order with
  | .bigEndian => fromBe32 p
  | .littleEndian => fromLe32 p

/-- The two address bytes of the internal formats: `addr[15:8] OR (clockless ? 0x80 : 0x00)`, `addr[7:0]` (R51, R83). -/
def internalAddr (addr : Word) (clockless : Bool) : List Byte :=
  [addr.extractLsb' 8 8 ||| (if clockless then 0x80 else 0x00), addr.extractLsb' 0 8]

/-- `zeros(n)` (R10). -/
def zeros (n : Nat) : List Byte :=
  List.replicate n 0

/-- The byte of a filler value, `FILL_FF` or `FILL_00` (R6, R86). -/
def fillByte (P : Params) : Filler → Byte
  | .ff => P.fillFF
  | .zero => P.fill00

/-- `FILL(command)`, the filler byte of a reset-class command (R7, R86). -/
def fillOf (P : Params) : Cmd → Byte
  | .reset => fillByte P P.fillReset
  | .terminate => fillByte P P.fillTerminate
  | _ => fillByte P P.fillRepeat

/-- The frame of a command without its checksum byte (R141 to R151). An operand its format does not carry is ignored. -/
def cmdBody (P : Params) (k : Cmd) (addr data size : Word) (clockless : Bool) : List Byte :=
  opcOf P.opc k ::
    match k with
    | .singleRead => be24 addr
    | .internalRead => internalAddr addr clockless ++ [0x00]
    | .reset | .terminate | .repeatCmd => [fillOf P k, fillOf P k, fillOf P k]
    | .dmaWrite | .dmaRead => be24 addr ++ be16 size
    | .dmaExtWrite | .dmaExtRead => be24 addr ++ be24 size
    | .internalWrite => internalAddr addr clockless ++ be32 data
    | .singleWrite => be24 addr ++ be32 data

/-- The length of a frame with checksum mode off, `L_off` (R81). -/
def frameLenOff : Cmd → Nat
  | .singleRead | .internalRead | .reset | .terminate | .repeatCmd => 4
  | .dmaWrite | .dmaRead => 6
  | .dmaExtWrite | .dmaExtRead | .internalWrite => 7
  | .singleWrite => 8

/-- A write chunk: tag byte, payload, and the `DATA_CK_LEN` zero placeholder bytes when checksum mode is on (R6, R89,
R157 to R160). -/
def chunkFrame (P : Params) (t : OrderTag) (payload : List Byte) (ck : Bool) : List Byte :=
  tagByte P t :: (payload ++ if ck then zeros P.dataCkLen else [])

/-- Order tag selection (R234): `off` is the offset of the chunk, `rem` the bytes not yet sent before it, `c` the chunk
size. -/
def tagOf (off rem c : Nat) : OrderTag :=
  if off = 0 then (if rem ≤ c then .single else .first) else (if rem ≤ c then .last else .middle)

end Sys2Proof.Machine
end

