-- ==== Sys2Proof/Machine/Ops.lean ====
section
/-! DEFINITION. The named operations over the state: host buffers (spec 20 R54), outcomes of a computation of the engine
(spec 00 R12), the ports (R13, R15), the sequencer (R33), the CRC unit (spec 40 R131), the response reader (spec 42 R171),
the completion (spec 43 R209), and taking an error and returning from it (spec 60 R320, R322). -/

namespace Sys2Proof.Machine

/-! ## Host buffers (R54) -/

/-- What an unlisted byte of a host buffer reads as (DESIGN CHOICE, notes/assumptions/5.md). -/
def memDefault : Byte := 0

/-- One byte of the host's memory. -/
def memRead : List Host.Cell → Nat → Byte
  | [], _ => memDefault
  | (k, v) :: rest, a => if a = k then v else memRead rest a

/-- Write one byte, keeping the canonical form: addresses strictly rising, no entry at the default value. -/
def memWrite : List Host.Cell → Nat → Byte → List Host.Cell
  | [], a, b => if b = memDefault then [] else [(a, b)]
  | (k, v) :: rest, a, b =>
    if a < k then (if b = memDefault then (k, v) :: rest else (a, b) :: (k, v) :: rest)
    else if a = k then (if b = memDefault then rest else (a, b) :: rest)
    else (k, v) :: memWrite rest a b

/-- Every address of the memory is at least `lo`, they rise strictly, and no entry holds the default value. -/
def memWfFrom : Nat → List Host.Cell → Bool
  | _, [] => true
  | lo, (k, v) :: rest => decide (lo ≤ k) && (v != memDefault) && memWfFrom (k + 1) rest

/-- The canonical form of the memory. -/
def memWf (m : List Host.Cell) : Bool :=
  memWfFrom 0 m

/-- `n` bytes from address `a`, in rising order. -/
def memReadBytes (m : List Host.Cell) : Nat → Nat → List Byte
  | _, 0 => []
  | a, n + 1 => memRead m a :: memReadBytes m (a + 1) n

/-- Write bytes from address `a` on, in rising order. -/
def memWriteBytes (m : List Host.Cell) : Nat → List Byte → List Host.Cell
  | _, [] => m
  | a, b :: rest => memWriteBytes (memWrite m a b) (a + 1) rest

/-- The address of byte `i` of the buffer with handle `buf`: every handle names an array of `2^24` bytes of its own, more
than the longest transfer (DESIGN CHOICE, notes/assumptions/6.md). -/
def bufAddr (buf : Word) (i : Nat) : Nat :=
  buf.toNat * 2 ^ 24 + i

/-! ## Outcomes of a computation of the engine (R12) -/

/-- A computation of the engine: from a state to an outcome and the state it leaves. -/
abbrev Eng (α : Type) := State → Res α × State

/-- `Ok(value)`. -/
def pureE {α : Type} (a : α) : Eng α :=
  fun s => (.ok a, s)

/-- `raise E` (R11). -/
def raiseE {α : Type} (e : Cause) : Eng α :=
  fun s => (.err e, s)

/-- `v <- m; k v`: an error of `m` ends the computation (R12). -/
def bindE {α β : Type} (m : Eng α) (k : α → Eng β) : Eng β :=
  fun s =>
    match m s with
    | (.ok a, t) => k a t
    | (.err e, t) => (.err e, t)

/-- `try m`: the outcome as a value (R12). -/
def tryE {α : Type} (m : Eng α) : Eng (Res α) :=
  fun s =>
    match m s with
    | (r, t) => (.ok r, t)

/-- A computation that only writes registers. -/
def modifyE (f : State → State) : Eng Unit :=
  fun s => (.ok (), f s)

/-- A computation chosen by the state. -/
def withE {α : Type} (f : State → Eng α) : Eng α :=
  fun s => f s s

/-! ## The sequencer (R33) -/

/-- `SEQ <- q`. -/
def setSeq (q : Seq) (s : State) : State :=
  { s with seq := q }

/-- Run `m` as the step `q`: `SEQ` is `q` when it starts and when it ends, and the steps `m` passes through have `q` on the
return stack. -/
def under {α : Type} (q : Seq) (m : Eng α) : Eng α :=
  fun s =>
    match m { s with seq := q, ret := q :: s.ret } with
    | (r, t) => (r, { t with seq := q, ret := s.ret })

/-! ## The ports (R13, R15) -/

/-- Record a port event. -/
def emit (p : PortEvent) (s : State) : State :=
  { s with trace := s.trace ++ [{ seq := s.seq, ret := s.ret, port := p }] }

/-- Exactly `n` bytes of an answer, `i` being the index of the next: listed bytes first, a byte the answer does not list
is free (R13, R14). -/
def answerBytes (call : Nat) : Nat → Nat → List Byte → List Byte
  | _, 0, _ => []
  | i, n + 1, [] => Config.answerByte call i :: answerBytes call (i + 1) n []
  | i, n + 1, b :: rest => b :: answerBytes call (i + 1) n rest

/-- The environment's answer to the next transport call, with `n` captured bytes: the first listed answer, or a free one
when none is listed (R14). -/
def nextAnswer (n : Nat) (s : State) : Bool × List Byte :=
  match s.answers with
  | a :: _ => (a.ok, answerBytes s.calls 0 n a.bytes)
  | [] => (Config.answerOk s.calls, answerBytes s.calls 0 n [])

/-- The state with that answer consumed. -/
def takeAnswer (s : State) : State :=
  { s with answers := s.answers.tail, calls := s.calls + 1 }

/-- One transport call that captures `n` bytes; `ev` makes its port event of the answer. A call that returns `false` raises
`TransportError` and its bytes are not used (R187, R311). -/
def transport (n : Nat) (ev : Bool → List Byte → PortEvent) : Eng (List Byte) :=
  fun s =>
    let a := nextAnswer n s
    if a.1 then (.ok a.2, emit (ev true a.2) (takeAnswer s))
    else (.err .transportError, emit (ev false []) (takeAnswer s))

/-- `transmit(w)` (R13). -/
def transmit (w : List Byte) : Eng (List Byte) :=
  transport 0 fun ok _ => .transmit w ok

/-- `receive(n)` (R13). -/
def receive (n : Nat) : Eng (List Byte) :=
  transport n fun ok r => .receive n ok r

/-- `transact(w)` (R13): it captures as many bytes as it sends. -/
def transact (w : List Byte) : Eng (List Byte) :=
  transport w.length fun ok r => .transact w ok r

/-- `Delay(RETRY_DELAY)` (R15, R266). -/
def delayEvent (s : State) : State :=
  emit (.delay s.cfg.retryDelay) s

/-- `Log(tag)` (R15, R339). -/
def logEvent (tag : LogTag) (s : State) : State :=
  emit (.log tag) s

/-! ## The CRC unit and the frame buffer (R30, R131) -/

/-- `init`: `CRC <- CRC7_SEED`. -/
def crcInit (s : State) : State :=
  { s with dp := { s.dp with crc := s.cfg.crc7Seed } }

/-- `update(b)`: one byte step. -/
def crcUpdate (s : State) (b : Byte) : State :=
  { s with dp := { s.dp with crc := crcStep s.cfg.crc7Poly s.dp.crc b } }

/-- `init`, then one `update` for each byte in order (R131). -/
def crcRun (body : List Byte) (s : State) : State :=
  body.foldl crcUpdate (crcInit s)

/-- A frame in the nine-byte buffer; the bytes after it are zero. -/
def frameBuf (f : List Byte) : FrameBuf where
  b0 := f.getD 0 0
  b1 := f.getD 1 0
  b2 := f.getD 2 0
  b3 := f.getD 3 0
  b4 := f.getD 4 0
  b5 := f.getD 5 0
  b6 := f.getD 6 0
  b7 := f.getD 7 0
  b8 := f.getD 8 0

/-- The nine bytes of the buffer. -/
def frameBytes (b : FrameBuf) : List Byte :=
  [b.b0, b.b1, b.b2, b.b3, b.b4, b.b5, b.b6, b.b7, b.b8]

/-- `FB[0 .. FLEN)`. -/
def frameOf (s : State) : List Byte :=
  (frameBytes s.dp.fb).take s.dp.flen.toNat

/-- `FB[0 .. |f|) <- f; FLEN <- |f|`. -/
def loadFrame (f : List Byte) (s : State) : State :=
  { s with dp := { s.dp with fb := frameBuf f, flen := BitVec.ofNat 4 f.length } }

/-! ## The response reader (R171) -/

/-- Where the reader is called from: the sentinel scan, or a fixed field. -/
inductive Where where
  | scan | field
  deriving DecidableEq, Repr

/-- The error when the captured bytes run out (R181). -/
def exhausted : Where → Cause
  | .scan => .resetRequired
  | .field => .frameTooShort

/-- `Next(n, where)`: from the capture first, then, where fetching is on, one `receive` for the rest. -/
def readNext (n : Nat) (w : Where) : Eng (List Byte) :=
  fun s =>
    let out := s.dp.cap.take n
    let s1 := { s with dp := { s.dp with cap := s.dp.cap.drop n } }
    if s.dp.cap.length < n then
      if s.dp.fetch then bindE (receive (n - s.dp.cap.length)) (fun r => pureE (out ++ r)) s1
      else (.err (exhausted w), s1)
    else (.ok out, s1)

/-! ## Completion (R209) -/

/-- `complete(r)` (R209): the completion registers are written, `SEQ` passes through `DONE`, where the completion is
presented, to `IDLE`. -/
def present (r : Res Word) (s : State) : State :=
  setSeq .idle (emit (.complete (completionOf r)) { s with compl := completionOf r, seq := .done })

/-- The captured bytes not consumed are discarded, and the reader is dead (R31). -/
def discard (s : State) : State :=
  { s with dp := { s.dp with cap := [], fetch := false } }

/-- Run an operation and complete it with its outcome; captured bytes left over are discarded at its end (R31, R209). The
other datapath registers, the bulk, retry and request registers are unspecified between operations (R40, R45, 93 U16); that
they keep the values the operation left in them is DESIGN CHOICE, notes/assumptions/26.md. -/
def finish (m : Eng Word) (s : State) : State :=
  match m s with
  | (r, t) => present r (discard t)

/-- Run one command or chunk on its own and complete it with its outcome; the reader is left as it is (R179: a bulk read
command hands it over with the payload it captured). R31 has left-over bytes discarded at the end of an operation; that these
are kept past the completion is the model's choice (DEDUCED, notes/assumptions/17.md), and so is that the other registers keep
their values (DESIGN CHOICE, notes/assumptions/26.md). -/
def finishRaw (m : Eng Word) (s : State) : State :=
  match m s with
  | (r, t) => present r t

/-- A request refused before any bus traffic: it completes at once and nothing but the completion changes (R101, R231). -/
def refuseRequest (e : Cause) (s : State) : State :=
  present (.err e) s

/-! ## Taking an error and returning from it (R320, R322) -/

/-- ENTRY (R320): the attempt has stopped. The cause is saved in `LAST_ERR`; bytes not consumed are dropped; `SEQ` goes to
`RETRY_DELAY_A` for a retryable cause and to `DONE` otherwise. `ATTEMPT`, the request latches and the session are
unchanged. -/
def takeError (e : Cause) (s : State) : State :=
  { s with
    retry := { s.retry with lastErr := e }
    dp := { s.dp with cap := [] }
    seq := if retryable e then .retryDelayA else .done }

/-- RETURN (R322): the recovery is over and the attempt is counted; the operation runs again from its beginning, or ends
when no attempt remains. Nothing else is restored: the session was not changed. -/
def returnFromError (s : State) : State :=
  { s with retry := { s.retry with attempt := s.retry.attempt + 1 } }

end Sys2Proof.Machine
end

