-- ==== Sys2Proof/Machine/Framer.lean ====
section
/-! DEFINITION. The command framer (spec 41 R140, R153 to R156). -/

namespace Sys2Proof.Machine

/-- The checksum byte through the CRC unit, appended when checksum mode is on (R131, R153). -/
def appendChecksum (body : List Byte) (s : State) : State :=
  if s.session.checksumEnabled then
    let t := crcRun body s
    loadFrame (body ++ ckField s.cfg (ckOfCrc t.dp.crc)) t
  else loadFrame body s

/-- `BuildFrame(opcode, addr, data, size, clockless)` (R140). A byte that is none of the 11 opcodes raises `InvalidOpcode`
and leaves `FB` and `FLEN` as they are (R154). -/
def buildFrame (opcode : Byte) (addr data size : Word) (clockless : Bool) : Eng Unit :=
  fun s =>
    match cmdOfByte s.cfg.opc opcode with
    | some k => (.ok (), appendChecksum (cmdBody s.cfg k addr data size clockless) (setSeq .build s))
    | none => (.err .invalidOpcode, setSeq .build s)

end Sys2Proof.Machine
end

