-- ==== Sys2Proof/Machine/Parser.lean ====
section
/-! DEFINITION. The response parser and the command exchange (spec 42). -/

namespace Sys2Proof.Machine

/-- The first four bytes of a sequence (`R_PAYLOAD`). -/
def bytes4 (p : List Byte) : Bytes4 :=
  ⟨p.getD 0 0, p.getD 1 0, p.getD 2 0, p.getD 3 0⟩

/-- The first two bytes of a sequence (`R_CK`). -/
def bytes2 (p : List Byte) : Bytes2 :=
  ⟨p.getD 0 0, p.getD 1 0⟩

/-- What the parser returns (R170): status, payload, trailing checksum or its absence. -/
structure Parsed where
  status : Byte
  payload : List Byte
  trailing : Option Bytes2
  deriving DecidableEq, Repr

/-- Step 1 (R173): the skip byte of a reset-class response, of any value. -/
def parseSkip (k : Cmd) : Eng Unit :=
  match classOf k with
  | .resetClass => bindE (modifyE (setSeq .rspSkip)) fun _ => bindE (readNext 1 .field) fun _ => pureE ()
  | _ => pureE ()

/-- Step 2 (R174): the echo byte must equal the opcode byte that was sent, `FB[0]`. -/
def parseEcho : Eng Unit :=
  bindE (modifyE (setSeq .rspEcho)) fun _ =>
  bindE (readNext 1 .field) fun e =>
  bindE (modifyE fun s => { s with dp := { s.dp with rEcho := e.getD 0 0 } }) fun _ =>
  withE fun s => if e.getD 0 0 = s.dp.fb.b0 then pureE () else raiseE .commandEchoMismatch

/-- Step 3 (R175): the status byte must be `STATUS_OK`. -/
def parseStatus : Eng Byte :=
  bindE (modifyE (setSeq .rspStatus)) fun _ =>
  bindE (readNext 1 .field) fun st =>
  bindE (modifyE fun s => { s with dp := { s.dp with rStatus := st.getD 0 0 } }) fun _ =>
  withE fun s => if st.getD 0 0 = s.cfg.statusOk then pureE (st.getD 0 0) else raiseE .badStatus

/-- The bytes of a scan that may still be examined (R176). -/
def scanLoop : Nat → Eng Unit
  | 0 => raiseE .resetRequired
  | n + 1 =>
    bindE (readNext 1 .scan) fun b =>
    bindE (modifyE fun s => { s with dp := { s.dp with scanCnt := s.dp.scanCnt + 1 } }) fun _ =>
    withE fun s =>
      if (b.getD 0 0).extractLsb' 4 4 = s.cfg.sentinelNibble then
        modifyE fun s => { s with dp := { s.dp with rHdr := b.getD 0 0 } }
      else scanLoop n

/-- `ScanSentinel()` (R176), in the sequencer state given: at most `SCAN_BUDGET` bytes are examined, and the sentinel is
the first whose high nibble is `SENTINEL_NIBBLE`. -/
def scanSentinel (q : Seq) : Eng Unit :=
  bindE (modifyE fun s => { s with seq := q, dp := { s.dp with scanCnt := 0 } }) fun _ =>
  withE fun s => scanLoop s.cfg.scanBudget

/-- Step 5, the payload of a register read, `REG_PAYLOAD_LEN` bytes (R177). -/
def parsePayload : Eng (List Byte) :=
  bindE (modifyE (setSeq .rspData)) fun _ =>
  withE fun s => bindE (readNext s.cfg.regPayloadLen .field) fun p =>
  bindE (modifyE fun s => { s with dp := { s.dp with rPayload := bytes4 p } }) fun _ =>
  pureE p

/-- Step 5, the trailing checksum pair, `DATA_CK_LEN` bytes (R178): extracted when checksum mode is on, compared with nothing (R182). -/
def parseTrailing : Eng (Option Bytes2) :=
  withE fun s =>
    if s.session.checksumEnabled then
      bindE (modifyE (setSeq .rspCk)) fun _ =>
      bindE (readNext s.cfg.dataCkLen .field) fun ck =>
      bindE (modifyE fun s => { s with dp := { s.dp with rCk := bytes2 ck, rCkValid := true } }) fun _ =>
      pureE (some (bytes2 ck))
    else
      bindE (modifyE fun s => { s with dp := { s.dp with rCkValid := false } }) fun _ =>
      pureE none

/-- Steps 4 to 6, by class (R172, R175 to R179). A bulk read ends with the sentinel of its first chunk found and fetching
on (R179). -/
def parseBody (k : Cmd) (status : Byte) : Eng Parsed :=
  match classOf k with
  | .resetClass | .writeClass => pureE { status := status, payload := [], trailing := none }
  | .registerRead =>
    bindE (scanSentinel .rspScan) fun _ =>
    bindE parsePayload fun p =>
    bindE parseTrailing fun ck =>
    pureE { status := status, payload := p, trailing := ck }
  | .bulkRead =>
    bindE (scanSentinel .rspScan) fun _ =>
    bindE (modifyE fun s => { s with dp := { s.dp with fetch := true } }) fun _ =>
    pureE { status := status, payload := [], trailing := none }

/-- `ParseResponse(opcode)` (R170, R180): the steps in order; the first failing check ends the parse. R170 gives the
parser five errors and says nothing of an opcode that is none of the 11, which the framer has turned away before (R154,
R317): that the parser then answers `InvalidOpcode` and touches nothing is DESIGN CHOICE, notes/assumptions/23.md. -/
def parseResponse (opcode : Byte) : Eng Parsed :=
  withE fun s =>
    match cmdOfByte s.cfg.opc opcode with
    | some k =>
      bindE (parseSkip k) fun _ =>
      bindE parseEcho fun _ =>
      bindE parseStatus fun st =>
      parseBody k st
    | none => raiseE .invalidOpcode

/-- The parser on a reader loaded with the bytes given, `FB[0]` the opcode, fetching off (R188). For a bulk read it
returns after step 4. -/
def parseLoaded (opcode : Byte) (raw : List Byte) : Eng Parsed :=
  fun s =>
    parseResponse opcode
      { s with dp := { s.dp with fb := { s.dp.fb with b0 := opcode }, cap := raw, fetch := false } }

/-- The pure parse function (R188): the outcome alone. -/
def parseRaw (opcode : Byte) (raw : List Byte) (s : State) : Res Parsed :=
  (parseLoaded opcode raw s).1

/-- The placeholder bytes of the frame in the buffer (R186). -/
def padCount (s : State) : Nat :=
  match cmdOfByte s.cfg.opc s.dp.fb.b0 with
  | some k => padOf s.cfg.pad (classOf k) s.session.checksumEnabled
  | none => 0

/-- `ExchangeCombined()` (R184). -/
def exchangeCombined : Eng Unit :=
  withE fun s =>
    bindE (transact (frameOf s ++ zeros (padCount s))) fun r =>
    modifyE fun t => { t with dp := { t.dp with cap := (r.drop (frameOf s).length).take (padCount s), fetch := false } }

/-- `ExchangeSeparate()` (R185). -/
def exchangeSeparate : Eng Unit :=
  withE fun s =>
    bindE (transmit (frameOf s)) fun _ =>
    modifyE fun t => { t with dp := { t.dp with cap := [], fetch := true } }

/-- The exchange in the session's transfer style (R183). -/
def exchange : Eng Unit :=
  bindE (modifyE (setSeq .cmdXfer)) fun _ =>
  withE fun s =>
    match s.session.xferStyle with
    | .combined => exchangeCombined
    | .separate => exchangeSeparate

/-- `CmdExchange(opcode, addr, data, size, clockless)` (R183): build, exchange, parse. -/
def cmdExchange (opcode : Byte) (addr data size : Word) (clockless : Bool) : Eng Parsed :=
  bindE (buildFrame opcode addr data size clockless) fun _ =>
  bindE exchange fun _ =>
  parseResponse opcode

/-- `ReadRegOnce(opcode, addr, clockless)` (R200): the value in the payload's byte order (R58). -/
def readRegOnce (opcode : Byte) (addr : Word) (clockless : Bool) : Eng Word :=
  bindE (cmdExchange opcode addr 0 0 clockless) fun p =>
  withE fun s => pureE (payloadValue s.cfg.rdPayloadOrder p.payload)

/-- `WriteRegOnce(opcode, addr, data, clockless)` (R201). -/
def writeRegOnce (opcode : Byte) (addr data : Word) (clockless : Bool) : Eng Word :=
  bindE (cmdExchange opcode addr data 0 clockless) fun _ => pureE 0

/-- `ResetBusOnce()` (R205): one `RESET` frame, one attempt. -/
def resetBusOnce : Eng Word :=
  withE fun s => bindE (cmdExchange s.cfg.opc.reset 0 0 0 false) fun _ => pureE 0

end Sys2Proof.Machine
end

