-- ==== Sys2Proof/Machine/Recovery.lean ====
section
/-! DEFINITION. The packet retry and bus-reset controller (spec 45), and the wrapped register accesses (spec 43 R202 to
R204, spec 46 R280). -/

namespace Sys2Proof.Machine

/-- The handler (R261, R265, R322): delay, bus reset, delay. A reset that fails is logged and its error dropped. -/
def recover (s : State) : State :=
  let s1 := delayEvent (setSeq .retryDelayA s)
  let s2 :=
    match under .retryReset resetBusOnce s1 with
    | (.ok _, t) => t
    | (.err _, t) => logEvent .resetFailed t
  delayEvent (setSeq .retryDelayB s2)

/-- The loop of R261, with the attempts that remain. -/
def retryLoop {α : Type} (op : Eng α) : Nat → Eng α
  | 0 => fun s => (.err s.retry.lastErr, s)
  | n + 1 => fun s =>
    match op s with
    | (.ok v, t) => (.ok v, t)
    | (.err e, t) =>
      if retryable e then retryLoop op n (returnFromError (recover (takeError e t)))
      else (.err e, takeError e t)

/-- `Retry(op)` (R261): at most `MAX_RETRY` attempts. -/
def retryOp {α : Type} (op : Eng α) : Eng α :=
  fun s => retryLoop op s.cfg.maxRetry { s with retry := { s.retry with attempt := 0 } }

/-- `InternalRead(addr)` (R202). -/
def internalReadOp (addr : Word) : Eng Word :=
  withE fun s => retryOp (readRegOnce s.cfg.opc.internalRead addr false)

/-- `InternalWrite(addr, data)` (R202). -/
def internalWriteOp (addr data : Word) : Eng Word :=
  withE fun s => retryOp (writeRegOnce s.cfg.opc.internalWrite addr data false)

/-- `ReadRegister(addr)` (R203, R280): the internal opcode with the clockless flag at or below the threshold, compared on
all 32 bits, else the single-word opcode. -/
def readRegister (addr : Word) : Eng Word :=
  withE fun s =>
    if addr.toNat ≤ s.cfg.clocklessThreshold.toNat then retryOp (readRegOnce s.cfg.opc.internalRead addr true)
    else retryOp (readRegOnce s.cfg.opc.singleRead addr false)

/-- `WriteRegister(addr, v)` (R204, R280). -/
def writeRegister (addr v : Word) : Eng Word :=
  withE fun s =>
    if addr.toNat ≤ s.cfg.clocklessThreshold.toNat then retryOp (writeRegOnce s.cfg.opc.internalWrite addr v true)
    else retryOp (writeRegOnce s.cfg.opc.singleWrite addr v false)

end Sys2Proof.Machine
end

