-- ==== Sys2Proof/Machine/Bulk.lean ====
section
/-! DEFINITION. The segmented bulk-data transfer sequencer (spec 44): the write chunk (R157 to R160, R236), the two
single attempts (R236, R237), and the admission test (R231). -/

namespace Sys2Proof.Machine

/-- `N <= 4 or N > 0xFFFFFF` (R231). -/
def bulkRejected (P : Params) (len : Word) : Bool :=
  decide (len.toNat < P.bulkMin) || decide (bulkMax < len.toNat)

/-- Hand one write chunk to the transport (R236): one `transmit` in both transfer styles, nothing read back (R243). The
sequencer's own chunks have the lengths of R157 to R160 and R35. A chunk presented alone as a packet may have another
length, of which the spec says nothing: it is sent whole, and `B_N` takes the low 14 bits of its length (DESIGN CHOICE,
notes/assumptions/22.md). -/
def sendChunk (t : OrderTag) (payload : List Byte) : Eng Word :=
  bindE (modifyE fun s =>
    { s with seq := .chunkTx, bulk := { s.bulk with n := BitVec.ofNat 14 payload.length, tag := t } }) fun _ =>
  withE fun s => bindE (transmit (chunkFrame s.cfg t payload s.session.checksumEnabled)) fun _ => pureE 0

/-- `B_ADDR`, `B_LEN` and `B_OFF` at the start of an attempt (R35, R236, R237). -/
def startBulk (s : State) : State :=
  { s with
    bulk := { s.bulk with
      addr := s.req.addr.truncate 24
      len := s.req.len.truncate 24
      off := 0 } }

/-- `B_OFF <- B_OFF + n`. -/
def advance (n : Nat) (s : State) : State :=
  { s with bulk := { s.bulk with off := s.bulk.off + BitVec.ofNat 24 n } }

/-- The payload length of the chunk at the current offset, `min(N - off, C)` (R233). -/
def chunkLen (s : State) : Nat :=
  min (s.bulk.len.toNat - s.bulk.off.toNat) (chunkBytes s.cfg.chunkSizes s.session.chunkSize)

/-- The order tag of the chunk at the current offset (R234). -/
def chunkTag (s : State) : OrderTag :=
  tagOf s.bulk.off.toNat (s.bulk.len.toNat - s.bulk.off.toNat) (chunkBytes s.cfg.chunkSizes s.session.chunkSize)

/-- The host buffer's bytes of the chunk at the current offset (R233). -/
def chunkPayload (s : State) : List Byte :=
  memReadBytes s.mem (bufAddr s.req.buf s.bulk.off.toNat) (chunkLen s)

/-- One pass of the write loop (R236). -/
def writeChunk : Eng Unit :=
  withE fun s =>
    bindE (sendChunk (chunkTag s) (chunkPayload s)) fun _ =>
    modifyE (advance (chunkLen s))

/-- The write loop (R236); the count bounds its passes. -/
def writeChunks : Nat → Eng Unit
  | 0 => pureE ()
  | n + 1 =>
    withE fun s =>
      if s.bulk.off.toNat < s.bulk.len.toNat then bindE writeChunk fun _ => writeChunks n else pureE ()

/-- `WriteBulkOnce(addr, buf, N)` (R236), its arguments from the request latches. A pass moves at least one byte, so `N`
passes are enough. -/
def writeBulkOnce : Eng Word :=
  bindE (modifyE startBulk) fun _ =>
  withE fun s =>
    bindE (cmdExchange s.cfg.opc.dmaExtWrite s.req.addr 0 s.req.len false) fun _ =>
    bindE (writeChunks s.req.len.toNat) fun _ =>
    pureE 0

/-- Store payload bytes of the current chunk into the host buffer (R237). -/
def storeChunk (p : List Byte) (s : State) : State :=
  { s with mem := memWriteBytes s.mem (bufAddr s.req.buf s.bulk.off.toNat) p }

/-- The checksum pair after a read chunk: consumed and discarded when checksum mode is on (R237, R241). -/
def skipChunkCk (q : Seq) : Eng Unit :=
  withE fun s =>
    if s.session.checksumEnabled then
      bindE (modifyE (setSeq q)) fun _ => bindE (readNext s.cfg.dataCkLen .field) fun _ => pureE ()
    else pureE ()

/-- One pass of the read loop (R237). The first chunk stands after the command's own sentinel, so only later chunks scan
for one; its bytes belong to the command response, the later chunks' to the chunk steps of the sequencer (R33). -/
def readChunk : Eng Unit :=
  withE fun s =>
    let first := s.bulk.off.toNat = 0
    bindE (modifyE fun t => { t with bulk := { t.bulk with n := BitVec.ofNat 14 (chunkLen s) } }) fun _ =>
    bindE (if first then pureE () else scanSentinel .chunkScan) fun _ =>
    bindE (modifyE (setSeq (if first then .rspData else .chunkRx))) fun _ =>
    bindE (readNext (chunkLen s) .field) fun p =>
    bindE (modifyE (storeChunk p)) fun _ =>
    bindE (skipChunkCk (if first then .rspCk else .chunkCk)) fun _ =>
    modifyE (advance (chunkLen s))

/-- The read loop (R237); the count bounds its passes. -/
def readChunks : Nat → Eng Unit
  | 0 => pureE ()
  | n + 1 =>
    withE fun s =>
      if s.bulk.off.toNat < s.bulk.len.toNat then bindE readChunk fun _ => readChunks n else pureE ()

/-- `ReadBulkOnce(addr, buf, N)` (R237), its arguments from the request latches. -/
def readBulkOnce : Eng Word :=
  bindE (modifyE startBulk) fun _ =>
  withE fun s =>
    bindE (cmdExchange s.cfg.opc.dmaExtRead s.req.addr 0 s.req.len false) fun _ =>
    bindE (modifyE fun t => { t with dp := { t.dp with fetch := true } }) fun _ =>
    bindE (readChunks s.req.len.toNat) fun _ =>
    bindE (modifyE fun t => { t with dp := { t.dp with cap := [] } }) fun _ =>
    pureE 0

/-- `n` free bytes for a host buffer (R240), `i` being the index of the next. -/
def freeBytes (call : Nat) : Nat → Nat → List Byte
  | _, 0 => []
  | i, n + 1 => Config.failedReadByte call i :: freeBytes call (i + 1) n

/-- Bytes 0 to `len - 1` of a host buffer become free values; no other byte changes (R240, 93 U12). Their index is the number of
calls made (DESIGN CHOICE, notes/assumptions/16.md). -/
def spoilBuffer (buf len : Word) (s : State) : State :=
  { s with mem := memWriteBytes s.mem (bufAddr buf 0) (freeBytes s.calls 0 len.toNat) }

/-- The state a bulk read ends in: after a failure every byte of `buf[0 .. N)` is unspecified (R240). -/
def spoilOnFailure (r : Res Word) (s : State) : State :=
  match r with
  | .ok _ => s
  | .err _ => spoilBuffer s.req.buf s.req.len s

/-- A wrapped bulk read, its buffer unspecified when it fails (R235, R240). -/
def readBulkOp : Eng Word :=
  fun s =>
    match retryOp readBulkOnce s with
    | (r, t) => (r, spoilOnFailure r t)

end Sys2Proof.Machine
end

