-- ==== Sys2Proof/Machine/Negotiation.lean ====
section
/-! DEFINITION. Bus mode negotiation (spec 46 R280 to R289) and the composites of the four surrounding operations
(spec 46 R296 to R300). -/

namespace Sys2Proof.Machine

/-- `S.checksum_enabled <- b`; the next frame built sees it (R71, R289). -/
def setChecksum (b : Bool) (s : State) : State :=
  { s with session := { s.session with checksumEnabled := b } }

/-- `S.negotiated <- 1` (R287). -/
def setNegotiated (s : State) : State :=
  { s with session := { s.session with negotiated := true } }

/-- The protocol-control value negotiation step 3 writes back (R285). -/
def negotiatedReg (P : Params) (size : ChunkSize) (reg : Word) : Word :=
  (reg &&& ~~~(P.crcEnMask ||| P.pktSelMask)) ||| (selCode P.sel size <<< P.pktSelShift)

/-- `LivenessProbe()` (R282): the identity read, its value discarded. -/
def livenessProbe : Eng Word :=
  withE fun s => bindE (under .negProbe (readRegister s.cfg.chipIdAddr)) fun _ => pureE 0

/-- Step 1 (R283): the probe with checksum on. Only `TransportError` ends negotiation, with `PeerNotPresent`. -/
def negStep1 : Eng Unit :=
  bindE (modifyE (setChecksum true)) fun _ =>
  withE fun s =>
  bindE (tryE (under .neg1 (internalReadOp s.cfg.probeAddr))) fun r1 =>
    match r1 with
    | .err .transportError => raiseE .peerNotPresent
    | _ => pureE ()

/-- Step 3 (R285): one read-modify-write; checksum mode goes off only after the write has succeeded. -/
def negStep3 (reg : Word) : Eng Unit :=
  withE fun s =>
  bindE (tryE (under .neg3 (internalWriteOp s.cfg.protoCtrlAddr (negotiatedReg s.cfg s.session.chunkSize reg)))) fun r3 =>
    match r3 with
    | .ok _ => modifyE (setChecksum false)
    | .err _ => raiseE .peerUnresponsive

/-- Step 2, second read, with checksum forced off (R284). -/
def negStep2b : Eng Unit :=
  bindE (modifyE (setChecksum false)) fun _ =>
  withE fun s =>
  bindE (tryE (under .neg2b (internalReadOp s.cfg.protoCtrlAddr))) fun r =>
    match r with
    | .ok _ => pureE ()
    | .err _ => raiseE .peerUnresponsive

/-- Steps 2 and 3 (R284, R285). -/
def negStep2 : Eng Unit :=
  withE fun s =>
  bindE (tryE (under .neg2a (internalReadOp s.cfg.protoCtrlAddr))) fun r2 =>
    match r2 with
    | .ok reg => negStep3 reg
    | .err _ => negStep2b

/-- Step 4 (R286): the identity must be read and accepted. -/
def negStep4 : Eng Unit :=
  withE fun s =>
  bindE (tryE (under .neg4 (readRegister s.cfg.chipIdAddr))) fun r4 =>
    match r4 with
    | .ok v => if chipIdAccepts s.cfg.chipIdOk v then pureE () else raiseE .peerUnresponsive
    | .err _ => raiseE .peerUnresponsive

/-- `NEGOTIATE` (R281). -/
def negotiateOp : Eng Word :=
  withE fun s =>
    if s.session.negotiated then livenessProbe
    else
      bindE negStep1 fun _ =>
      bindE negStep2 fun _ =>
      bindE negStep4 fun _ =>
      bindE (modifyE setNegotiated) fun _ =>
      pureE 0

/-- Whether an interrupt status value has bits beyond the recorded line count (R298). -/
def unexpectedBits (c : IntStatus) (lines : BitVec 4) (v : Word) : Bool :=
  (intLinesField c v >>> lines.toNat) != 0

/-- The loop of `RDINT` (R298), with the reads that may follow the next one. -/
def rdintLoop (c : IntStatus) : Nat → Eng Word
  | 0 =>
    bindE (readRegister c.addr) fun v =>
    withE fun s =>
      if unexpectedBits c s.session.interruptLineCount v then
        bindE (modifyE (logEvent .unexpectedInterruptBits)) fun _ => pureE v
      else pureE v
  | n + 1 =>
    bindE (readRegister c.addr) fun v =>
    withE fun s =>
      if unexpectedBits c s.session.interruptLineCount v then rdintLoop c n else pureE v

/-- `RDINT` with its parameters configured (R298): at most `MAX_RETRY` reads. -/
def rdintOp (c : IntStatus) : Eng Word :=
  withE fun s => rdintLoop c (s.cfg.maxRetry - 1)

/-- `S.interrupt_line_count <- count` (R300). -/
def setLineCount (count : Word) (s : State) : State :=
  { s with session := { s.session with interruptLineCount := count.truncate 4 } }

/-- `SYNC` with its parameters configured and its count admitted (R300). -/
def syncOp (c : IntEnable) (count : Word) : Eng Word :=
  bindE (readRegister c.addr) fun v =>
  bindE (writeRegister c.addr (intEnableValue c v count.toNat)) fun _ =>
  bindE (modifyE (setLineCount count)) fun _ =>
  pureE 0

end Sys2Proof.Machine
end

