-- ==== Sys2Proof/Machine/HostOps.lean ====
section
/-! DEFINITION. The meanings of the 10 host operations and of the reserved codes (spec 30 R100, R101). A request is latched
when it is accepted (R38): each meaning writes the latches of its own operands, and the step, which has the whole request,
has latched all of it before (`accept` in Sys2Proof/Machine/Outside.lean). The fields an operation does not read are ignored
(R100). A reserved code and a bulk length that is not admitted change no state (R101, R231), so nothing is latched. -/

namespace Sys2Proof.Machine

/-- `NEGOTIATE` (R281). -/
def execNegotiate (s : State) : Host.Outcome State Fault Refusal :=
  .next (finish negotiateOp { s with req := { s.req with op := 0x0 } })

/-- `RDREG addr` (R203). -/
def execRdreg (addr : Word) (s : State) : Host.Outcome State Fault Refusal :=
  .next (finish (withE fun t => readRegister t.req.addr) { s with req := { s.req with op := 0x1, addr := addr } })

/-- `WRREG addr, wdata` (R204). -/
def execWrreg (addr wdata : Word) (s : State) : Host.Outcome State Fault Refusal :=
  .next (finish (withE fun t => writeRegister t.req.addr t.req.wdata)
    { s with req := { s.req with op := 0x2, addr := addr, wdata := wdata } })

/-- `RDBULK addr, len, buf` (R235, R237): rejected before anything is built or sent when the length is not admitted
(R231). -/
def execRdbulk (addr len buf : Word) (s : State) : Host.Outcome State Fault Refusal :=
  .next
    (if bulkRejected s.cfg len then refuseRequest .rejected s
    else finish readBulkOp { s with req := { s.req with op := 0x3, addr := addr, len := len, buf := buf } })

/-- `WRBULK addr, len, buf` (R235, R236): rejected before anything is built or sent when the length is not admitted
(R231). -/
def execWrbulk (addr len buf : Word) (s : State) : Host.Outcome State Fault Refusal :=
  .next
    (if bulkRejected s.cfg len then refuseRequest .rejected s
    else finish (retryOp writeBulkOnce)
      { s with req := { s.req with op := 0x4, addr := addr, len := len, buf := buf } })

/-- `RDPEND` (R297); `Rejected` when its address is not configured (R296). -/
def execRdpend (s : State) : Host.Outcome State Fault Refusal :=
  .next
    (match s.cfg.pendingSizeAddr with
    | none => refuseRequest .rejected { s with req := { s.req with op := 0x5 } }
    | some a => finish (readRegister a) { s with req := { s.req with op := 0x5 } })

/-- `RDINT` (R298); `Rejected` when its address is not configured (R296). -/
def execRdint (s : State) : Host.Outcome State Fault Refusal :=
  .next
    (match s.cfg.intStatus with
    | none => refuseRequest .rejected { s with req := { s.req with op := 0x6 } }
    | some c => finish (rdintOp c) { s with req := { s.req with op := 0x6 } })

/-- `CLRINT wdata` (R299); `Rejected` when its address is not configured (R296). -/
def execClrint (mask : Word) (s : State) : Host.Outcome State Fault Refusal :=
  .next
    (match s.cfg.intClearAddr with
    | none => refuseRequest .rejected { s with req := { s.req with op := 0x7, wdata := mask } }
    | some a => finish (withE fun t => writeRegister a t.req.wdata)
        { s with req := { s.req with op := 0x7, wdata := mask } })

/-- `SYNC wdata` (R300); `Rejected` for a count above `INT_LINES_MAX`, or when its address is not configured (R296). -/
def execSync (count : Word) (s : State) : Host.Outcome State Fault Refusal :=
  .next
    (if s.cfg.intLinesMax < count.toNat then refuseRequest .rejected { s with req := { s.req with op := 0x8, wdata := count } }
    else
      match s.cfg.intEnable with
      | none => refuseRequest .rejected { s with req := { s.req with op := 0x8, wdata := count } }
      | some c => finish (withE fun t => syncOp c t.req.wdata) { s with req := { s.req with op := 0x8, wdata := count } })

/-- `RSTBUS` (R206): one attempt, no retry, no delay. -/
def execRstbus (s : State) : Host.Outcome State Fault Refusal :=
  .next (finish resetBusOnce { s with req := { s.req with op := 0x9 } })

/-- A reserved host operation code (R101): `InvalidOpcode` at once, no port event, no state change. Every reserved code is
treated alike. -/
def execReserved (_code : BitVec 4) (s : State) : Host.Outcome State Fault Refusal :=
  .next (refuseRequest .invalidOpcode s)

end Sys2Proof.Machine
end

