-- ==== Sys2Proof/Machine/WireCommands.lean ====
section
/-! DEFINITION. The meanings of the 11 wire commands and the 4 write chunks issued on their own: a command is one command
exchange, un-retried (spec 41 R141 to R151, spec 42 R183), completed with its outcome as `RSTBUS` completes the `RESET`
exchange (spec 43 R206); a chunk is one `transmit` (spec 41 R157 to R160, spec 44 R236). The spec defines the frame, the
exchange and the parse of every command and names no host operation that issues some of them alone (R207, R232): that a
packet may ask for them is DESIGN CHOICE, notes/assumptions/7.md. -/

namespace Sys2Proof.Machine

/-- One exchange whose response carries no value for the host. -/
def issueCommand (opcode : Byte) (addr size : Word) : Eng Word :=
  bindE (cmdExchange opcode addr 0 size false) fun _ => pureE 0

/-- `DMA_WRITE` (R146). -/
def execDmaWrite (addr size : Word) (s : State) : Host.Outcome State Fault Refusal :=
  .next (finishRaw (issueCommand s.cfg.opc.dmaWrite addr size) s)

/-- `DMA_READ` (R147): the exchange ends with the first sentinel found and the reader handed over (R179). -/
def execDmaRead (addr size : Word) (s : State) : Host.Outcome State Fault Refusal :=
  .next (finishRaw (issueCommand s.cfg.opc.dmaRead addr size) s)

/-- `INTERNAL_WRITE` (R150). -/
def execInternalWrite (addr data : Word) (clockless : Bool) (s : State) : Host.Outcome State Fault Refusal :=
  .next (finishRaw (writeRegOnce s.cfg.opc.internalWrite addr data clockless) s)

/-- `INTERNAL_READ` (R142). -/
def execInternalRead (addr : Word) (clockless : Bool) (s : State) : Host.Outcome State Fault Refusal :=
  .next (finishRaw (readRegOnce s.cfg.opc.internalRead addr clockless) s)

/-- `TERMINATE` (R144). -/
def execTerminate (s : State) : Host.Outcome State Fault Refusal :=
  .next (finishRaw (issueCommand s.cfg.opc.terminate 0 0) s)

/-- `REPEAT` (R145). -/
def execRepeatCmd (s : State) : Host.Outcome State Fault Refusal :=
  .next (finishRaw (issueCommand s.cfg.opc.repeatCmd 0 0) s)

/-- `DMA_EXT_WRITE` (R148). -/
def execDmaExtWrite (addr size : Word) (s : State) : Host.Outcome State Fault Refusal :=
  .next (finishRaw (issueCommand s.cfg.opc.dmaExtWrite addr size) s)

/-- `DMA_EXT_READ` (R149): the exchange ends with the first sentinel found and the reader handed over (R179). -/
def execDmaExtRead (addr size : Word) (s : State) : Host.Outcome State Fault Refusal :=
  .next (finishRaw (issueCommand s.cfg.opc.dmaExtRead addr size) s)

/-- `SINGLE_WRITE` (R151). -/
def execSingleWrite (addr data : Word) (s : State) : Host.Outcome State Fault Refusal :=
  .next (finishRaw (writeRegOnce s.cfg.opc.singleWrite addr data false) s)

/-- `SINGLE_READ` (R141). -/
def execSingleRead (addr : Word) (s : State) : Host.Outcome State Fault Refusal :=
  .next (finishRaw (readRegOnce s.cfg.opc.singleRead addr false) s)

/-- `RESET` (R143): a bus reset on the wire; no engine register of the session changes (R27, R351). -/
def execReset (s : State) : Host.Outcome State Fault Refusal :=
  .next (finishRaw resetBusOnce s)

/-- `DATA_FIRST` (R157). -/
def execDataFirst (payload : List Byte) (s : State) : Host.Outcome State Fault Refusal :=
  .next (finishRaw (sendChunk .first payload) s)

/-- `DATA_MIDDLE` (R158). -/
def execDataMiddle (payload : List Byte) (s : State) : Host.Outcome State Fault Refusal :=
  .next (finishRaw (sendChunk .middle payload) s)

/-- `DATA_LAST` (R159). -/
def execDataLast (payload : List Byte) (s : State) : Host.Outcome State Fault Refusal :=
  .next (finishRaw (sendChunk .last payload) s)

/-- `DATA_SINGLE` (R160). -/
def execDataSingle (payload : List Byte) (s : State) : Host.Outcome State Fault Refusal :=
  .next (finishRaw (sendChunk .single payload) s)

end Sys2Proof.Machine
end

