-- ==== Sys2Proof/Machine/Dispatch.lean ====
section
/-! DEFINITION. One arm for each instruction: the rows of spec/opcode_table.json in the table's order. -/

namespace Sys2Proof.Machine

def exec (i : Instr) (s : State) : Host.Outcome State Fault Refusal :=
  match i with
  | .dmaWrite addr size => Sys2Proof.Machine.execDmaWrite addr size s
  | .dmaRead addr size => Sys2Proof.Machine.execDmaRead addr size s
  | .internalWrite addr data clockless => Sys2Proof.Machine.execInternalWrite addr data clockless s
  | .internalRead addr clockless => Sys2Proof.Machine.execInternalRead addr clockless s
  | .terminate => Sys2Proof.Machine.execTerminate s
  | .repeatCmd => Sys2Proof.Machine.execRepeatCmd s
  | .dmaExtWrite addr size => Sys2Proof.Machine.execDmaExtWrite addr size s
  | .dmaExtRead addr size => Sys2Proof.Machine.execDmaExtRead addr size s
  | .singleWrite addr data => Sys2Proof.Machine.execSingleWrite addr data s
  | .singleRead addr => Sys2Proof.Machine.execSingleRead addr s
  | .reset => Sys2Proof.Machine.execReset s
  | .dataFirst payload => Sys2Proof.Machine.execDataFirst payload s
  | .dataMiddle payload => Sys2Proof.Machine.execDataMiddle payload s
  | .dataLast payload => Sys2Proof.Machine.execDataLast payload s
  | .dataSingle payload => Sys2Proof.Machine.execDataSingle payload s
  | .negotiate => Sys2Proof.Machine.execNegotiate s
  | .rdreg addr => Sys2Proof.Machine.execRdreg addr s
  | .wrreg addr wdata => Sys2Proof.Machine.execWrreg addr wdata s
  | .rdbulk addr len buf => Sys2Proof.Machine.execRdbulk addr len buf s
  | .wrbulk addr len buf => Sys2Proof.Machine.execWrbulk addr len buf s
  | .rdpend => Sys2Proof.Machine.execRdpend s
  | .rdint => Sys2Proof.Machine.execRdint s
  | .clrint mask => Sys2Proof.Machine.execClrint mask s
  | .sync count => Sys2Proof.Machine.execSync count s
  | .rstbus => Sys2Proof.Machine.execRstbus s
  | .reserved code => Sys2Proof.Machine.execReserved code s

end Sys2Proof.Machine
end

