-- ==== Sys2Proof/WellFormed.lean ====
section
/-! DEFINITION. Which instructions the encodings can carry without loss (spec 30 R81, R83, R84, R89, spec 20 R51, R73).
Execution is defined for every instruction, well formed or not (an operand wider than its field is truncated, R73, R84);
well-formedness is what decode-of-encode needs. -/

namespace Sys2Proof

/-- The operand fits a field of `w` bits. -/
def fits (w : Nat) (v : Word) : Bool :=
  decide (v.toNat < 2 ^ w)

/-- The payload of a full chunk: one of the six chunk sizes (R157, R158). -/
def fullChunk (p : List Byte) : Bool :=
  [256, 512, 1024, 2048, 4096, 8192].contains p.length

/-- The instruction's operands are what its encoding carries: 24-bit addresses and sizes (R83, R84), a 16-bit size for the
plain DMA pair (R84), a 15-bit internal address (R51: bit 15 shares the clockless flag's bit), chunk payloads of the
lengths R157 to R160 give, a reserved code among `0xA` to `0xF` (R101). -/
def Instr.wellFormed : Instr → Bool
  | .dmaWrite addr size | .dmaRead addr size => fits 24 addr && fits 16 size
  | .dmaExtWrite addr size | .dmaExtRead addr size => fits 24 addr && fits 24 size
  | .internalWrite addr _ _ => fits 15 addr
  | .internalRead addr _ => fits 15 addr
  | .singleWrite addr _ => fits 24 addr
  | .singleRead addr => fits 24 addr
  | .terminate | .repeatCmd | .reset => true
  | .dataFirst p | .dataMiddle p => fullChunk p
  | .dataLast p => decide (1 ≤ p.length) && decide (p.length ≤ 8192)
  | .dataSingle p => decide (5 ≤ p.length) && decide (p.length ≤ 8192)
  | .negotiate | .rdreg _ | .wrreg _ _ | .rdbulk _ _ _ | .wrbulk _ _ _ => true
  | .rdpend | .rdint | .clrint _ | .sync _ | .rstbus => true
  | .reserved code => decide (10 ≤ code.toNat)

end Sys2Proof
end

