-- ==== Sys2Proof/Decode.lean ====
section
/-! DEFINITION. The decoder, total on any bytes, and the encoder (spec 30). Host requests are decoded by their operation
code (R100, R101), command frames by their opcode byte and format (R81, R96), write chunks by their tag byte (R89). -/

namespace Sys2Proof

open Machine

/-- Why bytes are no instruction. -/
inductive DecodeError where
  /-- No byte at all. -/
  | empty
  /-- The first byte is none of the 11 opcodes and no chunk tag (R95). -/
  | unknownOpcode (b : Byte)
  /-- The opcode is known and the number of bytes is not its format's (R81). -/
  | badLength
  /-- The trailing checksum byte is not the CRC of the bytes before it (R87). -/
  | badChecksum
  deriving DecidableEq, Repr

/-- The three address bytes of a frame as an operand (R83). -/
def addr24 (a2 a1 a0 : Byte) : Word :=
  word32 0 a2 a1 a0

/-- The internal address of its two bytes: bit 7 of the first is the clockless flag (R51). -/
def addr15 (a1 a0 : Byte) : Word :=
  word32 0 0 (a1 &&& 0x7F) a0

/-- The clockless flag of an internal frame (R83). -/
def clocklessOf (a1 : Byte) : Bool :=
  a1.getLsbD 7

/-- The fields of a command frame after its opcode byte, by format (R81). Filler bytes are not examined
(notes/assumptions/12.md). -/
def decodeFields : Cmd → List Byte → Except DecodeError Instr
  | .singleRead, [a2, a1, a0] => .ok (.singleRead (addr24 a2 a1 a0))
  | .internalRead, [a1, a0, _] => .ok (.internalRead (addr15 a1 a0) (clocklessOf a1))
  | .reset, [_, _, _] => .ok .reset
  | .terminate, [_, _, _] => .ok .terminate
  | .repeatCmd, [_, _, _] => .ok .repeatCmd
  | .dmaWrite, [a2, a1, a0, s1, s0] => .ok (.dmaWrite (addr24 a2 a1 a0) (word32 0 0 s1 s0))
  | .dmaRead, [a2, a1, a0, s1, s0] => .ok (.dmaRead (addr24 a2 a1 a0) (word32 0 0 s1 s0))
  | .dmaExtWrite, [a2, a1, a0, s2, s1, s0] => .ok (.dmaExtWrite (addr24 a2 a1 a0) (word32 0 s2 s1 s0))
  | .dmaExtRead, [a2, a1, a0, s2, s1, s0] => .ok (.dmaExtRead (addr24 a2 a1 a0) (word32 0 s2 s1 s0))
  | .internalWrite, [a1, a0, d3, d2, d1, d0] => .ok (.internalWrite (addr15 a1 a0) (word32 d3 d2 d1 d0) (clocklessOf a1))
  | .singleWrite, [a2, a1, a0, d3, d2, d1, d0] => .ok (.singleWrite (addr24 a2 a1 a0) (word32 d3 d2 d1 d0))
  | _, _ => .error .badLength

/-- The tag a chunk's header byte stands for. Two tags may share a byte (R89: with the defaults `last` and `single` do);
`mid` says whether the chunk continues a transfer of several chunks, which decides between them. -/
def decodeTag (P : Params) (mid : Bool) (b : Byte) : Option OrderTag :=
  (if mid then [OrderTag.middle, .last, .first, .single] else [OrderTag.first, .single, .middle, .last]).find?
    fun t => tagByte P t == b

/-- The chunk instruction of a tag. -/
def chunkInstr : OrderTag → List Byte → Instr
  | .first, p => .dataFirst p
  | .middle, p => .dataMiddle p
  | .last, p => .dataLast p
  | .single, p => .dataSingle p

/-- A command frame or write chunk with checksum mode off, from its bytes (R81, R89, R96). R8 does not ask that the tag bytes
differ from the opcode bytes, and the spec does not say what a byte that is both begins: it begins the command (DESIGN
CHOICE, notes/assumptions/11.md). Of a chunk only the empty payload is refused here; what becomes of a payload whose length
R157 to R160 do not allow is DESIGN CHOICE, notes/assumptions/22.md. -/
def decodeWire (P : Params) (mid : Bool) : List Byte → Except DecodeError Instr
  | [] => .error .empty
  | b :: rest =>
    match cmdOfByte P.opc b with
    | some k => decodeFields k rest
    | none =>
      match decodeTag P mid b with
      | some t => if rest.isEmpty then .error .badLength else .ok (chunkInstr t rest)
      | none => .error (.unknownOpcode b)

/-- A whole command frame in the given checksum mode, as a receiver reads it: with checksum mode on its last `CMD_CK_LEN`
bytes must be the checksum of the others (R87, R96, R127). -/
def decodeFrame (P : Params) (ck : Bool) (bytes : List Byte) : Except DecodeError Instr :=
  if ck then
    let body := bytes.take (bytes.length - P.cmdCkLen)
    if bytes = withCk P true body then decodeWire P false body else .error .badChecksum
  else decodeWire P false bytes

/-- A host request (R100, R101). Every code decodes; fields the operation does not read are ignored. -/
def decodeRequest (r : Request) : Instr :=
  if r.op = 0x0 then .negotiate
  else if r.op = 0x1 then .rdreg r.addr
  else if r.op = 0x2 then .wrreg r.addr r.wdata
  else if r.op = 0x3 then .rdbulk r.addr r.len r.buf
  else if r.op = 0x4 then .wrbulk r.addr r.len r.buf
  else if r.op = 0x5 then .rdpend
  else if r.op = 0x6 then .rdint
  else if r.op = 0x7 then .clrint r.wdata
  else if r.op = 0x8 then .sync r.wdata
  else if r.op = 0x9 then .rstbus
  else .reserved r.op

/-- The decoder. -/
def decode (P : Params) (mid : Bool) : Packet → Except DecodeError Instr
  | .request r => .ok (decodeRequest r)
  | .wire bytes => decodeWire P mid bytes

/-- A request with the given code and fields; the fields an operation does not read are sent as zero. -/
def request (op : BitVec 4) (addr wdata len buf : Word) : Packet :=
  .request { op := op, addr := addr, wdata := wdata, len := len, buf := buf }

/-- The encoder: the request of a host operation (R100), the frame of a command and the chunk of a payload with checksum
mode off (R81, R89). -/
def encode (P : Params) : Instr → Packet
  | .dmaWrite addr size => .wire (cmdBody P .dmaWrite addr 0 size false)
  | .dmaRead addr size => .wire (cmdBody P .dmaRead addr 0 size false)
  | .internalWrite addr data cl => .wire (cmdBody P .internalWrite addr data 0 cl)
  | .internalRead addr cl => .wire (cmdBody P .internalRead addr 0 0 cl)
  | .terminate => .wire (cmdBody P .terminate 0 0 0 false)
  | .repeatCmd => .wire (cmdBody P .repeatCmd 0 0 0 false)
  | .dmaExtWrite addr size => .wire (cmdBody P .dmaExtWrite addr 0 size false)
  | .dmaExtRead addr size => .wire (cmdBody P .dmaExtRead addr 0 size false)
  | .singleWrite addr data => .wire (cmdBody P .singleWrite addr data 0 false)
  | .singleRead addr => .wire (cmdBody P .singleRead addr 0 0 false)
  | .reset => .wire (cmdBody P .reset 0 0 0 false)
  | .dataFirst p => .wire (chunkFrame P .first p false)
  | .dataMiddle p => .wire (chunkFrame P .middle p false)
  | .dataLast p => .wire (chunkFrame P .last p false)
  | .dataSingle p => .wire (chunkFrame P .single p false)
  | .negotiate => request 0x0 0 0 0 0
  | .rdreg addr => request 0x1 addr 0 0 0
  | .wrreg addr wdata => request 0x2 addr wdata 0 0
  | .rdbulk addr len buf => request 0x3 addr 0 len buf
  | .wrbulk addr len buf => request 0x4 addr 0 len buf
  | .rdpend => request 0x5 0 0 0 0
  | .rdint => request 0x6 0 0 0 0
  | .clrint mask => request 0x7 0 mask 0 0
  | .sync count => request 0x8 0 count 0 0
  | .rstbus => request 0x9 0 0 0 0
  | .reserved code => request code 0 0 0 0

/-- Whether a chunk instruction continues a transfer of several chunks (R234: `middle` and `last` do). -/
def Instr.continues : Instr → Bool
  | .dataMiddle _ | .dataLast _ => true
  | _ => false

/-- Byte `i` of a word numbered as spec/opcode_table.json numbers it: byte 0 is bits 7 to 0. -/
def wordByte (nbits w i : Nat) : Byte :=
  if 8 * i < nbits then BitVec.ofNat 8 (w / 2 ^ (8 * i)) else 0

/-- The bytes of a word, the first `n` of them. -/
def wordBytes (nbits w : Nat) : Nat → List Byte
  | 0 => []
  | n + 1 => wordBytes nbits w n ++ [wordByte nbits w n]

/-- A 32-bit field of a word, the first byte the most significant. -/
def wordField (nbits w i : Nat) : Word :=
  word32 (wordByte nbits w i) (wordByte nbits w (i + 1)) (wordByte nbits w (i + 2)) (wordByte nbits w (i + 3))

/-- The packet whose bits are `w`: a first byte below `0x10` is a host operation code, with the request's fields in the
bytes after it in the order of R20; another first byte is a command frame of its format's length (R81), or a chunk with a
payload of `n` bytes. Bits above `nbits` are zero. -/
def packetOfWord (P : Params) (n nbits w : Nat) : Packet :=
  let b := wordByte nbits w 0
  if b.toNat < 16 then
    request (b.extractLsb' 0 4) (wordField nbits w 1) (wordField nbits w 5) (wordField nbits w 9) (wordField nbits w 13)
  else
    match cmdOfByte P.opc b with
    | some k => .wire (wordBytes nbits w (frameLenOff k))
    | none => .wire (b :: (wordBytes (nbits - 8) (w / 256) ((nbits - 8) / 8) ++ zeros (n - (nbits - 8) / 8)))

/-- The instruction the decoder reads from an instruction whose bits are `w`, with the default parameters and no
transfer under way. -/
def decodeTableWord (nbits w : Nat) : Option Instr :=
  match decode defaultParams false (packetOfWord defaultParams (chunkBytes defaultParams.chunkSizes defaultParams.chunkDefault) nbits w) with
  | .ok i => some i
  | .error _ => none

end Sys2Proof
end

