-- ==== Sys2Proof/Machine/Outside.lean ====
section
/-! DEFINITION. What the outside does to the engine between instructions: the reset input (spec 70 R350), a reset during
an operation (R350, R361), an unknown opcode presented to the framer (spec 41 R154), and how a word is presented. -/

namespace Sys2Proof.Machine

/-- The engine's reset input asserted and released (R350): every piece of engine state takes its value of R45. Nothing is
emitted; the configuration is sampled (R353), with the same values at every reset of a run (DESIGN CHOICE,
notes/assumptions/27.md); what is not the engine's (host buffers, what the outside will present and
answer, the events so far) stays. -/
def engineReset (s : State) : State :=
  { resetWith s.cfg with
    mem := s.mem
    inputs := s.inputs
    answers := s.answers
    calls := s.calls
    trace := s.trace }

/-- Whether an event is a transport call. -/
def isTransport (e : Event) : Bool :=
  match e.port with
  | .transmit _ _ | .receive _ _ _ | .transact _ _ _ => true
  | .delay _ | .log _ | .complete _ => false

/-- The host memory when an operation is abandoned: a bulk read admitted may have stored anything in its buffer
(R64, R240); nothing else writes host memory. The free bytes have the number of calls at the operation's start for an index,
so they are those of any other bulk read of the run that failed or was abandoned with the same index (DESIGN CHOICE,
notes/assumptions/10.md). -/
def abandonedMem (i : Instr) (s : State) : List Host.Cell :=
  match i with
  | .rdbulk _ len buf => if bulkRejected s.cfg len then s.mem else (spoilBuffer buf len s).mem
  | _ => s.mem

/-- The reset input asserted after `n` port events of an operation that began in `s` and would have ended in `t` (R350):
the operation is abandoned without a completion, the events before stay, and the answers they consumed are gone. When the
operation has no more than `n` events it has completed before the reset. -/
def abandon (i : Instr) (n : Nat) (s t : State) : State :=
  let evs := t.trace.drop s.trace.length
  if evs.length ≤ n then engineReset t
  else
    let before := evs.take n
    let used := (before.filter isTransport).length
    engineReset
      { s with
        mem := abandonedMem i s
        answers := s.answers.drop used
        calls := s.calls + used
        trace := s.trace ++ before }

/-- An opcode byte that is none of the 11, presented to the framer (R154, R317): `InvalidOpcode`, nothing built, nothing
sent. -/
def invalidOpcode (s : State) : State :=
  refuseRequest .invalidOpcode s

/-- Whether the next write chunk continues a transfer of several chunks: the last one sent was tagged `first` or `middle`
(R234). -/
def midTransfer (s : State) : Bool :=
  s.bulk.tag == .first || s.bulk.tag == .middle

/-- The instruction of a packet in a state. -/
def fetched (s : State) (p : Packet) : Except DecodeError Instr :=
  decode s.cfg (midTransfer s) p

/-- Whether a request is turned away without any state change: a reserved operation code (R101), a bulk length that is not
admitted (R231). -/
def leavesLatches (P : Params) (r : Request) : Bool :=
  decide (0xA ≤ r.op.toNat) || (decide (r.op = 0x3 ∨ r.op = 0x4) && bulkRejected P r.len)

/-- A packet is accepted: a host request is latched whole (R38), unless it is turned away without any state change. The
bytes of a frame or chunk have no latch. -/
def accept (p : Packet) (s : State) : State :=
  match p with
  | .request r => if leavesLatches s.cfg r then s else { s with req := r }
  | .wire _ => s

/-- Present the packet whose bits are `w` next. -/
def presentWord (s : State) (nbits w : Nat) : State :=
  { s with
    seq := .idle
    inputs := .packet (packetOfWord s.cfg (chunkBytes s.cfg.chunkSizes s.session.chunkSize) nbits w) :: s.inputs }

end Sys2Proof.Machine
end

