-- ==== Sys2Proof/Machine/Step.lean ====
section
/-! DEFINITION. One step: the engine takes what the outside presents next (spec 10 R20, spec 20 R68, R71: its program is
the stream of requests) and executes it to its completion. -/

namespace Sys2Proof.Machine

/-- Run what a packet decodes to, the packet accepted (R38); `k` says what the outside does to the state reached. Bytes whose
first is no opcode are `InvalidOpcode` (R154); other bytes that are no frame are refused. -/
def runPacket (p : Packet) (k : Instr → State → State) (s : State) : Host.Outcome State Fault Refusal :=
  match fetched s p with
  | .ok i =>
    match exec i (accept p s) with
    | .next t => .next (k i t)
    | .fault f => .fault f
    | .refused r => .refused r
  | .error (.unknownOpcode _) => .next (k (.reserved 0) (invalidOpcode s))
  | .error _ => .refused .malformedPacket

/-- One step. With nothing presented the engine waits in `IDLE` (R340). The host's own writes to its buffers are no step of
the model (DESIGN CHOICE, notes/assumptions/24.md). -/
def step (s : State) : Host.Outcome State Fault Refusal :=
  if s.seq = .idle then
    match s.inputs with
    | [] => .next s
    | .reset :: rest => .next (engineReset { s with inputs := rest })
    | .packet p :: rest => runPacket p (fun _ t => t) { s with inputs := rest }
    | .packetThenReset p n :: rest => runPacket p (fun i t => abandon i n { s with inputs := rest } t) { s with inputs := rest }
  else .fault .notIdle

/-- The state in which the next step runs the instruction whose bits are `w`. -/
def State.withFetchWord (s : State) (nbits w : Nat) : State :=
  presentWord s nbits w

end Sys2Proof.Machine
end

