-- ==== Sys2Proof/Safety.lean ====
section
/-! DEFINITION. The terms in which statements about the engine are made: the invariant of its states, what a well-behaved
peer answers to one exchange (spec 30 R90 to R93), the port events expected of it, the pieces of a bulk transfer
(spec 44 R233, R234), and the counts of attempts, resets, delays and log events in a piece of a trace
(spec 45 R263, R264). -/

namespace Sys2Proof.Machine

/-! ## The invariant -/

/-- What every step keeps: the parameters satisfy R8; the chunk size and transfer style are those sampled at reset (R353),
which are those of the configuration because no input changes it (DESIGN CHOICE, notes/assumptions/27.md); the bit without
behaviour is 0 (R24); at most `INT_LINES_MAX` interrupt lines (R23); a negotiated session runs without checksums (R287); the
completion registers agree with each other (R37, R310); between steps the sequencer is idle (R33); the host memory is in
canonical form. -/
structure Inv (s : State) : Prop where
  params : paramsWf s.cfg = true
  chunk : s.session.chunkSize = s.cfg.chunkDefault
  style : s.session.xferStyle = s.cfg.xferStyle
  enhanced : s.session.enhancedThroughputMode = false
  lines : s.session.interruptLineCount.toNat ≤ s.cfg.intLinesMax
  mode : s.session.negotiated = true → s.session.checksumEnabled = false
  errOfOk : s.compl.ok = true → s.compl.err = 0
  rdataOfErr : s.compl.ok = false → s.compl.rdata = 0
  errCode : s.compl.err.toNat ≤ 9
  seq : s.seq = .idle
  ret : s.ret = []
  mem : memWf s.mem = true

/-! ## The commands behind the instructions -/

/-- The wire command an instruction of the first eleven issues on its own: kind, address, data, size, clockless flag
(R140); `none` for a chunk or a host operation. -/
def wireOperands : Instr → Option (Cmd × Word × Word × Word × Bool)
  | .dmaWrite a n => some (.dmaWrite, a, 0, n, false)
  | .dmaRead a n => some (.dmaRead, a, 0, n, false)
  | .internalWrite a d cl => some (.internalWrite, a, d, 0, cl)
  | .internalRead a cl => some (.internalRead, a, 0, 0, cl)
  | .terminate => some (.terminate, 0, 0, 0, false)
  | .repeatCmd => some (.repeatCmd, 0, 0, 0, false)
  | .dmaExtWrite a n => some (.dmaExtWrite, a, 0, n, false)
  | .dmaExtRead a n => some (.dmaExtRead, a, 0, n, false)
  | .singleWrite a d => some (.singleWrite, a, d, 0, false)
  | .singleRead a => some (.singleRead, a, 0, 0, false)
  | .reset => some (.reset, 0, 0, 0, false)
  | .dataFirst _ | .dataMiddle _ | .dataLast _ | .dataSingle _ => none
  | .negotiate | .rdreg _ | .wrreg _ _ | .rdbulk _ _ _ | .wrbulk _ _ _ => none
  | .rdpend | .rdint | .clrint _ | .sync _ | .rstbus | .reserved _ => none

/-- The tag and payload of a chunk instruction (R157 to R160). -/
def chunkOperands : Instr → Option (OrderTag × List Byte)
  | .dataFirst p => some (.first, p)
  | .dataMiddle p => some (.middle, p)
  | .dataLast p => some (.last, p)
  | .dataSingle p => some (.single, p)
  | .dmaWrite _ _ | .dmaRead _ _ | .internalWrite _ _ _ | .internalRead _ _ | .terminate | .repeatCmd => none
  | .dmaExtWrite _ _ | .dmaExtRead _ _ | .singleWrite _ _ | .singleRead _ | .reset => none
  | .negotiate | .rdreg _ | .wrreg _ _ | .rdbulk _ _ _ | .wrbulk _ _ _ => none
  | .rdpend | .rdint | .clrint _ | .sync _ | .rstbus | .reserved _ => none

/-- The command and the clockless flag a register read at `addr` is routed to (R203): the address is compared on all 32
bits. -/
def readRoute (P : Params) (addr : Word) : Cmd × Bool :=
  if addr.toNat ≤ P.clocklessThreshold.toNat then (.internalRead, true) else (.singleRead, false)

/-- The command and the clockless flag a register write at `addr` is routed to (R204). -/
def writeRoute (P : Params) (addr : Word) : Cmd × Bool :=
  if addr.toNat ≤ P.clocklessThreshold.toNat then (.internalWrite, true) else (.singleWrite, false)

/-- The length of a command frame (R81, R88). -/
def frameLen (P : Params) (k : Cmd) (ck : Bool) : Nat :=
  frameLenOff k + if ck then P.cmdCkLen else 0

/-- One attempt of a host operation that is wrapped once (R270), as the retry controller runs it (R200, R201, R236, R237);
the bulk attempts take their arguments from the request latches. -/
def attemptOf (P : Params) : Instr → Option (Eng Word)
  | .rdreg a => some (readRegOnce (opcOf P.opc (readRoute P a).1) a (readRoute P a).2)
  | .wrreg a w => some (writeRegOnce (opcOf P.opc (writeRoute P a).1) a w (writeRoute P a).2)
  | .rdbulk _ _ _ => some readBulkOnce
  | .wrbulk _ _ _ => some writeBulkOnce
  | .dmaWrite _ _ | .dmaRead _ _ | .internalWrite _ _ _ | .internalRead _ _ | .terminate | .repeatCmd => none
  | .dmaExtWrite _ _ | .dmaExtRead _ _ | .singleWrite _ _ | .singleRead _ | .reset => none
  | .dataFirst _ | .dataMiddle _ | .dataLast _ | .dataSingle _ => none
  | .negotiate | .rdpend | .rdint | .clrint _ | .sync _ | .rstbus | .reserved _ => none

/-- The parameters keep the chunk tags apart from the opcodes, as the defaults do: no tag byte is an opcode (R82, R89). -/
def tagsApart (P : Params) : Prop :=
  ∀ t : OrderTag, cmdOfByte P.opc (tagByte P t) = none

/-- The host operations whose request is wrapped once by the retry controller (R270): register reads and writes, and bulk
transfers of an admitted length. -/
def wrapped (P : Params) : Instr → Bool
  | .rdreg _ | .wrreg _ _ => true
  | .rdbulk _ len _ | .wrbulk _ len _ => !bulkRejected P len
  | .dmaWrite _ _ | .dmaRead _ _ | .internalWrite _ _ _ | .internalRead _ _ | .terminate | .repeatCmd => false
  | .dmaExtWrite _ _ | .dmaExtRead _ _ | .singleWrite _ _ | .singleRead _ | .reset => false
  | .dataFirst _ | .dataMiddle _ | .dataLast _ | .dataSingle _ => false
  | .negotiate | .rdpend | .rdint | .clrint _ | .sync _ | .rstbus | .reserved _ => false

/-! ## A peer that answers -/

/-- Whether a byte is a data-header sentinel (R91). -/
def isSentinel (P : Params) (b : Byte) : Bool :=
  b.extractLsb' 4 4 == P.sentinelNibble

/-- What a peer sends in one response or one read chunk apart from echo and status (R90 to R92): the skip byte, the wait
bytes, the sentinel, the payload, the checksum pair. The parts a command's class does not have are not sent. -/
structure Reply where
  skip : Byte
  waits : List Byte
  header : Byte
  payload : List Byte
  ck : List Byte
  deriving DecidableEq, Repr

/-- A legal reply with `n` payload bytes (R91, R92): fewer wait bytes than the scan budget, none of them a sentinel. -/
structure Reply.Good (P : Params) (n : Nat) (r : Reply) : Prop where
  budget : r.waits.length < P.scanBudget
  waits : ∀ w ∈ r.waits, isSentinel P w = false
  header : isSentinel P r.header = true
  payload : r.payload.length = n
  ck : r.ck.length = P.dataCkLen

/-- The fields in which the engine takes the wait bytes and the sentinel: one byte each (R176). -/
def scanFields (r : Reply) : List (List Byte) :=
  r.waits.map (fun w => [w]) ++ [[r.header]]

/-- The fields of a payload with its checksum pair, when checksum mode is on (R91, R92). -/
def dataFields (ck : Bool) (r : Reply) : List (List Byte) :=
  r.payload :: if ck then [r.ck] else []

/-- The fields of a good response to a command, echo and status correct (R90, R91, R93). A bulk read's end with the
sentinel of its first chunk (R179). -/
def replyFields (P : Params) (k : Cmd) (ck : Bool) (r : Reply) : List (List Byte) :=
  match classOf k with
  | .resetClass => [[r.skip], [opcOf P.opc k], [P.statusOk]]
  | .writeClass => [[opcOf P.opc k], [P.statusOk]]
  | .registerRead => [[opcOf P.opc k], [P.statusOk]] ++ scanFields r ++ dataFields ck r
  | .bulkRead => [[opcOf P.opc k], [P.statusOk]] ++ scanFields r

/-- The fields of a whole bulk read: the response with the sentinel of the first chunk, its payload, then each later chunk
with a sentinel of its own (R93). -/
def bulkReadFields (P : Params) (ck : Bool) (r : Reply) (later : List Reply) : List (List Byte) :=
  replyFields P .dmaExtRead ck r ++ dataFields ck r ++ (later.map fun c => scanFields c ++ dataFields ck c).flatten

/-- The answers to the `receive` calls that fetch the fields `fs`, when the first `q` of their bytes have been captured
already: a field wholly captured needs none, another one exactly one (R171). -/
def serve : Nat → List (List Byte) → List Answer
  | _, [] => []
  | q, f :: fs => if f.length ≤ q then serve (q - f.length) fs else { ok := true, bytes := f.drop q } :: serve 0 fs

/-- The port events of those calls. -/
def servePorts : Nat → List (List Byte) → List PortEvent
  | _, [] => []
  | q, f :: fs =>
    if f.length ≤ q then servePorts (q - f.length) fs
    else .receive (f.length - q) true (f.drop q) :: servePorts 0 fs

/-- What the peer puts on the line in one exchange: the bytes captured while the frame is sent, which carry nothing
(R72); the fields the engine is to take; the bytes captured beyond them. -/
structure Talk where
  junk : List Byte
  fields : List (List Byte)
  extra : List Byte
  deriving DecidableEq, Repr

/-- The bytes captured behind the frame in a `Combined` exchange of `pad` placeholders (R184). -/
def Talk.captured (x : Talk) (pad : Nat) : List Byte :=
  (x.fields.flatten ++ x.extra).take pad

/-- The environment's answers to one exchange and to the `receive` calls after it (R184, R185). -/
def exchangeAnswers (P : Params) (style : XferStyle) (k : Cmd) (ck : Bool) (x : Talk) : List Answer :=
  match style with
  | .combined =>
    { ok := true, bytes := x.junk ++ x.captured (padOf P.pad (classOf k) ck) } :: serve (padOf P.pad (classOf k) ck) x.fields
  | .separate => { ok := true, bytes := [] } :: serve 0 x.fields

/-- The port events of the exchange that sends `frame` and of the `receive` calls after it (R93, R184, R185). -/
def exchangePorts (P : Params) (style : XferStyle) (k : Cmd) (ck : Bool) (frame : List Byte) (x : Talk) :
    List PortEvent :=
  match style with
  | .combined =>
    .transact (frame ++ zeros (padOf P.pad (classOf k) ck)) true (x.junk ++ x.captured (padOf P.pad (classOf k) ck)) ::
      servePorts (padOf P.pad (classOf k) ck) x.fields
  | .separate => .transmit frame true :: servePorts 0 x.fields

/-- The lengths of a `Combined` exchange fit: one captured byte for each byte of the frame, the first `need` bytes of the
response within the placeholders, and a byte for each placeholder (R184, R186). -/
def Talk.Fits (P : Params) (style : XferStyle) (k : Cmd) (ck : Bool) (need : Nat) (x : Talk) : Prop :=
  style = .combined →
    x.junk.length = frameLen P k ck ∧ need ≤ padOf P.pad (classOf k) ck ∧
      padOf P.pad (classOf k) ck ≤ (x.fields.flatten ++ x.extra).length

/-- The peer answers the command `k`, exchanged in the given style and checksum mode, with the reply `r`, `x` being what it
puts on the line: a legal reply with a payload of `REG_PAYLOAD_LEN` bytes (where the class has one), and lengths that fit. -/
structure Answers (P : Params) (style : XferStyle) (ck : Bool) (k : Cmd) (r : Reply) (x : Talk) : Prop where
  good : r.Good P P.regPayloadLen
  fields : x.fields = replyFields P k ck r
  fits : x.Fits P style k ck x.fields.flatten.length

/-- The peer answers the command `k` with a correct echo, behind the skip byte where the class has one, and then with the
status `st`, which is not the idle one (R90, R175, R291). -/
structure Nacks (P : Params) (style : XferStyle) (ck : Bool) (k : Cmd) (skip st : Byte) (x : Talk) : Prop where
  status : st ≠ P.statusOk
  fields : x.fields = (if classOf k = .resetClass then [[skip]] else []) ++ [[opcOf P.opc k], [st]]
  fits : x.Fits P style k ck x.fields.flatten.length

/-- The peer answers the command `k` with an echo `e` that is not its opcode (R174). -/
structure Misechoes (P : Params) (style : XferStyle) (ck : Bool) (k : Cmd) (skip e : Byte) (x : Talk) : Prop where
  echo : e ≠ opcOf P.opc k
  fields : x.fields = (if classOf k = .resetClass then [[skip]] else []) ++ [[e]]
  fits : x.Fits P style k ck x.fields.flatten.length

/-- The environment's answers to a run of exchanges of the command `k`, each with its reply (R298). -/
def runAnswers (P : Params) (style : XferStyle) (k : Cmd) (ck : Bool) (l : List (Reply × Talk)) : List Answer :=
  (l.map fun p => exchangeAnswers P style k ck p.2).flatten

/-- The port events of those exchanges, each of the same frame. -/
def runPorts (P : Params) (style : XferStyle) (k : Cmd) (ck : Bool) (frame : List Byte) (l : List (Reply × Talk)) :
    List PortEvent :=
  (l.map fun p => exchangePorts P style k ck frame p.2).flatten

/-- What the engine sends in the transport call of an exchange: the frame, and the placeholders in `Combined` style
(R184, R185). -/
def exchangeBytes (P : Params) (style : XferStyle) (k : Cmd) (ck : Bool) (frame : List Byte) : List Byte :=
  match style with
  | .combined => frame ++ zeros (padOf P.pad (classOf k) ck)
  | .separate => frame

/-- The port event of an exchange whose transport call fails (R187). -/
def deadExchange (P : Params) (style : XferStyle) (k : Cmd) (ck : Bool) (frame : List Byte) : PortEvent :=
  match style with
  | .combined => .transact (frame ++ zeros (padOf P.pad (classOf k) ck)) false []
  | .separate => .transmit frame false

/-- The frame of the bus reset in the given mode (R143, R205). -/
def resetFrame (P : Params) (ck : Bool) : List Byte :=
  withCk P ck (cmdBody P .reset 0 0 0 false)

/-- The port events of one attempt whose exchange fails in the transport, and of the recovery after it whose bus reset
fails in the same way (R261, R265). -/
def deadAttempt (P : Params) (style : XferStyle) (k : Cmd) (ck : Bool) (frame : List Byte) : List PortEvent :=
  [deadExchange P style k ck frame, .delay P.retryDelay, deadExchange P style .reset ck (resetFrame P ck),
    .log .resetFailed, .delay P.retryDelay]

/-- One attempt that the peer NACKs, and the bus reset after it, answered well. -/
structure NackedAttempt where
  status : Byte
  command : Talk
  resetReply : Reply
  reset : Talk
  deriving DecidableEq, Repr

/-- The peer NACKs the attempt of the command `k` and answers the reset. -/
def NackedAttempt.Legal (P : Params) (style : XferStyle) (ck : Bool) (k : Cmd) (a : NackedAttempt) : Prop :=
  Nacks P style ck k 0 a.status a.command ∧ Answers P style ck .reset a.resetReply a.reset

/-- The environment's answers to a run of NACKed attempts with their recoveries (R261, R291). -/
def nackedAnswers (P : Params) (style : XferStyle) (ck : Bool) (k : Cmd) (l : List NackedAttempt) : List Answer :=
  (l.map fun a => exchangeAnswers P style k ck a.command ++ exchangeAnswers P style .reset ck a.reset).flatten

/-- The port events of those attempts: exchange, delay, bus reset, delay. -/
def nackedPorts (P : Params) (style : XferStyle) (ck : Bool) (k : Cmd) (frame : List Byte) (l : List NackedAttempt) :
    List PortEvent :=
  (l.map fun a =>
    exchangePorts P style k ck frame a.command ++
      .delay P.retryDelay :: (exchangePorts P style .reset ck (resetFrame P ck) a.reset ++ [.delay P.retryDelay])).flatten

/-! ## The response registers -/

/-- The response registers (R32) and the scan counter (R36). -/
structure ResponseRegs where
  echo : Byte
  status : Byte
  header : Byte
  payload : Bytes4
  ck : Bytes2
  ckValid : Bool
  scanCnt : Nat
  deriving DecidableEq, Repr

/-- The response registers of a datapath. -/
def responseRegs (d : Datapath) : ResponseRegs where
  echo := d.rEcho
  status := d.rStatus
  header := d.rHdr
  payload := d.rPayload
  ck := d.rCk
  ckValid := d.rCkValid
  scanCnt := d.scanCnt

/-- The response registers after a good reply to the command `k` that found `g` in them (R174 to R179): echo and status
always, the sentinel and the count of the scan for a read, payload and checksum pair for a register read alone (R241); the
others keep what they hold. -/
def regsAfter (P : Params) (k : Cmd) (ck : Bool) (r : Reply) (g : ResponseRegs) : ResponseRegs :=
  match classOf k with
  | .resetClass | .writeClass => { g with echo := opcOf P.opc k, status := P.statusOk }
  | .bulkRead =>
    { g with echo := opcOf P.opc k, status := P.statusOk, header := r.header, scanCnt := r.waits.length + 1 }
  | .registerRead =>
    { echo := opcOf P.opc k
      status := P.statusOk
      header := r.header
      payload := bytes4 r.payload
      ck := if ck then bytes2 r.ck else g.ck
      ckValid := ck
      scanCnt := r.waits.length + 1 }

/-! ## What a completion leaves -/

/-- The state `t` has completed an operation begun in `s` with the completion `c`, after exactly the port events `ports`;
`more` are the answers not consumed. -/
structure Completes (s t : State) (c : Completion) (ports : List PortEvent) (more : List Answer) : Prop where
  compl : t.compl = c
  trace : ∃ ev : List Event, t.trace = s.trace ++ ev ∧ ev.map (fun e => e.port) = ports ++ [.complete c]
  answers : t.answers = more
  idle : t.seq = .idle

/-- The completion of an operation that succeeded with a value (R209). -/
def okWith (v : Word) : Completion :=
  { ok := true, err := 0, rdata := v }

/-- The completion of an operation that failed with a cause (R209). -/
def failedWith (e : Cause) : Completion :=
  { ok := false, err := causeCode e, rdata := 0 }

/-- Nothing but the completion registers and the trace differs (R101, R231). -/
def onlyCompleted (e : Cause) (s : State) : State :=
  { s with
    compl := failedWith e
    seq := .idle
    trace := s.trace ++ [{ seq := .done, ret := s.ret, port := .complete (failedWith e) }] }

/-! ## Bulk transfers -/

/-- The pieces of a transfer of `n` bytes: offset and payload length of each of its `ceil(n / c)` chunks (R233). -/
def segments (n c : Nat) : List (Nat × Nat) :=
  (List.range ((n + c - 1) / c)).map fun j => (j * c, min (n - j * c) c)

/-- The write chunk of one piece of a transfer of `n` bytes, as it goes out: its order tag, its bytes of the host buffer,
its placeholder (R89, R234, R236). -/
def pieceFrame (P : Params) (m : List Host.Cell) (buf : Word) (n c : Nat) (ck : Bool) (p : Nat × Nat) : List Byte :=
  chunkFrame P (tagOf p.1 (n - p.1) c) (memReadBytes m (bufAddr buf p.1) p.2) ck

/-- The `transmit` events of a bulk write, one for each piece. -/
def chunkPorts (P : Params) (m : List Host.Cell) (buf : Word) (n c : Nat) (ck : Bool) : List PortEvent :=
  (segments n c).map fun p => .transmit (pieceFrame P m buf n c ck p) true

/-- Every byte of host memory reads as before. -/
def SameMemory (s t : State) : Prop :=
  ∀ a : Nat, memRead t.mem a = memRead s.mem a

/-! ## Counts -/

/-- The attempts in a piece of trace: the command exchanges begun with `base` on the return stack (R263). -/
def attemptsIn (base : List Seq) (ev : List Event) : Nat :=
  ev.countP fun e => decide (e.seq = .cmdXfer) && decide (e.ret = base)

/-- The bus resets of the retry controller in a piece of trace (R264). -/
def resetsIn (base : List Seq) (ev : List Event) : Nat :=
  attemptsIn (.retryReset :: base) ev

/-- The delays in a piece of trace (R266). -/
def delaysIn (ev : List Event) : Nat :=
  ev.countP fun e => match e.port with | .delay _ => true | _ => false

/-- The log events with a tag in a piece of trace (R339). -/
def logsIn (tag : LogTag) (ev : List Event) : Nat :=
  ev.countP fun e => decide (e.port = .log tag)

/-- The transport calls in a piece of trace (R13). -/
def callsIn (ev : List Event) : Nat :=
  ev.countP isTransport

/-- The completions in a piece of trace. -/
def completionsIn (ev : List Event) : Nat :=
  ev.countP fun e => match e.port with | .complete _ => true | _ => false

/-- The bytes a port event sends. -/
def portBytes : PortEvent → List Byte
  | .transmit w _ => w
  | .transact w _ _ => w
  | .receive _ _ _ | .delay _ | .log _ | .complete _ => []

/-- The bytes a transport call sends, of an event. -/
def sentBytes (e : Event) : List Byte :=
  portBytes e.port

/-- Whether an event is a transport call that returned `false` (R187). -/
def failedCall (e : Event) : Bool :=
  match e.port with
  | .transmit _ ok => !ok
  | .receive _ ok _ => !ok
  | .transact _ ok _ => !ok
  | .delay _ | .log _ | .complete _ => false

/-! ## Errors -/

/-- The causes with which an instruction can complete when the placeholders are the default ones (R326); `neg` says whether
the session was negotiated. A wire command on its own completes as its exchange does. -/
def allowedErrors (neg : Bool) : Instr → List Cause
  | .dmaRead _ _ | .internalRead _ _ | .dmaExtRead _ _ | .singleRead _ =>
    [.transportError, .commandEchoMismatch, .badStatus, .resetRequired]
  | .dmaWrite _ _ | .internalWrite _ _ _ | .terminate | .repeatCmd | .dmaExtWrite _ _ | .singleWrite _ _ | .reset =>
    [.transportError, .commandEchoMismatch, .badStatus]
  | .dataFirst _ | .dataMiddle _ | .dataLast _ | .dataSingle _ => [.transportError]
  | .negotiate =>
    if neg then [.transportError, .commandEchoMismatch, .badStatus, .resetRequired] else [.peerNotPresent, .peerUnresponsive]
  | .rdreg _ => [.transportError, .commandEchoMismatch, .badStatus, .resetRequired]
  | .rdpend | .rdint => [.transportError, .commandEchoMismatch, .badStatus, .resetRequired, .rejected]
  | .wrreg _ _ => [.transportError, .commandEchoMismatch, .badStatus]
  | .clrint _ => [.transportError, .commandEchoMismatch, .badStatus, .rejected]
  | .rdbulk _ _ _ | .sync _ => [.rejected, .transportError, .commandEchoMismatch, .badStatus, .resetRequired]
  | .wrbulk _ _ _ => [.rejected, .transportError, .commandEchoMismatch, .badStatus]
  | .rstbus => [.transportError, .commandEchoMismatch, .badStatus]
  | .reserved _ => [.invalidOpcode]

end Sys2Proof.Machine
end

