-- ==== Sys2Proof/Certificates/Slice0/Obligations.lean ====
section
/-! DEFINITION. The statements about the link protocol engine that are to be proved: encodings, the step, reset, the CRC,
the framer, the parser, the completion and the frame of every instruction, the retry controller, negotiation, errors, and
the invariants. Each names the rule of spec/ it rests on. -/

open Sys2Proof Sys2Proof.Machine

/-! ## Encodings -/

/-- Decoding the encoding of a well-formed instruction gives the instruction (spec 30 R81 to R89, R96, R100), under the
constraints of R8 and with the chunk tags apart from the opcodes. Which of two tags that share a byte is meant is the
model's choice by context (notes/assumptions/11.md), and that a frame or chunk is presented as its bytes is the model's
choice too (notes/assumptions/7.md). -/
def Obligations.DecodeInvertsEncode : Prop :=
  ∀ (P : Params) (i : Instr), paramsWf P = true → tagsApart P → i.wellFormed = true →
    decode P i.continues (encode P i) = .ok i

/-- A receiver of a whole command frame reads back the command, with checksum mode on and with it off: the framer's layout,
the checksum byte and the receiver's reading of both agree (spec 30 R81, R83 to R88, R96). -/
def Obligations.FrameReadBackInBothModes : Prop :=
  ∀ (P : Params) (ck : Bool) (i : Instr) (k : Cmd) (addr data size : Word) (cl : Bool),
    paramsWf P = true → i.wellFormed = true → wireOperands i = some (k, addr, data, size, cl) →
      decodeFrame P ck (withCk P ck (cmdBody P k addr data size cl)) = .ok i

/-- A few words written out from the spec's encodings decode to the instructions they stand for (spec 30 R81, R82, R89,
R100, spec 41 R141 to R151; the opcode bytes are the defaults of R7). -/
def Obligations.KnownWordsDecode : Prop :=
  decodeTableWord 32 0x001000CA = some (.singleRead 0x001000) ∧
    decodeTableWord 32 0x001080C4 = some (.internalRead 0x0010 true) ∧
    decodeTableWord 48 0x0001452301C1 = some (.dmaWrite 0x012345 0x0100) ∧
    decodeTableWord 56 0x204E00000415C8 = some (.dmaExtRead 0x150400 20000) ∧
    decodeTableWord 64 0xEFBEADDEA81000C9 = some (.singleWrite 0x0010A8 0xDEADBEEF) ∧
    decodeTableWord 32 0xFFFFFFCF = some .reset ∧
    decodeTableWord 8 0x00 = some .negotiate ∧
    decodeTableWord 8 0x0C = some (.reserved 0xC)

/-- Two addresses that agree in the bits a format carries give the same frame, whatever their other bits (R73). -/
def Obligations.DroppedAddressBitsDoNotShow : Prop :=
  ∀ (P : Params) (k : Cmd) (a b data size : Word) (cl ck : Bool),
    (∀ n : Nat, n < (if k = .internalRead ∨ k = .internalWrite then 16 else 24) → a.getLsbD n = b.getLsbD n) →
      withCk P ck (cmdBody P k a data size cl) = withCk P ck (cmdBody P k b data size cl)

/-- An internal address with bit 15 set and the clockless flag clear gives the frame of a clockless access to its low 15
bits (R51). -/
def Obligations.AddressBit15IsTheClocklessBit : Prop :=
  ∀ (P : Params) (k : Cmd) (a data size : Word), (k = .internalRead ∨ k = .internalWrite) → a.getLsbD 15 = true →
    cmdBody P k a data size false = cmdBody P k (a &&& 0x7FFF) data size true

/-! ## The step and reset -/

/-- A step of the idle engine that is presented a packet runs the instruction the packet decodes to, with that packet taken
from what is presented, the packet accepted, and nothing else changed before (R20, R102). Accepting a host request latches it
whole (R38); a reserved code (R101) and a bulk length that is not admitted (R231) are turned away with the latches as they
were. That the fields an operation ignores are latched too, and those of a surrounding operation that is then rejected, is the
model's reading of R38 (notes/assumptions/13.md). That the packet may also be the bytes of a frame or chunk, which is run and
latches nothing, is the model's choice (notes/assumptions/7.md). -/
def Obligations.StepRunsTheDecodedInstruction : Prop :=
  (∀ (s : State) (p : Packet) (rest : List Input) (i : Instr),
    s.seq = .idle → s.inputs = .packet p :: rest → fetched { s with inputs := rest } p = .ok i →
      step s = exec i (accept p { s with inputs := rest })) ∧
    ∀ (s : State) (r : Request) (bytes : List Byte),
      (r.op.toNat < 0xA → (r.op = 0x3 ∨ r.op = 0x4 → bulkRejected s.cfg r.len = false) →
        accept (.request r) s = { s with req := r }) ∧
      (0xA ≤ r.op.toNat → accept (.request r) s = s) ∧
      (r.op = 0x3 ∨ r.op = 0x4 → bulkRejected s.cfg r.len = true → accept (.request r) s = s) ∧
      accept (.wire bytes) s = s

/-- An engine that is presented nothing waits and keeps its state (R340); an opcode byte that is none of the 11 and no tag
completes with `InvalidOpcode` and changes nothing else (R154, R317; that a frame can be presented at all is the model's
choice, notes/assumptions/7.md); a request during an operation has no transition (R360). That the registers other than those
of the session and the completion keep their values between operations is the model's choice (notes/assumptions/26.md). -/
def Obligations.StepOutsideInstructions : Prop :=
  (∀ s : State, s.seq = .idle → s.inputs = [] → step s = .next s) ∧
    (∀ (s : State) (p : Packet) (b : Byte) (rest : List Input), s.seq = .idle → s.inputs = .packet p :: rest →
      fetched { s with inputs := rest } p = .error (.unknownOpcode b) →
        step s = .next (onlyCompleted .invalidOpcode { s with inputs := rest })) ∧
    (∀ s : State, s.seq ≠ .idle → step s = .fault .notIdle)

/-- The engine's reset input gives every piece of state with a stated reset value that value, samples the chunk size and the
transfer style from the configuration, emits nothing, and leaves the host's memory alone (R45, R350, R353). That every reset
samples the same chunk size and transfer style, because no input changes the configuration, is the model's choice
(notes/assumptions/27.md). -/
def Obligations.ResetInputGivesResetValues : Prop :=
  ∀ (s : State) (rest : List Input), s.seq = .idle → s.inputs = .reset :: rest →
    ∃ t : State, step s = .next t ∧ t.cfg = s.cfg ∧ t.session.checksumEnabled = true ∧
      t.session.chunkSize = s.cfg.chunkDefault ∧ t.session.interruptLineCount = 0 ∧
      t.session.enhancedThroughputMode = false ∧ t.session.negotiated = false ∧
      t.session.xferStyle = s.cfg.xferStyle ∧ t.seq = .idle ∧ t.ret = [] ∧
      t.compl = { ok := false, err := 0, rdata := 0 } ∧ t.dp.cap = [] ∧ t.dp.fetch = false ∧
      t.trace = s.trace ∧ t.answers = s.answers ∧ t.calls = s.calls ∧ SameMemory s t

/-- The reset input asserted during an operation abandons it (R350): no completion is delivered, and the engine is in its
reset state, every piece of state with a stated reset value at that value (R45). That the reset falls after a number of port
events, the events before it standing and no other following, is the model's choice (notes/assumptions/10.md); for the bytes
of a frame or chunk presented alone, so is the operation itself (notes/assumptions/7.md). That every reset samples the same
chunk size and transfer style, because no input changes the configuration, is the model's choice (notes/assumptions/27.md). -/
def Obligations.ResetAbandonsTheOperation : Prop :=
  ∀ (s t : State) (p : Packet) (n : Nat) (rest : List Input) (i : Instr) (u : State) (ev : List Event),
    s.seq = .idle → s.inputs = .packetThenReset p n :: rest → fetched { s with inputs := rest } p = .ok i →
    exec i (accept p { s with inputs := rest }) = .next u → u.trace = s.trace ++ ev → n < ev.length → step s = .next t →
      t.trace = s.trace ++ ev.take n ∧ completionsIn (ev.take n) = 0 ∧ t.cfg = s.cfg ∧ t.session = resetSession s.cfg ∧
        t.seq = .idle ∧ t.ret = [] ∧ t.compl = { ok := false, err := 0, rdata := 0 } ∧ t.dp.cap = [] ∧
        t.dp.fetch = false ∧ t.inputs = rest

/-- The machine after reset meets the invariant, and so does the reset state of every parameter set that satisfies R8 (R45,
R350, R353). That the default parameters satisfy R8 rests on the defaults the spec takes from general knowledge, the opcode
bytes, the order codes and the tag base among them (R7, notes/assumptions/2.md); the second clause rests on none. That a
parameter set has the sizes of R6 is the model's choice (notes/assumptions/21.md). -/
def Obligations.InvariantHoldsAtReset : Prop :=
  Inv State.reset ∧ ∀ P : Params, paramsWf P = true → Inv (resetWith P)

/-- Every step keeps the invariant (R8, R23, R24, R27, R33, R37, R287, R310, R353 in one; the canonical form of the host
memory is the model's own; steps that are presented the bytes of a frame or chunk are its choice, notes/assumptions/7.md).
That every reset samples the same chunk size and transfer style, because no input changes the configuration, is the model's
choice (notes/assumptions/27.md). -/
def Obligations.EveryStepKeepsTheInvariant : Prop :=
  ∀ s t : State, Inv s → step s = .next t → Inv t

/-! ## The CRC -/

/-- The byte step through the table and the bit-serial network are the same function, for every polynomial (R124). -/
def Obligations.TableStepIsSerialStep : Prop :=
  ∀ (poly c : BitVec 7) (b : Byte), crcStep poly c b = crcSerial poly c b

/-- The table is 0 at 0, the polynomial at 1, and linear, for every polynomial (R122). -/
def Obligations.CrcTableIsLinear : Prop :=
  ∀ (poly : BitVec 7) (i j : Byte),
    crcTable poly 0 = 0 ∧ crcTable poly 1 = poly ∧ crcTable poly (i ^^^ j) = crcTable poly i ^^^ crcTable poly j

/-- Concatenation, empty input, residue, range and zero data (R127), for every polynomial and seed. -/
def Obligations.CrcConcatenatesAndLeavesNoResidue : Prop :=
  ∀ (P : Params) (c : BitVec 7) (a b f : List Byte) (n : Nat),
    crc7 P.crc7Poly (crc7 P.crc7Poly c a) b = crc7 P.crc7Poly c (a ++ b) ∧
      crc7 P.crc7Poly c [] = c ∧
      (P.crc7Seed = 0x7F → ckByte P [] = 0xFE) ∧
      crc7 P.crc7Poly P.crc7Seed (f ++ [ckByte P f]) = 0 ∧
      (crc7 P.crc7Poly c a).toNat < 0x80 ∧
      crc7 P.crc7Poly 0 (zeros n) = 0

/-- The byte added at the end of a frame in checksum mode has bit 0 zero, and its bits 7 to 1 are the CRC of the frame's
other bytes (R126), for the one checksum byte `CMD_CK_LEN` states (R6). -/
def Obligations.ChecksumByteHoldsTheCrc : Prop :=
  ∀ (P : Params) (f : List Byte), P.cmdCkLen = 1 →
    withCk P true f = f ++ [ckByte P f] ∧ (ckByte P f).getLsbD 0 = false ∧ (ckByte P f >>> 1) = (crc7 P.crc7Poly P.crc7Seed f).zeroExtend 8

/-! ## The framer -/

/-- Building the frame of one of the 11 commands succeeds, puts the body and, with checksum mode on, its checksum byte into
the buffer, sets `FLEN` to the length of its format, and changes nothing but `CRC`, `FB`, `FLEN` and the sequencer; no
port event occurs (R140, R153, R156). -/
def Obligations.BuiltFrameStandsInTheBuffer : Prop :=
  ∀ (s : State) (k : Cmd) (addr data size : Word) (cl : Bool), paramsWf s.cfg = true →
    ∃ t : State, buildFrame (opcOf s.cfg.opc k) addr data size cl s = (.ok (), t) ∧
      frameOf t = withCk s.cfg s.session.checksumEnabled (cmdBody s.cfg k addr data size cl) ∧
      t.dp.flen.toNat = frameLen s.cfg k s.session.checksumEnabled ∧
      t = { s with seq := .build, dp := { s.dp with crc := t.dp.crc, fb := t.dp.fb, flen := t.dp.flen } }

/-- A byte that is none of the 11 opcodes: `InvalidOpcode`, neither `FB` nor `FLEN` written, nothing sent, and the error is
not retried (R154). -/
def Obligations.UnrecognisedOpcodeBuildsNothing : Prop :=
  ∀ (s : State) (b : Byte) (addr data size : Word) (cl : Bool), (∀ k : Cmd, opcOf s.cfg.opc k ≠ b) →
    ∃ t : State, buildFrame b addr data size cl s = (.err .invalidOpcode, t) ∧ t.dp.fb = s.dp.fb ∧
      t.dp.flen = s.dp.flen ∧ t.trace = s.trace ∧ t.answers = s.answers ∧ retryable .invalidOpcode = false

/-! ## The parser, on a fixed capture -/

/-- The echo is checked before the status and both before anything else, whatever follows; a reset-class response is
checked behind one skipped byte of any value (R173, R174, R175, R180). The byte checked is latched in `R_ECHO` or `R_STATUS`
also when it is wrong; a failed check consumes no further byte and makes no port event; no other response register
changes (R32). -/
def Obligations.EchoThenStatusDecide : Prop :=
  ∀ (s : State) (k : Cmd) (skip e st : Byte) (rest : List Byte), paramsWf s.cfg = true →
    (e ≠ opcOf s.cfg.opc k →
      ∃ u : State, parseLoaded (opcOf s.cfg.opc k) ((if classOf k = .resetClass then [skip] else []) ++ e :: rest) s =
          (.err .commandEchoMismatch, u) ∧
        u.dp.cap = rest ∧ u.trace = s.trace ∧ responseRegs u.dp = { responseRegs s.dp with echo := e }) ∧
    (st ≠ s.cfg.statusOk →
      ∃ u : State, parseLoaded (opcOf s.cfg.opc k)
          ((if classOf k = .resetClass then [skip] else []) ++ opcOf s.cfg.opc k :: st :: rest) s = (.err .badStatus, u) ∧
        u.dp.cap = rest ∧ u.trace = s.trace ∧
        responseRegs u.dp = { responseRegs s.dp with echo := opcOf s.cfg.opc k, status := st }) ∧
    (classOf k = .resetClass ∨ classOf k = .writeClass →
      ∃ u : State, parseLoaded (opcOf s.cfg.opc k)
          ((if classOf k = .resetClass then [skip] else []) ++ opcOf s.cfg.opc k :: s.cfg.statusOk :: rest) s =
          (.ok { status := s.cfg.statusOk, payload := [], trailing := none }, u) ∧
        u.dp.cap = rest ∧ u.trace = s.trace ∧
        responseRegs u.dp = { responseRegs s.dp with echo := opcOf s.cfg.opc k, status := s.cfg.statusOk })

/-- The sentinel scan examines at most `SCAN_BUDGET` bytes: a budget of bytes without a sentinel is `ResetRequired`,
whatever follows, and so is a capture that ends during the scan; a sentinel within the budget ends the scan (R176, R181).
`SCAN_CNT` counts the bytes examined (R36), `R_HDR` takes the sentinel and is kept when none is found (R32), the bytes behind
stay captured, and a bulk read ends there with fetching on (R179). -/
def Obligations.ScanIsBoundedByItsBudget : Prop :=
  ∀ (s : State) (k : Cmd) (waits rest : List Byte), paramsWf s.cfg = true →
    classOf k = .registerRead ∨ classOf k = .bulkRead → (∀ w ∈ waits, isSentinel s.cfg w = false) →
      (waits.length = s.cfg.scanBudget →
        ∃ u : State, parseLoaded (opcOf s.cfg.opc k) ([opcOf s.cfg.opc k, s.cfg.statusOk] ++ waits ++ rest) s =
            (.err .resetRequired, u) ∧
          u.dp.cap = rest ∧
          responseRegs u.dp =
            { responseRegs s.dp with echo := opcOf s.cfg.opc k, status := s.cfg.statusOk, scanCnt := s.cfg.scanBudget }) ∧
      (waits.length < s.cfg.scanBudget →
        ∃ u : State, parseLoaded (opcOf s.cfg.opc k) ([opcOf s.cfg.opc k, s.cfg.statusOk] ++ waits) s =
            (.err .resetRequired, u) ∧
          responseRegs u.dp =
            { responseRegs s.dp with echo := opcOf s.cfg.opc k, status := s.cfg.statusOk, scanCnt := waits.length }) ∧
      (∀ h : Byte, isSentinel s.cfg h = true → waits.length < s.cfg.scanBudget → classOf k = .bulkRead →
        ∃ u : State, parseLoaded (opcOf s.cfg.opc k) ([opcOf s.cfg.opc k, s.cfg.statusOk] ++ waits ++ h :: rest) s =
            (.ok { status := s.cfg.statusOk, payload := [], trailing := none }, u) ∧
          u.dp.cap = rest ∧ u.dp.fetch = true ∧
          responseRegs u.dp =
            { responseRegs s.dp with
              echo := opcOf s.cfg.opc k, status := s.cfg.statusOk, header := h, scanCnt := waits.length + 1 })

/-- The four bytes behind the sentinel are the payload and, with checksum mode on, the next two the trailing pair, compared
with nothing (R177, R178, R182); the response registers hold what was taken, `R_CK_VALID` the checksum mode (R32); a capture
that ends in one of these fields is `FrameTooShort` (R181). -/
def Obligations.PayloadStandsBehindTheSentinel : Prop :=
  ∀ (s : State) (k : Cmd) (r : Reply) (rest cut : List Byte), paramsWf s.cfg = true → classOf k = .registerRead →
    r.Good s.cfg 4 →
      (∃ u : State, parseLoaded (opcOf s.cfg.opc k)
          ((replyFields s.cfg k s.session.checksumEnabled r).flatten ++ rest) s =
          (.ok { status := s.cfg.statusOk, payload := r.payload
                 trailing := if s.session.checksumEnabled then some (bytes2 r.ck) else none }, u) ∧
        u.dp.cap = rest ∧ u.trace = s.trace ∧
        responseRegs u.dp = regsAfter s.cfg k s.session.checksumEnabled r (responseRegs s.dp)) ∧
      (cut.length < (dataFields s.session.checksumEnabled r).flatten.length →
        parseRaw (opcOf s.cfg.opc k)
            ([opcOf s.cfg.opc k, s.cfg.statusOk] ++ r.waits ++ r.header :: cut) s = .err .frameTooShort)

/-- A capture that ends in the skip, echo or status field is `FrameTooShort` (R181, R315). -/
def Obligations.HeaderCutShortIsFrameTooShort : Prop :=
  ∀ (s : State) (k : Cmd) (skip : Byte), paramsWf s.cfg = true →
    parseRaw (opcOf s.cfg.opc k) [] s = .err .frameTooShort ∧
      parseRaw (opcOf s.cfg.opc k) (if classOf k = .resetClass then [skip] else []) s = .err .frameTooShort ∧
      parseRaw (opcOf s.cfg.opc k) ((if classOf k = .resetClass then [skip] else []) ++ [opcOf s.cfg.opc k]) s =
        .err .frameTooShort

/-! ## Every instruction completes somewhere -/

/-- `SINGLE_READ` and `INTERNAL_READ` on their own, answered well: one exchange of their frame, completed with the payload's
value in the configured byte order; the response registers hold the reply (R32, R36, R58, R141, R142, R174 to R178, R200).
That a packet may ask for one alone is the model's choice (notes/assumptions/7.md). That registers other than those of the
session and the completion show these values after the completion is the model's choice (notes/assumptions/26.md). -/
def Obligations.RegisterReadCommandCompletes : Prop :=
  ∀ (i : Instr) (k : Cmd) (addr data size : Word) (cl : Bool) (s : State) (r : Reply) (x : Talk) (more : List Answer),
    wireOperands i = some (k, addr, data, size, cl) → classOf k = .registerRead → paramsWf s.cfg = true →
    Answers s.cfg s.session.xferStyle s.session.checksumEnabled k r x →
    s.answers = exchangeAnswers s.cfg s.session.xferStyle k s.session.checksumEnabled x ++ more →
      ∃ t : State, exec i s = .next t ∧
        Completes s t (okWith (payloadValue s.cfg.rdPayloadOrder r.payload))
          (exchangePorts s.cfg s.session.xferStyle k s.session.checksumEnabled
            (withCk s.cfg s.session.checksumEnabled (cmdBody s.cfg k addr data size cl)) x) more ∧
        responseRegs t.dp = regsAfter s.cfg k s.session.checksumEnabled r (responseRegs s.dp)

/-- `SINGLE_WRITE`, `INTERNAL_WRITE`, `DMA_WRITE` and `DMA_EXT_WRITE` on their own, answered well: one exchange of their
frame, done when echo and idle status are received, which alone of the response registers are written (R32, R146, R148, R150,
R151, R175, R201). That a packet may ask for one alone is the model's choice (notes/assumptions/7.md). That registers other
than those of the session and the completion show these values after the completion is the model's choice
(notes/assumptions/26.md). -/
def Obligations.WriteCommandCompletes : Prop :=
  ∀ (i : Instr) (k : Cmd) (addr data size : Word) (cl : Bool) (s : State) (r : Reply) (x : Talk) (more : List Answer),
    wireOperands i = some (k, addr, data, size, cl) → classOf k = .writeClass → paramsWf s.cfg = true →
    Answers s.cfg s.session.xferStyle s.session.checksumEnabled k r x →
    s.answers = exchangeAnswers s.cfg s.session.xferStyle k s.session.checksumEnabled x ++ more →
      ∃ t : State, exec i s = .next t ∧
        Completes s t (okWith 0)
          (exchangePorts s.cfg s.session.xferStyle k s.session.checksumEnabled
            (withCk s.cfg s.session.checksumEnabled (cmdBody s.cfg k addr data size cl)) x) more ∧
        responseRegs t.dp = regsAfter s.cfg k s.session.checksumEnabled r (responseRegs s.dp)

/-- `RESET`, `TERMINATE` and `REPEAT` on their own, answered well: one exchange of their frame, the skip byte of any value and
kept nowhere (R32, R143, R144, R145, R173, R205). That a packet may ask for one alone is the model's choice
(notes/assumptions/7.md). That registers other than those of the session and the completion show these values after the
completion is the model's choice (notes/assumptions/26.md). -/
def Obligations.ResetClassCommandCompletes : Prop :=
  ∀ (i : Instr) (k : Cmd) (addr data size : Word) (cl : Bool) (s : State) (r : Reply) (x : Talk) (more : List Answer),
    wireOperands i = some (k, addr, data, size, cl) → classOf k = .resetClass → paramsWf s.cfg = true →
    Answers s.cfg s.session.xferStyle s.session.checksumEnabled k r x →
    s.answers = exchangeAnswers s.cfg s.session.xferStyle k s.session.checksumEnabled x ++ more →
      ∃ t : State, exec i s = .next t ∧
        Completes s t (okWith 0)
          (exchangePorts s.cfg s.session.xferStyle k s.session.checksumEnabled
            (withCk s.cfg s.session.checksumEnabled (cmdBody s.cfg k addr data size cl)) x) more ∧
        responseRegs t.dp = regsAfter s.cfg k s.session.checksumEnabled r (responseRegs s.dp)

/-- `DMA_READ` and `DMA_EXT_READ` on their own, answered well: one exchange that ends with the sentinel of the first chunk;
the reader is handed over fetching, with the payload bytes that were captured behind the sentinel, and of the response
registers `R_PAYLOAD`, `R_CK` and `R_CK_VALID` are kept (R32, R36, R147, R149, R179, R241). That a packet may ask for one
alone is the model's choice (notes/assumptions/7.md). That `CAP` and `FETCH` keep these contents past the completion is the
model's choice (notes/assumptions/17.md): R31 has bytes left over discarded at the end of an operation. That registers other
than those of the session and the completion show these values after the completion is the model's choice
(notes/assumptions/26.md). -/
def Obligations.BulkReadCommandHandsOverTheReader : Prop :=
  ∀ (i : Instr) (k : Cmd) (addr data size : Word) (cl : Bool) (s : State) (r : Reply) (x : Talk) (more : List Answer),
    wireOperands i = some (k, addr, data, size, cl) → classOf k = .bulkRead → paramsWf s.cfg = true →
    Answers s.cfg s.session.xferStyle s.session.checksumEnabled k r x →
    s.answers = exchangeAnswers s.cfg s.session.xferStyle k s.session.checksumEnabled x ++ more →
      ∃ t : State, exec i s = .next t ∧
        Completes s t (okWith 0)
          (exchangePorts s.cfg s.session.xferStyle k s.session.checksumEnabled
            (withCk s.cfg s.session.checksumEnabled (cmdBody s.cfg k addr data size cl)) x) more ∧
        t.dp.fetch = true ∧
        responseRegs t.dp = regsAfter s.cfg k s.session.checksumEnabled r (responseRegs s.dp) ∧
        t.dp.cap = (if s.session.xferStyle = .combined then
          x.extra.take (padOf s.cfg.pad .bulkRead s.session.checksumEnabled - x.fields.flatten.length) else [])

/-- A write chunk on its own, its payload of any length (R89, R157 to R160, R236, R239): one `transmit` of the tag byte, the
payload and, with checksum mode on, two zero bytes; it completes well when the transport took it and with `TransportError`
when not; `B_N` and `B_TAG` are those of the chunk; nothing is read back (R243). That a packet may ask for one alone is the
model's choice (notes/assumptions/7.md), and so is what happens to a payload of a length that R157 to R160 do not allow, of
which `B_N` keeps the low 14 bits (notes/assumptions/22.md). That registers other than those of the session and the completion
show these values after the completion is the model's choice (notes/assumptions/26.md). -/
def Obligations.WriteChunkGoesOutOnce : Prop :=
  ∀ (i : Instr) (tag : OrderTag) (p : List Byte) (s : State) (ok : Bool) (b : List Byte) (more : List Answer),
    chunkOperands i = some (tag, p) → s.answers = { ok := ok, bytes := b } :: more →
      ∃ t : State, exec i s = .next t ∧
        Completes s t (if ok then okWith 0 else failedWith .transportError)
          [.transmit (chunkFrame s.cfg tag p s.session.checksumEnabled) ok] more ∧
        t.bulk = { s.bulk with n := BitVec.ofNat 14 p.length, tag := tag }

/-- `RDREG` answered well at the first attempt: the exchange its address is routed to, compared on all 32 bits, completed with
the value read; `Q_OP` and `Q_ADDR` hold the request (R38, R203, R209). That the other latches are those of the state `exec`
starts from is the model's reading (notes/assumptions/13.md); the step has latched the whole request there. The response
registers hold the reply (R32). That registers other than those of the session and the completion show these values after the
completion is the model's choice (notes/assumptions/26.md). -/
def Obligations.ReadRegisterCompletes : Prop :=
  ∀ (s : State) (addr : Word) (r : Reply) (x : Talk) (more : List Answer), paramsWf s.cfg = true →
    Answers s.cfg s.session.xferStyle s.session.checksumEnabled (readRoute s.cfg addr).1 r x →
    s.answers = exchangeAnswers s.cfg s.session.xferStyle (readRoute s.cfg addr).1 s.session.checksumEnabled x ++ more →
      ∃ t : State, exec (.rdreg addr) s = .next t ∧
        Completes s t (okWith (payloadValue s.cfg.rdPayloadOrder r.payload))
          (exchangePorts s.cfg s.session.xferStyle (readRoute s.cfg addr).1 s.session.checksumEnabled
            (withCk s.cfg s.session.checksumEnabled
              (cmdBody s.cfg (readRoute s.cfg addr).1 addr 0 0 (readRoute s.cfg addr).2)) x) more ∧
        t.req = { s.req with op := 0x1, addr := addr } ∧
        responseRegs t.dp =
          regsAfter s.cfg (readRoute s.cfg addr).1 s.session.checksumEnabled r (responseRegs s.dp)

/-- `WRREG` answered well at the first attempt: the exchange its address is routed to, with the data in the frame; the latches
hold address and data (R38, R204, R209). That the other latches are those of the state `exec` starts from is the model's
reading (notes/assumptions/13.md); the step has latched the whole request there. That registers other than those of the
session and the completion show these values after the completion is the model's choice (notes/assumptions/26.md). -/
def Obligations.WriteRegisterCompletes : Prop :=
  ∀ (s : State) (addr wdata : Word) (r : Reply) (x : Talk) (more : List Answer), paramsWf s.cfg = true →
    Answers s.cfg s.session.xferStyle s.session.checksumEnabled (writeRoute s.cfg addr).1 r x →
    s.answers = exchangeAnswers s.cfg s.session.xferStyle (writeRoute s.cfg addr).1 s.session.checksumEnabled x ++ more →
      ∃ t : State, exec (.wrreg addr wdata) s = .next t ∧
        Completes s t (okWith 0)
          (exchangePorts s.cfg s.session.xferStyle (writeRoute s.cfg addr).1 s.session.checksumEnabled
            (withCk s.cfg s.session.checksumEnabled
              (cmdBody s.cfg (writeRoute s.cfg addr).1 addr wdata 0 (writeRoute s.cfg addr).2)) x) more ∧
        t.req = { s.req with op := 0x2, addr := addr, wdata := wdata }

/-- `RSTBUS`: one `RESET` exchange, no retry, no delay and no log event, whatever the peer answers; it completes well when
echo and idle status are received, with `TransportError` after a failed transport call, with `BadStatus` after another status
and with `CommandEchoMismatch` after another echo (R174, R175, R206). -/
def Obligations.BusResetIsOneAttempt : Prop :=
  ∀ (s : State) (more : List Answer), paramsWf s.cfg = true →
    (∀ (r : Reply) (x : Talk), Answers s.cfg s.session.xferStyle s.session.checksumEnabled .reset r x →
      s.answers = exchangeAnswers s.cfg s.session.xferStyle .reset s.session.checksumEnabled x ++ more →
        ∃ t : State, exec .rstbus s = .next t ∧
          Completes s t (okWith 0)
            (exchangePorts s.cfg s.session.xferStyle .reset s.session.checksumEnabled
              (resetFrame s.cfg s.session.checksumEnabled) x) more) ∧
    (∀ b : List Byte, s.answers = { ok := false, bytes := b } :: more →
      ∃ t : State, exec .rstbus s = .next t ∧
        Completes s t (failedWith .transportError)
          [deadExchange s.cfg s.session.xferStyle .reset s.session.checksumEnabled
            (resetFrame s.cfg s.session.checksumEnabled)] more) ∧
    (∀ (skip b : Byte) (x : Talk) (c : Cause),
      (Nacks s.cfg s.session.xferStyle s.session.checksumEnabled .reset skip b x ∧ c = .badStatus ∨
        Misechoes s.cfg s.session.xferStyle s.session.checksumEnabled .reset skip b x ∧ c = .commandEchoMismatch) →
      s.answers = exchangeAnswers s.cfg s.session.xferStyle .reset s.session.checksumEnabled x ++ more →
        ∃ t : State, exec .rstbus s = .next t ∧
          Completes s t (failedWith c)
            (exchangePorts s.cfg s.session.xferStyle .reset s.session.checksumEnabled
              (resetFrame s.cfg s.session.checksumEnabled) x) more) ∧
    (∀ (t : State) (ev : List Event), exec .rstbus s = .next t → t.trace = s.trace ++ ev →
      attemptsIn s.ret ev = 1 ∧ resetsIn s.ret ev = 0 ∧ delaysIn ev = 0 ∧ logsIn .resetFailed ev = 0 ∧
        logsIn .unexpectedInterruptBits ev = 0 ∧
        ∀ e ∈ ev, portBytes e.port = [] ∨
          portBytes e.port = exchangeBytes s.cfg s.session.xferStyle .reset s.session.checksumEnabled
            (resetFrame s.cfg s.session.checksumEnabled))

/-- `WRBULK` of an admitted length, answered well at the first attempt: one `DMA_EXT_WRITE` exchange, then exactly the pieces
of the transfer, each one `transmit` with its tag and payload from the host buffer, and nothing read back (R233, R234, R236,
R238, R239, R243). `B_OFF` has reached the length (R35). That `Q_WDATA` is that of the state `exec` starts from is the model's
reading (notes/assumptions/13.md); the step has latched the whole request there. That the host leaves the buffer alone during
the operation is the model's choice (notes/assumptions/24.md). That registers other than those of the session and the
completion show these values after the completion is the model's choice (notes/assumptions/26.md). -/
def Obligations.BulkWriteSendsEveryPiece : Prop :=
  ∀ (s : State) (addr len buf : Word) (r : Reply) (x : Talk) (acks : List (List Byte)) (more : List Answer),
    paramsWf s.cfg = true → bulkRejected s.cfg len = false →
    Answers s.cfg s.session.xferStyle s.session.checksumEnabled .dmaExtWrite r x →
    acks.length = (segments len.toNat (chunkBytes s.cfg.chunkSizes s.session.chunkSize)).length →
    s.answers = exchangeAnswers s.cfg s.session.xferStyle .dmaExtWrite s.session.checksumEnabled x ++
      (acks.map fun b => { ok := true, bytes := b }) ++ more →
      ∃ t : State, exec (.wrbulk addr len buf) s = .next t ∧
        Completes s t (okWith 0)
          (exchangePorts s.cfg s.session.xferStyle .dmaExtWrite s.session.checksumEnabled
              (withCk s.cfg s.session.checksumEnabled (cmdBody s.cfg .dmaExtWrite addr 0 len false)) x ++
            chunkPorts s.cfg s.mem buf len.toNat (chunkBytes s.cfg.chunkSizes s.session.chunkSize) s.session.checksumEnabled) more ∧
        t.bulk.addr = addr.truncate 24 ∧ t.bulk.len.toNat = len.toNat ∧ t.bulk.off.toNat = len.toNat ∧
        t.req = { s.req with op := 0x4, addr := addr, len := len, buf := buf }

/-- `RDBULK` of an admitted length, answered well at the first attempt in either transfer style: one `DMA_EXT_READ` exchange
whose capture may hold the first bytes of the transfer, then the `receive` calls for the rest; each later piece behind a
sentinel of its own, each checksum pair taken and dropped; the host buffer holds exactly the payload bytes in order and no
other byte of host memory changes (R54, R171, R179, R233, R237, R240, R241). `R_HDR` and `SCAN_CNT` are those of the last
piece's scan; the payload and the checksum pairs go into no response register (R32, R36, R241). The premise on the memory is
the invariant's. That registers other than those of the session and the completion show these values after the completion is
the model's choice (notes/assumptions/26.md). -/
def Obligations.BulkReadFillsTheBuffer : Prop :=
  ∀ (s : State) (addr len buf : Word) (r : Reply) (later : List Reply) (x : Talk) (more : List Answer),
    paramsWf s.cfg = true → memWf s.mem = true → bulkRejected s.cfg len = false →
    (r :: later).map (fun c => c.payload.length) =
      (segments len.toNat (chunkBytes s.cfg.chunkSizes s.session.chunkSize)).map (fun p => p.2) →
    (∀ c ∈ r :: later, c.Good s.cfg c.payload.length) →
    x.fields = bulkReadFields s.cfg s.session.checksumEnabled r later →
    x.Fits s.cfg s.session.xferStyle .dmaExtRead s.session.checksumEnabled
      (replyFields s.cfg .dmaExtRead s.session.checksumEnabled r).flatten.length →
    s.answers = exchangeAnswers s.cfg s.session.xferStyle .dmaExtRead s.session.checksumEnabled x ++ more →
      ∃ t : State, exec (.rdbulk addr len buf) s = .next t ∧
        Completes s t (okWith 0)
          (exchangePorts s.cfg s.session.xferStyle .dmaExtRead s.session.checksumEnabled
            (withCk s.cfg s.session.checksumEnabled (cmdBody s.cfg .dmaExtRead addr 0 len false)) x) more ∧
        (∀ j : Nat, j < len.toNat →
          memRead t.mem (bufAddr buf j) = ((r :: later).map fun c => c.payload).flatten.getD j 0) ∧
        (∀ a : Nat, ¬ (bufAddr buf 0 ≤ a ∧ a < bufAddr buf 0 + len.toNat) → memRead t.mem a = memRead s.mem a) ∧
        responseRegs t.dp =
          regsAfter s.cfg .dmaExtRead s.session.checksumEnabled ((r :: later).getLastD r) (responseRegs s.dp)

/-- `RDPEND` and `CLRINT` with their address configured, answered well at the first attempt: the register read completed
with the whole value, the register write of the mask as given (R297, R299). -/
def Obligations.PendingReadAndInterruptClearComplete : Prop :=
  ∀ (s : State) (a mask : Word) (r : Reply) (x : Talk) (more : List Answer), paramsWf s.cfg = true →
    (s.cfg.pendingSizeAddr = some a →
      Answers s.cfg s.session.xferStyle s.session.checksumEnabled (readRoute s.cfg a).1 r x →
      s.answers = exchangeAnswers s.cfg s.session.xferStyle (readRoute s.cfg a).1 s.session.checksumEnabled x ++ more →
        ∃ t : State, exec .rdpend s = .next t ∧
          Completes s t (okWith (payloadValue s.cfg.rdPayloadOrder r.payload))
            (exchangePorts s.cfg s.session.xferStyle (readRoute s.cfg a).1 s.session.checksumEnabled
              (withCk s.cfg s.session.checksumEnabled
                (cmdBody s.cfg (readRoute s.cfg a).1 a 0 0 (readRoute s.cfg a).2)) x) more) ∧
    (s.cfg.intClearAddr = some a →
      Answers s.cfg s.session.xferStyle s.session.checksumEnabled (writeRoute s.cfg a).1 r x →
      s.answers = exchangeAnswers s.cfg s.session.xferStyle (writeRoute s.cfg a).1 s.session.checksumEnabled x ++ more →
        ∃ t : State, exec (.clrint mask) s = .next t ∧
          Completes s t (okWith 0)
            (exchangePorts s.cfg s.session.xferStyle (writeRoute s.cfg a).1 s.session.checksumEnabled
              (withCk s.cfg s.session.checksumEnabled
                (cmdBody s.cfg (writeRoute s.cfg a).1 a mask 0 (writeRoute s.cfg a).2)) x) more)

/-- `RDINT` with its parameters configured, whose reads are answered well (R298). After fewer than `MAX_RETRY` reads that each
show a line beyond the recorded count it reads again; the first value that shows none completes it, and nothing is logged.
When the value of read number `MAX_RETRY` still shows one, that value completes it as it is, behind the log event. There is
one exchange for each read and no other port event. That `INT_LINES_FIELD` is eight adjacent bits of the value is the model's
coding (notes/assumptions/14.md). -/
def Obligations.InterruptReadCompletes : Prop :=
  ∀ (s : State) (c : IntStatus) (l : List (Reply × Talk)) (r : Reply) (x : Talk) (more : List Answer),
    paramsWf s.cfg = true → s.cfg.intStatus = some c → l.length < s.cfg.maxRetry →
    (∀ p ∈ l, Answers s.cfg s.session.xferStyle s.session.checksumEnabled (readRoute s.cfg c.addr).1 p.1 p.2 ∧
      (intLinesField c (payloadValue s.cfg.rdPayloadOrder p.1.payload)) >>> s.session.interruptLineCount.toNat ≠ 0) →
    Answers s.cfg s.session.xferStyle s.session.checksumEnabled (readRoute s.cfg c.addr).1 r x →
    s.answers =
      runAnswers s.cfg s.session.xferStyle (readRoute s.cfg c.addr).1 s.session.checksumEnabled (l ++ [(r, x)]) ++ more →
      ((intLinesField c (payloadValue s.cfg.rdPayloadOrder r.payload)) >>> s.session.interruptLineCount.toNat = 0 →
        ∃ t : State, exec .rdint s = .next t ∧
          Completes s t (okWith (payloadValue s.cfg.rdPayloadOrder r.payload))
            (runPorts s.cfg s.session.xferStyle (readRoute s.cfg c.addr).1 s.session.checksumEnabled
              (withCk s.cfg s.session.checksumEnabled
                (cmdBody s.cfg (readRoute s.cfg c.addr).1 c.addr 0 0 (readRoute s.cfg c.addr).2)) (l ++ [(r, x)])) more) ∧
      ((intLinesField c (payloadValue s.cfg.rdPayloadOrder r.payload)) >>> s.session.interruptLineCount.toNat ≠ 0 →
        l.length + 1 = s.cfg.maxRetry →
        ∃ t : State, exec .rdint s = .next t ∧
          Completes s t (okWith (payloadValue s.cfg.rdPayloadOrder r.payload))
            (runPorts s.cfg s.session.xferStyle (readRoute s.cfg c.addr).1 s.session.checksumEnabled
                (withCk s.cfg s.session.checksumEnabled
                  (cmdBody s.cfg (readRoute s.cfg c.addr).1 c.addr 0 0 (readRoute s.cfg c.addr).2)) (l ++ [(r, x)]) ++
              [.log .unexpectedInterruptBits]) more)

/-- A completed `RDINT` has logged `UnexpectedInterruptBits` once when the value it returns shows a line beyond the recorded
count and not at all otherwise, nor when it fails; it never makes more than `MAX_RETRY` times `MAX_RETRY` attempts
(R298, R370, R372). That `INT_LINES_FIELD` is eight adjacent bits of the value is the model's coding
(notes/assumptions/14.md). -/
def Obligations.InterruptReadIsCapped : Prop :=
  ∀ (s t : State) (c : IntStatus) (ev : List Event), paramsWf s.cfg = true → s.cfg.intStatus = some c →
    exec .rdint s = .next t → t.trace = s.trace ++ ev →
      attemptsIn s.ret ev ≤ s.cfg.maxRetry * s.cfg.maxRetry ∧
        (t.compl.ok = true →
          logsIn .unexpectedInterruptBits ev =
            if (intLinesField c t.compl.rdata) >>> s.session.interruptLineCount.toNat = 0 then 0 else 1) ∧
        (t.compl.ok = false → logsIn .unexpectedInterruptBits ev = 0)

/-- `SYNC` with its parameters configured and a count of at most 8, answered well: the enable register is read and written
back with the value for the count, then the count is recorded (R300). That `INT_ENABLE_VALUE` is a mask and a list of values
is the model's coding (notes/assumptions/14.md). -/
def Obligations.SynchronizeCompletes : Prop :=
  ∀ (s : State) (c : IntEnable) (count : Word) (r1 r2 : Reply) (x1 x2 : Talk) (more : List Answer),
    paramsWf s.cfg = true → s.cfg.intEnable = some c → count.toNat ≤ s.cfg.intLinesMax →
    Answers s.cfg s.session.xferStyle s.session.checksumEnabled (readRoute s.cfg c.addr).1 r1 x1 →
    Answers s.cfg s.session.xferStyle s.session.checksumEnabled (writeRoute s.cfg c.addr).1 r2 x2 →
    s.answers =
      exchangeAnswers s.cfg s.session.xferStyle (readRoute s.cfg c.addr).1 s.session.checksumEnabled x1 ++
        exchangeAnswers s.cfg s.session.xferStyle (writeRoute s.cfg c.addr).1 s.session.checksumEnabled x2 ++ more →
      ∃ t : State, exec (.sync count) s = .next t ∧
        Completes s t (okWith 0)
          (exchangePorts s.cfg s.session.xferStyle (readRoute s.cfg c.addr).1 s.session.checksumEnabled
              (withCk s.cfg s.session.checksumEnabled
                (cmdBody s.cfg (readRoute s.cfg c.addr).1 c.addr 0 0 (readRoute s.cfg c.addr).2)) x1 ++
            exchangePorts s.cfg s.session.xferStyle (writeRoute s.cfg c.addr).1 s.session.checksumEnabled
              (withCk s.cfg s.session.checksumEnabled
                (cmdBody s.cfg (writeRoute s.cfg c.addr).1 c.addr
                  (intEnableValue c (payloadValue s.cfg.rdPayloadOrder r1.payload) count.toNat) 0
                  (writeRoute s.cfg c.addr).2)) x2) more ∧
        t.session = { s.session with interruptLineCount := count.truncate 4 }

/-- `NEGOTIATE` of a session not negotiated, with a peer that answers every access well at the first attempt: probe, read
and write with the checksum byte, identity read without; the write clears the enforcement bits and selects the chunk size;
afterwards checksum mode is off, the session negotiated, nothing else of it changed (R281, R283 to R287, R289, R290). And
with a peer that NACKs every command with a checksum byte, answers the bus resets, and answers every command without one
(R284, R291): `MAX_RETRY` attempts of the probe, `MAX_RETRY` of the read, the read again without the checksum byte, step 3
skipped, the identity read; the session ends alike. -/
def Obligations.NegotiationSucceeds : Prop :=
  (∀ (s : State) (r1 r2 r3 r4 : Reply) (x1 x2 x3 x4 : Talk) (more : List Answer),
    paramsWf s.cfg = true → s.session.negotiated = false →
    Answers s.cfg s.session.xferStyle true .internalRead r1 x1 →
    Answers s.cfg s.session.xferStyle true .internalRead r2 x2 →
    Answers s.cfg s.session.xferStyle true .internalWrite r3 x3 →
    Answers s.cfg s.session.xferStyle false (readRoute s.cfg s.cfg.chipIdAddr).1 r4 x4 →
    chipIdAccepts s.cfg.chipIdOk (payloadValue s.cfg.rdPayloadOrder r4.payload) = true →
    s.answers =
      exchangeAnswers s.cfg s.session.xferStyle .internalRead true x1 ++
        exchangeAnswers s.cfg s.session.xferStyle .internalRead true x2 ++
        exchangeAnswers s.cfg s.session.xferStyle .internalWrite true x3 ++
        exchangeAnswers s.cfg s.session.xferStyle (readRoute s.cfg s.cfg.chipIdAddr).1 false x4 ++ more →
      ∃ t : State, exec .negotiate s = .next t ∧
        Completes s t (okWith 0)
          (exchangePorts s.cfg s.session.xferStyle .internalRead true
              (withCk s.cfg true (cmdBody s.cfg .internalRead s.cfg.probeAddr 0 0 false)) x1 ++
            exchangePorts s.cfg s.session.xferStyle .internalRead true
              (withCk s.cfg true (cmdBody s.cfg .internalRead s.cfg.protoCtrlAddr 0 0 false)) x2 ++
            exchangePorts s.cfg s.session.xferStyle .internalWrite true
              (withCk s.cfg true (cmdBody s.cfg .internalWrite s.cfg.protoCtrlAddr
                (negotiatedReg s.cfg s.session.chunkSize (payloadValue s.cfg.rdPayloadOrder r2.payload)) 0 false)) x3 ++
            exchangePorts s.cfg s.session.xferStyle (readRoute s.cfg s.cfg.chipIdAddr).1 false
              (cmdBody s.cfg (readRoute s.cfg s.cfg.chipIdAddr).1 s.cfg.chipIdAddr 0 0
                (readRoute s.cfg s.cfg.chipIdAddr).2) x4) more ∧
        t.session = { s.session with checksumEnabled := false, negotiated := true }) ∧
  ∀ (s : State) (l1 l2 : List NackedAttempt) (r3 r4 : Reply) (x3 x4 : Talk) (more : List Answer),
    paramsWf s.cfg = true → s.session.negotiated = false →
    l1.length = s.cfg.maxRetry → l2.length = s.cfg.maxRetry →
    (∀ a ∈ l1 ++ l2, a.Legal s.cfg s.session.xferStyle true .internalRead) →
    Answers s.cfg s.session.xferStyle false .internalRead r3 x3 →
    Answers s.cfg s.session.xferStyle false (readRoute s.cfg s.cfg.chipIdAddr).1 r4 x4 →
    chipIdAccepts s.cfg.chipIdOk (payloadValue s.cfg.rdPayloadOrder r4.payload) = true →
    s.answers =
      nackedAnswers s.cfg s.session.xferStyle true .internalRead (l1 ++ l2) ++
        exchangeAnswers s.cfg s.session.xferStyle .internalRead false x3 ++
        exchangeAnswers s.cfg s.session.xferStyle (readRoute s.cfg s.cfg.chipIdAddr).1 false x4 ++ more →
      ∃ t : State, exec .negotiate s = .next t ∧
        Completes s t (okWith 0)
          (nackedPorts s.cfg s.session.xferStyle true .internalRead
              (withCk s.cfg true (cmdBody s.cfg .internalRead s.cfg.probeAddr 0 0 false)) l1 ++
            nackedPorts s.cfg s.session.xferStyle true .internalRead
              (withCk s.cfg true (cmdBody s.cfg .internalRead s.cfg.protoCtrlAddr 0 0 false)) l2 ++
            exchangePorts s.cfg s.session.xferStyle .internalRead false
              (cmdBody s.cfg .internalRead s.cfg.protoCtrlAddr 0 0 false) x3 ++
            exchangePorts s.cfg s.session.xferStyle (readRoute s.cfg s.cfg.chipIdAddr).1 false
              (cmdBody s.cfg (readRoute s.cfg s.cfg.chipIdAddr).1 s.cfg.chipIdAddr 0 0
                (readRoute s.cfg s.cfg.chipIdAddr).2) x4) more ∧
        t.session = { s.session with checksumEnabled := false, negotiated := true }

/-- `NEGOTIATE` of a negotiated session is the liveness probe: one identity read whose value is not looked at; no session
register changes (R282, R292). -/
def Obligations.NegotiatingAgainProbes : Prop :=
  ∀ (s : State) (r : Reply) (x : Talk) (more : List Answer), paramsWf s.cfg = true → s.session.negotiated = true →
    Answers s.cfg s.session.xferStyle s.session.checksumEnabled (readRoute s.cfg s.cfg.chipIdAddr).1 r x →
    s.answers = exchangeAnswers s.cfg s.session.xferStyle (readRoute s.cfg s.cfg.chipIdAddr).1
      s.session.checksumEnabled x ++ more →
      ∃ t : State, exec .negotiate s = .next t ∧
        Completes s t (okWith 0)
          (exchangePorts s.cfg s.session.xferStyle (readRoute s.cfg s.cfg.chipIdAddr).1 s.session.checksumEnabled
            (withCk s.cfg s.session.checksumEnabled
              (cmdBody s.cfg (readRoute s.cfg s.cfg.chipIdAddr).1 s.cfg.chipIdAddr 0 0
                (readRoute s.cfg s.cfg.chipIdAddr).2)) x) more ∧
        t.session = s.session

/-- A request with a host operation code from `0xA` on is the reserved instruction, and that completes at once with
`InvalidOpcode`: no other port event, no state change (R101). -/
def Obligations.ReservedCodeIsInvalidOpcode : Prop :=
  (∀ (s : State) (code : BitVec 4), exec (.reserved code) s = .next (onlyCompleted .invalidOpcode s)) ∧
    (∀ (P : Params) (mid : Bool) (r : Request), 0xA ≤ r.op.toNat → decode P mid (.request r) = .ok (.reserved r.op))

/-- A bulk request of 4 bytes or less, or of more than `0xFFFFFF`, is rejected at once with no other port event and no state
change; one of 5 bytes is not, nor one of `0xFFFFFF`, for the minimum the document states (R231, R242). -/
def Obligations.BulkLengthIsAdmittedOrRejected : Prop :=
  ∀ (s : State) (addr len buf : Word), s.cfg.bulkMin = 5 →
    (len.toNat ≤ 4 ∨ 0xFFFFFF < len.toNat →
      exec (.wrbulk addr len buf) s = .next (onlyCompleted .rejected s) ∧
        exec (.rdbulk addr len buf) s = .next (onlyCompleted .rejected s)) ∧
    (5 ≤ len.toNat → len.toNat ≤ 0xFFFFFF → bulkRejected s.cfg len = false)

/-- `SYNC` of a count above 8, and each of the four surrounding operations whose address is not configured, is rejected at
once with no other port event (R296, R300, R319). Nothing else changes but the latches of the operation and its operand (R38):
those of the fields it does not read are, on `exec`, as before by the model's reading (notes/assumptions/13.md). That an
address is not configured exactly when its function is not (notes/assumptions/25.md), and that `CAP` and `FETCH` are as before
(notes/assumptions/17.md), are the model's choices. That registers other than those of the session and the completion show
these values after the completion is the model's choice (notes/assumptions/26.md). -/
def Obligations.SurroundingOperationsAreRejected : Prop :=
  ∀ (s : State) (w : Word),
    (s.cfg.intLinesMax = 8 → 8 < w.toNat →
      exec (.sync w) s = .next (onlyCompleted .rejected { s with req := { s.req with op := 0x8, wdata := w } })) ∧
    (s.cfg.intEnable = none →
      exec (.sync w) s = .next (onlyCompleted .rejected { s with req := { s.req with op := 0x8, wdata := w } })) ∧
    (s.cfg.pendingSizeAddr = none →
      exec .rdpend s = .next (onlyCompleted .rejected { s with req := { s.req with op := 0x5 } })) ∧
    (s.cfg.intStatus = none →
      exec .rdint s = .next (onlyCompleted .rejected { s with req := { s.req with op := 0x6 } })) ∧
    (s.cfg.intClearAddr = none →
      exec (.clrint w) s = .next (onlyCompleted .rejected { s with req := { s.req with op := 0x7, wdata := w } }))

/-- Every instruction, from every state and whatever the environment answers, ends: its last port event is its completion,
the only one, the sequencer is idle again, and the answers it used are those of its transport calls, in order
(R20, R37, R68, R209, R271). For a wire command or chunk on its own that is the model's choice (notes/assumptions/7.md). -/
def Obligations.EveryInstructionCompletesOnce : Prop :=
  ∀ (i : Instr) (s : State), ∃ (t : State) (ev : List Event), exec i s = .next t ∧ t.seq = .idle ∧ t.ret = s.ret ∧
    t.trace = s.trace ++ ev ++ [{ seq := .done, ret := s.ret, port := .complete t.compl }] ∧ completionsIn ev = 0 ∧
    t.calls = s.calls + callsIn ev ∧ t.answers = s.answers.drop (callsIn ev)

/-! ## Frames -/

/-- A wire command on its own changes no session register, no configuration, no bulk, retry or request register, no byte of
host memory, and nothing that is still to be presented: only the datapath, the sequencer, the completion and the ports (R183,
R351); of the datapath `R_PAYLOAD`, `R_CK` and `R_CK_VALID` only when it is a register read (R32, R177, R178, R241). That a
packet may ask for one alone is the model's choice (notes/assumptions/7.md). That registers other than those of the session
and the completion show these values after the completion is the model's choice (notes/assumptions/26.md). -/
def Obligations.WireCommandFrame : Prop :=
  ∀ (i : Instr) (k : Cmd) (addr data size : Word) (cl : Bool) (s t : State),
    wireOperands i = some (k, addr, data, size, cl) → exec i s = .next t →
    t.cfg = s.cfg ∧ t.session = s.session ∧ t.bulk = s.bulk ∧ t.retry = s.retry ∧ t.req = s.req ∧ t.ret = s.ret ∧
      t.inputs = s.inputs ∧ SameMemory s t ∧
      (paramsWf s.cfg = true → classOf k ≠ .registerRead →
        t.dp.rPayload = s.dp.rPayload ∧ t.dp.rCk = s.dp.rCk ∧ t.dp.rCkValid = s.dp.rCkValid)

/-- A write chunk on its own changes nothing but `B_N`, `B_TAG`, the sequencer, the completion and the ports: no datapath
register, no session register, no byte of host memory (R157 to R160, R243). That a packet may ask for one alone is the model's
choice (notes/assumptions/7.md), and so is that `CAP` and `FETCH`, of an earlier bulk read command perhaps, are kept
(notes/assumptions/17.md). That registers other than those of the session and the completion show these values after the
completion is the model's choice (notes/assumptions/26.md). -/
def Obligations.WriteChunkFrame : Prop :=
  ∀ (i : Instr) (s t : State), (chunkOperands i).isSome = true → exec i s = .next t →
    t.cfg = s.cfg ∧ t.session = s.session ∧ t.dp = s.dp ∧ t.retry = s.retry ∧ t.req = s.req ∧ t.ret = s.ret ∧
      t.inputs = s.inputs ∧ SameMemory s t ∧ t.bulk.addr = s.bulk.addr ∧ t.bulk.len = s.bulk.len ∧
      t.bulk.off = s.bulk.off

/-- `RDREG`, `WRREG`, `RDPEND`, `RDINT`, `CLRINT` and `RSTBUS` change no session register, no configuration, no bulk register
and no byte of host memory (R27, R54, R100); the bus reset does not touch the retry registers (R206). That on `exec` the
request latches they do not read keep their value is the model's reading of R38 (notes/assumptions/13.md). That registers
other than those of the session and the completion show these values after the completion is the model's choice
(notes/assumptions/26.md). -/
def Obligations.RegisterOperationFrame : Prop :=
  ∀ (i : Instr) (s t : State), exec i s = .next t →
    ((∃ a, i = .rdreg a) ∨ (∃ a w, i = .wrreg a w) ∨ i = .rdpend ∨ i = .rdint ∨ (∃ w, i = .clrint w) ∨ i = .rstbus) →
      t.cfg = s.cfg ∧ t.session = s.session ∧ t.bulk = s.bulk ∧ t.ret = s.ret ∧ t.inputs = s.inputs ∧ SameMemory s t ∧
        t.req.len = s.req.len ∧ t.req.buf = s.req.buf ∧
        ((∀ a, i ≠ .rdreg a) → (∀ a w, i ≠ .wrreg a w) → t.req.addr = s.req.addr) ∧
        ((∀ a w, i ≠ .wrreg a w) → (∀ w, i ≠ .clrint w) → t.req.wdata = s.req.wdata) ∧
        (i = .rstbus → t.retry = s.retry)

/-- `NEGOTIATE` changes of the session only the checksum mode and the negotiated bit, `SYNC` only the interrupt line count;
and that only when it succeeds (R300); neither changes the configuration, a bulk register or a byte of host memory (R27, R280,
R300). That on `exec` the request latches they do not read keep their value is the model's reading of R38
(notes/assumptions/13.md). That registers other than those of the session and the completion show these values after the
completion is the model's choice (notes/assumptions/26.md). -/
def Obligations.NegotiationAndSynchronizeFrame : Prop :=
  ∀ (i : Instr) (s t : State), exec i s = .next t → (i = .negotiate ∨ (∃ w, i = .sync w)) →
    t.cfg = s.cfg ∧ t.bulk = s.bulk ∧ t.ret = s.ret ∧ t.inputs = s.inputs ∧ SameMemory s t ∧
      t.req.addr = s.req.addr ∧ t.req.len = s.req.len ∧ t.req.buf = s.req.buf ∧
      t.session.chunkSize = s.session.chunkSize ∧ t.session.xferStyle = s.session.xferStyle ∧
      t.session.enhancedThroughputMode = s.session.enhancedThroughputMode ∧
      (i = .negotiate → t.session.interruptLineCount = s.session.interruptLineCount ∧ t.req.wdata = s.req.wdata) ∧
      (i ≠ .negotiate → t.session.checksumEnabled = s.session.checksumEnabled ∧
        t.session.negotiated = s.session.negotiated ∧
        (t.compl.ok = false → t.session.interruptLineCount = s.session.interruptLineCount)) ∧
      (∀ w, i = .sync w → t.compl.ok = true → t.session.interruptLineCount = w.truncate 4)

/-- `WRBULK` reads the host buffer and never writes it: no byte of host memory changes; `RDBULK` writes `buf[0 .. len)` and
nothing else, whether it succeeds or fails, and nothing at all when it is rejected; neither changes a session register (R27,
R54, R240), nor `R_PAYLOAD`, `R_CK` or `R_CK_VALID` (R32, R241). Buffers of different handles being apart is the model's
choice (notes/assumptions/6.md), and that on `exec` `Q_WDATA` keeps its value is its reading of R38 (notes/assumptions/13.md).
That registers other than those of the session and the completion show these values after the completion is the model's choice
(notes/assumptions/26.md). -/
def Obligations.BulkTransferFrame : Prop :=
  ∀ (i : Instr) (s t : State) (addr len buf : Word), exec i s = .next t →
    (i = .wrbulk addr len buf ∨ i = .rdbulk addr len buf) →
      t.cfg = s.cfg ∧ t.session = s.session ∧ t.ret = s.ret ∧ t.inputs = s.inputs ∧ t.req.wdata = s.req.wdata ∧
        (paramsWf s.cfg = true →
          t.dp.rPayload = s.dp.rPayload ∧ t.dp.rCk = s.dp.rCk ∧ t.dp.rCkValid = s.dp.rCkValid) ∧
        (i = .wrbulk addr len buf → SameMemory s t) ∧
        (bulkRejected s.cfg len = true → SameMemory s t) ∧
        (∀ a : Nat, ¬ (bufAddr buf 0 ≤ a ∧ a < bufAddr buf 0 + len.toNat) → memRead t.mem a = memRead s.mem a)

/-- The session discipline (R27): only `NEGOTIATE` writes the checksum mode and the negotiated bit, only `SYNC` the interrupt
line count, and no operation writes the chunk size, the transfer style or the bit without behaviour; the entry of an error
and the recovery after it write none of them. (Of a wire command or chunk on its own this speaks by the model's choice,
notes/assumptions/7.md.) -/
def Obligations.OnlyNegotiationAndSynchronizeWriteTheSession : Prop :=
  (∀ (s : State) (e : Cause), (takeError e s).session = s.session ∧ (recover s).session = s.session) ∧
  ∀ (i : Instr) (s t : State), exec i s = .next t →
    t.session.chunkSize = s.session.chunkSize ∧ t.session.xferStyle = s.session.xferStyle ∧
      t.session.enhancedThroughputMode = s.session.enhancedThroughputMode ∧
      (i ≠ .negotiate → t.session.checksumEnabled = s.session.checksumEnabled ∧
        t.session.negotiated = s.session.negotiated) ∧
      ((∀ w, i ≠ .sync w) → t.session.interruptLineCount = s.session.interruptLineCount)

/-! ## The retry controller -/

/-- A wrapped operation is attempted at least once and at most `MAX_RETRY` times; a bus reset follows every failed attempt
that is retried, the last one included; two delays go with each reset and at most one log event; after a success there is
one reset less than attempts (R261, R263, R264, R265, R266). -/
def Obligations.AttemptsResetsAndDelaysAreCounted : Prop :=
  ∀ (i : Instr) (s t : State) (ev : List Event), paramsWf s.cfg = true → wrapped s.cfg i = true →
    exec i s = .next t → t.trace = s.trace ++ ev →
      1 ≤ attemptsIn s.ret ev ∧ attemptsIn s.ret ev ≤ s.cfg.maxRetry ∧
        delaysIn ev = 2 * resetsIn s.ret ev ∧ logsIn .resetFailed ev ≤ resetsIn s.ret ev ∧
        logsIn .unexpectedInterruptBits ev = 0 ∧
        (t.compl.ok = true → resetsIn s.ret ev + 1 = attemptsIn s.ret ev) ∧
        (t.compl.ok = false → t.compl.err ≠ causeCode .frameTooShort →
          attemptsIn s.ret ev = s.cfg.maxRetry ∧ resetsIn s.ret ev = s.cfg.maxRetry) ∧
        (t.compl.ok = false → t.compl.err = causeCode .frameTooShort → resetsIn s.ret ev + 1 = attemptsIn s.ret ev)

/-- A wrapped operation that fails completes with the cause saved in `LAST_ERR`, and that is the error of its last attempt,
not of the first (R267, R320): the run of port events falls into what went before the last attempt, the last attempt, and what
follows, in which no attempt is made; the last attempt began in a state that has the configuration, the session, the request
and the environment of that point of the run, and it ended with that cause. That registers other than those of the session and
the completion show these values after the completion is the model's choice (notes/assumptions/26.md). -/
def Obligations.FailureReportsTheLastError : Prop :=
  ∀ (i : Instr) (op : Eng Word) (s t : State) (ev : List Event), paramsWf s.cfg = true → wrapped s.cfg i = true →
    attemptOf s.cfg i = some op → exec i s = .next t → t.trace = s.trace ++ ev → t.compl.ok = false →
      t.compl = failedWith t.retry.lastErr ∧ t.retry.lastErr ≠ .ok ∧
        ∃ (pre last post : List Event) (u v : State), ev = pre ++ last ++ post ∧
          u.cfg = s.cfg ∧ u.session = s.session ∧ u.ret = s.ret ∧ u.req = t.req ∧ u.trace = s.trace ++ pre ∧
          u.answers = s.answers.drop (callsIn pre) ∧ u.calls = s.calls + callsIn pre ∧
          op u = (.err t.retry.lastErr, v) ∧ v.trace = u.trace ++ last ∧
          attemptsIn s.ret last = 1 ∧ attemptsIn s.ret post = 0

/-- Taking an error (R320): the cause is saved, the captured bytes not consumed are dropped, the sequencer goes to the
recovery for a retryable cause and to `DONE` otherwise; attempt counter, request and session are unchanged, and no port
event occurs. -/
def Obligations.TakingAnErrorSavesItsCause : Prop :=
  ∀ (e : Cause) (s : State),
    takeError e s =
      { s with
        retry := { attempt := s.retry.attempt, lastErr := e }
        dp := { s.dp with cap := [] }
        seq := if e = .transportError ∨ e = .commandEchoMismatch ∨ e = .badStatus ∨ e = .resetRequired
          then .retryDelayA else .done }

/-- The recovery (R265, R322, R323): delay; one exchange that sends the `RESET` frame, with what its response takes; a log
event exactly when the bus reset ended in an error; delay. The error of the reset is not saved, and the handler is not
entered again. -/
def Obligations.RecoveryIsDelayResetDelay : Prop :=
  ∀ (s : State) (ev : List Event), paramsWf s.cfg = true → (recover s).trace = s.trace ++ ev →
    (recover s).retry = s.retry ∧ (recover s).session = s.session ∧ (recover s).ret = s.ret ∧ delaysIn ev = 2 ∧
      resetsIn s.ret ev = 1 ∧ attemptsIn s.ret ev = 0 ∧
      ∃ (e : PortEvent) (taken : List PortEvent),
        ev.map (fun e => e.port) =
          .delay s.cfg.retryDelay :: e ::
            (taken ++
              (match (under .retryReset resetBusOnce (delayEvent (setSeq .retryDelayA s))).1 with
                | .ok _ => []
                | .err _ => [.log .resetFailed]) ++
              [.delay s.cfg.retryDelay]) ∧
        portBytes e = exchangeBytes s.cfg s.session.xferStyle .reset s.session.checksumEnabled
          (resetFrame s.cfg s.session.checksumEnabled) ∧
        ∀ p ∈ taken, ∃ (n : Nat) (ok : Bool) (r : List Byte), p = .receive n ok r

/-- A transport that answers every call `false`: `RDREG` and `WRREG` make exactly `MAX_RETRY` attempts, each followed by
delay, a bus reset that fails too, its log event, and delay, and then complete with `TransportError` (R187, R261, R263,
R264, R265, R267). -/
def Obligations.DeadTransportExhaustsTheBudget : Prop :=
  ∀ (s : State) (addr wdata : Word) (bs : List (List Byte)) (more : List Answer), paramsWf s.cfg = true →
    bs.length = 2 * s.cfg.maxRetry → s.answers = (bs.map fun b => { ok := false, bytes := b }) ++ more →
      (∃ t : State, exec (.rdreg addr) s = .next t ∧
        Completes s t (failedWith .transportError)
          (List.replicate s.cfg.maxRetry (deadAttempt s.cfg s.session.xferStyle (readRoute s.cfg addr).1
            s.session.checksumEnabled (withCk s.cfg s.session.checksumEnabled
              (cmdBody s.cfg (readRoute s.cfg addr).1 addr 0 0 (readRoute s.cfg addr).2)))).flatten more) ∧
      (∃ t : State, exec (.wrreg addr wdata) s = .next t ∧
        Completes s t (failedWith .transportError)
          (List.replicate s.cfg.maxRetry (deadAttempt s.cfg s.session.xferStyle (writeRoute s.cfg addr).1
            s.session.checksumEnabled (withCk s.cfg s.session.checksumEnabled
              (cmdBody s.cfg (writeRoute s.cfg addr).1 addr wdata 0 (writeRoute s.cfg addr).2)))).flatten more)

/-- `WRREG` whose first exchange fails in the transport and whose second is answered well: the failed exchange, delay, the
bus reset, delay, and the identical frame again; it completes well (R156, R261, R269, R273). -/
def Obligations.SecondAttemptSucceeds : Prop :=
  ∀ (s : State) (addr wdata : Word) (b : List Byte) (r1 r2 : Reply) (x1 x2 : Talk) (more : List Answer),
    paramsWf s.cfg = true → 2 ≤ s.cfg.maxRetry →
    Answers s.cfg s.session.xferStyle s.session.checksumEnabled .reset r1 x1 →
    Answers s.cfg s.session.xferStyle s.session.checksumEnabled (writeRoute s.cfg addr).1 r2 x2 →
    s.answers =
      { ok := false, bytes := b } ::
        (exchangeAnswers s.cfg s.session.xferStyle .reset s.session.checksumEnabled x1 ++
          exchangeAnswers s.cfg s.session.xferStyle (writeRoute s.cfg addr).1 s.session.checksumEnabled x2 ++ more) →
      ∃ t : State, exec (.wrreg addr wdata) s = .next t ∧
        Completes s t (okWith 0)
          (deadExchange s.cfg s.session.xferStyle (writeRoute s.cfg addr).1 s.session.checksumEnabled
              (withCk s.cfg s.session.checksumEnabled
                (cmdBody s.cfg (writeRoute s.cfg addr).1 addr wdata 0 (writeRoute s.cfg addr).2)) ::
            .delay s.cfg.retryDelay ::
            (exchangePorts s.cfg s.session.xferStyle .reset s.session.checksumEnabled
                (resetFrame s.cfg s.session.checksumEnabled) x1 ++
              .delay s.cfg.retryDelay ::
              exchangePorts s.cfg s.session.xferStyle (writeRoute s.cfg addr).1 s.session.checksumEnabled
                (withCk s.cfg s.session.checksumEnabled
                  (cmdBody s.cfg (writeRoute s.cfg addr).1 addr wdata 0 (writeRoute s.cfg addr).2)) x2)) more

/-- The round trip: `WRREG A, V` and then `RDREG A`, with a peer that answers both well and returns the bytes written, reads
`V`, in both checksum modes, both transfer styles and on either side of the threshold (R57, R58, R208). -/
def Obligations.WriteThenReadReturnsTheValue : Prop :=
  ∀ (s t : State) (addr v : Word) (r1 r2 : Reply) (x1 x2 : Talk) (more : List Answer),
    paramsWf s.cfg = true → s.cfg.rdPayloadOrder = .bigEndian →
    Answers s.cfg s.session.xferStyle s.session.checksumEnabled (writeRoute s.cfg addr).1 r1 x1 →
    Answers s.cfg s.session.xferStyle s.session.checksumEnabled (readRoute s.cfg addr).1 r2 x2 →
    r2.payload = be32 v →
    s.answers =
      exchangeAnswers s.cfg s.session.xferStyle (writeRoute s.cfg addr).1 s.session.checksumEnabled x1 ++
        exchangeAnswers s.cfg s.session.xferStyle (readRoute s.cfg addr).1 s.session.checksumEnabled x2 ++ more →
    exec (.wrreg addr v) s = .next t →
      t.compl = okWith 0 ∧ ∃ u : State, exec (.rdreg addr) t = .next u ∧ u.compl = okWith v ∧ u.answers = more

/-! ## Negotiation: what it leaves -/

/-- After a successful `NEGOTIATE` of a session not negotiated, whatever the environment answered, checksum mode is off and
the session negotiated; after a failed one the session is not negotiated and the error is `PeerNotPresent`, with checksum
mode on, or `PeerUnresponsive`, with checksum mode on exactly when the write of step 3 was tried and step 4 was not reached
(R283 to R288). -/
def Obligations.NegotiationLeavesTheSession : Prop :=
  ∀ (s t : State) (ev : List Event), paramsWf s.cfg = true → s.ret = [] → s.session.negotiated = false →
    exec .negotiate s = .next t → t.trace = s.trace ++ ev →
      t.session.interruptLineCount = s.session.interruptLineCount ∧
        (t.compl.ok = true → t.compl = okWith 0 ∧ t.session.checksumEnabled = false ∧ t.session.negotiated = true) ∧
        (t.compl.ok = false → t.session.negotiated = false ∧
          (t.compl = failedWith .peerNotPresent ∧ t.session.checksumEnabled = true ∨
            t.compl = failedWith .peerUnresponsive ∧
              (t.session.checksumEnabled = true ↔
                (∃ e ∈ ev, Seq.neg3 ∈ e.ret) ∧ ¬ ∃ e ∈ ev, Seq.neg4 ∈ e.ret)))

/-- With a transport that answers every call `false`, `NEGOTIATE` of a session not negotiated makes the `MAX_RETRY` attempts
of the probe and completes with `PeerNotPresent`; checksum mode is on and the session not negotiated (R283, R288, R318). -/
def Obligations.NegotiationWithoutAPeer : Prop :=
  ∀ (s : State) (bs : List (List Byte)) (more : List Answer), paramsWf s.cfg = true → s.session.negotiated = false →
    bs.length = 2 * s.cfg.maxRetry → s.answers = (bs.map fun b => { ok := false, bytes := b }) ++ more →
      ∃ t : State, exec .negotiate s = .next t ∧
        Completes s t (failedWith .peerNotPresent)
          (List.replicate s.cfg.maxRetry (deadAttempt s.cfg s.session.xferStyle .internalRead true
            (withCk s.cfg true (cmdBody s.cfg .internalRead s.cfg.probeAddr 0 0 false)))).flatten more ∧
        t.session = { s.session with checksumEnabled := true }

/-! ## Errors and what is never sent -/

/-- With the default placeholders an instruction that fails completes with one of the errors its operation can complete
with; in particular never with `FrameTooShort` (R262, R311 to R319, R326). R326 lists the host operations; that a wire command
or chunk on its own completes, with the errors of its one exchange or `transmit`, is the model's choice
(notes/assumptions/7.md). -/
def Obligations.CompletionErrorsAreTheAllowedOnes : Prop :=
  ∀ (i : Instr) (s t : State), paramsWf s.cfg = true → s.cfg.pad = defaultPads s.cfg.scanBudget →
    exec i s = .next t → t.compl.ok = false →
      ∃ e ∈ allowedErrors s.session.negotiated i, t.compl = failedWith e

/-- A host operation sends only the frames of seven of the eleven commands: never `TERMINATE`, `REPEAT`, `DMA_READ` or
`DMA_WRITE` (R207, R232). -/
def Obligations.HostOperationsSendSevenCommands : Prop :=
  ∀ (i : Instr) (s t : State) (ev : List Event), paramsWf s.cfg = true → wireOperands i = none → chunkOperands i = none →
    exec i s = .next t → t.trace = s.trace ++ ev →
      ∀ e ∈ ev, e.seq = .cmdXfer →
        ∃ k ∈ [Cmd.internalWrite, .internalRead, .dmaExtWrite, .dmaExtRead, .singleWrite, .singleRead, .reset],
          (sentBytes e).head? = some (opcOf s.cfg.opc k)

/-- Nothing survives a host operation but the session and the completion: two machines that agree in configuration, session,
host memory and what the environment will answer, and differ in any datapath, bulk, retry, request or completion register,
complete alike, make the same port events and reach the same session and memory (R14, R40, R156). After a failed `RDBULK`
the bytes of its buffer, which R240 leaves open, are free values; that they are the same in both machines follows from the form
the model gives them, an index and the number of calls (notes/assumptions/16.md). -/
def Obligations.NothingElseSurvivesAnOperation : Prop :=
  ∀ (i : Instr) (s s' t t' : State), paramsWf s.cfg = true → wireOperands i = none → chunkOperands i = none →
    s'.cfg = s.cfg → s'.session = s.session → s'.mem = s.mem → s'.answers = s.answers → s'.calls = s.calls →
    s'.ret = s.ret → exec i s = .next t → exec i s' = .next t' →
      t'.compl = t.compl ∧ t'.session = t.session ∧ t'.mem = t.mem ∧ t'.answers = t.answers ∧
        ∃ ev : List Event, t.trace = s.trace ++ ev ∧ t'.trace = s'.trace ++ ev

/-! ## Bulk transfers that fail -/

/-- A chunk that fails ends the attempt of a bulk transfer, with no further chunk sent or read (R187, R236, R237, R240).
Whatever the environment answers, a transport call that returned `false` is the last event of the attempt, which ends with
`TransportError`. A write whose command is answered well and whose chunk number `acks.length` (from 0) the transport does not
take has sent the pieces before it, that one, and no other. A read whose first pieces come well ends with `ResetRequired` when
the scan before the next piece sees a whole budget of bytes without a sentinel, and with `TransportError` when the first
`receive` of that scan fails; nothing more is taken. The operands are those of the request latches. That the host leaves the
buffer alone during the operation is the model's choice (notes/assumptions/24.md). -/
def Obligations.FailedChunkEndsTheAttempt : Prop :=
  (∀ (s t : State) (r : Res Word) (pre post : List Event) (e : Event),
    writeBulkOnce s = (r, t) ∨ readBulkOnce s = (r, t) → t.trace = s.trace ++ (pre ++ e :: post) → failedCall e = true →
      post = [] ∧ r = .err .transportError) ∧
  (∀ (s : State) (r : Reply) (x : Talk) (acks : List (List Byte)) (b : List Byte) (p : Nat × Nat) (more : List Answer),
    paramsWf s.cfg = true → bulkRejected s.cfg s.req.len = false →
    Answers s.cfg s.session.xferStyle s.session.checksumEnabled .dmaExtWrite r x →
    (segments s.req.len.toNat (chunkBytes s.cfg.chunkSizes s.session.chunkSize))[acks.length]? = some p →
    s.answers = exchangeAnswers s.cfg s.session.xferStyle .dmaExtWrite s.session.checksumEnabled x ++
      (acks.map fun b => { ok := true, bytes := b }) ++ { ok := false, bytes := b } :: more →
      ∃ (t : State) (ev : List Event), writeBulkOnce s = (.err .transportError, t) ∧ t.answers = more ∧
        t.trace = s.trace ++ ev ∧
        ev.map (fun e => e.port) =
          exchangePorts s.cfg s.session.xferStyle .dmaExtWrite s.session.checksumEnabled
              (withCk s.cfg s.session.checksumEnabled (cmdBody s.cfg .dmaExtWrite s.req.addr 0 s.req.len false)) x ++
            (chunkPorts s.cfg s.mem s.req.buf s.req.len.toNat (chunkBytes s.cfg.chunkSizes s.session.chunkSize)
              s.session.checksumEnabled).take acks.length ++
            [.transmit (pieceFrame s.cfg s.mem s.req.buf s.req.len.toNat (chunkBytes s.cfg.chunkSizes s.session.chunkSize)
              s.session.checksumEnabled p) false]) ∧
  (∀ (s : State) (r : Reply) (later : List Reply) (x : Talk) (more : List Answer),
    paramsWf s.cfg = true → bulkRejected s.cfg s.req.len = false →
    later.length + 1 < (segments s.req.len.toNat (chunkBytes s.cfg.chunkSizes s.session.chunkSize)).length →
    (r :: later).map (fun c => c.payload.length) =
      ((segments s.req.len.toNat (chunkBytes s.cfg.chunkSizes s.session.chunkSize)).take (later.length + 1)).map (fun p => p.2) →
    (∀ c ∈ r :: later, c.Good s.cfg c.payload.length) →
    x.Fits s.cfg s.session.xferStyle .dmaExtRead s.session.checksumEnabled
      (replyFields s.cfg .dmaExtRead s.session.checksumEnabled r).flatten.length →
      (∀ lost : List Byte, lost.length = s.cfg.scanBudget → (∀ w ∈ lost, isSentinel s.cfg w = false) →
        x.fields = bulkReadFields s.cfg s.session.checksumEnabled r later ++ lost.map (fun w => [w]) →
        s.answers = exchangeAnswers s.cfg s.session.xferStyle .dmaExtRead s.session.checksumEnabled x ++ more →
          ∃ (t : State) (ev : List Event), readBulkOnce s = (.err .resetRequired, t) ∧ t.answers = more ∧
            t.trace = s.trace ++ ev ∧
            ev.map (fun e => e.port) =
              exchangePorts s.cfg s.session.xferStyle .dmaExtRead s.session.checksumEnabled
                (withCk s.cfg s.session.checksumEnabled (cmdBody s.cfg .dmaExtRead s.req.addr 0 s.req.len false)) x) ∧
      (∀ b : List Byte, x.extra = [] → x.fields = bulkReadFields s.cfg s.session.checksumEnabled r later →
        s.answers = exchangeAnswers s.cfg s.session.xferStyle .dmaExtRead s.session.checksumEnabled x ++
          { ok := false, bytes := b } :: more →
          ∃ (t : State) (ev : List Event), readBulkOnce s = (.err .transportError, t) ∧ t.answers = more ∧
            t.trace = s.trace ++ ev ∧
            ev.map (fun e => e.port) =
              exchangePorts s.cfg s.session.xferStyle .dmaExtRead s.session.checksumEnabled
                (withCk s.cfg s.session.checksumEnabled (cmdBody s.cfg .dmaExtRead s.req.addr 0 s.req.len false)) x ++
              [.receive 1 false []]))
end

