-- ==== Sys2Proof/Laws/Bits.lean ====
section
/-! SUPPORT. The byte orders (spec 00 R10): each way of splitting a word into bytes is undone by the way of putting the
bytes together again, on the bits the format carries. -/

namespace Sys2Proof.Machine

/-- Bit `n` of a word of four bytes. -/
theorem word32_getLsbD (b0 b1 b2 b3 : Byte) (n : Nat) :
    (word32 b0 b1 b2 b3).getLsbD n =
      if n < 8 then b3.getLsbD n else if n < 16 then b2.getLsbD (n - 8) else if n < 24 then b1.getLsbD (n - 16)
      else if n < 32 then b0.getLsbD (n - 24) else false := by
  by_cases h : n < 32
  · unfold word32
    interval_cases n <;> simp
  · rw [BitVec.getLsbD_of_ge _ _ (by omega)]
    simp [show ¬ n < 8 by omega, show ¬ n < 16 by omega, show ¬ n < 24 by omega, h]

/-- The four bytes of a word, put together (R10, R85). -/
theorem word32_be32 (v : Word) :
    word32 (v.extractLsb' 24 8) (v.extractLsb' 16 8) (v.extractLsb' 8 8) (v.extractLsb' 0 8) = v := by
  apply BitVec.eq_of_getLsbD_eq
  intro n hn
  rw [word32_getLsbD]
  interval_cases n <;> simp

theorem fromBe32_be32 (v : Word) : fromBe32 (be32 v) = v :=
  word32_be32 v

theorem getLsbD_of_fits {w : Nat} {v : Word} (h : fits w v = true) {n : Nat} (hn : w ≤ n) : v.getLsbD n = false := by
  have h1 : v.toNat < 2 ^ w := by simpa [fits] using h
  rw [BitVec.getLsbD]
  exact Nat.testBit_eq_false_of_lt (lt_of_lt_of_le h1 (Nat.pow_le_pow_right (by omega) hn))

/-- The three bytes of a 24-bit operand, put together (R10, R83). -/
theorem word32_be24 {v : Word} (h : fits 24 v = true) :
    word32 0 (v.extractLsb' 16 8) (v.extractLsb' 8 8) (v.extractLsb' 0 8) = v := by
  apply BitVec.eq_of_getLsbD_eq
  intro n hn
  rw [word32_getLsbD]
  by_cases h24 : 24 ≤ n
  · rw [getLsbD_of_fits h h24]
    simp [show ¬ n < 8 by omega, show ¬ n < 16 by omega, show ¬ n < 24 by omega]
  · interval_cases n <;> simp

/-- The two bytes of a 16-bit operand, put together (R10, R84). -/
theorem word32_be16 {v : Word} (h : fits 16 v = true) :
    word32 0 0 (v.extractLsb' 8 8) (v.extractLsb' 0 8) = v := by
  apply BitVec.eq_of_getLsbD_eq
  intro n hn
  rw [word32_getLsbD]
  by_cases h16 : 16 ≤ n
  · rw [getLsbD_of_fits h h16]
    simp [show ¬ n < 8 by omega, show ¬ n < 16 by omega]
  · interval_cases n <;> simp

/-- The internal address and the clockless flag share two bytes and come apart again (R51, R83). -/
theorem addr15_internalAddr {v : Word} (h : fits 15 v = true) (cl : Bool) :
    addr15 (v.extractLsb' 8 8 ||| (if cl then 0x80 else 0x00)) (v.extractLsb' 0 8) = v ∧
      clocklessOf (v.extractLsb' 8 8 ||| (if cl then 0x80 else 0x00)) = cl := by
  have h15 := getLsbD_of_fits h (Nat.le_refl 15)
  constructor
  · apply BitVec.eq_of_getLsbD_eq
    intro n hn
    rw [addr15, word32_getLsbD]
    by_cases h16 : 15 ≤ n
    · rw [getLsbD_of_fits h h16]
      by_cases h3 : n = 15
      · subst h3; simp
      · simp [show ¬ n < 8 by omega, show ¬ n < 16 by omega]
    · cases cl <;> interval_cases n <;> simp
  · cases cl
    · simpa [clocklessOf] using h15
    · simp [clocklessOf]

end Sys2Proof.Machine
end

