-- ==== Sys2Proof/Laws/Memory.lean ====
section
/-! SUPPORT. The host memory (spec 20 R54): a read after a write, the canonical form kept by every memory operation, and
what a run of bytes written reads as. -/

namespace Sys2Proof.Machine

theorem memRead_nil (a : Nat) : memRead [] a = memDefault := rfl

theorem memWfFrom_mono {lo lo' : Nat} {m : List Host.Cell} (h : lo ≤ lo') (hm : memWfFrom lo' m = true) :
    memWfFrom lo m = true := by
  cases m with
  | nil => rfl
  | cons c rest =>
    obtain ⟨k, v⟩ := c
    simp only [memWfFrom, Bool.and_eq_true, decide_eq_true_eq] at hm ⊢
    exact ⟨⟨by omega, hm.1.2⟩, hm.2⟩

/-- Below the first address every byte reads as the default. -/
theorem memRead_below {lo a : Nat} {m : List Host.Cell} (hm : memWfFrom lo m = true) (h : a < lo) :
    memRead m a = memDefault := by
  induction m generalizing lo with
  | nil => rfl
  | cons c rest ih =>
    obtain ⟨k, v⟩ := c
    simp only [memWfFrom, Bool.and_eq_true, decide_eq_true_eq] at hm
    rw [memRead, if_neg (by omega)]
    exact ih hm.2 (by omega)

/-- A read after a write. -/
theorem memRead_memWrite {lo : Nat} {m : List Host.Cell} (hm : memWfFrom lo m = true) (a b : Nat) (v : Byte) :
    memRead (memWrite m a v) b = if b = a then v else memRead m b := by
  induction m generalizing lo with
  | nil =>
    by_cases hv : v = memDefault <;> by_cases hb : b = a <;> simp [memWrite, memRead, hv, hb]
  | cons c rest ih =>
    obtain ⟨k, w⟩ := c
    simp only [memWfFrom, Bool.and_eq_true, decide_eq_true_eq] at hm
    have ih' := ih hm.2
    unfold memWrite
    by_cases h1 : a < k
    · by_cases hv : v = memDefault
      · by_cases hb : b = a
        · subst hb
          have := memRead_below hm.2 (show b < k + 1 by omega)
          simp [h1, hv, memRead, show b ≠ k by omega, this]
        · simp [h1, hv, hb]
      · by_cases hb : b = a <;> simp [h1, hv, hb, memRead]
    · by_cases h2 : a = k
      · subst h2
        by_cases hv : v = memDefault
        · by_cases hb : b = a
          · subst hb
            have := memRead_below hm.2 (show b < b + 1 by omega)
            simp [hv, this]
          · simp [hv, hb, memRead]
        · by_cases hb : b = a <;> simp [hv, hb, memRead]
      · simp only [h1, h2, if_false, memRead, ih']
        by_cases hb : b = k
        · simp [hb, show k ≠ a by omega]
        · simp [hb]

/-- Every other byte is left alone, whatever the form of the memory. -/
theorem memRead_memWrite_ne (m : List Host.Cell) {a b : Nat} (v : Byte) (h : b ≠ a) :
    memRead (memWrite m a v) b = memRead m b := by
  induction m with
  | nil => by_cases hv : v = memDefault <;> simp [memWrite, memRead, hv, h]
  | cons c rest ih =>
    obtain ⟨k, w⟩ := c
    unfold memWrite
    by_cases h1 : a < k
    · by_cases hv : v = memDefault <;> simp [h1, hv, memRead, h]
    · by_cases h2 : a = k
      · subst h2
        by_cases hv : v = memDefault <;> simp [hv, memRead, h]
      · simp [h1, h2, memRead, ih]

/-- A run of writes leaves every byte outside it alone. -/
theorem memRead_memWriteBytes_out (m : List Host.Cell) {a b : Nat} (p : List Byte) (h : ¬ (a ≤ b ∧ b < a + p.length)) :
    memRead (memWriteBytes m a p) b = memRead m b := by
  induction p generalizing m a with
  | nil => rfl
  | cons v rest ih =>
    simp only [List.length_cons] at h
    rw [memWriteBytes, ih _ (by omega), memRead_memWrite_ne _ _ (by omega)]

theorem memWfFrom_memWrite {lo : Nat} {m : List Host.Cell} (hm : memWfFrom lo m = true) {a : Nat} (h : lo ≤ a)
    (v : Byte) : memWfFrom lo (memWrite m a v) = true := by
  induction m generalizing lo with
  | nil =>
    by_cases hv : v = memDefault <;> simp [memWrite, memWfFrom, hv, h]
  | cons c rest ih =>
    obtain ⟨k, w⟩ := c
    have hm0 := hm
    simp only [memWfFrom, Bool.and_eq_true, decide_eq_true_eq] at hm
    unfold memWrite
    by_cases h1 : a < k
    · by_cases hv : v = memDefault
      · simpa [h1, hv] using hm0
      · simp [h1, hv, memWfFrom, h, hm.2]
        exact by simpa using hm.1.2
    · by_cases h2 : a = k
      · by_cases hv : v = memDefault
        · simpa [h2, hv] using memWfFrom_mono (by omega) hm.2
        · simp [h2, hv, memWfFrom, hm.1.1, hm.2]
      · simp only [h1, h2, if_false, memWfFrom, Bool.and_eq_true, decide_eq_true_eq]
        exact ⟨hm.1, ih hm.2 (by omega)⟩

/-- A write keeps the canonical form. -/
theorem memWf_memWrite {m : List Host.Cell} (hm : memWf m = true) (a : Nat) (v : Byte) :
    memWf (memWrite m a v) = true :=
  memWfFrom_memWrite hm (Nat.zero_le a) v

/-- A run of writes keeps the canonical form. -/
theorem memWf_memWriteBytes {m : List Host.Cell} (hm : memWf m = true) (a : Nat) (p : List Byte) :
    memWf (memWriteBytes m a p) = true := by
  induction p generalizing m a with
  | nil => exact hm
  | cons b rest ih => exact ih (memWf_memWrite hm a b) (a + 1)

/-- The memory after reset is in canonical form. -/
theorem memWf_reset : memWf State.reset.mem = true := rfl

/-- A read after a run of writes: the byte written there, or what was there. -/
theorem memRead_memWriteBytes {m : List Host.Cell} (hm : memWf m = true) (a b : Nat) (p : List Byte) :
    memRead (memWriteBytes m a p) b =
      if a ≤ b ∧ b < a + p.length then p.getD (b - a) 0 else memRead m b := by
  induction p generalizing m a with
  | nil => simp [memWriteBytes, show ¬ (a ≤ b ∧ b < a) by omega]
  | cons v rest ih =>
    rw [memWriteBytes, ih (memWf_memWrite hm a v) (a + 1), memRead_memWrite hm]
    by_cases h1 : b = a
    · subst h1
      simp
    · by_cases h2 : a ≤ b ∧ b < a + (v :: rest).length
      · have h3 : a + 1 ≤ b ∧ b < a + 1 + rest.length := by simp at h2; omega
        rw [if_pos h3, if_pos h2, show b - a = (b - (a + 1)) + 1 by omega, List.getD_cons_succ]
      · have h3 : ¬ (a + 1 ≤ b ∧ b < a + 1 + rest.length) := by simp at h2; omega
        rw [if_neg h3, if_neg h2, if_neg h1]

theorem memReadBytes_length (m : List Host.Cell) (a n : Nat) : (memReadBytes m a n).length = n := by
  induction n generalizing a with
  | zero => rfl
  | succ n ih => simp [memReadBytes, ih]

theorem memReadBytes_getD (m : List Host.Cell) (a n i : Nat) (h : i < n) :
    (memReadBytes m a n).getD i 0 = memRead m (a + i) := by
  induction n generalizing a i with
  | zero => omega
  | succ n ih =>
    cases i with
    | zero => rfl
    | succ i =>
      rw [memReadBytes, List.getD_cons_succ, ih (a + 1) i (by omega)]
      congr 1
      omega

/-- Two memories that read alike give alike runs. -/
theorem memReadBytes_congr {m m' : List Host.Cell} {a n : Nat}
    (h : ∀ i, i < n → memRead m (a + i) = memRead m' (a + i)) : memReadBytes m a n = memReadBytes m' a n := by
  induction n generalizing a with
  | zero => rfl
  | succ n ih =>
    simp only [memReadBytes]
    rw [ih fun i hi => by simpa [Nat.add_assoc, Nat.add_comm 1 i] using h (i + 1) (by omega)]
    have := h 0 (by omega)
    simp only [Nat.add_zero] at this
    rw [this]

/-- Addresses of one buffer differ when the indices do; buffers do not overlap below `2^24` bytes (notes 6). -/
theorem bufAddr_inj {b b' : Word} {i j : Nat} (hi : i < 2 ^ 24) (hj : j < 2 ^ 24) (h : bufAddr b i = bufAddr b' j) :
    b = b' ∧ i = j := by
  unfold bufAddr at h
  have h1 : i = j := by omega
  exact ⟨BitVec.eq_of_toNat_eq (by omega), h1⟩

end Sys2Proof.Machine
end

