-- ==== Sys2Proof/Laws/State.lean ====
section
/-! SUPPORT. One lemma per field for each update of the state, true by `rfl`: a later proof need not unfold a record
update. -/

namespace Sys2Proof.Machine

section
variable (s : State)

@[simp] theorem setSeq_cfg (q : Seq) : (setSeq q s).cfg = s.cfg := rfl
@[simp] theorem setSeq_session (q : Seq) : (setSeq q s).session = s.session := rfl
@[simp] theorem setSeq_dp (q : Seq) : (setSeq q s).dp = s.dp := rfl
@[simp] theorem setSeq_bulk (q : Seq) : (setSeq q s).bulk = s.bulk := rfl
@[simp] theorem setSeq_retry (q : Seq) : (setSeq q s).retry = s.retry := rfl
@[simp] theorem setSeq_req (q : Seq) : (setSeq q s).req = s.req := rfl
@[simp] theorem setSeq_compl (q : Seq) : (setSeq q s).compl = s.compl := rfl
@[simp] theorem setSeq_seq (q : Seq) : (setSeq q s).seq = q := rfl
@[simp] theorem setSeq_ret (q : Seq) : (setSeq q s).ret = s.ret := rfl
@[simp] theorem setSeq_mem (q : Seq) : (setSeq q s).mem = s.mem := rfl
@[simp] theorem setSeq_inputs (q : Seq) : (setSeq q s).inputs = s.inputs := rfl
@[simp] theorem setSeq_answers (q : Seq) : (setSeq q s).answers = s.answers := rfl
@[simp] theorem setSeq_calls (q : Seq) : (setSeq q s).calls = s.calls := rfl
@[simp] theorem setSeq_trace (q : Seq) : (setSeq q s).trace = s.trace := rfl

@[simp] theorem emit_cfg (p : PortEvent) : (emit p s).cfg = s.cfg := rfl
@[simp] theorem emit_session (p : PortEvent) : (emit p s).session = s.session := rfl
@[simp] theorem emit_dp (p : PortEvent) : (emit p s).dp = s.dp := rfl
@[simp] theorem emit_bulk (p : PortEvent) : (emit p s).bulk = s.bulk := rfl
@[simp] theorem emit_retry (p : PortEvent) : (emit p s).retry = s.retry := rfl
@[simp] theorem emit_req (p : PortEvent) : (emit p s).req = s.req := rfl
@[simp] theorem emit_compl (p : PortEvent) : (emit p s).compl = s.compl := rfl
@[simp] theorem emit_seq (p : PortEvent) : (emit p s).seq = s.seq := rfl
@[simp] theorem emit_ret (p : PortEvent) : (emit p s).ret = s.ret := rfl
@[simp] theorem emit_mem (p : PortEvent) : (emit p s).mem = s.mem := rfl
@[simp] theorem emit_inputs (p : PortEvent) : (emit p s).inputs = s.inputs := rfl
@[simp] theorem emit_answers (p : PortEvent) : (emit p s).answers = s.answers := rfl
@[simp] theorem emit_calls (p : PortEvent) : (emit p s).calls = s.calls := rfl
@[simp] theorem emit_trace (p : PortEvent) : (emit p s).trace = s.trace ++ [{ seq := s.seq, ret := s.ret, port := p }] := rfl

@[simp] theorem takeAnswer_cfg : (takeAnswer s).cfg = s.cfg := rfl
@[simp] theorem takeAnswer_session : (takeAnswer s).session = s.session := rfl
@[simp] theorem takeAnswer_dp : (takeAnswer s).dp = s.dp := rfl
@[simp] theorem takeAnswer_bulk : (takeAnswer s).bulk = s.bulk := rfl
@[simp] theorem takeAnswer_retry : (takeAnswer s).retry = s.retry := rfl
@[simp] theorem takeAnswer_req : (takeAnswer s).req = s.req := rfl
@[simp] theorem takeAnswer_compl : (takeAnswer s).compl = s.compl := rfl
@[simp] theorem takeAnswer_seq : (takeAnswer s).seq = s.seq := rfl
@[simp] theorem takeAnswer_ret : (takeAnswer s).ret = s.ret := rfl
@[simp] theorem takeAnswer_mem : (takeAnswer s).mem = s.mem := rfl
@[simp] theorem takeAnswer_inputs : (takeAnswer s).inputs = s.inputs := rfl
@[simp] theorem takeAnswer_answers : (takeAnswer s).answers = s.answers.tail := rfl
@[simp] theorem takeAnswer_calls : (takeAnswer s).calls = s.calls + 1 := rfl
@[simp] theorem takeAnswer_trace : (takeAnswer s).trace = s.trace := rfl

@[simp] theorem delayEvent_cfg : (delayEvent s).cfg = s.cfg := rfl
@[simp] theorem delayEvent_session : (delayEvent s).session = s.session := rfl
@[simp] theorem delayEvent_dp : (delayEvent s).dp = s.dp := rfl
@[simp] theorem delayEvent_bulk : (delayEvent s).bulk = s.bulk := rfl
@[simp] theorem delayEvent_retry : (delayEvent s).retry = s.retry := rfl
@[simp] theorem delayEvent_req : (delayEvent s).req = s.req := rfl
@[simp] theorem delayEvent_compl : (delayEvent s).compl = s.compl := rfl
@[simp] theorem delayEvent_seq : (delayEvent s).seq = s.seq := rfl
@[simp] theorem delayEvent_ret : (delayEvent s).ret = s.ret := rfl
@[simp] theorem delayEvent_mem : (delayEvent s).mem = s.mem := rfl
@[simp] theorem delayEvent_inputs : (delayEvent s).inputs = s.inputs := rfl
@[simp] theorem delayEvent_answers : (delayEvent s).answers = s.answers := rfl
@[simp] theorem delayEvent_calls : (delayEvent s).calls = s.calls := rfl
@[simp] theorem delayEvent_trace : (delayEvent s).trace = s.trace ++ [{ seq := s.seq, ret := s.ret, port := .delay s.cfg.retryDelay }] := rfl

@[simp] theorem logEvent_cfg (g : LogTag) : (logEvent g s).cfg = s.cfg := rfl
@[simp] theorem logEvent_session (g : LogTag) : (logEvent g s).session = s.session := rfl
@[simp] theorem logEvent_dp (g : LogTag) : (logEvent g s).dp = s.dp := rfl
@[simp] theorem logEvent_bulk (g : LogTag) : (logEvent g s).bulk = s.bulk := rfl
@[simp] theorem logEvent_retry (g : LogTag) : (logEvent g s).retry = s.retry := rfl
@[simp] theorem logEvent_req (g : LogTag) : (logEvent g s).req = s.req := rfl
@[simp] theorem logEvent_compl (g : LogTag) : (logEvent g s).compl = s.compl := rfl
@[simp] theorem logEvent_seq (g : LogTag) : (logEvent g s).seq = s.seq := rfl
@[simp] theorem logEvent_ret (g : LogTag) : (logEvent g s).ret = s.ret := rfl
@[simp] theorem logEvent_mem (g : LogTag) : (logEvent g s).mem = s.mem := rfl
@[simp] theorem logEvent_inputs (g : LogTag) : (logEvent g s).inputs = s.inputs := rfl
@[simp] theorem logEvent_answers (g : LogTag) : (logEvent g s).answers = s.answers := rfl
@[simp] theorem logEvent_calls (g : LogTag) : (logEvent g s).calls = s.calls := rfl
@[simp] theorem logEvent_trace (g : LogTag) : (logEvent g s).trace = s.trace ++ [{ seq := s.seq, ret := s.ret, port := .log g }] := rfl

@[simp] theorem crcInit_cfg : (crcInit s).cfg = s.cfg := rfl
@[simp] theorem crcInit_session : (crcInit s).session = s.session := rfl
@[simp] theorem crcInit_dp : (crcInit s).dp = { s.dp with crc := s.cfg.crc7Seed } := rfl
@[simp] theorem crcInit_bulk : (crcInit s).bulk = s.bulk := rfl
@[simp] theorem crcInit_retry : (crcInit s).retry = s.retry := rfl
@[simp] theorem crcInit_req : (crcInit s).req = s.req := rfl
@[simp] theorem crcInit_compl : (crcInit s).compl = s.compl := rfl
@[simp] theorem crcInit_seq : (crcInit s).seq = s.seq := rfl
@[simp] theorem crcInit_ret : (crcInit s).ret = s.ret := rfl
@[simp] theorem crcInit_mem : (crcInit s).mem = s.mem := rfl
@[simp] theorem crcInit_inputs : (crcInit s).inputs = s.inputs := rfl
@[simp] theorem crcInit_answers : (crcInit s).answers = s.answers := rfl
@[simp] theorem crcInit_calls : (crcInit s).calls = s.calls := rfl
@[simp] theorem crcInit_trace : (crcInit s).trace = s.trace := rfl

@[simp] theorem loadFrame_cfg (f : List Byte) : (loadFrame f s).cfg = s.cfg := rfl
@[simp] theorem loadFrame_session (f : List Byte) : (loadFrame f s).session = s.session := rfl
@[simp] theorem loadFrame_dp (f : List Byte) : (loadFrame f s).dp = { s.dp with fb := frameBuf f, flen := BitVec.ofNat 4 f.length } := rfl
@[simp] theorem loadFrame_bulk (f : List Byte) : (loadFrame f s).bulk = s.bulk := rfl
@[simp] theorem loadFrame_retry (f : List Byte) : (loadFrame f s).retry = s.retry := rfl
@[simp] theorem loadFrame_req (f : List Byte) : (loadFrame f s).req = s.req := rfl
@[simp] theorem loadFrame_compl (f : List Byte) : (loadFrame f s).compl = s.compl := rfl
@[simp] theorem loadFrame_seq (f : List Byte) : (loadFrame f s).seq = s.seq := rfl
@[simp] theorem loadFrame_ret (f : List Byte) : (loadFrame f s).ret = s.ret := rfl
@[simp] theorem loadFrame_mem (f : List Byte) : (loadFrame f s).mem = s.mem := rfl
@[simp] theorem loadFrame_inputs (f : List Byte) : (loadFrame f s).inputs = s.inputs := rfl
@[simp] theorem loadFrame_answers (f : List Byte) : (loadFrame f s).answers = s.answers := rfl
@[simp] theorem loadFrame_calls (f : List Byte) : (loadFrame f s).calls = s.calls := rfl
@[simp] theorem loadFrame_trace (f : List Byte) : (loadFrame f s).trace = s.trace := rfl

@[simp] theorem present_cfg (r : Res Word) : (present r s).cfg = s.cfg := rfl
@[simp] theorem present_session (r : Res Word) : (present r s).session = s.session := rfl
@[simp] theorem present_dp (r : Res Word) : (present r s).dp = s.dp := rfl
@[simp] theorem present_bulk (r : Res Word) : (present r s).bulk = s.bulk := rfl
@[simp] theorem present_retry (r : Res Word) : (present r s).retry = s.retry := rfl
@[simp] theorem present_req (r : Res Word) : (present r s).req = s.req := rfl
@[simp] theorem present_compl (r : Res Word) : (present r s).compl = completionOf r := rfl
@[simp] theorem present_seq (r : Res Word) : (present r s).seq = .idle := rfl
@[simp] theorem present_ret (r : Res Word) : (present r s).ret = s.ret := rfl
@[simp] theorem present_mem (r : Res Word) : (present r s).mem = s.mem := rfl
@[simp] theorem present_inputs (r : Res Word) : (present r s).inputs = s.inputs := rfl
@[simp] theorem present_answers (r : Res Word) : (present r s).answers = s.answers := rfl
@[simp] theorem present_calls (r : Res Word) : (present r s).calls = s.calls := rfl
@[simp] theorem present_trace (r : Res Word) : (present r s).trace = s.trace ++ [{ seq := .done, ret := s.ret, port := .complete (completionOf r) }] := rfl

@[simp] theorem discard_cfg : (discard s).cfg = s.cfg := rfl
@[simp] theorem discard_session : (discard s).session = s.session := rfl
@[simp] theorem discard_dp : (discard s).dp = { s.dp with cap := [], fetch := false } := rfl
@[simp] theorem discard_bulk : (discard s).bulk = s.bulk := rfl
@[simp] theorem discard_retry : (discard s).retry = s.retry := rfl
@[simp] theorem discard_req : (discard s).req = s.req := rfl
@[simp] theorem discard_compl : (discard s).compl = s.compl := rfl
@[simp] theorem discard_seq : (discard s).seq = s.seq := rfl
@[simp] theorem discard_ret : (discard s).ret = s.ret := rfl
@[simp] theorem discard_mem : (discard s).mem = s.mem := rfl
@[simp] theorem discard_inputs : (discard s).inputs = s.inputs := rfl
@[simp] theorem discard_answers : (discard s).answers = s.answers := rfl
@[simp] theorem discard_calls : (discard s).calls = s.calls := rfl
@[simp] theorem discard_trace : (discard s).trace = s.trace := rfl

/-- Accepting a packet can only write the request latches (R38). -/
theorem accept_eq (p : Packet) : accept p s = { s with req := (accept p s).req } := by
  cases p with
  | request r => unfold accept; dsimp only; split <;> rfl
  | wire b => rfl

@[simp] theorem accept_cfg (p : Packet) : (accept p s).cfg = s.cfg := by rw [accept_eq]
@[simp] theorem accept_session (p : Packet) : (accept p s).session = s.session := by rw [accept_eq]
@[simp] theorem accept_dp (p : Packet) : (accept p s).dp = s.dp := by rw [accept_eq]
@[simp] theorem accept_bulk (p : Packet) : (accept p s).bulk = s.bulk := by rw [accept_eq]
@[simp] theorem accept_retry (p : Packet) : (accept p s).retry = s.retry := by rw [accept_eq]
@[simp] theorem accept_compl (p : Packet) : (accept p s).compl = s.compl := by rw [accept_eq]
@[simp] theorem accept_seq (p : Packet) : (accept p s).seq = s.seq := by rw [accept_eq]
@[simp] theorem accept_ret (p : Packet) : (accept p s).ret = s.ret := by rw [accept_eq]
@[simp] theorem accept_mem (p : Packet) : (accept p s).mem = s.mem := by rw [accept_eq]
@[simp] theorem accept_inputs (p : Packet) : (accept p s).inputs = s.inputs := by rw [accept_eq]
@[simp] theorem accept_answers (p : Packet) : (accept p s).answers = s.answers := by rw [accept_eq]
@[simp] theorem accept_calls (p : Packet) : (accept p s).calls = s.calls := by rw [accept_eq]
@[simp] theorem accept_trace (p : Packet) : (accept p s).trace = s.trace := by rw [accept_eq]

@[simp] theorem refuseRequest_cfg (e : Cause) : (refuseRequest e s).cfg = s.cfg := rfl
@[simp] theorem refuseRequest_session (e : Cause) : (refuseRequest e s).session = s.session := rfl
@[simp] theorem refuseRequest_dp (e : Cause) : (refuseRequest e s).dp = s.dp := rfl
@[simp] theorem refuseRequest_bulk (e : Cause) : (refuseRequest e s).bulk = s.bulk := rfl
@[simp] theorem refuseRequest_retry (e : Cause) : (refuseRequest e s).retry = s.retry := rfl
@[simp] theorem refuseRequest_req (e : Cause) : (refuseRequest e s).req = s.req := rfl
@[simp] theorem refuseRequest_compl (e : Cause) : (refuseRequest e s).compl = completionOf (.err e) := rfl
@[simp] theorem refuseRequest_seq (e : Cause) : (refuseRequest e s).seq = .idle := rfl
@[simp] theorem refuseRequest_ret (e : Cause) : (refuseRequest e s).ret = s.ret := rfl
@[simp] theorem refuseRequest_mem (e : Cause) : (refuseRequest e s).mem = s.mem := rfl
@[simp] theorem refuseRequest_inputs (e : Cause) : (refuseRequest e s).inputs = s.inputs := rfl
@[simp] theorem refuseRequest_answers (e : Cause) : (refuseRequest e s).answers = s.answers := rfl
@[simp] theorem refuseRequest_calls (e : Cause) : (refuseRequest e s).calls = s.calls := rfl
@[simp] theorem refuseRequest_trace (e : Cause) : (refuseRequest e s).trace = s.trace ++ [{ seq := .done, ret := s.ret, port := .complete (completionOf (.err e)) }] := rfl

@[simp] theorem takeError_cfg (e : Cause) : (takeError e s).cfg = s.cfg := rfl
@[simp] theorem takeError_session (e : Cause) : (takeError e s).session = s.session := rfl
@[simp] theorem takeError_dp (e : Cause) : (takeError e s).dp = { s.dp with cap := [] } := rfl
@[simp] theorem takeError_bulk (e : Cause) : (takeError e s).bulk = s.bulk := rfl
@[simp] theorem takeError_retry (e : Cause) : (takeError e s).retry = { s.retry with lastErr := e } := rfl
@[simp] theorem takeError_req (e : Cause) : (takeError e s).req = s.req := rfl
@[simp] theorem takeError_compl (e : Cause) : (takeError e s).compl = s.compl := rfl
@[simp] theorem takeError_seq (e : Cause) : (takeError e s).seq = if retryable e then .retryDelayA else .done := rfl
@[simp] theorem takeError_ret (e : Cause) : (takeError e s).ret = s.ret := rfl
@[simp] theorem takeError_mem (e : Cause) : (takeError e s).mem = s.mem := rfl
@[simp] theorem takeError_inputs (e : Cause) : (takeError e s).inputs = s.inputs := rfl
@[simp] theorem takeError_answers (e : Cause) : (takeError e s).answers = s.answers := rfl
@[simp] theorem takeError_calls (e : Cause) : (takeError e s).calls = s.calls := rfl
@[simp] theorem takeError_trace (e : Cause) : (takeError e s).trace = s.trace := rfl

@[simp] theorem returnFromError_cfg : (returnFromError s).cfg = s.cfg := rfl
@[simp] theorem returnFromError_session : (returnFromError s).session = s.session := rfl
@[simp] theorem returnFromError_dp : (returnFromError s).dp = s.dp := rfl
@[simp] theorem returnFromError_bulk : (returnFromError s).bulk = s.bulk := rfl
@[simp] theorem returnFromError_retry : (returnFromError s).retry = { s.retry with attempt := s.retry.attempt + 1 } := rfl
@[simp] theorem returnFromError_req : (returnFromError s).req = s.req := rfl
@[simp] theorem returnFromError_compl : (returnFromError s).compl = s.compl := rfl
@[simp] theorem returnFromError_seq : (returnFromError s).seq = s.seq := rfl
@[simp] theorem returnFromError_ret : (returnFromError s).ret = s.ret := rfl
@[simp] theorem returnFromError_mem : (returnFromError s).mem = s.mem := rfl
@[simp] theorem returnFromError_inputs : (returnFromError s).inputs = s.inputs := rfl
@[simp] theorem returnFromError_answers : (returnFromError s).answers = s.answers := rfl
@[simp] theorem returnFromError_calls : (returnFromError s).calls = s.calls := rfl
@[simp] theorem returnFromError_trace : (returnFromError s).trace = s.trace := rfl

@[simp] theorem setChecksum_cfg (b : Bool) : (setChecksum b s).cfg = s.cfg := rfl
@[simp] theorem setChecksum_session (b : Bool) : (setChecksum b s).session = { s.session with checksumEnabled := b } := rfl
@[simp] theorem setChecksum_dp (b : Bool) : (setChecksum b s).dp = s.dp := rfl
@[simp] theorem setChecksum_bulk (b : Bool) : (setChecksum b s).bulk = s.bulk := rfl
@[simp] theorem setChecksum_retry (b : Bool) : (setChecksum b s).retry = s.retry := rfl
@[simp] theorem setChecksum_req (b : Bool) : (setChecksum b s).req = s.req := rfl
@[simp] theorem setChecksum_compl (b : Bool) : (setChecksum b s).compl = s.compl := rfl
@[simp] theorem setChecksum_seq (b : Bool) : (setChecksum b s).seq = s.seq := rfl
@[simp] theorem setChecksum_ret (b : Bool) : (setChecksum b s).ret = s.ret := rfl
@[simp] theorem setChecksum_mem (b : Bool) : (setChecksum b s).mem = s.mem := rfl
@[simp] theorem setChecksum_inputs (b : Bool) : (setChecksum b s).inputs = s.inputs := rfl
@[simp] theorem setChecksum_answers (b : Bool) : (setChecksum b s).answers = s.answers := rfl
@[simp] theorem setChecksum_calls (b : Bool) : (setChecksum b s).calls = s.calls := rfl
@[simp] theorem setChecksum_trace (b : Bool) : (setChecksum b s).trace = s.trace := rfl

@[simp] theorem setNegotiated_cfg : (setNegotiated s).cfg = s.cfg := rfl
@[simp] theorem setNegotiated_session : (setNegotiated s).session = { s.session with negotiated := true } := rfl
@[simp] theorem setNegotiated_dp : (setNegotiated s).dp = s.dp := rfl
@[simp] theorem setNegotiated_bulk : (setNegotiated s).bulk = s.bulk := rfl
@[simp] theorem setNegotiated_retry : (setNegotiated s).retry = s.retry := rfl
@[simp] theorem setNegotiated_req : (setNegotiated s).req = s.req := rfl
@[simp] theorem setNegotiated_compl : (setNegotiated s).compl = s.compl := rfl
@[simp] theorem setNegotiated_seq : (setNegotiated s).seq = s.seq := rfl
@[simp] theorem setNegotiated_ret : (setNegotiated s).ret = s.ret := rfl
@[simp] theorem setNegotiated_mem : (setNegotiated s).mem = s.mem := rfl
@[simp] theorem setNegotiated_inputs : (setNegotiated s).inputs = s.inputs := rfl
@[simp] theorem setNegotiated_answers : (setNegotiated s).answers = s.answers := rfl
@[simp] theorem setNegotiated_calls : (setNegotiated s).calls = s.calls := rfl
@[simp] theorem setNegotiated_trace : (setNegotiated s).trace = s.trace := rfl

@[simp] theorem setLineCount_cfg (c : Word) : (setLineCount c s).cfg = s.cfg := rfl
@[simp] theorem setLineCount_session (c : Word) : (setLineCount c s).session = { s.session with interruptLineCount := c.truncate 4 } := rfl
@[simp] theorem setLineCount_dp (c : Word) : (setLineCount c s).dp = s.dp := rfl
@[simp] theorem setLineCount_bulk (c : Word) : (setLineCount c s).bulk = s.bulk := rfl
@[simp] theorem setLineCount_retry (c : Word) : (setLineCount c s).retry = s.retry := rfl
@[simp] theorem setLineCount_req (c : Word) : (setLineCount c s).req = s.req := rfl
@[simp] theorem setLineCount_compl (c : Word) : (setLineCount c s).compl = s.compl := rfl
@[simp] theorem setLineCount_seq (c : Word) : (setLineCount c s).seq = s.seq := rfl
@[simp] theorem setLineCount_ret (c : Word) : (setLineCount c s).ret = s.ret := rfl
@[simp] theorem setLineCount_mem (c : Word) : (setLineCount c s).mem = s.mem := rfl
@[simp] theorem setLineCount_inputs (c : Word) : (setLineCount c s).inputs = s.inputs := rfl
@[simp] theorem setLineCount_answers (c : Word) : (setLineCount c s).answers = s.answers := rfl
@[simp] theorem setLineCount_calls (c : Word) : (setLineCount c s).calls = s.calls := rfl
@[simp] theorem setLineCount_trace (c : Word) : (setLineCount c s).trace = s.trace := rfl

@[simp] theorem startBulk_cfg : (startBulk s).cfg = s.cfg := rfl
@[simp] theorem startBulk_session : (startBulk s).session = s.session := rfl
@[simp] theorem startBulk_dp : (startBulk s).dp = s.dp := rfl
@[simp] theorem startBulk_bulk : (startBulk s).bulk = { s.bulk with addr := s.req.addr.truncate 24, len := s.req.len.truncate 24, off := 0 } := rfl
@[simp] theorem startBulk_retry : (startBulk s).retry = s.retry := rfl
@[simp] theorem startBulk_req : (startBulk s).req = s.req := rfl
@[simp] theorem startBulk_compl : (startBulk s).compl = s.compl := rfl
@[simp] theorem startBulk_seq : (startBulk s).seq = s.seq := rfl
@[simp] theorem startBulk_ret : (startBulk s).ret = s.ret := rfl
@[simp] theorem startBulk_mem : (startBulk s).mem = s.mem := rfl
@[simp] theorem startBulk_inputs : (startBulk s).inputs = s.inputs := rfl
@[simp] theorem startBulk_answers : (startBulk s).answers = s.answers := rfl
@[simp] theorem startBulk_calls : (startBulk s).calls = s.calls := rfl
@[simp] theorem startBulk_trace : (startBulk s).trace = s.trace := rfl

@[simp] theorem advance_cfg (n : Nat) : (advance n s).cfg = s.cfg := rfl
@[simp] theorem advance_session (n : Nat) : (advance n s).session = s.session := rfl
@[simp] theorem advance_dp (n : Nat) : (advance n s).dp = s.dp := rfl
@[simp] theorem advance_bulk (n : Nat) : (advance n s).bulk = { s.bulk with off := s.bulk.off + BitVec.ofNat 24 n } := rfl
@[simp] theorem advance_retry (n : Nat) : (advance n s).retry = s.retry := rfl
@[simp] theorem advance_req (n : Nat) : (advance n s).req = s.req := rfl
@[simp] theorem advance_compl (n : Nat) : (advance n s).compl = s.compl := rfl
@[simp] theorem advance_seq (n : Nat) : (advance n s).seq = s.seq := rfl
@[simp] theorem advance_ret (n : Nat) : (advance n s).ret = s.ret := rfl
@[simp] theorem advance_mem (n : Nat) : (advance n s).mem = s.mem := rfl
@[simp] theorem advance_inputs (n : Nat) : (advance n s).inputs = s.inputs := rfl
@[simp] theorem advance_answers (n : Nat) : (advance n s).answers = s.answers := rfl
@[simp] theorem advance_calls (n : Nat) : (advance n s).calls = s.calls := rfl
@[simp] theorem advance_trace (n : Nat) : (advance n s).trace = s.trace := rfl

@[simp] theorem storeChunk_cfg (p : List Byte) : (storeChunk p s).cfg = s.cfg := rfl
@[simp] theorem storeChunk_session (p : List Byte) : (storeChunk p s).session = s.session := rfl
@[simp] theorem storeChunk_dp (p : List Byte) : (storeChunk p s).dp = s.dp := rfl
@[simp] theorem storeChunk_bulk (p : List Byte) : (storeChunk p s).bulk = s.bulk := rfl
@[simp] theorem storeChunk_retry (p : List Byte) : (storeChunk p s).retry = s.retry := rfl
@[simp] theorem storeChunk_req (p : List Byte) : (storeChunk p s).req = s.req := rfl
@[simp] theorem storeChunk_compl (p : List Byte) : (storeChunk p s).compl = s.compl := rfl
@[simp] theorem storeChunk_seq (p : List Byte) : (storeChunk p s).seq = s.seq := rfl
@[simp] theorem storeChunk_ret (p : List Byte) : (storeChunk p s).ret = s.ret := rfl
@[simp] theorem storeChunk_mem (p : List Byte) : (storeChunk p s).mem = memWriteBytes s.mem (bufAddr s.req.buf s.bulk.off.toNat) p := rfl
@[simp] theorem storeChunk_inputs (p : List Byte) : (storeChunk p s).inputs = s.inputs := rfl
@[simp] theorem storeChunk_answers (p : List Byte) : (storeChunk p s).answers = s.answers := rfl
@[simp] theorem storeChunk_calls (p : List Byte) : (storeChunk p s).calls = s.calls := rfl
@[simp] theorem storeChunk_trace (p : List Byte) : (storeChunk p s).trace = s.trace := rfl

@[simp] theorem spoilBuffer_cfg (buf len : Word) : (spoilBuffer buf len s).cfg = s.cfg := rfl
@[simp] theorem spoilBuffer_session (buf len : Word) : (spoilBuffer buf len s).session = s.session := rfl
@[simp] theorem spoilBuffer_dp (buf len : Word) : (spoilBuffer buf len s).dp = s.dp := rfl
@[simp] theorem spoilBuffer_bulk (buf len : Word) : (spoilBuffer buf len s).bulk = s.bulk := rfl
@[simp] theorem spoilBuffer_retry (buf len : Word) : (spoilBuffer buf len s).retry = s.retry := rfl
@[simp] theorem spoilBuffer_req (buf len : Word) : (spoilBuffer buf len s).req = s.req := rfl
@[simp] theorem spoilBuffer_compl (buf len : Word) : (spoilBuffer buf len s).compl = s.compl := rfl
@[simp] theorem spoilBuffer_seq (buf len : Word) : (spoilBuffer buf len s).seq = s.seq := rfl
@[simp] theorem spoilBuffer_ret (buf len : Word) : (spoilBuffer buf len s).ret = s.ret := rfl
@[simp] theorem spoilBuffer_mem (buf len : Word) : (spoilBuffer buf len s).mem = memWriteBytes s.mem (bufAddr buf 0) (freeBytes s.calls 0 len.toNat) := rfl
@[simp] theorem spoilBuffer_inputs (buf len : Word) : (spoilBuffer buf len s).inputs = s.inputs := rfl
@[simp] theorem spoilBuffer_answers (buf len : Word) : (spoilBuffer buf len s).answers = s.answers := rfl
@[simp] theorem spoilBuffer_calls (buf len : Word) : (spoilBuffer buf len s).calls = s.calls := rfl
@[simp] theorem spoilBuffer_trace (buf len : Word) : (spoilBuffer buf len s).trace = s.trace := rfl

@[simp] theorem engineReset_cfg : (engineReset s).cfg = s.cfg := rfl
@[simp] theorem engineReset_session : (engineReset s).session = resetSession s.cfg := rfl
@[simp] theorem engineReset_dp : (engineReset s).dp = resetDatapath := rfl
@[simp] theorem engineReset_bulk : (engineReset s).bulk = resetBulk := rfl
@[simp] theorem engineReset_retry : (engineReset s).retry = { attempt := 0, lastErr := .ok } := rfl
@[simp] theorem engineReset_req : (engineReset s).req = { op := 0, addr := 0, wdata := 0, len := 0, buf := 0 } := rfl
@[simp] theorem engineReset_compl : (engineReset s).compl = { ok := false, err := 0, rdata := 0 } := rfl
@[simp] theorem engineReset_seq : (engineReset s).seq = .idle := rfl
@[simp] theorem engineReset_ret : (engineReset s).ret = [] := rfl
@[simp] theorem engineReset_mem : (engineReset s).mem = s.mem := rfl
@[simp] theorem engineReset_inputs : (engineReset s).inputs = s.inputs := rfl
@[simp] theorem engineReset_answers : (engineReset s).answers = s.answers := rfl
@[simp] theorem engineReset_calls : (engineReset s).calls = s.calls := rfl
@[simp] theorem engineReset_trace : (engineReset s).trace = s.trace := rfl

end

end Sys2Proof.Machine
end

