-- ==== Sys2Proof/Laws/Engine.lean ====
section
/-! SUPPORT. What each operation of the engine leaves alone, said once: `Within w s t` lists what never changes, what
changes only where the scope `w` says so, and how the trace, the calls and the answers advance together; `Obeys w m` says
that `m` stays within `w` from every state. One lemma for each way of building a computation, one for each operation. -/

namespace Sys2Proof.Machine

/-- The parts of the state an operation may change beside the datapath, the sequencer and the ports. -/
structure Scope where
  retry : Bool := false
  bulk : Bool := false
  mem : Bool := false
  mode : Bool := false
  lines : Bool := false

/-- `t` differs from `s` only as `w` allows; the ports have advanced and completed nothing. -/
structure Within (w : Scope) (s t : State) : Prop where
  cfg : t.cfg = s.cfg
  compl : t.compl = s.compl
  inputs : t.inputs = s.inputs
  req : t.req = s.req
  ret : t.ret = s.ret
  chunkSize : t.session.chunkSize = s.session.chunkSize
  xferStyle : t.session.xferStyle = s.session.xferStyle
  enhanced : t.session.enhancedThroughputMode = s.session.enhancedThroughputMode
  retry : w.retry = false → t.retry = s.retry
  bulk : w.bulk = false → t.bulk = s.bulk
  mem : w.mem = false → t.mem = s.mem
  memWf : memWf s.mem = true → memWf t.mem = true
  checksum : w.mode = false → t.session.checksumEnabled = s.session.checksumEnabled
  negotiated : w.mode = false → t.session.negotiated = s.session.negotiated
  lines : w.lines = false → t.session.interruptLineCount = s.session.interruptLineCount
  ports : ∃ ev : List Event, t.trace = s.trace ++ ev ∧ completionsIn ev = 0 ∧
    t.calls = s.calls + callsIn ev ∧ t.answers = s.answers.drop (callsIn ev)

theorem Within.refl (w : Scope) (s : State) : Within w s s where
  cfg := rfl
  compl := rfl
  inputs := rfl
  req := rfl
  ret := rfl
  chunkSize := rfl
  xferStyle := rfl
  enhanced := rfl
  retry _ := rfl
  bulk _ := rfl
  mem _ := rfl
  memWf h := h
  checksum _ := rfl
  negotiated _ := rfl
  lines _ := rfl
  ports := ⟨[], by simp [completionsIn, callsIn]⟩

theorem Within.trans {w : Scope} {s t u : State} (h : Within w s t) (k : Within w t u) : Within w s u where
  cfg := k.cfg.trans h.cfg
  compl := k.compl.trans h.compl
  inputs := k.inputs.trans h.inputs
  req := k.req.trans h.req
  ret := k.ret.trans h.ret
  chunkSize := k.chunkSize.trans h.chunkSize
  xferStyle := k.xferStyle.trans h.xferStyle
  enhanced := k.enhanced.trans h.enhanced
  retry e := (k.retry e).trans (h.retry e)
  bulk e := (k.bulk e).trans (h.bulk e)
  mem e := (k.mem e).trans (h.mem e)
  memWf e := k.memWf (h.memWf e)
  checksum e := (k.checksum e).trans (h.checksum e)
  negotiated e := (k.negotiated e).trans (h.negotiated e)
  lines e := (k.lines e).trans (h.lines e)
  ports := by
    obtain ⟨e1, t1, c1, n1, a1⟩ := h.ports
    obtain ⟨e2, t2, c2, n2, a2⟩ := k.ports
    refine ⟨e1 ++ e2, by simp [t2, t1], ?_, ?_, ?_⟩
    · simp only [completionsIn, List.countP_append] at *
      omega
    · simp only [callsIn, List.countP_append] at *
      omega
    · rw [a2, a1, List.drop_drop]
      simp [callsIn, List.countP_append]

/-- A change of the datapath and the sequencer alone. -/
theorem Within.of_dp_seq (w : Scope) (s : State) (d : Datapath) (q : Seq) : Within w s { s with dp := d, seq := q } where
  cfg := rfl
  compl := rfl
  inputs := rfl
  req := rfl
  ret := rfl
  chunkSize := rfl
  xferStyle := rfl
  enhanced := rfl
  retry _ := rfl
  bulk _ := rfl
  mem _ := rfl
  memWf h := h
  checksum _ := rfl
  negotiated _ := rfl
  lines _ := rfl
  ports := ⟨[], by simp [completionsIn, callsIn]⟩

/-- A scope may be widened. -/
theorem Within.mono {w w' : Scope} {s t : State} (h : Within w s t)
    (hr : w'.retry = false → w.retry = false) (hb : w'.bulk = false → w.bulk = false)
    (hm : w'.mem = false → w.mem = false) (hc : w'.mode = false → w.mode = false)
    (hl : w'.lines = false → w.lines = false) : Within w' s t :=
  { h with
    retry := fun e => h.retry (hr e)
    bulk := fun e => h.bulk (hb e)
    mem := fun e => h.mem (hm e)
    checksum := fun e => h.checksum (hc e)
    negotiated := fun e => h.negotiated (hc e)
    lines := fun e => h.lines (hl e) }

/-- The computation stays within the scope from every state. -/
def Obeys {α : Type} (w : Scope) (m : Eng α) : Prop :=
  ∀ s, Within w s (m s).2

section combinators
variable {α β : Type} {w : Scope}

theorem Obeys.pureE (a : α) : Obeys w (pureE a) := fun s => Within.refl w s

theorem Obeys.raiseE (e : Cause) : Obeys w (raiseE e : Eng α) := fun s => Within.refl w s

theorem Obeys.bindE {m : Eng α} {k : α → Eng β} (hm : Obeys w m) (hk : ∀ a, Obeys w (k a)) : Obeys w (bindE m k) := by
  intro s
  have h := hm s
  unfold Machine.bindE
  rcases hms : m s with ⟨r, t⟩
  rw [hms] at h
  cases r with
  | ok a => exact h.trans (hk a t)
  | err e => exact h

theorem Obeys.tryE {m : Eng α} (hm : Obeys w m) : Obeys w (tryE m) := by
  intro s
  have h := hm s
  unfold Machine.tryE
  rcases hms : m s with ⟨r, t⟩
  rw [hms] at h
  exact h

theorem Obeys.modify {f : State → State} (h : ∀ s, Within w s (f s)) : Obeys w (modifyE f) := h

theorem Obeys.withE {f : State → Eng α} (h : ∀ s, Obeys w (f s)) : Obeys w (withE f) := fun s => h s s

theorem Obeys.ite {c : Prop} [Decidable c] {m n : Eng α} (hm : Obeys w m) (hn : Obeys w n) :
    Obeys w (if c then m else n) := by
  split
  · exact hm
  · exact hn

theorem Obeys.under {m : Eng α} (q : Seq) (hm : Obeys w m) : Obeys w (under q m) := by
  intro s
  have h := hm { s with seq := q, ret := q :: s.ret }
  unfold Machine.under
  rcases hms : m { s with seq := q, ret := q :: s.ret } with ⟨r, t⟩
  rw [hms] at h
  exact { cfg := h.cfg, compl := h.compl, inputs := h.inputs, req := h.req, ret := rfl, chunkSize := h.chunkSize
          xferStyle := h.xferStyle, enhanced := h.enhanced, retry := h.retry, bulk := h.bulk, mem := h.mem
          memWf := h.memWf, checksum := h.checksum, negotiated := h.negotiated, lines := h.lines, ports := h.ports }

theorem Obeys.mono {w' : Scope} {m : Eng α} (hm : Obeys w m)
    (hr : w'.retry = false → w.retry = false) (hb : w'.bulk = false → w.bulk = false)
    (hme : w'.mem = false → w.mem = false) (hc : w'.mode = false → w.mode = false)
    (hl : w'.lines = false → w.lines = false) : Obeys w' m :=
  fun s => (hm s).mono hr hb hme hc hl

end combinators

/-! ## The ports -/

theorem within_emit (w : Scope) (s : State) (p : PortEvent)
    (hp : isTransport { seq := s.seq, ret := s.ret, port := p } = false) (hc : ∀ c, p ≠ .complete c) :
    Within w s (emit p s) where
  cfg := rfl
  compl := rfl
  inputs := rfl
  req := rfl
  ret := rfl
  chunkSize := rfl
  xferStyle := rfl
  enhanced := rfl
  retry _ := rfl
  bulk _ := rfl
  mem _ := rfl
  memWf h := h
  checksum _ := rfl
  negotiated _ := rfl
  lines _ := rfl
  ports := by
    refine ⟨_, rfl, ?_, ?_, ?_⟩
    · cases p <;> simp_all [completionsIn]
    · simp [callsIn, hp, emit]
    · simp [callsIn, hp, emit]

theorem within_delayEvent (w : Scope) (s : State) : Within w s (delayEvent s) :=
  within_emit w s _ rfl (by simp)

theorem within_logEvent (w : Scope) (tag : LogTag) (s : State) : Within w s (logEvent tag s) :=
  within_emit w s _ rfl (by simp)

/-- One transport call: one event, one answer consumed, nothing else. -/
theorem Obeys.transport {w : Scope} (n : Nat) (ev : Bool → List Byte → PortEvent)
    (hev : ∀ ok r q st, isTransport { seq := q, ret := st, port := ev ok r } = true)
    (hc : ∀ ok r c, ev ok r ≠ .complete c) : Obeys w (transport n ev) := by
  intro s
  have key : ∀ ok r, Within w s (emit (ev ok r) (takeAnswer s)) := fun ok r =>
    { cfg := rfl, compl := rfl, inputs := rfl, req := rfl, ret := rfl, chunkSize := rfl, xferStyle := rfl
      enhanced := rfl, retry := fun _ => rfl, bulk := fun _ => rfl, mem := fun _ => rfl, memWf := fun h => h
      checksum := fun _ => rfl, negotiated := fun _ => rfl, lines := fun _ => rfl
      ports := by
        refine ⟨_, rfl, ?_, ?_, ?_⟩
        · have := hc ok r
          rcases h : ev ok r <;> simp_all [completionsIn]
        · simp [callsIn, hev]
        · simp [callsIn, hev] }
  unfold Machine.transport
  dsimp only
  split
  · exact key _ _
  · exact key _ _

theorem Obeys.transmit {w : Scope} (b : List Byte) : Obeys w (transmit b) :=
  Obeys.transport _ _ (fun _ _ _ _ => rfl) (by simp)

theorem Obeys.receive {w : Scope} (n : Nat) : Obeys w (receive n) :=
  Obeys.transport _ _ (fun _ _ _ _ => rfl) (by simp)

theorem Obeys.transact {w : Scope} (b : List Byte) : Obeys w (transact b) :=
  Obeys.transport _ _ (fun _ _ _ _ => rfl) (by simp)

theorem Obeys.readNext {w : Scope} (n : Nat) (from_ : Where) : Obeys w (readNext n from_) := by
  intro s
  have h0 : ∀ d, Within w s { s with dp := d } := fun d => Within.of_dp_seq w s d s.seq
  unfold Machine.readNext
  dsimp only
  split
  · split
    · exact (h0 _).trans (Obeys.bindE (Obeys.receive _) (fun _ => Obeys.pureE _) _)
    · exact h0 _
  · exact h0 _

theorem Obeys.setSeq {w : Scope} (q : Seq) : Obeys w (modifyE (setSeq q)) := fun s => Within.of_dp_seq w s s.dp q

theorem Obeys.modifyDp {w : Scope} (f : State → Datapath) : Obeys w (modifyE fun s => { s with dp := f s }) :=
  fun s => Within.of_dp_seq w s (f s) s.seq

/-! ## The framer and the parser -/

/-- The CRC unit run over a body leaves the CRC register at `crc7` of it and changes nothing else (R131). -/
theorem crcRun_eq (body : List Byte) (s : State) :
    crcRun body s = { s with dp := { s.dp with crc := crc7 s.cfg.crc7Poly s.cfg.crc7Seed body } } := by
  have key : ∀ (body : List Byte) (s : State), body.foldl crcUpdate s =
      { s with dp := { s.dp with crc := crc7 s.cfg.crc7Poly s.dp.crc body } } := by
    intro body
    induction body with
    | nil => intro s; rfl
    | cons b rest ih => intro s; rw [List.foldl_cons, ih]; rfl
  unfold crcRun
  rw [key]
  rfl

/-- The checksum appended: the frame buffer holds the whole frame, the CRC register the remainder (R153). -/
theorem appendChecksum_eq (body : List Byte) (s : State) :
    appendChecksum body s =
      loadFrame (withCk s.cfg s.session.checksumEnabled body)
        (if s.session.checksumEnabled then { s with dp := { s.dp with crc := crc7 s.cfg.crc7Poly s.cfg.crc7Seed body } }
        else s) := by
  unfold appendChecksum withCk
  cases h : s.session.checksumEnabled with
  | true => simp [crcRun_eq, ckByte, ckField]
  | false => simp

theorem within_appendChecksum (w : Scope) (body : List Byte) (s : State) : Within w s (appendChecksum body s) := by
  rw [appendChecksum_eq]
  unfold loadFrame
  split
  · exact Within.of_dp_seq w s _ s.seq
  · exact Within.of_dp_seq w s _ s.seq

theorem Obeys.buildFrame {w : Scope} (opcode : Byte) (addr data size : Word) (cl : Bool) :
    Obeys w (buildFrame opcode addr data size cl) := by
  intro s
  unfold Machine.buildFrame
  split
  · exact (Within.of_dp_seq w s s.dp .build).trans (within_appendChecksum w _ _)
  · exact Within.of_dp_seq w s s.dp .build

theorem Obeys.scanLoop {w : Scope} (n : Nat) : Obeys w (scanLoop n) := by
  induction n with
  | zero => exact Obeys.raiseE _
  | succ n ih =>
    exact Obeys.bindE (Obeys.readNext _ _) fun _ => Obeys.bindE (Obeys.modifyDp _) fun _ =>
      Obeys.withE fun s => Obeys.ite (Obeys.modifyDp _) ih

theorem Obeys.scanSentinel {w : Scope} (q : Seq) : Obeys w (scanSentinel q) :=
  Obeys.bindE (fun s => Within.of_dp_seq w s _ q) fun _ => Obeys.withE fun _ => Obeys.scanLoop _

theorem Obeys.parseResponse {w : Scope} (opcode : Byte) : Obeys w (parseResponse opcode) := by
  refine Obeys.withE fun s => ?_
  split
  · rename_i k _
    refine Obeys.bindE ?_ fun _ => Obeys.bindE ?_ fun _ => Obeys.bindE ?_ fun st => ?_
    · unfold parseSkip
      split
      · exact Obeys.bindE (Obeys.setSeq _) fun _ => Obeys.bindE (Obeys.readNext _ _) fun _ => Obeys.pureE _
      · exact Obeys.pureE _
    · exact Obeys.bindE (Obeys.setSeq _) fun _ => Obeys.bindE (Obeys.readNext _ _) fun _ =>
        Obeys.bindE (Obeys.modifyDp _) fun _ => Obeys.withE fun _ => Obeys.ite (Obeys.pureE _) (Obeys.raiseE _)
    · exact Obeys.bindE (Obeys.setSeq _) fun _ => Obeys.bindE (Obeys.readNext _ _) fun _ =>
        Obeys.bindE (Obeys.modifyDp _) fun _ => Obeys.withE fun _ => Obeys.ite (Obeys.pureE _) (Obeys.raiseE _)
    · unfold parseBody
      split
      · exact Obeys.pureE _
      · exact Obeys.pureE _
      · refine Obeys.bindE (Obeys.scanSentinel _) fun _ => Obeys.bindE ?_ fun _ => Obeys.bindE ?_ fun _ => Obeys.pureE _
        · exact Obeys.bindE (Obeys.setSeq _) fun _ => Obeys.withE fun _ => Obeys.bindE (Obeys.readNext _ _) fun _ =>
            Obeys.bindE (Obeys.modifyDp _) fun _ => Obeys.pureE _
        · refine Obeys.withE fun _ => Obeys.ite ?_ ?_
          · exact Obeys.bindE (Obeys.setSeq _) fun _ => Obeys.bindE (Obeys.readNext _ _) fun _ =>
              Obeys.bindE (Obeys.modifyDp _) fun _ => Obeys.pureE _
          · exact Obeys.bindE (Obeys.modifyDp _) fun _ => Obeys.pureE _
      · exact Obeys.bindE (Obeys.scanSentinel _) fun _ => Obeys.bindE (Obeys.modifyDp _) fun _ => Obeys.pureE _
  · exact Obeys.raiseE _

theorem Obeys.exchange {w : Scope} : Obeys w exchange := by
  refine Obeys.bindE (Obeys.setSeq _) fun _ => Obeys.withE fun s => ?_
  split
  · exact Obeys.withE fun _ => Obeys.bindE (Obeys.transact _) fun _ => Obeys.modifyDp _
  · exact Obeys.withE fun _ => Obeys.bindE (Obeys.transmit _) fun _ => Obeys.modifyDp _

/-- A command exchange changes nothing but the datapath, the sequencer and the ports (R183). -/
theorem Obeys.cmdExchange {w : Scope} (opcode : Byte) (addr data size : Word) (cl : Bool) :
    Obeys w (cmdExchange opcode addr data size cl) :=
  Obeys.bindE (Obeys.buildFrame _ _ _ _ _) fun _ => Obeys.bindE Obeys.exchange fun _ => Obeys.parseResponse _

theorem Obeys.readRegOnce {w : Scope} (opcode : Byte) (addr : Word) (cl : Bool) : Obeys w (readRegOnce opcode addr cl) :=
  Obeys.bindE (Obeys.cmdExchange _ _ _ _ _) fun _ => Obeys.withE fun _ => Obeys.pureE _

theorem Obeys.writeRegOnce {w : Scope} (opcode : Byte) (addr data : Word) (cl : Bool) :
    Obeys w (writeRegOnce opcode addr data cl) :=
  Obeys.bindE (Obeys.cmdExchange _ _ _ _ _) fun _ => Obeys.pureE _

theorem Obeys.resetBusOnce {w : Scope} : Obeys w resetBusOnce :=
  Obeys.withE fun _ => Obeys.bindE (Obeys.cmdExchange _ _ _ _ _) fun _ => Obeys.pureE _

theorem Obeys.issueCommand {w : Scope} (opcode : Byte) (addr size : Word) : Obeys w (issueCommand opcode addr size) :=
  Obeys.bindE (Obeys.cmdExchange _ _ _ _ _) fun _ => Obeys.pureE _

/-! ## The retry controller -/

theorem within_recover (w : Scope) (s : State) : Within w s (recover s) := by
  unfold recover
  dsimp only
  have h1 : Within w s (delayEvent (setSeq .retryDelayA s)) :=
    (Within.of_dp_seq w s s.dp .retryDelayA).trans (within_delayEvent w _)
  have h2 := Obeys.under (w := w) .retryReset Obeys.resetBusOnce (delayEvent (setSeq .retryDelayA s))
  rcases hu : under .retryReset resetBusOnce (delayEvent (setSeq .retryDelayA s)) with ⟨r, t⟩
  rw [hu] at h2
  have h3 : ∀ u, Within w t u → Within w s (delayEvent (setSeq .retryDelayB u)) := fun u hu =>
    ((h1.trans h2).trans hu).trans ((Within.of_dp_seq w u u.dp .retryDelayB).trans (within_delayEvent w _))
  cases r with
  | ok _ => exact h3 t (Within.refl w t)
  | err _ => exact h3 _ (within_logEvent w _ t)

theorem within_retry {w : Scope} (hw : w.retry = true) (s : State) (r : Retry) (d : Datapath) (q : Seq) :
    Within w s { s with retry := r, dp := d, seq := q } :=
  { Within.of_dp_seq w s d q with retry := fun h => by simp [hw] at h }

theorem Obeys.retryLoop {α : Type} {w : Scope} (hw : w.retry = true) {op : Eng α} (hop : Obeys w op) (n : Nat) :
    Obeys w (retryLoop op n) := by
  induction n with
  | zero => exact fun s => Within.refl w s
  | succ n ih =>
    intro s
    have h := hop s
    unfold Machine.retryLoop
    rcases hs : op s with ⟨r, t⟩
    rw [hs] at h
    cases r with
    | ok v => exact h
    | err e =>
      have ht : Within w s (takeError e t) := h.trans (within_retry hw t _ _ _)
      dsimp only
      split
      · exact (((ht.trans (within_recover w _)).trans (within_retry hw _ _ _ _)).trans (ih _))
      · exact ht

theorem Obeys.retryOp {α : Type} {w : Scope} (hw : w.retry = true) {op : Eng α} (hop : Obeys w op) :
    Obeys w (retryOp op) := fun s =>
  (within_retry hw s _ s.dp s.seq).trans (Obeys.retryLoop hw hop s.cfg.maxRetry _)

theorem Obeys.readRegister {w : Scope} (hw : w.retry = true) (addr : Word) : Obeys w (readRegister addr) :=
  Obeys.withE fun _ => Obeys.ite (Obeys.retryOp hw (Obeys.readRegOnce _ _ _)) (Obeys.retryOp hw (Obeys.readRegOnce _ _ _))

theorem Obeys.writeRegister {w : Scope} (hw : w.retry = true) (addr v : Word) : Obeys w (writeRegister addr v) :=
  Obeys.withE fun _ => Obeys.ite (Obeys.retryOp hw (Obeys.writeRegOnce _ _ _ _))
    (Obeys.retryOp hw (Obeys.writeRegOnce _ _ _ _))

theorem Obeys.internalReadOp {w : Scope} (hw : w.retry = true) (addr : Word) : Obeys w (internalReadOp addr) :=
  Obeys.withE fun _ => Obeys.retryOp hw (Obeys.readRegOnce _ _ _)

theorem Obeys.internalWriteOp {w : Scope} (hw : w.retry = true) (addr v : Word) : Obeys w (internalWriteOp addr v) :=
  Obeys.withE fun _ => Obeys.retryOp hw (Obeys.writeRegOnce _ _ _ _)

/-! ## Bulk transfers -/

theorem within_bulk {w : Scope} (hw : w.bulk = true) (s : State) (b : Bulk) (q : Seq) :
    Within w s { s with bulk := b, seq := q } :=
  { Within.of_dp_seq w s s.dp q with bulk := fun h => by simp [hw] at h }

theorem Obeys.sendChunk {w : Scope} (hw : w.bulk = true) (t : OrderTag) (p : List Byte) : Obeys w (sendChunk t p) :=
  Obeys.bindE (fun s => within_bulk hw s _ _) fun _ =>
    Obeys.withE fun _ => Obeys.bindE (Obeys.transmit _) fun _ => Obeys.pureE _

theorem Obeys.advance {w : Scope} (hw : w.bulk = true) (n : Nat) : Obeys w (modifyE (advance n)) :=
  fun s => within_bulk hw s _ s.seq

theorem Obeys.writeChunks {w : Scope} (hw : w.bulk = true) (n : Nat) : Obeys w (writeChunks n) := by
  induction n with
  | zero => exact Obeys.pureE _
  | succ n ih =>
    exact Obeys.withE fun _ => Obeys.ite (Obeys.bindE (Obeys.withE fun _ =>
      Obeys.bindE (Obeys.sendChunk hw _ _) fun _ => Obeys.advance hw _) fun _ => ih) (Obeys.pureE _)

theorem Obeys.writeBulkOnce {w : Scope} (hw : w.bulk = true) : Obeys w writeBulkOnce :=
  Obeys.bindE (fun s => within_bulk hw s _ s.seq) fun _ => Obeys.withE fun _ =>
    Obeys.bindE (Obeys.cmdExchange _ _ _ _ _) fun _ => Obeys.bindE (Obeys.writeChunks hw _) fun _ => Obeys.pureE _

theorem within_mem {w : Scope} (hw : w.mem = true) (s : State) (a : Nat) (p : List Byte) :
    Within w s { s with mem := memWriteBytes s.mem a p } :=
  { Within.refl w s with
    mem := fun h => by simp [hw] at h
    memWf := fun h => memWf_memWriteBytes h a p }

theorem Obeys.readChunk {w : Scope} (hb : w.bulk = true) (hm : w.mem = true) : Obeys w readChunk := by
  refine Obeys.withE fun s => ?_
  refine Obeys.bindE (fun t => within_bulk hb t _ t.seq) fun _ => Obeys.bindE ?_ fun _ =>
    Obeys.bindE (Obeys.setSeq _) fun _ => Obeys.bindE (Obeys.readNext _ _) fun p =>
    Obeys.bindE (fun t => within_mem hm t _ p) fun _ => Obeys.bindE ?_ fun _ => Obeys.advance hb _
  · exact Obeys.ite (Obeys.pureE _) (Obeys.scanSentinel _)
  · exact Obeys.withE fun _ => Obeys.ite (Obeys.bindE (Obeys.setSeq _) fun _ =>
      Obeys.bindE (Obeys.readNext _ _) fun _ => Obeys.pureE _) (Obeys.pureE _)

theorem Obeys.readChunks {w : Scope} (hb : w.bulk = true) (hm : w.mem = true) (n : Nat) : Obeys w (readChunks n) := by
  induction n with
  | zero => exact Obeys.pureE _
  | succ n ih =>
    exact Obeys.withE fun _ => Obeys.ite (Obeys.bindE (Obeys.readChunk hb hm) fun _ => ih) (Obeys.pureE _)

theorem Obeys.readBulkOnce {w : Scope} (hb : w.bulk = true) (hm : w.mem = true) : Obeys w readBulkOnce :=
  Obeys.bindE (fun s => within_bulk hb s _ s.seq) fun _ => Obeys.withE fun _ =>
    Obeys.bindE (Obeys.cmdExchange _ _ _ _ _) fun _ => Obeys.bindE (Obeys.modifyDp _) fun _ =>
    Obeys.bindE (Obeys.readChunks hb hm _) fun _ => Obeys.bindE (Obeys.modifyDp _) fun _ => Obeys.pureE _

theorem Obeys.readBulkOp {w : Scope} (hr : w.retry = true) (hb : w.bulk = true) (hm : w.mem = true) :
    Obeys w readBulkOp := by
  intro s
  have h := Obeys.retryOp hr (Obeys.readBulkOnce (w := w) hb hm) s
  unfold Machine.readBulkOp
  rcases hs : Machine.retryOp Machine.readBulkOnce s with ⟨r, t⟩
  rw [hs] at h
  cases r with
  | ok _ => exact h
  | err _ => exact h.trans (within_mem hm t _ _)

/-! ## Negotiation and the surrounding operations -/

theorem within_mode {w : Scope} (hw : w.mode = true) (s : State) (c n : Bool) :
    Within w s { s with session := { s.session with checksumEnabled := c, negotiated := n } } :=
  { Within.refl w s with
    checksum := fun h => by simp [hw] at h
    negotiated := fun h => by simp [hw] at h }

theorem Obeys.setChecksum {w : Scope} (hw : w.mode = true) (b : Bool) : Obeys w (modifyE (setChecksum b)) :=
  fun s => within_mode hw s b s.session.negotiated

theorem Obeys.livenessProbe {w : Scope} (hr : w.retry = true) : Obeys w livenessProbe :=
  Obeys.withE fun _ => Obeys.bindE (Obeys.under _ (Obeys.readRegister hr _)) fun _ => Obeys.pureE _

theorem Obeys.negStep1 {w : Scope} (hr : w.retry = true) (hm : w.mode = true) : Obeys w negStep1 := by
  refine Obeys.bindE (Obeys.setChecksum hm _) fun _ => Obeys.withE fun _ =>
    Obeys.bindE (Obeys.tryE (Obeys.under _ (Obeys.internalReadOp hr _))) fun r1 => ?_
  split
  · exact Obeys.raiseE _
  · exact Obeys.pureE _

theorem Obeys.negStep3 {w : Scope} (hr : w.retry = true) (hm : w.mode = true) (reg : Word) : Obeys w (negStep3 reg) := by
  refine Obeys.withE fun _ => Obeys.bindE (Obeys.tryE (Obeys.under _ (Obeys.internalWriteOp hr _ _))) fun r3 => ?_
  split
  · exact Obeys.setChecksum hm _
  · exact Obeys.raiseE _

theorem Obeys.negStep2b {w : Scope} (hr : w.retry = true) (hm : w.mode = true) : Obeys w negStep2b := by
  refine Obeys.bindE (Obeys.setChecksum hm _) fun _ => Obeys.withE fun _ =>
    Obeys.bindE (Obeys.tryE (Obeys.under _ (Obeys.internalReadOp hr _))) fun r => ?_
  split
  · exact Obeys.pureE _
  · exact Obeys.raiseE _

theorem Obeys.negStep2 {w : Scope} (hr : w.retry = true) (hm : w.mode = true) : Obeys w negStep2 := by
  refine Obeys.withE fun _ => Obeys.bindE (Obeys.tryE (Obeys.under _ (Obeys.internalReadOp hr _))) fun r2 => ?_
  split
  · exact Obeys.negStep3 hr hm _
  · exact Obeys.negStep2b hr hm

theorem Obeys.negStep4 {w : Scope} (hr : w.retry = true) : Obeys w negStep4 := by
  refine Obeys.withE fun _ => Obeys.bindE (Obeys.tryE (Obeys.under _ (Obeys.readRegister hr _))) fun r4 => ?_
  split
  · exact Obeys.ite (Obeys.pureE _) (Obeys.raiseE _)
  · exact Obeys.raiseE _

theorem Obeys.negotiateOp {w : Scope} (hr : w.retry = true) (hm : w.mode = true) : Obeys w negotiateOp :=
  Obeys.withE fun _ => Obeys.ite (Obeys.livenessProbe hr)
    (Obeys.bindE (Obeys.negStep1 hr hm) fun _ => Obeys.bindE (Obeys.negStep2 hr hm) fun _ =>
      Obeys.bindE (Obeys.negStep4 hr) fun _ =>
      Obeys.bindE (fun s => within_mode hm s s.session.checksumEnabled true) fun _ => Obeys.pureE _)

theorem Obeys.rdintLoop {w : Scope} (hr : w.retry = true) (c : IntStatus) (n : Nat) : Obeys w (rdintLoop c n) := by
  induction n with
  | zero =>
    exact Obeys.bindE (Obeys.readRegister hr _) fun _ => Obeys.withE fun _ =>
      Obeys.ite (Obeys.bindE (fun s => within_logEvent w _ s) fun _ => Obeys.pureE _) (Obeys.pureE _)
  | succ n ih =>
    exact Obeys.bindE (Obeys.readRegister hr _) fun _ => Obeys.withE fun _ => Obeys.ite ih (Obeys.pureE _)

theorem Obeys.rdintOp {w : Scope} (hr : w.retry = true) (c : IntStatus) : Obeys w (rdintOp c) :=
  Obeys.withE fun _ => Obeys.rdintLoop hr c _

theorem Obeys.syncOp {w : Scope} (hr : w.retry = true) (hl : w.lines = true) (c : IntEnable) (count : Word) :
    Obeys w (syncOp c count) :=
  Obeys.bindE (Obeys.readRegister hr _) fun _ => Obeys.bindE (Obeys.writeRegister hr _ _) fun _ =>
    Obeys.bindE (fun s => { Within.refl w s with lines := fun h => by simp [hl] at h }) fun _ => Obeys.pureE _

end Sys2Proof.Machine
end

