-- ==== Sys2Proof/Laws/Exchange.lean ====
section
/-! SUPPORT. What the framer, the response reader, the parser and the command exchange do when the peer answers well: one
lemma for each, which later proofs cite instead of unfolding the operation. -/

namespace Sys2Proof.Machine

/-! ## Opcodes and frames -/

/-- Under the constraints of R8 the opcode byte of a kind names that kind. -/
theorem cmdOfByte_opcOf {P : Params} (h : paramsWf P = true) (k : Cmd) : cmdOfByte P.opc (opcOf P.opc k) = some k := by
  have hn : (allCmds.map (opcOf P.opc)).Nodup := by
    simp only [paramsWf, Bool.and_eq_true, decide_eq_true_eq] at h
    exact h.1.1.1.1.1.1.1.1.1
  have hinj : ∀ j, opcOf P.opc j = opcOf P.opc k → j = k := by
    intro j hj
    have hmem : ∀ c : Cmd, c ∈ allCmds := by intro c; cases c <;> decide
    exact List.inj_on_of_nodup_map hn (hmem j) (hmem k) hj
  unfold cmdOfByte
  cases hf : allCmds.find? (fun j => opcOf P.opc j == opcOf P.opc k) with
  | none =>
    have := List.find?_eq_none.mp hf k (by cases k <;> decide)
    simp at this
  | some j =>
    have := List.find?_some hf
    simp only [beq_iff_eq] at this
    rw [hinj j this]

/-- The parts of R8 a proof uses. -/
theorem paramsWf_bounds {P : Params} (h : paramsWf P = true) : 1 ≤ P.maxRetry ∧ 1 ≤ P.scanBudget := by
  simp only [paramsWf, Bool.and_eq_true, decide_eq_true_eq] at h
  exact ⟨h.1.1.1.1.1.1.1.1.2, h.1.1.1.1.1.1.1.2⟩

/-- The sizes of R6 that go with registers and formats of fixed width. -/
theorem paramsWf_sizes {P : Params} (h : paramsWf P = true) :
    P.intLinesMax = 8 ∧ P.regPayloadLen = 4 ∧ P.dataCkLen = 2 ∧ P.cmdCkLen = 1 := by
  simp only [paramsWf, fixedSizes, Bool.and_eq_true, decide_eq_true_eq] at h
  exact ⟨h.2.1.1.1.2, h.2.1.1.2, h.2.1.2, h.2.2⟩

theorem cmdBody_length (P : Params) (k : Cmd) (addr data size : Word) (cl : Bool) :
    (cmdBody P k addr data size cl).length = frameLenOff k := by
  cases k <;> rfl

theorem cmdBody_head (P : Params) (k : Cmd) (addr data size : Word) (cl : Bool) :
    (cmdBody P k addr data size cl).getD 0 0 = opcOf P.opc k := by
  cases k <;> rfl

theorem withCk_length (P : Params) (ck : Bool) (b : List Byte) : (withCk P ck b).length = b.length + if ck then P.cmdCkLen else 0 := by
  cases ck <;> simp [withCk, ckField]

/-- The frame's length depends on its opcode and on the checksum mode alone (R88, R156). -/
theorem frame_length (P : Params) (k : Cmd) (ck : Bool) (addr data size : Word) (cl : Bool) :
    (withCk P ck (cmdBody P k addr data size cl)).length = frameLen P k ck := by
  rw [withCk_length, cmdBody_length, frameLen]

theorem frameLen_le {P : Params} (hP : paramsWf P = true) (k : Cmd) (ck : Bool) : frameLen P k ck ≤ 9 := by
  unfold frameLen
  rw [(paramsWf_sizes hP).2.2.2]
  cases k <;> cases ck <;> decide

theorem frameOf_loadFrame {f : List Byte} (h : f.length ≤ 9) (s : State) : frameOf (loadFrame f s) = f := by
  have hl : (BitVec.ofNat 4 f.length).toNat = f.length := by
    rw [BitVec.toNat_ofNat]
    exact Nat.mod_eq_of_lt (by omega)
  unfold frameOf loadFrame
  dsimp only
  rw [hl]
  match f, h with
  | [], _ => rfl
  | [_], _ => rfl
  | [_, _], _ => rfl
  | [_, _, _], _ => rfl
  | [_, _, _, _], _ => rfl
  | [_, _, _, _, _], _ => rfl
  | [_, _, _, _, _, _], _ => rfl
  | [_, _, _, _, _, _, _], _ => rfl
  | [_, _, _, _, _, _, _, _], _ => rfl
  | [_, _, _, _, _, _, _, _, _], _ => rfl
  | _ :: _ :: _ :: _ :: _ :: _ :: _ :: _ :: _ :: _ :: _, h => exact absurd h (by simp)

/-- What building a frame does (R140, R153): the buffer holds the whole frame, its first byte the opcode. -/
theorem buildFrame_spec {s : State} (hP : paramsWf s.cfg = true) (k : Cmd) (addr data size : Word) (cl : Bool) :
    ∃ t, buildFrame (opcOf s.cfg.opc k) addr data size cl s = (.ok (), t) ∧
      frameOf t = withCk s.cfg s.session.checksumEnabled (cmdBody s.cfg k addr data size cl) ∧
      t.dp.flen.toNat = frameLen s.cfg k s.session.checksumEnabled ∧
      t.dp.fb.b0 = opcOf s.cfg.opc k ∧ t.cfg = s.cfg ∧ t.session = s.session ∧ t.answers = s.answers ∧
      t.trace = s.trace ∧ t.calls = s.calls ∧ t.ret = s.ret := by
  refine ⟨_, by rw [buildFrame, cmdOfByte_opcOf hP k], ?_⟩
  have hlen := frame_length s.cfg k s.session.checksumEnabled addr data size cl
  have hle := frameLen_le hP k s.session.checksumEnabled
  have h9 : (withCk s.cfg s.session.checksumEnabled (cmdBody s.cfg k addr data size cl)).length ≤ 9 := by omega
  rw [appendChecksum_eq]
  refine ⟨frameOf_loadFrame h9 _, ?_, ?_, ?_, ?_, ?_, ?_, ?_, ?_⟩
  · change (BitVec.ofNat 4 _).toNat = _
    rw [BitVec.toNat_ofNat]
    change (withCk s.cfg s.session.checksumEnabled (cmdBody s.cfg k addr data size cl)).length % 2 ^ 4 = _
    rw [hlen]
    exact Nat.mod_eq_of_lt (by omega)
  · change (withCk s.cfg s.session.checksumEnabled (cmdBody s.cfg k addr data size cl)).getD 0 0 = _
    rw [withCk]
    have hh := cmdBody_head s.cfg k addr data size cl
    have hlen2 := cmdBody_length s.cfg k addr data size cl
    split
    · rw [List.getD_append _ _ _ _ (by rw [hlen2]; cases k <;> decide)]
      exact hh
    · exact hh
  all_goals
    unfold loadFrame
    split <;> rfl

/-! ## The response reader -/

theorem answerBytes_length (c i n : Nat) (l : List Byte) : (answerBytes c i n l).length = n := by
  induction n generalizing i l with
  | zero => rfl
  | succ n ih => cases l <;> simp [answerBytes, ih]

/-- An answer long enough is taken as it is (R13). -/
theorem answerBytes_eq (c i n : Nat) (l : List Byte) (h : n ≤ l.length) : answerBytes c i n l = l.take n := by
  induction n generalizing i l with
  | zero => simp [answerBytes]
  | succ n ih =>
    cases l with
    | nil => simp at h
    | cons b rest => simp only [answerBytes, List.take_succ_cons]; rw [ih]; simpa using h

/-- A transport call answered `true`, with enough bytes listed. -/
theorem transport_ok {s : State} {n : Nat} {ev : Bool → List Byte → PortEvent} {b : List Byte} {more : List Answer}
    (h : s.answers = { ok := true, bytes := b } :: more) (hb : b.length = n) :
    transport n ev s = (.ok b, emit (ev true b) (takeAnswer s)) := by
  unfold transport nextAnswer
  rw [h]
  simp only [if_true]
  rw [answerBytes_eq _ _ _ _ (by omega), List.take_of_length_le (by omega)]

/-- A transport call answered `false` (R187). -/
theorem transport_false {s : State} {n : Nat} {ev : Bool → List Byte → PortEvent} {b : List Byte} {more : List Answer}
    (h : s.answers = { ok := false, bytes := b } :: more) :
    transport n ev s = (.err .transportError, emit (ev false []) (takeAnswer s)) := by
  unfold transport nextAnswer
  rw [h]
  simp

/-- What stands behind the fields being read: the fields of later steps, the bytes captured beyond them, the answers
beyond them. -/
structure Rest where
  later : List (List Byte)
  extra : List Byte
  more : List Answer

/-- The reader is about to deliver the fields `fs`: `q` of the bytes that stand before the engine are captured, the others
are what the environment answers next. -/
structure Ready (s : State) (q : Nat) (fs : List (List Byte)) (z : Rest) : Prop where
  cap : s.dp.cap = (fs.flatten ++ (z.later.flatten ++ z.extra)).take q
  len : q ≤ (fs.flatten ++ (z.later.flatten ++ z.extra)).length
  answers : s.answers = serve q (fs ++ z.later) ++ z.more
  fetch : s.dp.fetch = true ∨ fs.flatten.length ≤ q

/-- The reader has gone on from the fields `fs` to the fields `fs'`, and nothing that a later step reads has changed. -/
structure Advances (s t : State) (q : Nat) (fs : List (List Byte)) (q' : Nat) (fs' : List (List Byte)) (z : Rest) : Prop where
  ready : Ready t q' fs' z
  ports : ∃ ev : List Event, t.trace = s.trace ++ ev ∧ servePorts q (fs ++ z.later) = ev.map (fun e => e.port) ++ servePorts q' (fs' ++ z.later)
  cfg : t.cfg = s.cfg
  session : t.session = s.session
  opcode : t.dp.fb.b0 = s.dp.fb.b0
  fetch : t.dp.fetch = s.dp.fetch

theorem Advances.refl {s : State} {q : Nat} {fs : List (List Byte)} {z : Rest}
    (h : Ready s q fs z) : Advances s s q fs q fs z :=
  ⟨h, ⟨[], by simp⟩, rfl, rfl, rfl, rfl⟩

theorem Advances.trans {s t u : State} {q q' q'' : Nat} {fs fs' fs'' : List (List Byte)} {z : Rest}
    (h : Advances s t q fs q' fs' z) (k : Advances t u q' fs' q'' fs'' z) :
    Advances s u q fs q'' fs'' z := by
  obtain ⟨e1, t1, p1⟩ := h.ports
  obtain ⟨e2, t2, p2⟩ := k.ports
  exact ⟨k.ready, ⟨e1 ++ e2, by simp [t2, t1], by simp [p1, p2]⟩, k.cfg.trans h.cfg, k.session.trans h.session,
    k.opcode.trans h.opcode, k.fetch.trans h.fetch⟩

/-- A change that the reader does not see, before what follows. -/
theorem Advances.after {s s' t : State} {q q' : Nat} {fs fs' : List (List Byte)} {z : Rest}
    (h : Advances s' t q fs q' fs' z) (htr : s'.trace = s.trace) (hc : s'.cfg = s.cfg) (hs : s'.session = s.session)
    (ho : s'.dp.fb.b0 = s.dp.fb.b0) (hf : s'.dp.fetch = s.dp.fetch) : Advances s t q fs q' fs' z := by
  obtain ⟨e, ht, hp⟩ := h.ports
  exact ⟨h.ready, ⟨e, by rw [ht, htr], hp⟩, h.cfg.trans hc, h.session.trans hs, h.opcode.trans ho, h.fetch.trans hf⟩

/-- A change that the reader does not see, after what went before. -/
theorem Advances.before {s t t' : State} {q q' : Nat} {fs fs' : List (List Byte)} {z : Rest}
    (h : Advances s t q fs q' fs' z) (htr : t'.trace = t.trace) (hc : t'.cfg = t.cfg) (hs : t'.session = t.session)
    (ho : t'.dp.fb.b0 = t.dp.fb.b0) (hf : t'.dp.fetch = t.dp.fetch) (hcap : t'.dp.cap = t.dp.cap)
    (ha : t'.answers = t.answers) : Advances s t' q fs q' fs' z := by
  obtain ⟨e, ht, hp⟩ := h.ports
  exact ⟨⟨hcap.trans h.ready.cap, h.ready.len, ha.trans h.ready.answers, by rw [hf]; exact h.ready.fetch⟩,
    ⟨e, by rw [htr, ht], hp⟩, hc.trans h.cfg, hs.trans h.session, ho.trans h.opcode, hf.trans h.fetch⟩

theorem Ready.congr {s s' : State} {q : Nat} {fs : List (List Byte)} {z : Rest}
    (h : Ready s q fs z) (hcap : s'.dp.cap = s.dp.cap) (ha : s'.answers = s.answers)
    (hf : s'.dp.fetch = s.dp.fetch) : Ready s' q fs z :=
  ⟨hcap.trans h.cap, h.len, ha.trans h.answers, by rw [hf]; exact h.fetch⟩

/-- The reader delivers the next field whole (R171). -/
theorem readNext_ready {s : State} {q : Nat} {f : List Byte} {fs : List (List Byte)} {z : Rest}
    (h : Ready s q (f :: fs) z) (from_ : Where) {n : Nat} (hn : f.length = n) :
    ∃ t q', readNext n from_ s = (.ok f, t) ∧ Advances s t q (f :: fs) q' fs z := by
  have hcap := h.cap
  have hlen := h.len
  have hans := h.answers
  simp only [List.flatten_cons, List.append_assoc, List.length_append] at hcap hlen
  have hcl : s.dp.cap.length = q := by
    rw [hcap, List.length_take]
    simp only [List.length_append]
    omega
  subst hn
  by_cases hq : f.length ≤ q
  · refine ⟨{ s with dp := { s.dp with cap := s.dp.cap.drop f.length } }, q - f.length, ?_, ?_⟩
    · unfold readNext
      dsimp only
      rw [if_neg (by omega), hcap, List.take_take, Nat.min_eq_left hq, List.take_left' rfl]
    · refine ⟨⟨?_, ?_, ?_, ?_⟩, ⟨[], by simp, ?_⟩, rfl, rfl, rfl, rfl⟩
      · change s.dp.cap.drop f.length = _
        rw [hcap, List.drop_take, List.drop_left' rfl]
      · simp only [List.length_append]
        omega
      · change s.answers = _
        rw [hans, List.cons_append, serve, if_pos hq]
      · rcases h.fetch with hf | hf
        · exact .inl hf
        · right
          simp only [List.flatten_cons, List.length_append] at hf
          omega
      · rw [List.cons_append, servePorts, if_pos hq]
        rfl
  · have hf : s.dp.fetch = true := by
      rcases h.fetch with hf | hf
      · exact hf
      · simp only [List.flatten_cons, List.length_append] at hf
        omega
    have hc1 : s.dp.cap = f.take q := by
      rw [hcap, List.take_append_of_le_length (by omega)]
    rw [List.cons_append, serve, if_neg hq] at hans
    refine ⟨emit (.receive (f.length - q) true (f.drop q))
      (takeAnswer { s with dp := { s.dp with cap := s.dp.cap.drop f.length } }), 0, ?_, ?_⟩
    · unfold readNext bindE receive
      dsimp only
      rw [if_pos (by omega), if_pos hf, hcl,
        transport_ok (s := { s with dp := { s.dp with cap := s.dp.cap.drop f.length } }) hans (by simp)]
      simp only [pureE]
      rw [hc1, List.take_take, Nat.min_eq_right (by omega), List.take_append_drop]
    · refine ⟨⟨?_, by omega, ?_, .inl hf⟩, ⟨_, rfl, ?_⟩, rfl, rfl, rfl, rfl⟩
      · change s.dp.cap.drop f.length = _
        rw [List.drop_eq_nil_of_le (by omega), List.take_zero]
      · change s.answers.tail = _
        rw [hans]
        rfl
      · rw [List.cons_append, servePorts, if_neg hq]
        rfl

/-! ## The response registers -/

/-- The reader writes no response register, and leaves the frame buffer and the configuration alone. -/
theorem readNext_regs {n : Nat} {w : Where} {s t : State} {r : Res (List Byte)} (h : readNext n w s = (r, t)) :
    responseRegs t.dp = responseRegs s.dp ∧ t.dp.fb = s.dp.fb ∧ t.cfg = s.cfg := by
  unfold readNext bindE receive transport at h
  dsimp only at h
  split at h
  · split at h
    · split at h
      · rename_i h1
        split at h1 <;> cases h1
        cases h
        exact ⟨rfl, rfl, rfl⟩
      · rename_i h1
        split at h1 <;> cases h1
        cases h
        exact ⟨rfl, rfl, rfl⟩
    · cases h
      exact ⟨rfl, rfl, rfl⟩
  · cases h
    exact ⟨rfl, rfl, rfl⟩

/-! ## The parser -/

/-- The scan takes the wait bytes and stops at the sentinel (R176). -/
theorem scanLoop_ready {s : State} {q : Nat} {waits : List Byte} {header : Byte} {fs : List (List Byte)} {z : Rest} {n : Nat}
    (h : Ready s q (waits.map (fun w => [w]) ++ [header] :: fs) z) (hn : waits.length < n)
    (hw : ∀ w ∈ waits, isSentinel s.cfg w = false) (hh : isSentinel s.cfg header = true) :
    ∃ t q', scanLoop n s = (.ok (), t) ∧
      Advances s t q (waits.map (fun w => [w]) ++ [header] :: fs) q' fs z ∧
      responseRegs t.dp =
        { responseRegs s.dp with header := header, scanCnt := s.dp.scanCnt + waits.length + 1 } := by
  induction waits generalizing s q n with
  | nil =>
    obtain ⟨m, rfl⟩ : ∃ m, n = m + 1 := ⟨n - 1, by simp at hn; omega⟩
    obtain ⟨t, q', ht, hadv⟩ := readNext_ready h .scan (n := 1) rfl
    refine ⟨_, q', ?_, hadv.before
      (t' := { t with dp := { t.dp with scanCnt := t.dp.scanCnt + 1, rHdr := header } }) rfl rfl rfl rfl rfl rfl rfl, ?_⟩
    rotate_left
    · have hg := (readNext_regs ht).1
      simp only [responseRegs, ResponseRegs.mk.injEq] at hg ⊢
      simp [hg]
    have hh' : header.extractLsb' 4 4 = t.cfg.sentinelNibble := by
      rw [hadv.cfg]
      simpa [isSentinel] using hh
    simp [scanLoop, bindE, ht, modifyE, withE, hh']
  | cons w rest ih =>
    obtain ⟨m, rfl⟩ : ∃ m, n = m + 1 := ⟨n - 1, by simp at hn; omega⟩
    obtain ⟨t, q1, ht, hadv⟩ := readNext_ready h .scan (n := 1) rfl
    have hadv' := hadv.before (t' := { t with dp := { t.dp with scanCnt := t.dp.scanCnt + 1 } }) rfl rfl rfl rfl rfl rfl rfl
    have hw' : ¬ w.extractLsb' 4 4 = t.cfg.sentinelNibble := by
      rw [hadv.cfg]
      simpa [isSentinel] using hw w (by simp)
    obtain ⟨u, q', hu, hadv2, hreg⟩ := ih (n := m) hadv'.ready (by simp at hn; omega)
      (fun v hv => by rw [hadv'.cfg]; exact hw v (by simp [hv])) (by rw [hadv'.cfg]; exact hh)
    refine ⟨u, q', ?_, hadv'.trans hadv2, ?_⟩
    rotate_left
    · have hg := (readNext_regs ht).1
      rw [hreg]
      simp only [responseRegs, ResponseRegs.mk.injEq, List.length_cons] at hg ⊢
      simp only [hg, true_and]
      omega
    simp [scanLoop, bindE, ht, modifyE, withE, hw', hu]

/-- The scan of one response or read chunk (R176). -/
theorem scanSentinel_ready {s : State} {q n : Nat} {r : Reply} {fs : List (List Byte)} {z : Rest}
    (seq : Seq) (h : Ready s q (scanFields r ++ fs) z) (hr : r.Good s.cfg n) :
    ∃ t q', scanSentinel seq s = (.ok (), t) ∧ Advances s t q (scanFields r ++ fs) q' fs z ∧
      responseRegs t.dp = { responseRegs s.dp with header := r.header, scanCnt := r.waits.length + 1 } := by
  have h' : Ready { s with seq := seq, dp := { s.dp with scanCnt := 0 } } q
      (r.waits.map (fun w => [w]) ++ [r.header] :: fs) z := by
    have := h.congr (s' := { s with seq := seq, dp := { s.dp with scanCnt := 0 } }) rfl rfl rfl
    simpa [scanFields] using this
  obtain ⟨t, q', ht, hadv, hreg⟩ := scanLoop_ready (n := s.cfg.scanBudget) h' hr.budget hr.waits hr.header
  refine ⟨t, q', ?_, ?_, by simpa [responseRegs] using hreg⟩
  · simp [scanSentinel, bindE, modifyE, withE, ht]
  · have := hadv.after (s := s) rfl rfl rfl rfl rfl
    simpa [scanFields] using this

/-- What the parser returns of a good response (R170, R188). -/
def parsedOf (P : Params) (k : Cmd) (ck : Bool) (r : Reply) : Parsed :=
  match classOf k with
  | .registerRead => { status := P.statusOk, payload := r.payload, trailing := if ck then some (bytes2 r.ck) else none }
  | .resetClass | .writeClass | .bulkRead => { status := P.statusOk, payload := [], trailing := none }

theorem parseSkip_ready {s : State} {q : Nat} {k : Cmd} {b : Byte} {fs : List (List Byte)} {z : Rest} (hk : classOf k = .resetClass) (h : Ready s q ([b] :: fs) z) :
    ∃ t q', parseSkip k s = (.ok (), t) ∧ Advances s t q ([b] :: fs) q' fs z ∧
      responseRegs t.dp = responseRegs s.dp := by
  obtain ⟨t, q', ht, hadv⟩ :=
    readNext_ready (h.congr (s' := setSeq .rspSkip s) rfl rfl rfl) .field (n := 1) rfl
  refine ⟨t, q', ?_, hadv.after rfl rfl rfl rfl rfl, (readNext_regs ht).1⟩
  simp [parseSkip, hk, bindE, modifyE, ht, pureE]

theorem parseSkip_none {k : Cmd} (hk : classOf k ≠ .resetClass) (s : State) : parseSkip k s = (.ok (), s) := by
  cases k <;> first | rfl | exact absurd rfl hk

theorem parseEcho_ready {s : State} {q : Nat} {fs : List (List Byte)} {z : Rest}
    (h : Ready s q ([s.dp.fb.b0] :: fs) z) :
    ∃ t q', parseEcho s = (.ok (), t) ∧ Advances s t q ([s.dp.fb.b0] :: fs) q' fs z ∧
      responseRegs t.dp = { responseRegs s.dp with echo := s.dp.fb.b0 } := by
  obtain ⟨t, q', ht, hadv⟩ :=
    readNext_ready (h.congr (s' := setSeq .rspEcho s) rfl rfl rfl) .field (n := 1) rfl
  refine ⟨{ t with dp := { t.dp with rEcho := s.dp.fb.b0 } }, q', ?_,
    (hadv.after (s := s) rfl rfl rfl rfl rfl).before rfl rfl rfl rfl rfl rfl rfl,
    congrArg (fun g : ResponseRegs => { g with echo := s.dp.fb.b0 }) (readNext_regs ht).1⟩
  have : t.dp.fb.b0 = s.dp.fb.b0 := hadv.opcode
  simp [parseEcho, bindE, modifyE, withE, ht, this, pureE]

theorem parseStatus_ready {s : State} {q : Nat} {fs : List (List Byte)} {z : Rest}
    (h : Ready s q ([s.cfg.statusOk] :: fs) z) :
    ∃ t q', parseStatus s = (.ok s.cfg.statusOk, t) ∧ Advances s t q ([s.cfg.statusOk] :: fs) q' fs z ∧
      responseRegs t.dp = { responseRegs s.dp with status := s.cfg.statusOk } := by
  obtain ⟨t, q', ht, hadv⟩ :=
    readNext_ready (h.congr (s' := setSeq .rspStatus s) rfl rfl rfl) .field (n := 1) rfl
  refine ⟨{ t with dp := { t.dp with rStatus := s.cfg.statusOk } }, q', ?_,
    (hadv.after (s := s) rfl rfl rfl rfl rfl).before rfl rfl rfl rfl rfl rfl rfl,
    congrArg (fun g : ResponseRegs => { g with status := s.cfg.statusOk }) (readNext_regs ht).1⟩
  have : t.cfg = s.cfg := hadv.cfg
  simp [parseStatus, bindE, modifyE, withE, ht, this, pureE]

theorem parsePayload_ready {s : State} {q : Nat} {p : List Byte} {fs : List (List Byte)} {z : Rest} (h : Ready s q (p :: fs) z)
    (hp : p.length = s.cfg.regPayloadLen) :
    ∃ t q', parsePayload s = (.ok p, t) ∧ Advances s t q (p :: fs) q' fs z ∧
      responseRegs t.dp = { responseRegs s.dp with payload := bytes4 p } := by
  obtain ⟨t, q', ht, hadv⟩ :=
    readNext_ready (h.congr (s' := setSeq .rspData s) rfl rfl rfl) .field (n := s.cfg.regPayloadLen) hp
  refine ⟨{ t with dp := { t.dp with rPayload := bytes4 p } }, q', ?_,
    (hadv.after (s := s) rfl rfl rfl rfl rfl).before rfl rfl rfl rfl rfl rfl rfl,
    congrArg (fun g : ResponseRegs => { g with payload := bytes4 p }) (readNext_regs ht).1⟩
  simp [parsePayload, withE, bindE, modifyE, ht, pureE]

theorem parseTrailing_ready {s : State} {q : Nat} {c : List Byte} {fs : List (List Byte)} {z : Rest} (h : Ready s q ((if s.session.checksumEnabled then [c] else []) ++ fs) z)
    (hc : c.length = s.cfg.dataCkLen) :
    ∃ t q', parseTrailing s = (.ok (if s.session.checksumEnabled then some (bytes2 c) else none), t) ∧
      Advances s t q ((if s.session.checksumEnabled then [c] else []) ++ fs) q' fs z ∧
      responseRegs t.dp =
        { responseRegs s.dp with
          ck := if s.session.checksumEnabled then bytes2 c else s.dp.rCk, ckValid := s.session.checksumEnabled } := by
  cases hck : s.session.checksumEnabled with
  | true =>
    rw [hck] at h
    obtain ⟨t, q', ht, hadv⟩ :=
      readNext_ready (h.congr (s' := setSeq .rspCk s) rfl rfl rfl) .field (n := s.cfg.dataCkLen) hc
    refine ⟨{ t with dp := { t.dp with rCk := bytes2 c, rCkValid := true } }, q', ?_,
      (hadv.after (s := s) rfl rfl rfl rfl rfl).before rfl rfl rfl rfl rfl rfl rfl,
      congrArg (fun g : ResponseRegs => { g with ck := bytes2 c, ckValid := true }) (readNext_regs ht).1⟩
    simp [parseTrailing, bindE, modifyE, withE, hck, ht, pureE]
  | false =>
    rw [hck] at h
    refine ⟨{ s with dp := { s.dp with rCkValid := false } }, q, ?_,
      (Advances.refl h).before rfl rfl rfl rfl rfl rfl rfl, rfl⟩
    simp [parseTrailing, bindE, modifyE, withE, hck, pureE]

/-- Echo and status of a good response (R174, R175). -/
theorem parseHeader_ready {s : State} {q : Nat} {fs : List (List Byte)} {z : Rest}
    (h : Ready s q ([s.dp.fb.b0] :: [s.cfg.statusOk] :: fs) z) :
    ∃ t q', bindE parseEcho (fun _ => parseStatus) s = (.ok s.cfg.statusOk, t) ∧
      Advances s t q ([s.dp.fb.b0] :: [s.cfg.statusOk] :: fs) q' fs z ∧
      responseRegs t.dp = { responseRegs s.dp with echo := s.dp.fb.b0, status := s.cfg.statusOk } := by
  obtain ⟨t, q1, ht, h1, g1⟩ := parseEcho_ready h
  have hc : t.cfg = s.cfg := h1.cfg
  obtain ⟨u, q2, hu, h2, g2⟩ := parseStatus_ready (s := t) (by rw [hc]; exact h1.ready)
  rw [hc] at hu h2 g2
  exact ⟨u, q2, by simp [bindE, ht, hu], h1.trans h2, by rw [g2, g1]⟩

/-- An echo that is not the opcode sent: it is latched, and the parse ends behind it (R174). -/
theorem parseEcho_wrong {s : State} {q : Nat} {e : Byte} {fs : List (List Byte)} {z : Rest}
    (h : Ready s q ([e] :: fs) z) (he : e ≠ s.dp.fb.b0) :
    ∃ t q', parseEcho s = (.err .commandEchoMismatch, t) ∧ Advances s t q ([e] :: fs) q' fs z ∧
      responseRegs t.dp = { responseRegs s.dp with echo := e } := by
  obtain ⟨t, q', ht, hadv⟩ :=
    readNext_ready (h.congr (s' := setSeq .rspEcho s) rfl rfl rfl) .field (n := 1) rfl
  refine ⟨{ t with dp := { t.dp with rEcho := e } }, q', ?_,
    (hadv.after (s := s) rfl rfl rfl rfl rfl).before rfl rfl rfl rfl rfl rfl rfl,
    congrArg (fun g : ResponseRegs => { g with echo := e }) (readNext_regs ht).1⟩
  have : t.dp.fb.b0 = s.dp.fb.b0 := hadv.opcode
  simp [parseEcho, bindE, modifyE, withE, ht, this, he, raiseE]

/-- A status that is not the idle one: it is latched, and the parse ends behind it (R175). -/
theorem parseStatus_wrong {s : State} {q : Nat} {b : Byte} {fs : List (List Byte)} {z : Rest}
    (h : Ready s q ([b] :: fs) z) (hb : b ≠ s.cfg.statusOk) :
    ∃ t q', parseStatus s = (.err .badStatus, t) ∧ Advances s t q ([b] :: fs) q' fs z ∧
      responseRegs t.dp = { responseRegs s.dp with status := b } := by
  obtain ⟨t, q', ht, hadv⟩ :=
    readNext_ready (h.congr (s' := setSeq .rspStatus s) rfl rfl rfl) .field (n := 1) rfl
  refine ⟨{ t with dp := { t.dp with rStatus := b } }, q', ?_,
    (hadv.after (s := s) rfl rfl rfl rfl rfl).before rfl rfl rfl rfl rfl rfl rfl,
    congrArg (fun g : ResponseRegs => { g with status := b }) (readNext_regs ht).1⟩
  have : t.cfg = s.cfg := hadv.cfg
  simp [parseStatus, bindE, modifyE, withE, ht, this, hb, raiseE]

/-- The parser takes a good response whole (R170 to R180); a bulk read's reader is left fetching (R179). -/
theorem parseResponse_ready {s : State} {q n : Nat} {k : Cmd} {r : Reply} {z : Rest}
    (hk : cmdOfByte s.cfg.opc (opcOf s.cfg.opc k) = some k) (hb : s.dp.fb.b0 = opcOf s.cfg.opc k)
    (hr : r.Good s.cfg n) (hn : classOf k = .registerRead → n = s.cfg.regPayloadLen) (h : Ready s q (replyFields s.cfg k s.session.checksumEnabled r) z) :
    ∃ t q', parseResponse (opcOf s.cfg.opc k) s = (.ok (parsedOf s.cfg k s.session.checksumEnabled r), t) ∧
      Ready t q' [] z ∧ t.cfg = s.cfg ∧ t.session = s.session ∧
      (∃ ev : List Event, t.trace = s.trace ++ ev ∧
        servePorts q (replyFields s.cfg k s.session.checksumEnabled r ++ z.later) =
          ev.map (fun e => e.port) ++ servePorts q' z.later) ∧
      (classOf k = .bulkRead → t.dp.fetch = true) ∧
      responseRegs t.dp = regsAfter s.cfg k s.session.checksumEnabled r (responseRegs s.dp) := by
  have fin : ∀ {t : State} {q' : Nat} {p : Parsed} {g : List (List Byte)}, classOf k ≠ .bulkRead →
      parseResponse (opcOf s.cfg.opc k) s = (.ok p, t) → Advances s t q g q' [] z →
      responseRegs t.dp = regsAfter s.cfg k s.session.checksumEnabled r (responseRegs s.dp) →
      ∃ t q', parseResponse (opcOf s.cfg.opc k) s = (.ok p, t) ∧ Ready t q' [] z ∧ t.cfg = s.cfg ∧
        t.session = s.session ∧
        (∃ ev : List Event, t.trace = s.trace ++ ev ∧
          servePorts q (g ++ z.later) = ev.map (fun e => e.port) ++ servePorts q' z.later) ∧
        (classOf k = .bulkRead → t.dp.fetch = true) ∧
        responseRegs t.dp = regsAfter s.cfg k s.session.checksumEnabled r (responseRegs s.dp) := by
    intro t q' p g hnb hp ha hg
    exact ⟨t, q', hp, ha.ready, ha.cfg, ha.session, ha.ports, fun h => absurd h hnb, hg⟩
  have run : ∀ {u v w : State} {m : Parsed}, parseSkip k s = (.ok (), u) →
      bindE parseEcho (fun _ => parseStatus) u = (.ok s.cfg.statusOk, v) → parseBody k s.cfg.statusOk v = (.ok m, w) →
      parseResponse (opcOf s.cfg.opc k) s = (.ok m, w) := by
    intro u v w m h1 h2 h3
    simp only [parseResponse, withE, hk, bindE, h1]
    simp only [bindE] at h2
    rcases he : parseEcho u with ⟨re, te⟩
    rw [he] at h2
    cases re with
    | err e => simp at h2
    | ok _ => simp only at h2 ⊢; rw [h2]; exact h3
  have skip0 : ∀ h : classOf k ≠ .resetClass, parseSkip k s = (.ok (), s) := fun h => parseSkip_none h s
  cases hc : classOf k with
  | resetClass =>
    simp only [replyFields, parsedOf, hc] at h ⊢
    obtain ⟨t, q1, ht, h1, g1⟩ := parseSkip_ready hc h
    have h1r := h1.ready
    rw [← hb, ← h1.opcode, ← h1.cfg] at h1r
    obtain ⟨u, q2, hu, h2, g2⟩ := parseHeader_ready h1r
    rw [h1.opcode, h1.cfg, hb] at h2 g2
    rw [h1.cfg] at hu
    rw [← hc]
    exact fin (by simp [hc]) (run ht hu (by simp [parseBody, hc, pureE])) (h1.trans h2)
      (by rw [g2, g1]; simp only [regsAfter, hc])
  | writeClass =>
    simp only [replyFields, parsedOf, hc] at h ⊢
    have h1r := h
    rw [← hb] at h1r
    obtain ⟨u, q2, hu, h2, g2⟩ := parseHeader_ready h1r
    rw [hb] at h2 g2
    rw [← hc]
    exact fin (by simp [hc]) (run (skip0 (by simp [hc])) hu (by simp [parseBody, hc, pureE])) h2
      (by rw [g2]; simp only [regsAfter, hc])
  | registerRead =>
    simp only [replyFields, parsedOf, hc, List.cons_append, List.nil_append] at h ⊢
    have h1r := h
    rw [← hb] at h1r
    obtain ⟨u, q2, hu, h2, g2⟩ := parseHeader_ready h1r
    rw [hb] at h2 g2
    obtain ⟨v, q3, hv, h3, g3⟩ := scanSentinel_ready .rspScan h2.ready (by rw [h2.cfg]; exact hr)
    have h3r := h3.ready
    simp only [dataFields] at h3r
    obtain ⟨w, q4, hw, h4, g4⟩ := parsePayload_ready h3r (by rw [h3.cfg, h2.cfg]; exact hr.payload.trans (hn hc))
    have hs : w.session = s.session := by rw [h4.session, h3.session, h2.session]
    have h4r := h4.ready
    rw [← List.append_nil (if s.session.checksumEnabled = true then [r.ck] else []), ← hs] at h4r
    obtain ⟨y, q5, hy, h5, g5⟩ := parseTrailing_ready h4r (by rw [h4.cfg, h3.cfg, h2.cfg]; exact hr.ck)
    rw [hs, List.append_nil] at h5
    rw [hs] at hy
    rw [← hc]
    exact fin (by simp [hc]) (run (skip0 (by simp [hc])) hu (by simp [parseBody, hc, pureE, bindE, hv, hw, hy]))
      ((h2.trans h3).trans (h4.trans h5))
      (by
        have hk2 : w.dp.rCk = s.dp.rCk := by
          have := congrArg ResponseRegs.ck (g4.trans (by rw [g3, g2]))
          exact this
        rw [g5, g4, g3, g2, hs, hk2]
        simp only [regsAfter, hc]
        rfl)
  | bulkRead =>
    simp only [replyFields, parsedOf, hc, List.cons_append, List.nil_append] at h ⊢
    have h1r := h
    rw [← hb] at h1r
    obtain ⟨u, q2, hu, h2, g2⟩ := parseHeader_ready h1r
    rw [hb] at h2 g2
    have h2r := h2.ready
    rw [← List.append_nil (scanFields r)] at h2r
    obtain ⟨v, q3, hv, h3, g3⟩ := scanSentinel_ready .rspScan h2r (by rw [h2.cfg]; exact hr)
    rw [List.append_nil] at h3
    have hall := h2.trans h3
    refine ⟨{ v with dp := { v.dp with fetch := true } }, q3,
      run (skip0 (by simp [hc])) hu (by simp [parseBody, hc, pureE, bindE, hv, modifyE]),
      ⟨hall.ready.cap, hall.ready.len, hall.ready.answers, .inl rfl⟩, hall.cfg, hall.session, ?_, fun _ => rfl, ?_⟩
    · simpa using hall.ports
    · change responseRegs v.dp = _
      rw [g3, g2]
      simp only [regsAfter, hc]

/-! ## The command exchange -/

/-- The exchange puts the frame on the line and leaves the reader before the peer's answer (R183 to R185); `need` bytes of
it are within the capture when the reader may not fetch. -/
theorem exchange_ready {s : State} {k : Cmd} {x : Talk} {more : List Answer} {need : Nat}
    (hk : cmdOfByte s.cfg.opc (opcOf s.cfg.opc k) = some k) (hb : s.dp.fb.b0 = opcOf s.cfg.opc k)
    (hl : (frameOf s).length = frameLen s.cfg k s.session.checksumEnabled)
    (hf : x.Fits s.cfg s.session.xferStyle k s.session.checksumEnabled need)
    (ha : s.answers = exchangeAnswers s.cfg s.session.xferStyle k s.session.checksumEnabled x ++ more) :
    ∃ t q e, exchange s = (.ok (), t) ∧ t.cfg = s.cfg ∧ t.session = s.session ∧ t.dp.fb.b0 = s.dp.fb.b0 ∧
      t.trace = s.trace ++ [e] ∧
      exchangePorts s.cfg s.session.xferStyle k s.session.checksumEnabled (frameOf s) x =
        e.port :: servePorts q x.fields ∧
      t.dp.cap = (x.fields.flatten ++ x.extra).take q ∧ q ≤ (x.fields.flatten ++ x.extra).length ∧
      t.answers = serve q x.fields ++ more ∧ (t.dp.fetch = true ∨ need ≤ q) := by
  have hpad : padCount (setSeq .cmdXfer s) = padOf s.cfg.pad (classOf k) s.session.checksumEnabled := by
    unfold padCount
    rw [show (setSeq .cmdXfer s).cfg = s.cfg from rfl, show (setSeq .cmdXfer s).dp = s.dp from rfl, hb, hk]
    rfl
  have hfr : frameOf (setSeq .cmdXfer s) = frameOf s := rfl
  cases hst : s.session.xferStyle with
  | combined =>
    obtain ⟨hj, hn, hp⟩ := hf hst
    rw [hst] at ha
    simp only [exchangeAnswers, List.cons_append] at ha
    simp only [List.length_append] at hp
    have hcap : (x.captured (padOf s.cfg.pad (classOf k) s.session.checksumEnabled)).length =
        padOf s.cfg.pad (classOf k) s.session.checksumEnabled := by
      rw [Talk.captured, List.length_take, List.length_append]; omega
    have hw : (x.junk ++ x.captured (padOf s.cfg.pad (classOf k) s.session.checksumEnabled)).length =
        (frameOf s ++ zeros (padOf s.cfg.pad (classOf k) s.session.checksumEnabled)).length := by
      simp [zeros, hcap, hj, hl]
    have htr := transport_ok (s := setSeq .cmdXfer s)
      (ev := fun ok r => .transact (frameOf s ++ zeros (padOf s.cfg.pad (classOf k) s.session.checksumEnabled)) ok r) ha hw
    have hx : exchange s = (.ok (), { emit (.transact
          (frameOf s ++ zeros (padOf s.cfg.pad (classOf k) s.session.checksumEnabled)) true
          (x.junk ++ x.captured (padOf s.cfg.pad (classOf k) s.session.checksumEnabled))) (takeAnswer (setSeq .cmdXfer s)) with
        dp := { s.dp with
          cap := ((x.junk ++ x.captured (padOf s.cfg.pad (classOf k) s.session.checksumEnabled)).drop (frameOf s).length).take
            (padOf s.cfg.pad (classOf k) s.session.checksumEnabled)
          fetch := false } }) := by
      simp only [exchange, bindE, modifyE, withE, setSeq_session, hst, exchangeCombined, transact]
      rw [hpad, hfr, htr]
      rfl
    refine ⟨_, padOf s.cfg.pad (classOf k) s.session.checksumEnabled, _, hx, rfl, rfl, rfl, rfl, rfl, ?_, by simpa using hp,
      ?_, .inr hn⟩
    · change ((x.junk ++ x.captured _).drop (frameOf s).length).take _ = _
      rw [hl, ← hj, List.drop_left' rfl, List.take_of_length_le (by omega)]
      rfl
    · change s.answers.tail = _
      rw [ha]
      rfl
  | separate =>
    rw [hst] at ha
    simp only [exchangeAnswers, List.cons_append] at ha
    have htr := transport_ok (s := setSeq .cmdXfer s) (n := 0) (ev := fun ok _ => .transmit (frameOf s) ok) ha rfl
    have hx : exchange s = (.ok (), { emit (.transmit (frameOf s) true) (takeAnswer (setSeq .cmdXfer s)) with
        dp := { s.dp with cap := [], fetch := true } }) := by
      simp only [exchange, bindE, modifyE, withE, setSeq_session, hst, exchangeSeparate, transmit]
      rw [hfr, htr]
      rfl
    refine ⟨_, 0, _, hx, rfl, rfl, rfl, rfl, rfl, ?_, by omega, ?_, .inl rfl⟩
    · rw [List.take_zero]
    · change s.answers.tail = _
      rw [ha]
      rfl

/-- Building a frame and exchanging it write no response register (R32). -/
theorem buildFrame_regs {opcode : Byte} {addr data size : Word} {cl : Bool} {s t : State} {r : Res Unit}
    (h : buildFrame opcode addr data size cl s = (r, t)) : responseRegs t.dp = responseRegs s.dp := by
  unfold buildFrame at h
  split at h
  · cases h
    rw [appendChecksum_eq]
    unfold loadFrame
    split <;> rfl
  · cases h
    rfl

theorem transport_regs (n : Nat) (ev : Bool → List Byte → PortEvent) (s : State) : (transport n ev s).2.dp = s.dp := by
  unfold transport
  dsimp only
  split <;> rfl

theorem exchange_regs {s t : State} {r : Res Unit} (h : exchange s = (r, t)) : responseRegs t.dp = responseRegs s.dp := by
  have ht : t = (exchange s).2 := by rw [h]
  have key : ∀ (n : Nat) (ev : Bool → List Byte → PortEvent) (f : List Byte → State → State) (u : State),
      (∀ (b : List Byte) (v : State), responseRegs (f b v).dp = responseRegs v.dp) →
        responseRegs (bindE (transport n ev) (fun b => modifyE (f b)) u).2.dp = responseRegs u.dp := by
    intro n ev f u hf
    have hd := transport_regs n ev u
    rcases hx : transport n ev u with ⟨r, v⟩
    rw [hx] at hd
    simp only [bindE, hx]
    cases r with
    | ok b => exact (hf b v).trans (congrArg responseRegs hd)
    | err e => exact congrArg responseRegs hd
  rw [ht]
  simp only [exchange, bindE, modifyE, withE]
  cases (setSeq .cmdXfer s).session.xferStyle with
  | combined => exact key _ _ _ (setSeq .cmdXfer s) fun _ _ => rfl
  | separate => exact key _ _ _ (setSeq .cmdXfer s) fun _ _ => rfl

/-- One whole command exchange with a peer that answers well (R183, R93): its outcome, its port events, and where the
reader stands after it, `later` being the fields still to come. -/
theorem cmdExchange_ready {s : State} {n : Nat} {k : Cmd} {r : Reply} {x : Talk} {later : List (List Byte)} {more : List Answer}
    (hP : paramsWf s.cfg = true) (addr data size : Word) (cl : Bool) (hr : r.Good s.cfg n) (hn : classOf k = .registerRead → n = s.cfg.regPayloadLen)
    (hx : x.fields = replyFields s.cfg k s.session.checksumEnabled r ++ later)
    (hf : x.Fits s.cfg s.session.xferStyle k s.session.checksumEnabled
      (replyFields s.cfg k s.session.checksumEnabled r).flatten.length)
    (ha : s.answers = exchangeAnswers s.cfg s.session.xferStyle k s.session.checksumEnabled x ++ more) :
    ∃ t q ev, cmdExchange (opcOf s.cfg.opc k) addr data size cl s =
        (.ok (parsedOf s.cfg k s.session.checksumEnabled r), t) ∧
      Ready t q [] { later := later, extra := x.extra, more := more } ∧ (classOf k = .bulkRead → t.dp.fetch = true) ∧
      t.cfg = s.cfg ∧ t.session = s.session ∧ t.trace = s.trace ++ ev ∧
      exchangePorts s.cfg s.session.xferStyle k s.session.checksumEnabled
        (withCk s.cfg s.session.checksumEnabled (cmdBody s.cfg k addr data size cl)) x =
        ev.map (fun e => e.port) ++ servePorts q later ∧
      responseRegs t.dp = regsAfter s.cfg k s.session.checksumEnabled r (responseRegs s.dp) := by
  obtain ⟨b, hb, hfo, -, hop, hbc, hbs, hba, hbt, -, -⟩ := buildFrame_spec hP k addr data size cl
  have hk := cmdOfByte_opcOf hP k
  have hlen : (frameOf b).length = frameLen b.cfg k b.session.checksumEnabled := by
    rw [hfo, hbs, hbc]; exact frame_length _ _ _ _ _ _ _
  obtain ⟨c, q, e, hc, hcc, hcs, hco, hct, hcp, hccap, hcq, hca, hcf⟩ :=
    exchange_ready (s := b) (k := k) (x := x) (more := more) (by rw [hbc]; exact hk) (by rw [hbc]; exact hop) hlen
      (by rw [hbc, hbs]; exact hf) (by rw [hba, ha, hbc, hbs])
  have hcc' : c.cfg = s.cfg := hcc.trans hbc
  have hcs' : c.session = s.session := hcs.trans hbs
  have hready : Ready c q (replyFields s.cfg k s.session.checksumEnabled r)
      { later := later, extra := x.extra, more := more } := by
    refine ⟨?_, ?_, ?_, hcf⟩
    · rw [hccap, hx]; simp
    · rw [hx] at hcq; simpa using hcq
    · rw [hca, hx]
  rw [← hcc', ← hcs'] at hready
  obtain ⟨t, q', ht, htr, htc, hts, ⟨ev, hev, hep⟩, htf, hreg⟩ :=
    parseResponse_ready (s := c) (k := k) (r := r) (by rw [hcc']; exact hk) (by rw [hcc', hco, hop])
      (by rw [hcc']; exact hr) (by rw [hcc']; exact hn) hready
  rw [hcc', hcs'] at ht hep hreg
  refine ⟨t, q', e :: ev, ?_, htr, htf, htc.trans hcc', hts.trans hcs', ?_, ?_,
    by rw [hreg, exchange_regs hc, buildFrame_regs hb]⟩
  · simp only [cmdExchange, bindE, hb, hc, ht]
  · rw [hev, hct, hbt]; simp
  · rw [hbc, hbs, hfo] at hcp
    rw [hcp, hx, hep]
    simp

end Sys2Proof.Machine
end

