-- ==== Sys2Proof/Laws/Retry.lean ====
section
/-! SUPPORT. The retry controller and what one attempt shows on the ports: the equations of the loop (spec 45 R261), the
error it ends with (R267), the routing of register accesses (spec 43 R203, R204), one attempt answered well, and the port
events of a command exchange whatever the environment answers (spec 42 R183). -/

namespace Sys2Proof.Machine

/-! ## Completing (R209) -/

theorem finish_eq {m : Eng Word} {s t : State} {r : Res Word} (h : m s = (r, t)) :
    finish m s = present r (discard t) := by
  simp [finish, h]

theorem finishRaw_eq {m : Eng Word} {s t : State} {r : Res Word} (h : m s = (r, t)) :
    finishRaw m s = present r t := by
  simp [finishRaw, h]

/-! ## The loop (R261) -/

section loop
variable {α : Type} {op : Eng α} {n : Nat} {s t : State} {e : Cause} {v : α}

theorem retryLoop_ok (h : op s = (.ok v, t)) : retryLoop op (n + 1) s = (.ok v, t) := by
  simp [retryLoop, h]

theorem retryLoop_again (h : op s = (.err e, t)) (he : retryable e = true) :
    retryLoop op (n + 1) s = retryLoop op n (returnFromError (recover (takeError e t))) := by
  simp [retryLoop, h, he]

theorem retryLoop_stop (h : op s = (.err e, t)) (he : retryable e = false) :
    retryLoop op (n + 1) s = (.err e, takeError e t) := by
  simp [retryLoop, h, he]

/-- The first attempt of a wrapped operation succeeds (R261). -/
theorem retryOp_first (hP : paramsWf s.cfg = true) (h : op { s with retry := { s.retry with attempt := 0 } } = (.ok v, t)) :
    retryOp op s = (.ok v, t) := by
  obtain ⟨n, hn⟩ := Nat.exists_eq_add_of_le (paramsWf_bounds hP).1
  rw [retryOp, hn, Nat.add_comm, retryLoop_ok h]

/-- The recovery leaves the retry registers alone (R322). -/
theorem recover_retry (s : State) : (recover s).retry = s.retry :=
  (within_recover {} s).retry rfl

/-- The states in which the attempts of the loop begin, from `s` on: each failed attempt that is retried leads through the
recovery to the next (R261). -/
inductive BeginsAttempt (op : Eng α) : State → State → Prop where
  | first (s : State) : BeginsAttempt op s s
  | again {s t u : State} {e : Cause} (h : op s = (.err e, t)) (he : retryable e = true)
      (k : BeginsAttempt op (returnFromError (recover (takeError e t))) u) : BeginsAttempt op s u

/-- A loop with an attempt to make that ends in an error ends in that of the last attempt it made, behind which stands at
most the recovery, and has saved it (R267, R320). -/
theorem retryLoop_err (h : retryLoop op (n + 1) s = (.err e, t)) :
    t.retry.lastErr = e ∧ ∃ u w, BeginsAttempt op s u ∧ op u = (.err e, w) ∧
      (retryable e = false ∧ t = takeError e w ∨
        retryable e = true ∧ t = returnFromError (recover (takeError e w))) := by
  induction n generalizing s with
  | zero =>
    rcases hs : op s with ⟨r, u⟩
    cases r with
    | ok v => rw [retryLoop_ok hs] at h; simp at h
    | err e' =>
      cases he : retryable e' with
      | true =>
        rw [retryLoop_again hs he] at h
        simp only [retryLoop, returnFromError, recover_retry, takeError, Prod.mk.injEq, Res.err.injEq] at h
        obtain ⟨rfl, h2⟩ := h
        exact ⟨by rw [← h2], s, u, .first s, hs, .inr ⟨he, by rw [← h2]; simp [returnFromError, recover_retry, takeError]⟩⟩
      | false =>
        rw [retryLoop_stop hs he] at h
        simp only [Prod.mk.injEq, Res.err.injEq] at h
        obtain ⟨rfl, h2⟩ := h
        exact ⟨by rw [← h2]; rfl, s, u, .first s, hs, .inl ⟨he, h2.symm⟩⟩
  | succ n ih =>
    rcases hs : op s with ⟨r, u⟩
    cases r with
    | ok v => rw [retryLoop_ok hs] at h; simp at h
    | err e' =>
      cases he : retryable e' with
      | true =>
        rw [retryLoop_again hs he] at h
        obtain ⟨hl, u', w, hb, hw, ht⟩ := ih h
        exact ⟨hl, u', w, .again hs he hb, hw, ht⟩
      | false =>
        rw [retryLoop_stop hs he] at h
        simp only [Prod.mk.injEq, Res.err.injEq] at h
        obtain ⟨rfl, h2⟩ := h
        exact ⟨by rw [← h2]; rfl, s, u, .first s, hs, .inl ⟨he, h2.symm⟩⟩

end loop

/-! ## Register accesses (R203, R204) -/

theorem readRegister_eq (addr : Word) (s : State) :
    readRegister addr s =
      retryOp (readRegOnce (opcOf s.cfg.opc (readRoute s.cfg addr).1) addr (readRoute s.cfg addr).2) s := by
  by_cases h : addr.toNat ≤ s.cfg.clocklessThreshold.toNat <;> simp [readRegister, readRoute, withE, h, opcOf]

theorem writeRegister_eq (addr v : Word) (s : State) :
    writeRegister addr v s =
      retryOp (writeRegOnce (opcOf s.cfg.opc (writeRoute s.cfg addr).1) addr v (writeRoute s.cfg addr).2) s := by
  by_cases h : addr.toNat ≤ s.cfg.clocklessThreshold.toNat <;> simp [writeRegister, writeRoute, withE, h, opcOf]

theorem readRoute_class (P : Params) (addr : Word) : classOf (readRoute P addr).1 = .registerRead := by
  unfold readRoute
  split <;> rfl

theorem writeRoute_class (P : Params) (addr : Word) : classOf (writeRoute P addr).1 = .writeClass := by
  unfold writeRoute
  split <;> rfl

/-- One register read attempt answered well (R200). -/
theorem readRegOnce_ready {s : State} {k : Cmd} {r : Reply} {x : Talk} {more : List Answer} (hP : paramsWf s.cfg = true)
    (hk : classOf k = .registerRead) (hA : Answers s.cfg s.session.xferStyle s.session.checksumEnabled k r x)
    (ha : s.answers = exchangeAnswers s.cfg s.session.xferStyle k s.session.checksumEnabled x ++ more) (addr : Word) (cl : Bool) :
    ∃ t ev, readRegOnce (opcOf s.cfg.opc k) addr cl s = (.ok (payloadValue s.cfg.rdPayloadOrder r.payload), t) ∧
      t.cfg = s.cfg ∧ t.session = s.session ∧ t.answers = more ∧ t.trace = s.trace ++ ev ∧
      ev.map (fun e => e.port) = exchangePorts s.cfg s.session.xferStyle k s.session.checksumEnabled
        (withCk s.cfg s.session.checksumEnabled (cmdBody s.cfg k addr 0 0 cl)) x ∧
      responseRegs t.dp = regsAfter s.cfg k s.session.checksumEnabled r (responseRegs s.dp) := by
  obtain ⟨t, q, ev, ht, hr, -, hc, hs, htr, hp, hreg⟩ :=
    cmdExchange_ready (later := []) hP addr 0 0 cl hA.good (fun _ => rfl) (by simpa using hA.fields)
      (by rw [← hA.fields]; exact hA.fits) ha
  refine ⟨t, ev, ?_, hc, hs, by simpa [serve] using hr.answers, htr, by simpa [servePorts] using hp.symm, hreg⟩
  simp only [readRegOnce, bindE, ht, withE, pureE, hc, parsedOf, hk]

/-- A wrapped register read answered well at the first attempt (R203). -/
theorem readRegister_ready {s : State} {addr : Word} {r : Reply} {x : Talk} {more : List Answer} (hP : paramsWf s.cfg = true)
    (hA : Answers s.cfg s.session.xferStyle s.session.checksumEnabled (readRoute s.cfg addr).1 r x)
    (ha : s.answers = exchangeAnswers s.cfg s.session.xferStyle (readRoute s.cfg addr).1 s.session.checksumEnabled x ++ more) :
    ∃ t ev, readRegister addr s = (.ok (payloadValue s.cfg.rdPayloadOrder r.payload), t) ∧
      t.cfg = s.cfg ∧ t.session = s.session ∧ t.answers = more ∧ t.trace = s.trace ++ ev ∧
      ev.map (fun e => e.port) = exchangePorts s.cfg s.session.xferStyle (readRoute s.cfg addr).1 s.session.checksumEnabled
        (withCk s.cfg s.session.checksumEnabled
          (cmdBody s.cfg (readRoute s.cfg addr).1 addr 0 0 (readRoute s.cfg addr).2)) x := by
  obtain ⟨t, ev, ht, hc, hs, hm, htr, hp, -⟩ := readRegOnce_ready
    (s := { s with retry := { s.retry with attempt := 0 } }) hP (readRoute_class _ _) hA ha addr (readRoute s.cfg addr).2
  exact ⟨t, ev, by rw [readRegister_eq, retryOp_first hP ht], hc, hs, hm, htr, hp⟩

/-- Reads of `RDINT` answered well, each with a line beyond the recorded count: the loop goes on behind them (R298). -/
theorem rdintLoop_rereads {s : State} {c : IntStatus} {l : List (Reply × Talk)} {more : List Answer} (n : Nat)
    (hP : paramsWf s.cfg = true)
    (hl : ∀ p ∈ l, Answers s.cfg s.session.xferStyle s.session.checksumEnabled (readRoute s.cfg c.addr).1 p.1 p.2 ∧
      unexpectedBits c s.session.interruptLineCount (payloadValue s.cfg.rdPayloadOrder p.1.payload) = true)
    (ha : s.answers =
      runAnswers s.cfg s.session.xferStyle (readRoute s.cfg c.addr).1 s.session.checksumEnabled l ++ more) :
    ∃ t ev, rdintLoop c (l.length + n) s = rdintLoop c n t ∧ t.cfg = s.cfg ∧ t.session = s.session ∧ t.answers = more ∧
      t.trace = s.trace ++ ev ∧
      ev.map (fun e => e.port) = runPorts s.cfg s.session.xferStyle (readRoute s.cfg c.addr).1 s.session.checksumEnabled
        (withCk s.cfg s.session.checksumEnabled
          (cmdBody s.cfg (readRoute s.cfg c.addr).1 c.addr 0 0 (readRoute s.cfg c.addr).2)) l := by
  induction l generalizing s with
  | nil => exact ⟨s, [], by simp, rfl, rfl, by simpa [runAnswers] using ha, by simp, by simp [runPorts]⟩
  | cons p rest ih =>
    obtain ⟨hA, hu⟩ := hl p (by simp)
    obtain ⟨t, ev, ht, hc, hs, hm, htr, hp⟩ := readRegister_ready (more := runAnswers s.cfg s.session.xferStyle
      (readRoute s.cfg c.addr).1 s.session.checksumEnabled rest ++ more) hP hA (by rw [ha]; simp [runAnswers])
    obtain ⟨u, ev2, hv, h1, h2, h3, h4, h5⟩ := ih (s := t) (by rw [hc]; exact hP)
      (by rw [hc, hs]; exact fun q hq => hl q (by simp [hq])) (by rw [hc, hs]; exact hm)
    rw [hc, hs] at h5
    refine ⟨u, ev ++ ev2, ?_, h1.trans hc, h2.trans hs, h3, by rw [h4, htr]; simp, ?_⟩
    · rw [← hv, show (p :: rest).length + n = rest.length + n + 1 by simp; omega]
      simp only [rdintLoop, bindE, ht, withE, hs, hu, if_true]
    · rw [List.map_append, hp, h5]
      simp [runPorts]

/-- One attempt of a command whose response carries no value, answered well (R201, R205). -/
theorem cmdExchange_done {s : State} {k : Cmd} {r : Reply} {x : Talk} {more : List Answer} (hP : paramsWf s.cfg = true)
    (hA : Answers s.cfg s.session.xferStyle s.session.checksumEnabled k r x)
    (ha : s.answers = exchangeAnswers s.cfg s.session.xferStyle k s.session.checksumEnabled x ++ more)
    (addr data size : Word) (cl : Bool) :
    ∃ t ev, bindE (cmdExchange (opcOf s.cfg.opc k) addr data size cl) (fun _ => pureE (0 : Word)) s = (.ok 0, t) ∧
      t.cfg = s.cfg ∧ t.session = s.session ∧ t.answers = more ∧ t.trace = s.trace ++ ev ∧
      ev.map (fun e => e.port) = exchangePorts s.cfg s.session.xferStyle k s.session.checksumEnabled
        (withCk s.cfg s.session.checksumEnabled (cmdBody s.cfg k addr data size cl)) x ∧
      responseRegs t.dp = regsAfter s.cfg k s.session.checksumEnabled r (responseRegs s.dp) := by
  obtain ⟨t, q, ev, ht, hr, -, hc, hs, htr, hp, hreg⟩ :=
    cmdExchange_ready (later := []) hP addr data size cl hA.good (fun _ => rfl) (by simpa using hA.fields)
      (by rw [← hA.fields]; exact hA.fits) ha
  exact ⟨t, ev, by simp [bindE, ht, pureE], hc, hs, by simpa [serve] using hr.answers, htr,
    by simpa [servePorts] using hp.symm, hreg⟩

/-- The skip field of a response, of any value, when the class has one (R173). -/
theorem parseSkip_any {s : State} {q : Nat} {k : Cmd} {b : Byte} {fs : List (List Byte)} {z : Rest}
    (h : Ready s q ((if classOf k = .resetClass then [[b]] else []) ++ fs) z) :
    ∃ t q', parseSkip k s = (.ok (), t) ∧
      Advances s t q ((if classOf k = .resetClass then [[b]] else []) ++ fs) q' fs z := by
  by_cases hc : classOf k = .resetClass
  · rw [if_pos hc] at h ⊢
    obtain ⟨t, q', ht, ha, -⟩ := parseSkip_ready hc h
    exact ⟨t, q', ht, ha⟩
  · rw [if_neg hc] at h ⊢
    exact ⟨s, q, parseSkip_none hc s, Advances.refl h⟩

/-- A response whose echo or status is wrong ends the exchange with the cause, `fs` being the fields taken behind the skip
byte: the exchange and its `receive` calls are the port events (R174, R175). -/
theorem cmdExchange_refused {s : State} {k : Cmd} {skip : Byte} {fs : List (List Byte)} {c : Cause} {x : Talk}
    {more : List Answer} (hP : paramsWf s.cfg = true) (addr data size : Word) (cl : Bool)
    (hx : x.fields = (if classOf k = .resetClass then [[skip]] else []) ++ fs)
    (hf : x.Fits s.cfg s.session.xferStyle k s.session.checksumEnabled x.fields.flatten.length)
    (hend : ∀ (u : State) (q : Nat) (z : Rest), Ready u q fs z → u.cfg = s.cfg → u.dp.fb.b0 = opcOf s.cfg.opc k →
      ∃ t q', bindE parseEcho (fun _ => bindE parseStatus fun st => parseBody k st) u = (.err c, t) ∧
        Advances u t q fs q' [] z)
    (ha : s.answers = exchangeAnswers s.cfg s.session.xferStyle k s.session.checksumEnabled x ++ more) :
    ∃ t ev, cmdExchange (opcOf s.cfg.opc k) addr data size cl s = (.err c, t) ∧ t.cfg = s.cfg ∧ t.session = s.session ∧
      t.answers = more ∧ t.trace = s.trace ++ ev ∧
      ev.map (fun e => e.port) = exchangePorts s.cfg s.session.xferStyle k s.session.checksumEnabled
        (withCk s.cfg s.session.checksumEnabled (cmdBody s.cfg k addr data size cl)) x := by
  obtain ⟨b, hb, hfo, -, hop, hbc, hbs, hba, hbt, -, -⟩ := buildFrame_spec hP k addr data size cl
  have hk := cmdOfByte_opcOf hP k
  have hlen : (frameOf b).length = frameLen b.cfg k b.session.checksumEnabled := by
    rw [hfo, hbs, hbc]; exact frame_length _ _ _ _ _ _ _
  obtain ⟨d, q, e, hd, hdc, hds, hdo, hdt, hdp, hdcap, hdq, hda, hdf⟩ :=
    exchange_ready (s := b) (k := k) (x := x) (more := more) (by rw [hbc]; exact hk) (by rw [hbc]; exact hop) hlen
      (by rw [hbc, hbs]; exact hf) (by rw [hba, ha, hbc, hbs])
  have hready : Ready d q ((if classOf k = .resetClass then [[skip]] else []) ++ fs)
      { later := [], extra := x.extra, more := more } :=
    ⟨by rw [hdcap, hx]; simp, by rw [hx] at hdq; simpa using hdq, by rw [hda, hx]; simp, by rw [← hx]; exact hdf⟩
  obtain ⟨u, q1, hu, hu1⟩ := parseSkip_any hready
  obtain ⟨t, q2, ht, ht1⟩ := hend u q1 _ hu1.ready (hu1.cfg.trans (hdc.trans hbc)) (by rw [hu1.opcode, hdo, hop])
  have hall := hu1.trans ht1
  obtain ⟨ev, hev, hep⟩ := hall.ports
  refine ⟨t, e :: ev, ?_, hall.cfg.trans (hdc.trans hbc), hall.session.trans (hds.trans hbs),
    by simpa [serve] using ht1.ready.answers, by rw [hev, hdt, hbt]; simp, ?_⟩
  · have hkd : cmdOfByte d.cfg.opc (opcOf s.cfg.opc k) = some k := by rw [hdc, hbc]; exact hk
    simp only [cmdExchange, bindE, hb, hd, parseResponse, withE, hkd, hu]
    simp only [bindE] at ht
    exact ht
  · rw [hbc, hbs, hfo] at hdp
    rw [hdp, hx]
    simp only [List.append_nil] at hep
    rw [hep]
    simp [servePorts]

/-- A command that the peer NACKs (R175, R291). -/
theorem cmdExchange_nacked {s : State} {k : Cmd} {skip st : Byte} {x : Talk} {more : List Answer} (hP : paramsWf s.cfg = true)
    (addr data size : Word) (cl : Bool) (hN : Nacks s.cfg s.session.xferStyle s.session.checksumEnabled k skip st x)
    (ha : s.answers = exchangeAnswers s.cfg s.session.xferStyle k s.session.checksumEnabled x ++ more) :
    ∃ t ev, cmdExchange (opcOf s.cfg.opc k) addr data size cl s = (.err .badStatus, t) ∧ t.cfg = s.cfg ∧
      t.session = s.session ∧ t.answers = more ∧ t.trace = s.trace ++ ev ∧
      ev.map (fun e => e.port) = exchangePorts s.cfg s.session.xferStyle k s.session.checksumEnabled
        (withCk s.cfg s.session.checksumEnabled (cmdBody s.cfg k addr data size cl)) x := by
  refine cmdExchange_refused hP addr data size cl hN.fields hN.fits (fun u q z hu hc ho => ?_) ha
  rw [← ho] at hu ⊢
  obtain ⟨v, q1, hv, h1, -⟩ := parseEcho_ready hu
  obtain ⟨t, q2, ht, h2, -⟩ := parseStatus_wrong h1.ready (by rw [h1.cfg, hc]; exact hN.status)
  exact ⟨t, q2, by simp only [bindE, hv, ht], h1.trans h2⟩

/-- A command whose echo is wrong (R174). -/
theorem cmdExchange_misechoed {s : State} {k : Cmd} {skip e : Byte} {x : Talk} {more : List Answer}
    (hP : paramsWf s.cfg = true) (addr data size : Word) (cl : Bool)
    (hM : Misechoes s.cfg s.session.xferStyle s.session.checksumEnabled k skip e x)
    (ha : s.answers = exchangeAnswers s.cfg s.session.xferStyle k s.session.checksumEnabled x ++ more) :
    ∃ t ev, cmdExchange (opcOf s.cfg.opc k) addr data size cl s = (.err .commandEchoMismatch, t) ∧ t.cfg = s.cfg ∧
      t.session = s.session ∧ t.answers = more ∧ t.trace = s.trace ++ ev ∧
      ev.map (fun e => e.port) = exchangePorts s.cfg s.session.xferStyle k s.session.checksumEnabled
        (withCk s.cfg s.session.checksumEnabled (cmdBody s.cfg k addr data size cl)) x := by
  refine cmdExchange_refused hP addr data size cl hM.fields hM.fits (fun u q z hu hc ho => ?_) ha
  obtain ⟨t, q1, ht, h1, -⟩ := parseEcho_wrong hu (by rw [ho]; exact hM.echo)
  exact ⟨t, q1, by simp only [bindE, ht], h1⟩

/-- The recovery with a bus reset answered well: delay, the exchange, delay (R261, R265). -/
theorem recover_ready {s : State} {r : Reply} {x : Talk} {more : List Answer} (hP : paramsWf s.cfg = true)
    (hA : Answers s.cfg s.session.xferStyle s.session.checksumEnabled .reset r x)
    (ha : s.answers = exchangeAnswers s.cfg s.session.xferStyle .reset s.session.checksumEnabled x ++ more) :
    ∃ ev, (recover s).cfg = s.cfg ∧ (recover s).session = s.session ∧ (recover s).answers = more ∧
      (recover s).trace = s.trace ++ ev ∧
      ev.map (fun e => e.port) = .delay s.cfg.retryDelay ::
        (exchangePorts s.cfg s.session.xferStyle .reset s.session.checksumEnabled
          (resetFrame s.cfg s.session.checksumEnabled) x ++ [.delay s.cfg.retryDelay]) := by
  obtain ⟨t, ev, ht, htc, hts, hta, htr, hp, -⟩ := cmdExchange_done
    (s := { delayEvent (setSeq .retryDelayA s) with
      seq := .retryReset, ret := .retryReset :: (delayEvent (setSeq .retryDelayA s)).ret })
    (k := .reset) hP hA ha 0 0 0 false
  have hu : under .retryReset resetBusOnce (delayEvent (setSeq .retryDelayA s)) =
      (.ok 0, { t with seq := .retryReset, ret := (delayEvent (setSeq .retryDelayA s)).ret }) := by
    have he : resetBusOnce { delayEvent (setSeq .retryDelayA s) with
        seq := .retryReset, ret := .retryReset :: (delayEvent (setSeq .retryDelayA s)).ret } = (.ok 0, t) := ht
    simp only [under, he]
  have hrec : recover s = delayEvent (setSeq .retryDelayB
      { t with seq := .retryReset, ret := (delayEvent (setSeq .retryDelayA s)).ret }) := by
    simp only [recover, hu]
  have hc : t.cfg = s.cfg := htc
  refine ⟨{ seq := .retryDelayA, ret := s.ret, port := .delay s.cfg.retryDelay } :: ev ++
    [{ seq := .retryDelayB, ret := s.ret, port := .delay t.cfg.retryDelay }], by rw [hrec]; exact hc, by rw [hrec]; exact hts,
    by rw [hrec]; exact hta, ?_, ?_⟩
  · rw [hrec]
    change t.trace ++ [_] = _
    rw [htr]
    change (s.trace ++ [_] ++ ev) ++ [_] = _
    simp [setSeq]
  · rw [List.map_append, List.map_cons, hp, hc]
    rfl

/-- A register read of which every attempt left is NACKed, each bus reset answered well (R261, R267, R291). -/
theorem retryLoop_nacked {s : State} {k : Cmd} {l : List NackedAttempt} {more : List Answer} (hP : paramsWf s.cfg = true)
    (addr : Word) (cl : Bool) (hl : l = [] → s.retry.lastErr = .badStatus)
    (hN : ∀ a ∈ l, a.Legal s.cfg s.session.xferStyle s.session.checksumEnabled k)
    (ha : s.answers = nackedAnswers s.cfg s.session.xferStyle s.session.checksumEnabled k l ++ more) :
    ∃ t ev, retryLoop (readRegOnce (opcOf s.cfg.opc k) addr cl) l.length s = (.err .badStatus, t) ∧ t.cfg = s.cfg ∧
      t.session = s.session ∧ t.answers = more ∧ t.trace = s.trace ++ ev ∧
      ev.map (fun e => e.port) = nackedPorts s.cfg s.session.xferStyle s.session.checksumEnabled k
        (withCk s.cfg s.session.checksumEnabled (cmdBody s.cfg k addr 0 0 cl)) l := by
  induction l generalizing s with
  | nil => exact ⟨s, [], by simp [retryLoop, hl rfl], rfl, rfl, by simpa [nackedAnswers] using ha, by simp, by simp [nackedPorts]⟩
  | cons a rest ih =>
    obtain ⟨hn, hr⟩ := hN a (by simp)
    obtain ⟨t, ev, ht, hc, hs, hta, htt, hp⟩ := cmdExchange_nacked hP addr 0 0 cl hn
      (more := exchangeAnswers s.cfg s.session.xferStyle .reset s.session.checksumEnabled a.reset ++
        (nackedAnswers s.cfg s.session.xferStyle s.session.checksumEnabled k rest ++ more))
      (by rw [ha]; simp [nackedAnswers])
    have hop : readRegOnce (opcOf s.cfg.opc k) addr cl s = (.err .badStatus, t) := by simp only [readRegOnce, bindE, ht]
    have htc : (takeError .badStatus t).cfg = s.cfg := hc
    have hts : (takeError .badStatus t).session = s.session := hs
    obtain ⟨ev2, h1, h2, h3, h4, h5⟩ := recover_ready (s := takeError .badStatus t) (r := a.resetReply) (x := a.reset)
      (by rw [htc]; exact hP) (by rw [htc, hts]; exact hr) (by rw [htc, hts]; exact hta)
    have hlast : (returnFromError (recover (takeError .badStatus t))).retry.lastErr = .badStatus := by
      simp [returnFromError, recover_retry, takeError]
    have hc2 : (returnFromError (recover (takeError .badStatus t))).cfg = s.cfg := h1.trans htc
    have hs2 : (returnFromError (recover (takeError .badStatus t))).session = s.session := h2.trans hts
    obtain ⟨v, ev3, hv, hvc, hvs, hva, hvt, hvp⟩ := ih (s := returnFromError (recover (takeError .badStatus t)))
      (by rw [hc2]; exact hP) (fun _ => hlast) (by rw [hc2, hs2]; exact fun b hb => hN b (by simp [hb]))
      (by rw [hc2, hs2]; exact h3)
    rw [hc2, hs2] at hvp
    rw [hc2] at hv
    refine ⟨v, ev ++ ev2 ++ ev3, ?_, hvc.trans hc2, hvs.trans hs2, hva, ?_, ?_⟩
    · rw [List.length_cons, retryLoop_again hop rfl]
      exact hv
    · rw [hvt]
      change (recover (takeError .badStatus t)).trace ++ ev3 = _
      rw [h4]
      change t.trace ++ ev2 ++ ev3 = _
      rw [htt]
      simp
    · rw [htc, hts] at h5
      rw [List.map_append, List.map_append, hp, h5, hvp]
      simp [nackedPorts]

/-! ## The port events of an exchange, whatever is answered -/

/-- A transport call with the return stack as it was, and not the exchange's own: the reader's (R171) or a chunk's
(R236). -/
def IsInner (base : List Seq) (e : Event) : Prop :=
  e.ret = base ∧ e.seq ≠ .cmdXfer ∧ isTransport e = true

/-- From a state that is not in the exchange the computation makes only such calls, and stays out of it. -/
def Inner {α : Type} (m : Eng α) : Prop :=
  ∀ s : State, s.seq ≠ .cmdXfer → (m s).2.ret = s.ret ∧ (m s).2.seq ≠ .cmdXfer ∧
    ∃ ev : List Event, (m s).2.trace = s.trace ++ ev ∧ ∀ e ∈ ev, IsInner s.ret e

section inner
variable {α β : Type}

theorem Inner.pureE (a : α) : Inner (pureE a) := fun _ h => ⟨rfl, h, [], by simp [Machine.pureE], by simp⟩

theorem Inner.raiseE (e : Cause) : Inner (raiseE e : Eng α) :=
  fun _ h => ⟨rfl, h, [], by simp [Machine.raiseE], by simp⟩

theorem Inner.bindE {m : Eng α} {k : α → Eng β} (hm : Inner m) (hk : ∀ a, Inner (k a)) : Inner (bindE m k) := by
  intro s hs
  have h := hm s hs
  unfold Machine.bindE
  rcases hms : m s with ⟨r, t⟩
  rw [hms] at h
  obtain ⟨h1, h2, ev, h3, h4⟩ := h
  cases r with
  | ok a =>
    obtain ⟨k1, k2, ev', k3, k4⟩ := hk a t h2
    refine ⟨k1.trans h1, k2, ev ++ ev', by simp_all, fun e he => ?_⟩
    rcases List.mem_append.1 he with he | he
    · exact h4 e he
    · exact h1 ▸ k4 e he
  | err e => exact ⟨h1, h2, ev, h3, h4⟩

theorem Inner.withE {f : State → Eng α} (h : ∀ s, Inner (f s)) : Inner (withE f) := fun s hs => h s s hs

theorem Inner.ite {c : Prop} [Decidable c] {m n : Eng α} (hm : Inner m) (hn : Inner n) :
    Inner (if c then m else n) := by
  split
  · exact hm
  · exact hn

theorem Inner.setSeq {q : Seq} (hq : q ≠ .cmdXfer) : Inner (modifyE (setSeq q)) :=
  fun _ _ => ⟨rfl, hq, [], by simp [modifyE, Machine.setSeq], by simp⟩

theorem Inner.modifyDp (f : State → Datapath) : Inner (modifyE fun s => { s with dp := f s }) :=
  fun _ h => ⟨rfl, h, [], by simp [modifyE], by simp⟩

/-- One transport call made by the reader. -/
theorem Inner.receive (n : Nat) : Inner (receive n) := by
  intro s hs
  unfold Machine.receive Machine.transport
  dsimp only
  split
  · exact ⟨rfl, hs, _, rfl, by simp [IsInner, hs, takeAnswer, isTransport]⟩
  · exact ⟨rfl, hs, _, rfl, by simp [IsInner, hs, takeAnswer, isTransport]⟩

theorem Inner.readNext (n : Nat) (w : Where) : Inner (readNext n w) := by
  intro s hs
  unfold Machine.readNext
  dsimp only
  split_ifs
  · exact Inner.bindE (Inner.receive _) (fun _ => Inner.pureE _) { s with dp := { s.dp with cap := s.dp.cap.drop n } } hs
  · exact ⟨rfl, hs, [], by simp, by simp⟩
  · exact ⟨rfl, hs, [], by simp, by simp⟩

theorem Inner.scanLoop (n : Nat) : Inner (scanLoop n) := by
  induction n with
  | zero => exact Inner.raiseE _
  | succ n ih =>
    exact Inner.bindE (Inner.readNext _ _) fun _ => Inner.bindE (Inner.modifyDp _) fun _ =>
      Inner.withE fun _ => Inner.ite (Inner.modifyDp _) ih

theorem Inner.scanSentinel {q : Seq} (hq : q ≠ .cmdXfer) : Inner (scanSentinel q) :=
  Inner.bindE (fun _ _ => ⟨rfl, hq, [], by simp [modifyE], by simp⟩) fun _ => Inner.withE fun _ => Inner.scanLoop _

/-- The parser's calls are the reader's (R170), from whatever state it is entered. -/
theorem parseResponse_inner (opcode : Byte) (s : State) :
    (parseResponse opcode s).2.ret = s.ret ∧
      (∀ p, (parseResponse opcode s).1 = .ok p → (parseResponse opcode s).2.seq ≠ .cmdXfer) ∧
      ∃ ev : List Event, (parseResponse opcode s).2.trace = s.trace ++ ev ∧ ∀ e ∈ ev, IsInner s.ret e := by
  have skip1 : Inner (bindE (modifyE (setSeq .rspSkip)) fun _ => bindE (Machine.readNext 1 .field) fun _ => Machine.pureE ()) :=
    Inner.bindE (Inner.setSeq (by simp)) fun _ => Inner.bindE (Inner.readNext _ _) fun _ => Inner.pureE _
  have echo1 : Inner parseEcho :=
    Inner.bindE (Inner.setSeq (by simp)) fun _ => Inner.bindE (Inner.readNext _ _) fun _ =>
      Inner.bindE (Inner.modifyDp _) fun _ => Inner.withE fun _ => Inner.ite (Inner.pureE _) (Inner.raiseE _)
  have status1 : Inner parseStatus :=
    Inner.bindE (Inner.setSeq (by simp)) fun _ => Inner.bindE (Inner.readNext _ _) fun _ =>
      Inner.bindE (Inner.modifyDp _) fun _ => Inner.withE fun _ => Inner.ite (Inner.pureE _) (Inner.raiseE _)
  have body1 : ∀ k st, Inner (parseBody k st) := by
    intro k st
    unfold parseBody
    split
    · exact Inner.pureE _
    · exact Inner.pureE _
    · refine Inner.bindE (Inner.scanSentinel (by simp)) fun _ => Inner.bindE ?_ fun _ =>
        Inner.bindE (Inner.withE fun _ => Inner.ite ?_ ?_) fun _ => Inner.pureE _
      · exact Inner.bindE (Inner.setSeq (by simp)) fun _ => Inner.withE fun _ => Inner.bindE (Inner.readNext _ _) fun _ =>
          Inner.bindE (Inner.modifyDp _) fun _ => Inner.pureE _
      · exact Inner.bindE (Inner.setSeq (by simp)) fun _ => Inner.bindE (Inner.readNext _ _) fun _ =>
          Inner.bindE (Inner.modifyDp _) fun _ => Inner.pureE _
      · exact Inner.bindE (Inner.modifyDp _) fun _ => Inner.pureE _
    · exact Inner.bindE (Inner.scanSentinel (by simp)) fun _ => Inner.bindE (Inner.modifyDp _) fun _ =>
        Inner.pureE _
  have tail1 : ∀ k, Inner (bindE parseEcho fun _ => bindE parseStatus fun st => parseBody k st) := fun k =>
    Inner.bindE echo1 fun _ => Inner.bindE status1 fun st => body1 k st
  -- the first thing the parser does is to leave the exchange
  have enter : ∀ {α : Type} (q : Seq) (m : Eng α), Inner (bindE (modifyE (setSeq q)) fun _ => m) →
      ∀ t : State, (bindE (modifyE (setSeq q)) (fun _ => m) t).2.ret = t.ret ∧
        (bindE (modifyE (setSeq q)) (fun _ => m) t).2.seq ≠ .cmdXfer ∧
        ∃ ev : List Event, (bindE (modifyE (setSeq q)) (fun _ => m) t).2.trace = t.trace ++ ev ∧ ∀ e ∈ ev, IsInner t.ret e := by
    intro α q m h t
    exact h (setSeq .idle t) (by simp [Machine.setSeq])
  unfold parseResponse Machine.withE
  beta_reduce
  cases hcmd : cmdOfByte s.cfg.opc opcode with
  | none => exact ⟨rfl, by simp [Machine.raiseE], [], by simp [Machine.raiseE], by simp⟩
  | some k =>
    dsimp only
    cases hk : classOf k with
    | resetClass =>
      have h := enter .rspSkip
        (bindE (bindE (Machine.readNext 1 .field) fun _ => Machine.pureE ()) fun _ => bindE parseEcho fun _ => bindE parseStatus fun st => parseBody k st)
        (Inner.bindE (Inner.setSeq (by simp)) fun _ =>
          Inner.bindE (Inner.bindE (Inner.readNext _ _) fun _ => Inner.pureE _) fun _ => tail1 k) s
      simp only [bindE, modifyE] at h
      simp only [parseSkip, hk, bindE, modifyE]
      exact ⟨h.1, fun _ _ => h.2.1, h.2.2⟩
    | writeClass | registerRead | bulkRead =>
      have hs : parseSkip k = Machine.pureE () := by unfold parseSkip; rw [hk]
      rw [hs]
      have h := tail1 k (setSeq .idle s) (by simp [Machine.setSeq])
      exact ⟨h.1, fun _ _ => h.2.1, h.2.2⟩

end inner

/-- The transport call of an exchange: one event, in the exchange, that sends the frame and may add placeholders (R184,
R185). -/
theorem exchange_event (s : State) :
    (exchange s).2.ret = s.ret ∧
      ∃ e : Event, (exchange s).2.trace = s.trace ++ [e] ∧ e.seq = .cmdXfer ∧ e.ret = s.ret ∧ isTransport e = true ∧
        (sentBytes e).take (frameOf s).length = frameOf s ∧
        (∀ err, (exchange s).1 = .err err → err = .transportError) := by
  have hf : frameOf (setSeq .cmdXfer s) = frameOf s := rfl
  cases hst : s.session.xferStyle with
  | combined =>
    simp only [exchange, bindE, modifyE, withE, setSeq_session, hst, exchangeCombined, transact, transport]
    rcases nextAnswer (frameOf (setSeq .cmdXfer s) ++ zeros (padCount (setSeq .cmdXfer s))).length (setSeq .cmdXfer s) with ⟨ok, b⟩
    cases ok
    · exact ⟨rfl, _, rfl, rfl, rfl, rfl, by simp [sentBytes, portBytes, hf], by simp⟩
    · exact ⟨rfl, _, rfl, rfl, rfl, rfl, by simp [sentBytes, portBytes, hf], by simp⟩
  | separate =>
    simp only [exchange, bindE, modifyE, withE, setSeq_session, hst, exchangeSeparate, transmit, transport]
    rcases nextAnswer 0 (setSeq .cmdXfer s) with ⟨ok, b⟩
    cases ok
    · exact ⟨rfl, _, rfl, rfl, rfl, rfl, by simp [sentBytes, portBytes, hf], by simp⟩
    · exact ⟨rfl, _, rfl, rfl, rfl, rfl, by simp [sentBytes, portBytes, hf], by simp⟩

/-- The port events of a command exchange, whatever is answered (R183): the call that sends the frame, then the
reader's. -/
theorem cmdExchange_events {s : State} (hP : paramsWf s.cfg = true) (k : Cmd) (addr data size : Word) (cl : Bool) :
    (cmdExchange (opcOf s.cfg.opc k) addr data size cl s).2.ret = s.ret ∧
      (∀ p, (cmdExchange (opcOf s.cfg.opc k) addr data size cl s).1 = .ok p →
        (cmdExchange (opcOf s.cfg.opc k) addr data size cl s).2.seq ≠ .cmdXfer) ∧
      ∃ (e : Event) (ev : List Event),
        (cmdExchange (opcOf s.cfg.opc k) addr data size cl s).2.trace = s.trace ++ e :: ev ∧ e.seq = .cmdXfer ∧
        e.ret = s.ret ∧ isTransport e = true ∧ (sentBytes e).head? = some (opcOf s.cfg.opc k) ∧
        ∀ f ∈ ev, IsInner s.ret f := by
  obtain ⟨b, hb, hfo, hfl, hop, hbc, hbs, hba, hbt, -, hret⟩ := buildFrame_spec hP k addr data size cl
  obtain ⟨h1, e, h2, h3, h4, h5, h6, h7⟩ := exchange_event b
  have hhead : (sentBytes e).head? = some (opcOf s.cfg.opc k) := by
    rw [hfo] at h6
    have hl : 0 < (withCk s.cfg s.session.checksumEnabled (cmdBody s.cfg k addr data size cl)).length := by
      rw [frame_length]; cases k <;> simp [frameLen, frameLenOff]
    have h0 : (withCk s.cfg s.session.checksumEnabled (cmdBody s.cfg k addr data size cl)).head? = some (opcOf s.cfg.opc k) := by
      cases s.session.checksumEnabled <;> simp [withCk, cmdBody]
    rw [← h0, ← h6, List.head?_take, if_neg (by omega)]
  rcases hx : exchange b with ⟨r, c⟩
  rw [hx] at h1 h2
  cases r with
  | err err =>
    have hce : cmdExchange (opcOf s.cfg.opc k) addr data size cl s = (.err err, c) := by
      simp only [cmdExchange, bindE, hb, hx]
    rw [hce]
    exact ⟨h1.trans hret, by simp, e, [], by rw [h2, hbt], h3, h4.trans hret, h5, hhead, by simp⟩
  | ok _ =>
    obtain ⟨p1, p0, ev, p2, p3⟩ := parseResponse_inner (opcOf s.cfg.opc k) c
    have hce : cmdExchange (opcOf s.cfg.opc k) addr data size cl s = parseResponse (opcOf s.cfg.opc k) c := by
      simp only [cmdExchange, bindE, hb, hx]
    rw [hce]
    simp only at h1 h2
    refine ⟨p1.trans (h1.trans hret), p0, e, ev, by rw [p2, h2, hbt]; simp, h3, h4.trans hret, h5, hhead, fun f hf => ?_⟩
    rw [← hret, ← h1]
    exact p3 f hf

/-! ## One attempt of each wrapped operation, whatever is answered -/

/-- An exchange, and an inner computation after it. -/
theorem cmdExchange_then {α : Type} {s : State} (hP : paramsWf s.cfg = true) (k : Cmd) (addr data size : Word) (cl : Bool)
    {g : Parsed → Eng α} (hg : ∀ p, Inner (g p)) :
    (bindE (cmdExchange (opcOf s.cfg.opc k) addr data size cl) g s).2.ret = s.ret ∧
      ∃ (e : Event) (ev : List Event),
        (bindE (cmdExchange (opcOf s.cfg.opc k) addr data size cl) g s).2.trace = s.trace ++ e :: ev ∧ e.seq = .cmdXfer ∧
        e.ret = s.ret ∧ isTransport e = true ∧ (sentBytes e).head? = some (opcOf s.cfg.opc k) ∧
        ∀ f ∈ ev, IsInner s.ret f := by
  have h := cmdExchange_events hP k addr data size cl
  unfold bindE
  rcases hx : cmdExchange (opcOf s.cfg.opc k) addr data size cl s with ⟨r, t⟩
  rw [hx] at h
  obtain ⟨h1, h0, e, ev, h2, h3, h4, h5, h6, h7⟩ := h
  cases r with
  | err _ => exact ⟨h1, e, ev, h2, h3, h4, h5, h6, h7⟩
  | ok p =>
    obtain ⟨k1, -, ev', k2, k3⟩ := hg p t (h0 p rfl)
    dsimp only at h1 h2 ⊢
    refine ⟨k1.trans h1, e, ev ++ ev', by simp [k2, h2], h3, h4, h5, h6, fun f hf => ?_⟩
    rcases List.mem_append.1 hf with hf | hf
    · exact h7 f hf
    · exact h1 ▸ k3 f hf

/-- The commands whose one attempt is a register read (R202, R203). -/
theorem readRegOnce_tries {s : State} (hP : paramsWf s.cfg = true) (k : Cmd) (addr : Word) (cl : Bool) :
    (readRegOnce (opcOf s.cfg.opc k) addr cl s).2.ret = s.ret ∧
      ∃ (e : Event) (ev : List Event), (readRegOnce (opcOf s.cfg.opc k) addr cl s).2.trace = s.trace ++ e :: ev ∧
        e.seq = .cmdXfer ∧ e.ret = s.ret ∧ isTransport e = true ∧
        (sentBytes e).head? = some (opcOf s.cfg.opc k) ∧ ∀ f ∈ ev, IsInner s.ret f :=
  cmdExchange_then hP k addr 0 0 cl fun _ => Inner.withE fun _ => Inner.pureE _

theorem writeRegOnce_tries {s : State} (hP : paramsWf s.cfg = true) (k : Cmd) (addr data : Word) (cl : Bool) :
    (writeRegOnce (opcOf s.cfg.opc k) addr data cl s).2.ret = s.ret ∧
      ∃ (e : Event) (ev : List Event), (writeRegOnce (opcOf s.cfg.opc k) addr data cl s).2.trace = s.trace ++ e :: ev ∧
        e.seq = .cmdXfer ∧ e.ret = s.ret ∧ isTransport e = true ∧
        (sentBytes e).head? = some (opcOf s.cfg.opc k) ∧ ∀ f ∈ ev, IsInner s.ret f :=
  cmdExchange_then hP k addr data 0 cl fun _ => Inner.pureE _

theorem resetBusOnce_tries {s : State} (hP : paramsWf s.cfg = true) :
    (resetBusOnce s).2.ret = s.ret ∧
      ∃ (e : Event) (ev : List Event), (resetBusOnce s).2.trace = s.trace ++ e :: ev ∧
        e.seq = .cmdXfer ∧ e.ret = s.ret ∧ isTransport e = true ∧
        (sentBytes e).head? = some (opcOf s.cfg.opc .reset) ∧ ∀ f ∈ ev, IsInner s.ret f :=
  cmdExchange_then hP .reset 0 0 0 false fun _ => Inner.pureE _

theorem Inner.modify {f : State → State}
    (h : ∀ s, (f s).ret = s.ret ∧ (f s).seq = s.seq ∧ (f s).trace = s.trace) : Inner (modifyE f) :=
  fun s hs => ⟨(h s).1, by rw [modifyE]; exact (h s).2.1 ▸ hs, [], by simp [modifyE, (h s).2.2], by simp⟩

theorem Inner.sendChunk (t : OrderTag) (p : List Byte) : Inner (sendChunk t p) := by
  refine Inner.bindE (fun s _ => ⟨rfl, by simp [modifyE], [], by simp [modifyE], by simp⟩) fun _ => Inner.withE fun u =>
    Inner.bindE (fun s hs => ?_) fun _ => Inner.pureE _
  unfold Machine.transmit Machine.transport
  dsimp only
  split
  · exact ⟨rfl, hs, _, rfl, by simp [IsInner, hs, takeAnswer, isTransport]⟩
  · exact ⟨rfl, hs, _, rfl, by simp [IsInner, hs, takeAnswer, isTransport]⟩

theorem Inner.writeChunks (n : Nat) : Inner (writeChunks n) := by
  induction n with
  | zero => exact Inner.pureE _
  | succ n ih =>
    exact Inner.withE fun _ => Inner.ite (Inner.bindE (Inner.withE fun _ => Inner.bindE (Inner.sendChunk _ _) fun _ =>
      Inner.modify fun _ => ⟨rfl, rfl, rfl⟩) fun _ => ih) (Inner.pureE _)

theorem Inner.readChunks (n : Nat) : Inner (readChunks n) := by
  induction n with
  | zero => exact Inner.pureE _
  | succ n ih =>
    refine Inner.withE fun _ => Inner.ite (Inner.bindE ?_ fun _ => ih) (Inner.pureE _)
    refine Inner.withE fun s => Inner.bindE (Inner.modify fun _ => ⟨rfl, rfl, rfl⟩) fun _ => Inner.bindE ?_ fun _ =>
      Inner.bindE (Inner.setSeq (by split <;> simp)) fun _ => Inner.bindE (Inner.readNext _ _) fun _ =>
      Inner.bindE (Inner.modify fun _ => ⟨rfl, rfl, rfl⟩) fun _ => Inner.bindE ?_ fun _ =>
      Inner.modify fun _ => ⟨rfl, rfl, rfl⟩
    · exact Inner.ite (Inner.pureE _) (Inner.scanSentinel (by simp))
    · exact Inner.withE fun _ => Inner.ite (Inner.bindE (Inner.setSeq (by split <;> simp)) fun _ =>
        Inner.bindE (Inner.readNext _ _) fun _ => Inner.pureE _) (Inner.pureE _)

theorem writeBulkOnce_tries {s : State} (hP : paramsWf s.cfg = true) :
    (writeBulkOnce s).2.ret = s.ret ∧
      ∃ (e : Event) (ev : List Event), (writeBulkOnce s).2.trace = s.trace ++ e :: ev ∧
        e.seq = .cmdXfer ∧ e.ret = s.ret ∧ isTransport e = true ∧
        (sentBytes e).head? = some (opcOf s.cfg.opc .dmaExtWrite) ∧ ∀ f ∈ ev, IsInner s.ret f :=
  cmdExchange_then (s := startBulk s) hP .dmaExtWrite s.req.addr 0 s.req.len false fun _ =>
    Inner.bindE (Inner.writeChunks _) fun _ => Inner.pureE _

theorem readBulkOnce_tries {s : State} (hP : paramsWf s.cfg = true) :
    (readBulkOnce s).2.ret = s.ret ∧
      ∃ (e : Event) (ev : List Event), (readBulkOnce s).2.trace = s.trace ++ e :: ev ∧
        e.seq = .cmdXfer ∧ e.ret = s.ret ∧ isTransport e = true ∧
        (sentBytes e).head? = some (opcOf s.cfg.opc .dmaExtRead) ∧ ∀ f ∈ ev, IsInner s.ret f :=
  cmdExchange_then (s := startBulk s) hP .dmaExtRead s.req.addr 0 s.req.len false fun _ =>
    Inner.bindE (Inner.modifyDp _) fun _ => Inner.bindE (Inner.readChunks _) fun _ =>
      Inner.bindE (Inner.modifyDp _) fun _ => Inner.pureE _

/-- What the recovery shows on the ports (R265, R322): a delay, the bus reset's exchange, a log event or none, a delay. -/
theorem recover_events {s : State} (hP : paramsWf s.cfg = true) :
    ∃ (d1 e : Event) (ev logs : List Event) (d2 : Event),
      (recover s).trace = s.trace ++ d1 :: e :: ev ++ logs ++ [d2] ∧
      d1.port = .delay s.cfg.retryDelay ∧ d1.ret = s.ret ∧ d1.seq = .retryDelayA ∧
      d2.port = .delay s.cfg.retryDelay ∧ d2.ret = s.ret ∧ d2.seq = .retryDelayB ∧
      e.seq = .cmdXfer ∧ e.ret = .retryReset :: s.ret ∧ isTransport e = true ∧
      (sentBytes e).head? = some (opcOf s.cfg.opc .reset) ∧ (∀ f ∈ ev, IsInner (.retryReset :: s.ret) f) ∧
      (logs = [] ∨ logs = [{ seq := .retryReset, ret := s.ret, port := .log .resetFailed }]) := by
  unfold recover
  dsimp only
  have h := resetBusOnce_tries
    (s := { delayEvent (setSeq .retryDelayA s) with seq := .retryReset, ret := .retryReset :: s.ret }) hP
  have hc := (Obeys.resetBusOnce (w := {})
    { delayEvent (setSeq .retryDelayA s) with seq := .retryReset, ret := .retryReset :: s.ret }).cfg
  unfold under
  rcases hx : resetBusOnce { delayEvent (setSeq .retryDelayA s) with seq := .retryReset, ret := .retryReset :: s.ret } with ⟨r, t⟩
  have hx' : resetBusOnce { delayEvent (setSeq .retryDelayA s) with
      seq := .retryReset, ret := .retryReset :: (delayEvent (setSeq .retryDelayA s)).ret } = (r, t) := hx
  rw [hx]  at h hc
  rw [hx']
  obtain ⟨-, e, ev, h2, h3, h4, h5, h6, h7⟩ := h
  dsimp only at h2 hc
  have hd : t.cfg.retryDelay = s.cfg.retryDelay := by rw [hc]; rfl
  cases r with
  | ok _ =>
    refine ⟨{ seq := .retryDelayA, ret := s.ret, port := .delay s.cfg.retryDelay }, e, ev, [],
      { seq := .retryDelayB, ret := s.ret, port := .delay s.cfg.retryDelay }, ?_, rfl, rfl, rfl,
      rfl, rfl, rfl, h3, h4, h5, h6, h7, .inl rfl⟩
    simp [delayEvent, emit, setSeq, h2, hd]
  | err _ =>
    refine ⟨{ seq := .retryDelayA, ret := s.ret, port := .delay s.cfg.retryDelay }, e, ev, _,
      { seq := .retryDelayB, ret := s.ret, port := .delay s.cfg.retryDelay }, ?_, rfl, rfl, rfl,
      rfl, rfl, rfl, h3, h4, h5, h6, h7, .inr rfl⟩
    simp [delayEvent, logEvent, emit, setSeq, h2, hd]

end Sys2Proof.Machine
end

