-- ==== Sys2Proof/Laws/Bulk.lean ====
section
/-! SUPPORT. The loops of a bulk transfer with a transport that takes every chunk and a peer that sends every chunk well
(spec 44 R233, R236, R237): what one pass does, what the first passes do, and what all of them do. -/

namespace Sys2Proof.Machine

/-! ## Positions in a transfer (R233) -/

/-- A chunk size is a value of `B_N`, 1 to 8192 (R35). -/
theorem chunkBytes_bounds {P : Params} (h : paramsWf P = true) (c : ChunkSize) :
    1 ≤ chunkBytes P.chunkSizes c ∧ chunkBytes P.chunkSizes c ≤ 8192 := by
  simp only [paramsWf, chunkSizesOk, Bool.and_eq_true, List.all_eq_true, decide_eq_true_eq] at h
  exact h.1.2.2 c (by cases c <;> decide)

/-- A pass starts before the end, and moves to the next position, the end being `n` itself. -/
theorem position_step {n c j : Nat} (h : j * c < n) :
    min ((j + 1) * c) n = j * c + min (n - j * c) c := by
  have : (j + 1) * c = j * c + c := by ring
  omega

/-- The pieces that begin at or after piece `j`. -/
def piecesFrom (n c : Nat) : Nat → Nat → List (Nat × Nat)
  | _, 0 => []
  | j, k + 1 => (j * c, min (n - j * c) c) :: piecesFrom n c (j + 1) k

theorem piecesFrom_eq (n c j k : Nat) :
    piecesFrom n c j k = (List.range k).map fun i => ((j + i) * c, min (n - (j + i) * c) c) := by
  induction k generalizing j with
  | zero => rfl
  | succ k ih =>
    rw [piecesFrom, ih, List.range_succ_eq_map]
    simp only [List.map_cons, List.map_map, Nat.add_zero, List.cons.injEq, true_and]
    apply List.map_congr_left
    intro i _
    simp only [Function.comp_apply, Nat.succ_eq_add_one]
    rw [show j + (i + 1) = j + 1 + i by omega]

theorem segments_eq (n c : Nat) : segments n c = piecesFrom n c 0 ((n + c - 1) / c) := by
  rw [piecesFrom_eq]
  simp [segments]

/-- Every piece of a transfer but the end begins before the end. -/
theorem piece_start {n c j : Nat} (hc : 0 < c) (h : j < (n + c - 1) / c) : j * c < n := by
  have h1 : (j + 1) * c ≤ n + c - 1 := by
    calc (j + 1) * c ≤ (n + c - 1) / c * c := Nat.mul_le_mul_right c h
      _ ≤ n + c - 1 := Nat.div_mul_le_self _ _
  have h2 : (j + 1) * c = j * c + c := by ring
  omega

/-- Past the last piece nothing is left. -/
theorem piece_end {n c : Nat} (hc : 0 < c) : n ≤ (n + c - 1) / c * c := by
  have h := Nat.lt_div_mul_add (a := n + c - 1) hc
  omega

/-! ## Advancing (R35) -/

theorem advance_off {s : State} {k n : Nat} (h : s.bulk.off.toNat + k = n) (hn : n < 2 ^ 24) :
    (advance k s).bulk.off.toNat = n := by
  change (s.bulk.off + BitVec.ofNat 24 k).toNat = n
  rw [BitVec.toNat_add, BitVec.toNat_ofNat, Nat.mod_eq_of_lt (a := k) (by omega), h, Nat.mod_eq_of_lt hn]

/-! ## Writing (R236) -/

/-- One chunk the transport takes: one `transmit`, one answer consumed. -/
theorem sendChunk_ok {s : State} {t : OrderTag} {p b : List Byte} {more : List Answer}
    (ha : s.answers = { ok := true, bytes := b } :: more) :
    ∃ u e, sendChunk t p s = (.ok 0, u) ∧ u.cfg = s.cfg ∧ u.session = s.session ∧ u.req = s.req ∧ u.mem = s.mem ∧
      u.bulk = { s.bulk with n := BitVec.ofNat 14 p.length, tag := t } ∧ u.answers = more ∧ u.trace = s.trace ++ [e] ∧
      e.port = .transmit (chunkFrame s.cfg t p s.session.checksumEnabled) true := by
  have htr : ∀ s' : State, s'.answers = { ok := true, bytes := b } :: more →
      transport 0 (fun ok _ => .transmit (chunkFrame s.cfg t p s.session.checksumEnabled) ok) s' =
        (.ok [], emit (.transmit (chunkFrame s.cfg t p s.session.checksumEnabled) true) (takeAnswer s')) := by
    intro s' hs'
    unfold transport nextAnswer
    rw [hs']
    simp [answerBytes]
  refine ⟨emit (.transmit (chunkFrame s.cfg t p s.session.checksumEnabled) true) (takeAnswer
      { s with seq := .chunkTx, bulk := { s.bulk with n := BitVec.ofNat 14 p.length, tag := t } }), _, ?_, rfl, rfl, rfl, rfl,
    rfl, ?_, rfl, ?_⟩
  · unfold sendChunk bindE modifyE withE transmit
    dsimp only
    rw [htr { s with seq := .chunkTx, bulk := { s.bulk with n := BitVec.ofNat 14 p.length, tag := t } } ha]
    rfl
  · change s.answers.tail = more
    rw [ha]
    rfl
  · rfl

/-- At the end of the transfer the write loop does nothing more. -/
theorem writeChunks_done {n : Nat} {s : State} (h : s.bulk.off.toNat = s.bulk.len.toNat) : writeChunks n s = (.ok (), s) := by
  cases n with
  | zero => rfl
  | succ n => simp [writeChunks, withE, h, pureE]

/-- The first `k` passes of the write loop from piece `j` on, with a transport that takes these pieces (R236): the loop goes
on from the state they leave. -/
theorem writeChunks_prefix {n j k : Nat} {s : State} {acks : List (List Byte)} {more : List Answer}
    (hP : paramsWf s.cfg = true) (hlen : s.bulk.len.toNat < 2 ^ 24)
    (hj : j + k ≤ (s.bulk.len.toNat + chunkBytes s.cfg.chunkSizes s.session.chunkSize - 1) /
      chunkBytes s.cfg.chunkSizes s.session.chunkSize)
    (hoff : s.bulk.off.toNat = min (j * chunkBytes s.cfg.chunkSizes s.session.chunkSize) s.bulk.len.toNat)
    (hn : s.bulk.len.toNat - s.bulk.off.toNat ≤ n) (hk : acks.length = k)
    (ha : s.answers = (acks.map fun b => { ok := true, bytes := b }) ++ more) :
    ∃ u m ev, writeChunks n s = writeChunks m u ∧ u.bulk.len.toNat - u.bulk.off.toNat ≤ m ∧ u.cfg = s.cfg ∧
      u.session = s.session ∧ u.req = s.req ∧ u.mem = s.mem ∧ u.bulk.addr = s.bulk.addr ∧ u.bulk.len = s.bulk.len ∧
      u.bulk.off.toNat = min ((j + k) * chunkBytes s.cfg.chunkSizes s.session.chunkSize) s.bulk.len.toNat ∧ u.answers = more ∧
      u.trace = s.trace ++ ev ∧
      ev.map (fun e => e.port) = (piecesFrom s.bulk.len.toNat (chunkBytes s.cfg.chunkSizes s.session.chunkSize) j k).map fun p =>
        .transmit (chunkFrame s.cfg (tagOf p.1 (s.bulk.len.toNat - p.1) (chunkBytes s.cfg.chunkSizes s.session.chunkSize))
          (memReadBytes s.mem (bufAddr s.req.buf p.1) p.2) s.session.checksumEnabled) true := by
  induction k generalizing n j s acks with
  | zero =>
    rw [List.length_eq_zero_iff.1 hk] at ha
    exact ⟨s, n, [], rfl, hn, rfl, rfl, rfl, rfl, rfl, rfl, by simpa using hoff, by simpa using ha, by simp, by simp [piecesFrom]⟩
  | succ k ih =>
    have hc : 0 < chunkBytes s.cfg.chunkSizes s.session.chunkSize := (chunkBytes_bounds hP s.session.chunkSize).1
    have hstart := piece_start (n := s.bulk.len.toNat) hc (j := j) (by omega)
    have hoff' : s.bulk.off.toNat = j * chunkBytes s.cfg.chunkSizes s.session.chunkSize := by omega
    obtain ⟨b, acks', rfl⟩ : ∃ b l, acks = b :: l := by
      cases acks with
      | nil => simp at hk
      | cons b l => exact ⟨b, l, rfl⟩
    obtain ⟨m, rfl⟩ : ∃ m, n = m + 1 := ⟨n - 1, by omega⟩
    obtain ⟨u, e, hu, huc, hus, hur, hum, hub, hua, hut, hup⟩ :=
      sendChunk_ok (s := s) (t := chunkTag s) (p := chunkPayload s) (b := b)
        (more := (acks'.map fun b => { ok := true, bytes := b }) ++ more) (by simpa using ha)
    have hbl : (advance (chunkLen s) u).bulk.len = s.bulk.len := by
      change u.bulk.len = _
      rw [hub]
    have hob : u.bulk.off = s.bulk.off := by rw [hub]
    have hpos := position_step (c := chunkBytes s.cfg.chunkSizes s.session.chunkSize) hstart
    have hcl : chunkLen s = min (s.bulk.len.toNat - j * chunkBytes s.cfg.chunkSizes s.session.chunkSize)
      (chunkBytes s.cfg.chunkSizes s.session.chunkSize) := by
      rw [chunkLen, hoff']
    have hoff2 : (advance (chunkLen s) u).bulk.off.toNat = min ((j + 1) * chunkBytes s.cfg.chunkSizes s.session.chunkSize)
      s.bulk.len.toNat := by
      apply advance_off
      · rw [hob, hoff', hcl, hpos]
      · omega
    have hus' : (advance (chunkLen s) u).session = s.session := hus
    have huc' : (advance (chunkLen s) u).cfg = s.cfg := huc
    obtain ⟨v, m', ev, hv, hvb, hvc, hvs, hvr, hvm, hva, hvl, hvo, hvn, hvt, hvp⟩ :=
      ih (n := m) (j := j + 1) (s := advance (chunkLen s) u) (acks := acks')
        (by rw [huc']; exact hP) (by rw [hbl]; exact hlen) (by rw [hbl, huc', hus']; omega) (by rw [hoff2, hbl, huc', hus'])
        (by
          rw [hbl, hoff2]
          have : 0 < min (s.bulk.len.toNat - j * chunkBytes s.cfg.chunkSizes s.session.chunkSize)
            (chunkBytes s.cfg.chunkSizes s.session.chunkSize) := by omega
          omega)
        (by simpa using hk) hua
    refine ⟨v, m', e :: ev, ?_, hvb, hvc.trans huc, hvs.trans hus', hvr.trans hur, hvm.trans hum, ?_, hvl.trans hbl, ?_,
      hvn, ?_, ?_⟩
    · have : s.bulk.off.toNat < s.bulk.len.toNat := by omega
      simp only [writeChunks, withE, if_pos this, writeChunk, bindE, hu, modifyE, hv]
    · rw [hva]
      change u.bulk.addr = _
      rw [hub]
    · rw [hvo, hbl, huc', hus', show j + 1 + k = j + (k + 1) by omega]
    · rw [hvt]
      change u.trace ++ ev = _
      rw [hut]
      simp
    · have hreq : (advance (chunkLen s) u).req = s.req := hur
      have hmem : (advance (chunkLen s) u).mem = s.mem := hum
      rw [hbl, hus', hreq, hmem, huc'] at hvp
      rw [List.map_cons, hvp, hup, piecesFrom, List.map_cons, chunkTag, chunkPayload, hcl, hoff']

/-- The write loop from piece `j` on, with a transport that takes the `k` pieces left (R236). -/
theorem writeChunks_sends {n j k : Nat} {s : State} {acks : List (List Byte)} {more : List Answer}
    (hP : paramsWf s.cfg = true) (hlen : s.bulk.len.toNat < 2 ^ 24)
    (hj : j + k = (s.bulk.len.toNat + chunkBytes s.cfg.chunkSizes s.session.chunkSize - 1) /
      chunkBytes s.cfg.chunkSizes s.session.chunkSize)
    (hoff : s.bulk.off.toNat = min (j * chunkBytes s.cfg.chunkSizes s.session.chunkSize) s.bulk.len.toNat)
    (hn : s.bulk.len.toNat - s.bulk.off.toNat ≤ n) (hk : acks.length = k)
    (ha : s.answers = (acks.map fun b => { ok := true, bytes := b }) ++ more) :
    ∃ u ev, writeChunks n s = (.ok (), u) ∧ u.cfg = s.cfg ∧ u.session = s.session ∧ u.req = s.req ∧ u.mem = s.mem ∧
      u.bulk.addr = s.bulk.addr ∧ u.bulk.len = s.bulk.len ∧ u.bulk.off.toNat = s.bulk.len.toNat ∧ u.answers = more ∧
      u.trace = s.trace ++ ev ∧
      ev.map (fun e => e.port) = (piecesFrom s.bulk.len.toNat (chunkBytes s.cfg.chunkSizes s.session.chunkSize) j k).map fun p =>
        .transmit (chunkFrame s.cfg (tagOf p.1 (s.bulk.len.toNat - p.1) (chunkBytes s.cfg.chunkSizes s.session.chunkSize))
          (memReadBytes s.mem (bufAddr s.req.buf p.1) p.2) s.session.checksumEnabled) true := by
  obtain ⟨u, m, ev, hu, -, huc, hus, hur, hum, hua, hul, huo, hun, hut, hup⟩ :=
    writeChunks_prefix hP hlen (Nat.le_of_eq hj) hoff hn hk ha
  have hend := piece_end (n := s.bulk.len.toNat) (chunkBytes_bounds hP s.session.chunkSize).1
  rw [← hj] at hend
  have ho : u.bulk.off.toNat = s.bulk.len.toNat := by rw [huo]; omega
  exact ⟨u, ev, by rw [hu, writeChunks_done (by rw [ho, hul])], huc, hus, hur, hum, hua, hul, ho, hun, hut, hup⟩

/-! ## Reading (R237) -/

/-- The fields of one read chunk: a later one has a sentinel of its own (R92, R93). -/
def chunkFields (ck first : Bool) (c : Reply) : List (List Byte) :=
  (if first then [] else scanFields c) ++ dataFields ck c

/-- One pass of the read loop over a good chunk (R237). -/
theorem readChunk_ready {s : State} {q : Nat} {c : Reply} {fs : List (List Byte)} {z : Rest}
    (hc : c.Good s.cfg (chunkLen s))
    (h : Ready s q (chunkFields s.session.checksumEnabled (decide (s.bulk.off.toNat = 0)) c ++ fs) z) :
    ∃ t q', readChunk s = (.ok (), t) ∧
      Advances s t q (chunkFields s.session.checksumEnabled (decide (s.bulk.off.toNat = 0)) c ++ fs) q' fs z ∧
      t.mem = memWriteBytes s.mem (bufAddr s.req.buf s.bulk.off.toNat) c.payload ∧ t.req = s.req ∧
      t.bulk.len = s.bulk.len ∧ t.bulk.off = s.bulk.off + BitVec.ofNat 24 (chunkLen s) ∧
      responseRegs t.dp = (if s.bulk.off.toNat = 0 then responseRegs s.dp
        else { responseRegs s.dp with header := c.header, scanCnt := c.waits.length + 1 }) := by
  -- the count is noted
  have h0 := h.congr (s' := { s with bulk := { s.bulk with n := BitVec.ofNat 14 (chunkLen s) } }) rfl rfl rfl
  -- the sentinel, of a later chunk
  obtain ⟨a, q1, ha, ha1, ham, har, hab, hag⟩ : ∃ a q1,
      (if s.bulk.off.toNat = 0 then pureE () else scanSentinel .chunkScan)
        { s with bulk := { s.bulk with n := BitVec.ofNat 14 (chunkLen s) } } = (.ok (), a) ∧
      Advances s a q (chunkFields s.session.checksumEnabled (decide (s.bulk.off.toNat = 0)) c ++ fs) q1
        (dataFields s.session.checksumEnabled c ++ fs) z ∧ a.mem = s.mem ∧ a.req = s.req ∧
      a.bulk = { s.bulk with n := BitVec.ofNat 14 (chunkLen s) } ∧
      responseRegs a.dp = (if s.bulk.off.toNat = 0 then responseRegs s.dp
        else { responseRegs s.dp with header := c.header, scanCnt := c.waits.length + 1 }) := by
    by_cases hf : s.bulk.off.toNat = 0
    · refine ⟨{ s with bulk := { s.bulk with n := BitVec.ofNat 14 (chunkLen s) } }, q, by rw [if_pos hf]; rfl, ?_, rfl, rfl,
        rfl, by rw [if_pos hf]⟩
      have := (Advances.refl h0).after (s := s) rfl rfl rfl rfl rfl
      simpa [chunkFields, hf] using this
    · have h1 : Ready { s with bulk := { s.bulk with n := BitVec.ofNat 14 (chunkLen s) } } q
          (scanFields c ++ (dataFields s.session.checksumEnabled c ++ fs)) z := by
        simpa [chunkFields, hf] using h0
      obtain ⟨a, q1, ha, ha1, hg⟩ := scanSentinel_ready .chunkScan h1 hc
      have hw := Obeys.scanSentinel (w := {}) .chunkScan { s with bulk := { s.bulk with n := BitVec.ofNat 14 (chunkLen s) } }
      rw [ha] at hw
      refine ⟨a, q1, by rw [if_neg hf, ha], ?_, hw.mem rfl, hw.req, hw.bulk rfl, by rw [if_neg hf, hg]⟩
      have := ha1.after (s := s) rfl rfl rfl rfl rfl
      simpa [chunkFields, hf] using this
  -- the payload
  have hra := ha1.ready
  simp only [dataFields, List.cons_append] at hra
  obtain ⟨b, q2, hb, hb1⟩ := readNext_ready
    (hra.congr (s' := setSeq (if s.bulk.off.toNat = 0 then .rspData else .chunkRx) a) rfl rfl rfl) .field hc.payload
  have hbw := Obeys.readNext (w := {}) (chunkLen s) .field (setSeq (if s.bulk.off.toNat = 0 then .rspData else .chunkRx) a)
  rw [hb] at hbw
  have hbm : b.mem = s.mem := (hbw.mem rfl).trans ham
  have hbr : b.req = s.req := hbw.req.trans har
  have hbb : b.bulk = { s.bulk with n := BitVec.ofNat 14 (chunkLen s) } := (hbw.bulk rfl).trans hab
  have hb2 : Advances s (storeChunk c.payload b) q
      (chunkFields s.session.checksumEnabled (decide (s.bulk.off.toNat = 0)) c ++ fs) q2
      ((if s.session.checksumEnabled = true then [c.ck] else []) ++ fs) z := by
    have hb1' := hb1.after (s := a) rfl rfl rfl rfl rfl
    have hpre : Advances s b q (chunkFields s.session.checksumEnabled (decide (s.bulk.off.toNat = 0)) c ++ fs) q2
        ((if s.session.checksumEnabled = true then [c.ck] else []) ++ fs) z :=
      ha1.trans (by simpa [dataFields] using hb1')
    exact hpre.before rfl rfl rfl rfl rfl rfl rfl
  have hsm : (storeChunk c.payload b).mem = memWriteBytes s.mem (bufAddr s.req.buf s.bulk.off.toNat) c.payload := by
    change memWriteBytes b.mem (bufAddr b.req.buf b.bulk.off.toNat) c.payload = _
    rw [hbm, hbr, hbb]
  -- the checksum pair
  have hss : (storeChunk c.payload b).session = s.session := hb2.session
  have hsc : (storeChunk c.payload b).cfg = s.cfg := hb2.cfg
  obtain ⟨d, q3, hd, hd1, hdm, hdr, hdb, hdg⟩ : ∃ d q3,
      skipChunkCk (if s.bulk.off.toNat = 0 then .rspCk else .chunkCk) (storeChunk c.payload b) = (.ok (), d) ∧
      Advances s d q (chunkFields s.session.checksumEnabled (decide (s.bulk.off.toNat = 0)) c ++ fs) q3 fs z ∧
      d.mem = (storeChunk c.payload b).mem ∧ d.req = (storeChunk c.payload b).req ∧
      d.bulk = (storeChunk c.payload b).bulk ∧ responseRegs d.dp = responseRegs b.dp := by
    cases hck : s.session.checksumEnabled with
    | true =>
      have hr2 := hb2.ready
      rw [hck] at hr2
      simp only [if_true, List.cons_append, List.nil_append] at hr2
      obtain ⟨d, q3, hd, hd1⟩ := readNext_ready
        (hr2.congr (s' := setSeq (if s.bulk.off.toNat = 0 then .rspCk else .chunkCk) (storeChunk c.payload b)) rfl rfl rfl)
        .field hc.ck
      have hdw := Obeys.readNext (w := {}) s.cfg.dataCkLen .field
        (setSeq (if s.bulk.off.toNat = 0 then .rspCk else .chunkCk) (storeChunk c.payload b))
      rw [hd] at hdw
      refine ⟨d, q3, ?_, ?_, hdw.mem rfl, hdw.req, hdw.bulk rfl, (readNext_regs hd).1⟩
      · simp only [skipChunkCk, withE, hss, hsc, hck, if_true, bindE, modifyE, hd, pureE]
      · rw [hck] at hb2
        have hd2 := hd1.after (s := storeChunk c.payload b) rfl rfl rfl rfl rfl
        exact hb2.trans (by simpa using hd2)
    | false =>
      rw [hck] at hb2
      refine ⟨storeChunk c.payload b, q2, ?_, by simpa using hb2, rfl, rfl, rfl, rfl⟩
      simp only [skipChunkCk, withE, hss, hck, Bool.false_eq_true, if_false, pureE]
  refine ⟨advance (chunkLen s) d, q3, ?_, hd1.before rfl rfl rfl rfl rfl rfl rfl, ?_, ?_, ?_, ?_, ?_⟩
  · simp only [readChunk, withE, bindE, modifyE]
    rw [ha]
    dsimp only
    rw [hb]
    dsimp only
    rw [hd]
  · change d.mem = _
    rw [hdm, hsm]
  · change d.req = _
    rw [hdr]
    exact hbr
  · change d.bulk.len = _
    rw [hdb]
    change b.bulk.len = _
    rw [hbb]
  · change d.bulk.off + _ = _
    rw [hdb]
    change b.bulk.off + _ = _
    rw [hbb]
  · change responseRegs d.dp = _
    rw [hdg, (readNext_regs hb).1]
    exact hag

/-- Consecutive runs of writes are one run. -/
theorem memWriteBytes_append (m : List Host.Cell) (a : Nat) (p r : List Byte) :
    memWriteBytes (memWriteBytes m a p) (a + p.length) r = memWriteBytes m a (p ++ r) := by
  induction p generalizing m a with
  | nil => simp [memWriteBytes]
  | cons v rest ih =>
    simp only [memWriteBytes, List.cons_append, List.length_cons]
    rw [← ih, show a + (rest.length + 1) = a + 1 + rest.length by omega]

/-- The fields of the chunks left in a read: only the first chunk of the transfer may be its response (R237). -/
def restFields (ck first : Bool) : List Reply → List (List Byte)
  | [] => []
  | c :: rest => chunkFields ck first c ++ (rest.map fun c => chunkFields ck false c).flatten

theorem restFields_false (ck : Bool) (cs : List Reply) :
    restFields ck false cs = (cs.map fun c => chunkFields ck false c).flatten := by
  cases cs <;> rfl

/-- At the end of the transfer the read loop does nothing more. -/
theorem readChunks_done {n : Nat} {s : State} (h : s.bulk.off.toNat = s.bulk.len.toNat) : readChunks n s = (.ok (), s) := by
  cases n with
  | zero => rfl
  | succ n => simp [readChunks, withE, h, pureE]

/-- The sentinel and the scan count that the chunks `cs` leave in the response registers `g`; the first chunk of a transfer
has no scan of its own. -/
def scanned (first : Bool) (cs : List Reply) (g : ResponseRegs) : ResponseRegs :=
  match (if first then cs.tail else cs).getLast? with
  | none => g
  | some c => { g with header := c.header, scanCnt := c.waits.length + 1 }

/-- The first passes of the read loop from piece `j` on, over good chunks (R237): every payload byte goes to its place in the
buffer, and the loop goes on from the state they leave. -/
theorem readChunks_prefix {n j : Nat} {s : State} {q : Nat} {cs : List Reply} {fs : List (List Byte)} {z : Rest}
    (hP : paramsWf s.cfg = true) (hlen : s.bulk.len.toNat < 2 ^ 24)
    (hoff : s.bulk.off.toNat = min (j * chunkBytes s.cfg.chunkSizes s.session.chunkSize) s.bulk.len.toNat)
    (hj : j + cs.length ≤ (s.bulk.len.toNat + chunkBytes s.cfg.chunkSizes s.session.chunkSize - 1) /
      chunkBytes s.cfg.chunkSizes s.session.chunkSize)
    (hn : s.bulk.len.toNat - s.bulk.off.toNat ≤ n)
    (hp : cs.map (fun c => c.payload.length) =
      (piecesFrom s.bulk.len.toNat (chunkBytes s.cfg.chunkSizes s.session.chunkSize) j cs.length).map fun p => p.2)
    (hg : ∀ c ∈ cs, c.Good s.cfg c.payload.length)
    (h : Ready s q (restFields s.session.checksumEnabled (decide (j = 0)) cs ++ fs) z) :
    ∃ t m q', readChunks n s = readChunks m t ∧ t.bulk.len.toNat - t.bulk.off.toNat ≤ m ∧
      Advances s t q (restFields s.session.checksumEnabled (decide (j = 0)) cs ++ fs) q' fs z ∧
      t.mem = memWriteBytes s.mem (bufAddr s.req.buf s.bulk.off.toNat) (cs.map fun c => c.payload).flatten ∧
      t.req = s.req ∧ t.bulk.len = s.bulk.len ∧
      t.bulk.off.toNat = min ((j + cs.length) * chunkBytes s.cfg.chunkSizes s.session.chunkSize) s.bulk.len.toNat ∧
      responseRegs t.dp = scanned (decide (j = 0)) cs (responseRegs s.dp) := by
  induction cs generalizing n j s q with
  | nil =>
    exact ⟨s, n, q, rfl, hn, Advances.refl h, by simp [memWriteBytes], rfl, rfl, by simpa using hoff, by simp [scanned]⟩
  | cons c rest ih =>
    have hc : 0 < chunkBytes s.cfg.chunkSizes s.session.chunkSize := (chunkBytes_bounds hP s.session.chunkSize).1
    have hstart := piece_start (n := s.bulk.len.toNat) hc (j := j) (by simp only [List.length_cons] at hj; omega)
    have hoff' : s.bulk.off.toNat = j * chunkBytes s.cfg.chunkSizes s.session.chunkSize := by omega
    have hpos := position_step (c := chunkBytes s.cfg.chunkSizes s.session.chunkSize) hstart
    simp only [List.length_cons, piecesFrom, List.map_cons, List.cons.injEq] at hp
    obtain ⟨hp1, hp2⟩ := hp
    have hcl : chunkLen s = c.payload.length := by rw [chunkLen, hoff', hp1]
    have hfirst : decide (s.bulk.off.toNat = 0) = decide (j = 0) := by
      rw [hoff']
      by_cases hj0 : j = 0
      · simp [hj0]
      · have : j * chunkBytes s.cfg.chunkSizes s.session.chunkSize ≠ 0 := Nat.mul_ne_zero hj0 (by omega)
        simp [hj0, this]
    obtain ⟨m, rfl⟩ : ∃ m, n = m + 1 := ⟨n - 1, by omega⟩
    obtain ⟨u, q1, hu, hu1, hum, hur, hul, huo, hug⟩ := readChunk_ready (s := s) (c := c)
      (fs := (rest.map fun c => chunkFields s.session.checksumEnabled false c).flatten ++ fs)
      (by rw [hcl]; exact hg c (by simp)) (by rw [hfirst]; simpa [restFields] using h)
    rw [hfirst] at hu1
    have huc : u.cfg = s.cfg := hu1.cfg
    have hus : u.session = s.session := hu1.session
    have hoff2 : u.bulk.off.toNat = min ((j + 1) * chunkBytes s.cfg.chunkSizes s.session.chunkSize) s.bulk.len.toNat := by
      have : (advance (chunkLen s) s).bulk.off.toNat = min ((j + 1) * chunkBytes s.cfg.chunkSizes s.session.chunkSize)
        s.bulk.len.toNat :=
        advance_off (by rw [hoff', hpos, hcl, hp1]) (by omega)
      rw [huo]
      exact this
    have hnext : decide (j + 1 = 0) = false := by simp
    have hrest : Ready u q1 (restFields u.session.checksumEnabled (decide (j + 1 = 0)) rest ++ fs) z := by
      rw [hus, hnext, restFields_false]
      exact hu1.ready
    obtain ⟨t, m', q2, ht, htb, ht1, htm, htr, htl, hto, htg⟩ := ih (n := m) (j := j + 1) (s := u) (q := q1)
      (by rw [huc]; exact hP) (by rw [hul]; exact hlen) (by rw [huc, hus, hul]; exact hoff2)
      (by rw [huc, hus, hul]; simp only [List.length_cons] at hj; omega)
      (by
        rw [hul, hoff2]
        have : 0 < min (s.bulk.len.toNat - j * chunkBytes s.cfg.chunkSizes s.session.chunkSize)
          (chunkBytes s.cfg.chunkSizes s.session.chunkSize) := by omega
        omega)
      (by rw [hul, huc, hus]; exact hp2) (by rw [huc]; exact fun d hd => hg d (by simp [hd])) hrest
    refine ⟨t, m', q2, ?_, htb, ?_, ?_, htr.trans hur, htl.trans hul, ?_, ?_⟩
    · have : s.bulk.off.toNat < s.bulk.len.toNat := by omega
      simp only [readChunks, withE, if_pos this, bindE, hu, ht]
    · rw [hus, hnext, restFields_false] at ht1
      have := hu1.trans ht1
      simpa [restFields] using this
    · have hadd : bufAddr s.req.buf u.bulk.off.toNat = bufAddr s.req.buf s.bulk.off.toNat + c.payload.length := by
        unfold bufAddr
        rw [hoff2, hpos, hoff', hp1]
        omega
      rw [htm, hum, hur, hadd, memWriteBytes_append]
      simp
    · rw [hto, hul, huc, hus, List.length_cons, show j + 1 + rest.length = j + (rest.length + 1) by omega]
    · rw [htg, hug, hnext]
      have hz : (s.bulk.off.toNat = 0) ↔ j = 0 := by
        have := hfirst
        simpa only [decide_eq_decide] using this
      by_cases hj0 : j = 0
      · rw [if_pos (hz.2 hj0)]
        simp [scanned, hj0]
      · rw [if_neg (fun h => hj0 (hz.1 h))]
        cases hl : rest.getLast? with
        | none =>
          rw [List.getLast?_eq_none_iff] at hl
          subst hl
          simp [scanned, hj0]
        | some d => simp [scanned, hj0, hl, List.getLast?_cons]

/-- The read loop from piece `j` on, over the good chunks left (R237): every payload byte goes to its place in the buffer. -/
theorem readChunks_ready {n j : Nat} {s : State} {q : Nat} {cs : List Reply} {z : Rest}
    (hP : paramsWf s.cfg = true) (hlen : s.bulk.len.toNat < 2 ^ 24)
    (hoff : s.bulk.off.toNat = min (j * chunkBytes s.cfg.chunkSizes s.session.chunkSize) s.bulk.len.toNat)
    (hj : j + cs.length = (s.bulk.len.toNat + chunkBytes s.cfg.chunkSizes s.session.chunkSize - 1) /
      chunkBytes s.cfg.chunkSizes s.session.chunkSize)
    (hn : s.bulk.len.toNat - s.bulk.off.toNat ≤ n)
    (hp : cs.map (fun c => c.payload.length) =
      (piecesFrom s.bulk.len.toNat (chunkBytes s.cfg.chunkSizes s.session.chunkSize) j cs.length).map fun p => p.2)
    (hg : ∀ c ∈ cs, c.Good s.cfg c.payload.length)
    (h : Ready s q (restFields s.session.checksumEnabled (decide (j = 0)) cs) z) :
    ∃ t q', readChunks n s = (.ok (), t) ∧
      Advances s t q (restFields s.session.checksumEnabled (decide (j = 0)) cs) q' [] z ∧
      t.mem = memWriteBytes s.mem (bufAddr s.req.buf s.bulk.off.toNat) (cs.map fun c => c.payload).flatten ∧
      t.req = s.req ∧ t.bulk.len = s.bulk.len ∧ t.bulk.off.toNat = s.bulk.len.toNat ∧
      responseRegs t.dp = scanned (decide (j = 0)) cs (responseRegs s.dp) := by
  obtain ⟨t, m, q', ht, -, ht1, htm, htr, htl, hto, htg⟩ :=
    readChunks_prefix (fs := []) hP hlen hoff (Nat.le_of_eq hj) hn hp hg (by simpa using h)
  have hend := piece_end (n := s.bulk.len.toNat) (chunkBytes_bounds hP s.session.chunkSize).1
  rw [← hj] at hend
  have ho : t.bulk.off.toNat = s.bulk.len.toNat := by rw [hto]; omega
  exact ⟨t, q', by rw [ht, readChunks_done (by rw [ho, htl])], by simpa using ht1, htm, htr, htl, ho, htg⟩

end Sys2Proof.Machine
end

