-- ==== Sys2Proof/Laws/PerInstr.lean ====
section
/-! SUPPORT. What holds of the encoding of every instruction, one lemma for each constructor: how it is presented and how
long it is (spec 30 R81, R89, R100). -/

namespace Sys2Proof.Laws

open Machine

/-- The encoding of the instruction has the length of its format: a command frame `L_off` bytes beginning with its opcode, a
chunk one byte more than its payload beginning with its tag, a host operation a request. -/
def EncodedLength.Statement (i : Instr) : Prop :=
  ∀ P : Params,
    match encode P i with
    | .request _ => wireOperands i = none ∧ chunkOperands i = none
    | .wire b =>
      (∃ k addr data size cl, wireOperands i = some (k, addr, data, size, cl) ∧ b.length = frameLenOff k ∧
        b.head? = some (opcOf P.opc k)) ∨
      (∃ t p, chunkOperands i = some (t, p) ∧ b.length = p.length + 1 ∧ b.head? = some (tagByte P t))

/-- Every command frame has its format's length and begins with its opcode. -/
theorem frame_shape (P : Params) (k : Cmd) (addr data size : Word) (cl : Bool) :
    (cmdBody P k addr data size cl).length = frameLenOff k ∧
      (cmdBody P k addr data size cl).head? = some (opcOf P.opc k) :=
  ⟨cmdBody_length P k addr data size cl, rfl⟩

/-- Every chunk has one byte more than its payload and begins with its tag. -/
theorem chunk_shape (P : Params) (t : OrderTag) (p : List Byte) :
    (chunkFrame P t p false).length = p.length + 1 ∧ (chunkFrame P t p false).head? = some (tagByte P t) := by
  simp [chunkFrame]

theorem EncodedLength.dmaWrite (addr : Word) (size : Word) : EncodedLength.Statement (.dmaWrite addr size) :=
  fun P => .inl ⟨_, _, _, _, _, rfl, frame_shape P _ _ _ _ _⟩

theorem EncodedLength.dmaRead (addr : Word) (size : Word) : EncodedLength.Statement (.dmaRead addr size) :=
  fun P => .inl ⟨_, _, _, _, _, rfl, frame_shape P _ _ _ _ _⟩

theorem EncodedLength.internalWrite (addr : Word) (data : Word) (cl : Bool) : EncodedLength.Statement (.internalWrite addr data cl) :=
  fun P => .inl ⟨_, _, _, _, _, rfl, frame_shape P _ _ _ _ _⟩

theorem EncodedLength.internalRead (addr : Word) (cl : Bool) : EncodedLength.Statement (.internalRead addr cl) :=
  fun P => .inl ⟨_, _, _, _, _, rfl, frame_shape P _ _ _ _ _⟩

theorem EncodedLength.terminate : EncodedLength.Statement (.terminate) :=
  fun P => .inl ⟨_, _, _, _, _, rfl, frame_shape P _ _ _ _ _⟩

theorem EncodedLength.repeatCmd : EncodedLength.Statement (.repeatCmd) :=
  fun P => .inl ⟨_, _, _, _, _, rfl, frame_shape P _ _ _ _ _⟩

theorem EncodedLength.dmaExtWrite (addr : Word) (size : Word) : EncodedLength.Statement (.dmaExtWrite addr size) :=
  fun P => .inl ⟨_, _, _, _, _, rfl, frame_shape P _ _ _ _ _⟩

theorem EncodedLength.dmaExtRead (addr : Word) (size : Word) : EncodedLength.Statement (.dmaExtRead addr size) :=
  fun P => .inl ⟨_, _, _, _, _, rfl, frame_shape P _ _ _ _ _⟩

theorem EncodedLength.singleWrite (addr : Word) (data : Word) : EncodedLength.Statement (.singleWrite addr data) :=
  fun P => .inl ⟨_, _, _, _, _, rfl, frame_shape P _ _ _ _ _⟩

theorem EncodedLength.singleRead (addr : Word) : EncodedLength.Statement (.singleRead addr) :=
  fun P => .inl ⟨_, _, _, _, _, rfl, frame_shape P _ _ _ _ _⟩

theorem EncodedLength.reset : EncodedLength.Statement (.reset) :=
  fun P => .inl ⟨_, _, _, _, _, rfl, frame_shape P _ _ _ _ _⟩

theorem EncodedLength.dataFirst (p : List Byte) : EncodedLength.Statement (.dataFirst p) :=
  fun P => .inr ⟨_, _, rfl, chunk_shape P _ p⟩

theorem EncodedLength.dataMiddle (p : List Byte) : EncodedLength.Statement (.dataMiddle p) :=
  fun P => .inr ⟨_, _, rfl, chunk_shape P _ p⟩

theorem EncodedLength.dataLast (p : List Byte) : EncodedLength.Statement (.dataLast p) :=
  fun P => .inr ⟨_, _, rfl, chunk_shape P _ p⟩

theorem EncodedLength.dataSingle (p : List Byte) : EncodedLength.Statement (.dataSingle p) :=
  fun P => .inr ⟨_, _, rfl, chunk_shape P _ p⟩

theorem EncodedLength.negotiate : EncodedLength.Statement (.negotiate) :=
  fun _ => ⟨rfl, rfl⟩

theorem EncodedLength.rdreg (addr : Word) : EncodedLength.Statement (.rdreg addr) :=
  fun _ => ⟨rfl, rfl⟩

theorem EncodedLength.wrreg (addr : Word) (wdata : Word) : EncodedLength.Statement (.wrreg addr wdata) :=
  fun _ => ⟨rfl, rfl⟩

theorem EncodedLength.rdbulk (addr : Word) (len : Word) (buf : Word) : EncodedLength.Statement (.rdbulk addr len buf) :=
  fun _ => ⟨rfl, rfl⟩

theorem EncodedLength.wrbulk (addr : Word) (len : Word) (buf : Word) : EncodedLength.Statement (.wrbulk addr len buf) :=
  fun _ => ⟨rfl, rfl⟩

theorem EncodedLength.rdpend : EncodedLength.Statement (.rdpend) :=
  fun _ => ⟨rfl, rfl⟩

theorem EncodedLength.rdint : EncodedLength.Statement (.rdint) :=
  fun _ => ⟨rfl, rfl⟩

theorem EncodedLength.clrint (mask : Word) : EncodedLength.Statement (.clrint mask) :=
  fun _ => ⟨rfl, rfl⟩

theorem EncodedLength.sync (count : Word) : EncodedLength.Statement (.sync count) :=
  fun _ => ⟨rfl, rfl⟩

theorem EncodedLength.rstbus : EncodedLength.Statement (.rstbus) :=
  fun _ => ⟨rfl, rfl⟩

theorem EncodedLength.reserved (code : BitVec 4) : EncodedLength.Statement (.reserved code) :=
  fun _ => ⟨rfl, rfl⟩

end Sys2Proof.Laws
end

