-- ==== Sys2Proof/Tests/Slice0.lean ====
section
/-! SUPPORT. Tests by evaluation: ill-formed terms refused, words written out from the spec's encodings, the vectors of
spec/95_test_vectors.md on one operation each, and for each obligation that has hypotheses a concrete state and operands
that meet all of them together. Bytes on the wire in them are those of the default parameters, among them the defaults the
spec takes from general knowledge (R7, notes/assumptions/2.md). -/

namespace Sys2Proof.Tests

set_option Elab.async false

open Machine

/-! ## WellFormed refuses what the encodings cannot carry -/

theorem test_illFormed_dmaWrite_size : (Instr.dmaWrite 0 0x10000).wellFormed = false := by decide +kernel

theorem test_illFormed_dmaWrite_addr : (Instr.dmaWrite 0x1000000 0).wellFormed = false := by decide +kernel

theorem test_illFormed_dmaRead_size : (Instr.dmaRead 0 0x10000).wellFormed = false := by decide +kernel

theorem test_illFormed_dmaExtWrite_size : (Instr.dmaExtWrite 0 0x1000000).wellFormed = false := by decide +kernel

theorem test_illFormed_dmaExtRead_addr : (Instr.dmaExtRead 0x1000000 0).wellFormed = false := by decide +kernel

theorem test_illFormed_internalWrite_addr : (Instr.internalWrite 0x8000 0 false).wellFormed = false := by decide +kernel

theorem test_illFormed_internalRead_addr : (Instr.internalRead 0x8000 true).wellFormed = false := by decide +kernel

theorem test_illFormed_singleWrite_addr : (Instr.singleWrite 0x1000000 0).wellFormed = false := by decide +kernel

theorem test_illFormed_singleRead_addr : (Instr.singleRead 0x1000000).wellFormed = false := by decide +kernel

theorem test_illFormed_dataFirst_length : (Instr.dataFirst [1]).wellFormed = false := by decide +kernel

theorem test_illFormed_dataMiddle_length : (Instr.dataMiddle (zeros 257)).wellFormed = false := by decide +kernel

theorem test_illFormed_dataLast_length : (Instr.dataLast []).wellFormed = false := by decide +kernel

theorem test_illFormed_dataSingle_length : (Instr.dataSingle [1, 2, 3, 4]).wellFormed = false := by decide +kernel

theorem test_illFormed_reserved_code : (Instr.reserved 0x9).wellFormed = false := by decide +kernel

/-! ## Decoding, from words written out from spec 30 R81, R82, R89, R100 and the frames of spec 95 part B -/

theorem test_decode_dmaWrite : decodeTableWord 48 0x0001452301C1 = some (.dmaWrite 0x012345 0x0100) := by decide +kernel

theorem test_decode_dmaRead : decodeTableWord 48 0x4523452301C2 = some (.dmaRead 0x012345 0x2345) := by decide +kernel

theorem test_decode_internalWrite : decodeTableWord 56 0x0DF0FECA1080C3 = some (.internalWrite 0x0010 0xCAFEF00D true) := by decide +kernel

theorem test_decode_internalRead : decodeTableWord 32 0x002400C4 = some (.internalRead 0x0024 false) := by decide +kernel

theorem test_decode_terminate : decodeTableWord 32 0x000000C5 = some .terminate := by decide +kernel

theorem test_decode_repeatCmd : decodeTableWord 32 0x000000C6 = some .repeatCmd := by decide +kernel

theorem test_decode_dmaExtWrite : decodeTableWord 56 0x012000000415C7 = some (.dmaExtWrite 0x150400 8193) := by decide +kernel

theorem test_decode_dmaExtRead : decodeTableWord 56 0xFFFFFF000415C8 = some (.dmaExtRead 0x150400 0xFFFFFF) := by decide +kernel

theorem test_decode_singleWrite : decodeTableWord 64 0xEFBEADDEA81000C9 = some (.singleWrite 0x0010A8 0xDEADBEEF) := by decide +kernel

theorem test_decode_singleRead : decodeTableWord 32 0xFFFFFFCA = some (.singleRead 0xFFFFFF) := by decide +kernel

theorem test_decode_reset : decodeTableWord 32 0xFFFFFFCF = some .reset := by decide +kernel

theorem test_decode_dataFirst : decode defaultParams false (.wire [0xF1, 1, 2, 3]) = .ok (.dataFirst [1, 2, 3]) := by decide +kernel

theorem test_decode_dataMiddle : decode defaultParams true (.wire [0xF2, 1, 2, 3]) = .ok (.dataMiddle [1, 2, 3]) := by decide +kernel

theorem test_decode_dataLast : decode defaultParams true (.wire [0xF3, 1, 2, 3]) = .ok (.dataLast [1, 2, 3]) := by decide +kernel

theorem test_decode_dataSingle : decode defaultParams false (.wire [0xF3, 1, 2, 3, 4, 5]) = .ok (.dataSingle [1, 2, 3, 4, 5]) := by decide +kernel

theorem test_decode_negotiate : decodeTableWord 8 0x00 = some .negotiate := by decide +kernel

theorem test_decode_rdreg : decodeTableWord 40 0xA810000001 = some (.rdreg 0x10A8) := by decide +kernel

theorem test_decode_wrreg : decodeTableWord 72 0xEFBEADDEA810000002 = some (.wrreg 0x10A8 0xDEADBEEF) := by decide +kernel

theorem test_decode_rdbulk : decodeTableWord 136 0x070000000C000000000000000004150003 = some (.rdbulk 0x150400 12 7) := by decide +kernel

theorem test_decode_wrbulk : decodeTableWord 136 0x07000000204E0000000000000004150004 = some (.wrbulk 0x150400 20000 7) := by decide +kernel

theorem test_decode_rdpend : decodeTableWord 8 0x05 = some .rdpend := by decide +kernel

theorem test_decode_rdint : decodeTableWord 8 0x06 = some .rdint := by decide +kernel

theorem test_decode_clrint : decodeTableWord 72 0x810000000000000007 = some (.clrint 0x81) := by decide +kernel

theorem test_decode_sync : decodeTableWord 72 0x020000000000000008 = some (.sync 2) := by decide +kernel

theorem test_decode_rstbus : decodeTableWord 8 0x09 = some .rstbus := by decide +kernel

theorem test_decode_reserved : decodeTableWord 8 0x0A = some (.reserved 0xA) := by decide +kernel

theorem test_decode_unknownOpcode : decode defaultParams false (.wire [0x55, 1]) = .error (.unknownOpcode 0x55) := by decide +kernel

theorem test_decode_badLength : decode defaultParams false (.wire [0xCA, 0, 0]) = .error .badLength := by decide +kernel

theorem test_decode_badChecksum : decodeFrame defaultParams true [0xCA, 0x00, 0x10, 0x00, 0xCB] = .error .badChecksum := by decide +kernel

theorem test_decode_goodChecksum : decodeFrame defaultParams true [0xCA, 0x00, 0x10, 0x00, 0xCA] = .ok (.singleRead 0x1000) := by decide +kernel

/-! ## CRC7 (spec 95 part A) -/

theorem test_crc_A2 : crc7 0x09 0x7F [0x00] = 0x70 := by decide +kernel

theorem test_crc_A10 : crc7 0x09 0x7F [0xCF, 0xFF, 0xFF, 0xFF] = 0x55 := by decide +kernel

theorem test_crc_A11 : crc7 0x09 0 [0x31, 0x32, 0x33, 0x34, 0x35, 0x36, 0x37, 0x38, 0x39] = 0x75 := by decide +kernel

theorem test_crc_A12 : crc7 0x09 0x7F [0x31, 0x32, 0x33, 0x34, 0x35, 0x36, 0x37, 0x38, 0x39] = 0x50 := by decide +kernel

theorem test_crc_A13 : crc7 0x09 0 [0x40, 0, 0, 0, 0] = 0x4A := by decide +kernel

theorem test_crc_table : [0x01, 0x02, 0x04, 0x08, 0x10, 0x20, 0x40, 0x80, 0xFF, 0x34].map (crcTable 0x09) =
    [0x09, 0x12, 0x24, 0x48, 0x19, 0x32, 0x64, 0x41, 0x79, 0x0F] := by decide +kernel

/-! ## Frames with the checksum byte (spec 95 part B) -/

theorem test_frame_F1d_truncated : withCk defaultParams true (cmdBody defaultParams .singleRead 0x12345678 0 0 false) =
    [0xCA, 0x34, 0x56, 0x78, 0xDC] := by decide +kernel

theorem test_frame_F2b_clockless : withCk defaultParams true (cmdBody defaultParams .internalRead 0x0010 0 0 true) =
    [0xC4, 0x80, 0x10, 0x00, 0x64] := by decide +kernel

theorem test_frame_F2e_addressBit15 : withCk defaultParams true (cmdBody defaultParams .internalRead 0x8024 0 0 false) =
    [0xC4, 0x80, 0x24, 0x00, 0xAA] := by decide +kernel

theorem test_frame_F3_reset : withCk defaultParams true (cmdBody defaultParams .reset 0 0 0 false) =
    [0xCF, 0xFF, 0xFF, 0xFF, 0xAA] := by decide +kernel

theorem test_frame_F4_terminate : withCk defaultParams true (cmdBody defaultParams .terminate 0 0 0 false) =
    [0xC5, 0x00, 0x00, 0x00, 0x9A] := by decide +kernel

theorem test_frame_F5_repeat : withCk defaultParams true (cmdBody defaultParams .repeatCmd 0 0 0 false) =
    [0xC6, 0x00, 0x00, 0x00, 0x90] := by decide +kernel

theorem test_frame_F6_dmaWrite : withCk defaultParams true (cmdBody defaultParams .dmaWrite 0x012345 0 0x0100 false) =
    [0xC1, 0x01, 0x23, 0x45, 0x01, 0x00, 0xC2] := by decide +kernel

theorem test_frame_F7b_dmaRead : withCk defaultParams true (cmdBody defaultParams .dmaRead 0x012345 0 0x12345 false) =
    [0xC2, 0x01, 0x23, 0x45, 0x23, 0x45, 0x04] := by decide +kernel

theorem test_frame_F8_dmaExtWrite : withCk defaultParams true (cmdBody defaultParams .dmaExtWrite 0x150400 0 20000 false) =
    [0xC7, 0x15, 0x04, 0x00, 0x00, 0x4E, 0x20, 0xB6] := by decide +kernel

theorem test_frame_F9_dmaExtRead : withCk defaultParams true (cmdBody defaultParams .dmaExtRead 0x150400 0 20000 false) =
    [0xC8, 0x15, 0x04, 0x00, 0x00, 0x4E, 0x20, 0x6C] := by decide +kernel

theorem test_frame_F10c_internalWrite : withCk defaultParams true (cmdBody defaultParams .internalWrite 0x0010 0xCAFEF00D 0 true) =
    [0xC3, 0x80, 0x10, 0xCA, 0xFE, 0xF0, 0x0D, 0xE6] := by decide +kernel

theorem test_frame_F11_singleWrite : withCk defaultParams true (cmdBody defaultParams .singleWrite 0x0010A8 0xDEADBEEF 0 false) =
    [0xC9, 0x00, 0x10, 0xA8, 0xDE, 0xAD, 0xBE, 0xEF, 0x5A] := by decide +kernel

theorem test_frame_G4_chunk : chunkFrame defaultParams .single [1, 2, 3, 4, 5] true = [0xF3, 1, 2, 3, 4, 5, 0, 0] := by decide +kernel

/-! ## The parser on a fixed capture (spec 95 part C) -/

/-- The session in which the parser runs: reset state with the checksum mode given. -/
def parserState (ck : Bool) : State :=
  { State.reset with session := { State.reset.session with checksumEnabled := ck } }

theorem test_parse_P3 : parseRaw 0xCA [0xCA, 0x00, 0x00, 0x00, 0xF0, 0x12, 0x34, 0x56, 0x78, 0xAB, 0xCD] (parserState true) =
    .ok { status := 0, payload := [0x12, 0x34, 0x56, 0x78], trailing := some ⟨0xAB, 0xCD⟩ } := by decide +kernel

theorem test_parse_P4 : parseRaw 0xCA [0xCA, 0x00, 0x00, 0x00, 0x00, 0x00, 0x00, 0x00, 0x00, 0x00, 0x00, 0xFF, 0xDE, 0xAD, 0xBE, 0xEF, 0x00, 0x00] (parserState true) =
    .ok { status := 0, payload := [0xDE, 0xAD, 0xBE, 0xEF], trailing := some ⟨0, 0⟩ } := by decide +kernel

theorem test_parse_P5 : parseRaw 0xCA [0xCA, 0x00, 0x00, 0x00, 0x00, 0x00, 0x00, 0x00, 0x00, 0x00, 0x00, 0x00, 0xF0, 0x12, 0x34, 0x56, 0x78, 0x00, 0x00] (parserState true) =
    .err .resetRequired := by decide +kernel

theorem test_parse_P8 : parseRaw 0xCA [0xCB, 0x01, 0xF3] (parserState true) =
    .err .commandEchoMismatch := by decide +kernel

theorem test_parse_P7 : parseRaw 0xCA [0xCA, 0x01, 0xF3] (parserState true) =
    .err .badStatus := by decide +kernel

theorem test_parse_P9 : parseRaw 0xCA [0xCA, 0x00, 0xF0, 0x12, 0x34] (parserState true) =
    .err .frameTooShort := by decide +kernel

theorem test_parse_P11 : parseRaw 0xCA [0xCA, 0x00, 0x00, 0x00] (parserState true) =
    .err .resetRequired := by decide +kernel

theorem test_parse_P12 : parseRaw 0xCA [0xCA] (parserState true) =
    .err .frameTooShort := by decide +kernel

theorem test_parse_P13 : parseRaw 0xCF [0x55, 0xCF, 0x00] (parserState true) =
    .ok { status := 0, payload := [], trailing := none } := by decide +kernel

theorem test_parse_P14 : parseRaw 0xCF [0xCF, 0x00, 0x00] (parserState false) =
    .err .commandEchoMismatch := by decide +kernel

theorem test_parse_P17 : parseRaw 0xC4 [0xC4, 0x00, 0xFF, 0x00, 0x00, 0x00, 0x5C] (parserState false) =
    .ok { status := 0, payload := [0x00, 0x00, 0x00, 0x5C], trailing := none } := by decide +kernel

theorem test_parse_P18 : parseRaw 0xC8 [0xC8, 0x00, 0x00, 0xF3, 0xD0, 0xD1] (parserState false) =
    .ok { status := 0, payload := [], trailing := none } := by decide +kernel

theorem test_value_P19 : payloadValue .littleEndian [0x12, 0x34, 0x56, 0x78] = 0x78563412 := by decide +kernel

/-! ## One operation each -/

/-- An answer: the call succeeds and captures these bytes. -/
def ok (b : List Byte) : Answer := { ok := true, bytes := b }

/-- A call that returns false. -/
def bad : Answer := { ok := false, bytes := [] }

/-- The reset state with a session in the given modes and the answers given. -/
def start (ck neg : Bool) (style : XferStyle) (a : List Answer) : State :=
  { State.reset with
    session := { State.reset.session with checksumEnabled := ck, negotiated := neg, xferStyle := style }
    answers := a }

/-- The same with platform addresses configured and three attempts. -/
def platform (lines : BitVec 4) (a : List Answer) : State :=
  { State.reset with
    cfg := { defaultParams with
      maxRetry := 3
      pendingSizeAddr := some 0x2000
      intClearAddr := some 0x20
      intStatus := some { addr := 0x2004, linesLsb := 8 }
      intEnable := some { addr := 0x2008, mask := 0xFF, codes := [0, 1, 3, 7, 15, 31, 63, 127, 255] } }
    session := { State.reset.session with checksumEnabled := false, negotiated := true, interruptLineCount := lines }
    answers := a }

/-- What is looked at after an operation: the completion, and the bytes each transport call sent or asked for, delays as 1
and log events as 2. -/
def seen (o : Host.Outcome State Fault Refusal) : Option (Completion × List (List Byte × Nat)) :=
  match o with
  | .next t => some (t.compl, t.trace.filterMap fun e =>
      match e.port with
      | .transmit w _ => some (w, 0)
      | .transact w _ _ => some (w, 0)
      | .receive n _ _ => some ([], n)
      | .delay _ => some ([], 1)
      | .log _ => some ([], 2)
      | .complete _ => none)
  | .fault _ | .refused _ => none

/-- A response to a register read in `Combined` style: frame bytes, echo, status, sentinel, payload, and the rest. -/
def readAnswer (frameLen : Nat) (opc : Byte) (p : List Byte) : Answer :=
  ok (zeros frameLen ++ [opc, 0x00, 0xF3] ++ p ++ zeros 20)

/-- A response to a register write. -/
def writeAnswer (frameLen : Nat) (opc : Byte) : Answer :=
  ok (zeros frameLen ++ [opc, 0x00])

theorem test_exec_dmaWrite : seen (exec (.dmaWrite 0x012345 0x0100) (start true false .combined [writeAnswer 7 0xC1])) =
    some (okWith 0, [([0xC1, 0x01, 0x23, 0x45, 0x01, 0x00, 0xC2, 0x00, 0x00], 0)]) := by decide +kernel

theorem test_exec_dmaRead : seen (exec (.dmaRead 0x012345 0x12345) (start false true .separate [ok [], ok [0xC2], ok [0], ok [0xF0]])) =
    some (okWith 0, [([0xC2, 0x01, 0x23, 0x45, 0x23, 0x45], 0), ([], 1), ([], 1), ([], 1)]) := by decide +kernel

theorem test_exec_internalWrite : seen (exec (.internalWrite 0x0010 0xCAFEF00D true) (start true false .combined [writeAnswer 8 0xC3])) =
    some (okWith 0, [([0xC3, 0x80, 0x10, 0xCA, 0xFE, 0xF0, 0x0D, 0xE6, 0x00, 0x00], 0)]) := by decide +kernel

theorem test_exec_internalRead : seen (exec (.internalRead 0x0024 false) (start false true .combined [readAnswer 4 0xC4 [0, 0, 0, 0x5C]])) =
    some (okWith 0x5C, [([0xC4, 0x00, 0x24, 0x00, 0x00, 0x00, 0x00, 0x00, 0x00, 0x00, 0x00, 0x00, 0x00, 0x00, 0x00, 0x00, 0x00, 0x00, 0x00, 0x00], 0)]) := by decide +kernel

theorem test_exec_terminate : seen (exec (.terminate) (start false true .combined [ok [0, 0, 0, 0, 0x55, 0xC5, 0x00]])) =
    some (okWith 0, [([0xC5, 0x00, 0x00, 0x00, 0x00, 0x00, 0x00], 0)]) := by decide +kernel

theorem test_exec_repeatCmd : seen (exec (.repeatCmd) (start true false .combined [ok [0, 0, 0, 0, 0, 0x55, 0xC6, 0x01]])) =
    some (failedWith .badStatus, [([0xC6, 0x00, 0x00, 0x00, 0x90, 0x00, 0x00, 0x00], 0)]) := by decide +kernel

theorem test_exec_dmaExtWrite : seen (exec (.dmaExtWrite 0x150400 5) (start true false .combined [writeAnswer 8 0xC8])) =
    some (failedWith .commandEchoMismatch, [([0xC7, 0x15, 0x04, 0x00, 0x00, 0x00, 0x05, 0x96, 0x00, 0x00], 0)]) := by decide +kernel

theorem test_exec_dmaExtRead : seen (exec (.dmaExtRead 0x150400 12) (start true false .separate [ok [], ok [0xC8], ok [0], ok [0], ok [0xF3]])) =
    some (okWith 0, [([0xC8, 0x15, 0x04, 0x00, 0x00, 0x00, 0x0C, 0xCE], 0), ([], 1), ([], 1), ([], 1), ([], 1)]) := by decide +kernel

theorem test_exec_singleWrite : seen (exec (.singleWrite 0x10A8 0xDEADBEEF) (start true false .combined [writeAnswer 9 0xC9])) =
    some (okWith 0, [([0xC9, 0x00, 0x10, 0xA8, 0xDE, 0xAD, 0xBE, 0xEF, 0x5A, 0x00, 0x00], 0)]) := by decide +kernel

theorem test_exec_singleRead : seen (exec (.singleRead 0x1000) (start true false .combined [readAnswer 5 0xCA [0x10, 0x00, 0x20, 0xB0]])) =
    some (okWith 0x100020B0, [([0xCA, 0x00, 0x10, 0x00, 0xCA, 0x00, 0x00, 0x00, 0x00, 0x00, 0x00, 0x00, 0x00, 0x00, 0x00, 0x00, 0x00, 0x00, 0x00, 0x00, 0x00, 0x00, 0x00], 0)]) := by decide +kernel

theorem test_exec_reset : seen (exec (.reset) (start true false .combined [bad])) =
    some (failedWith .transportError, [([0xCF, 0xFF, 0xFF, 0xFF, 0xAA, 0x00, 0x00, 0x00], 0)]) := by decide +kernel

theorem test_exec_dataFirst : seen (exec (.dataFirst [7, 8]) (start true false .combined [ok []])) =
    some (okWith 0, [([0xF1, 0x07, 0x08, 0x00, 0x00], 0)]) := by decide +kernel

theorem test_exec_dataMiddle : seen (exec (.dataMiddle [7, 8]) (start false true .combined [bad])) =
    some (failedWith .transportError, [([0xF2, 0x07, 0x08], 0)]) := by decide +kernel

theorem test_exec_dataLast : seen (exec (.dataLast [7, 8]) (start false true .separate [ok []])) =
    some (okWith 0, [([0xF3, 0x07, 0x08], 0)]) := by decide +kernel

theorem test_exec_dataSingle : seen (exec (.dataSingle [1, 2, 3, 4, 5]) (start true false .combined [ok []])) =
    some (okWith 0, [([0xF3, 0x01, 0x02, 0x03, 0x04, 0x05, 0x00, 0x00], 0)]) := by decide +kernel

theorem test_exec_N1_negotiate : seen (exec (.negotiate) (start false false .combined [readAnswer 5 0xC4 [0, 0, 0, 0x5C], readAnswer 5 0xC4 [0, 0, 0, 0x5C], writeAnswer 8 0xC3, readAnswer 4 0xCA [0, 0, 0, 1]])) =
    some (okWith 0, [([0xC4, 0x00, 0x24, 0x00, 0x20, 0x00, 0x00, 0x00, 0x00, 0x00, 0x00, 0x00, 0x00, 0x00, 0x00, 0x00, 0x00, 0x00, 0x00, 0x00, 0x00, 0x00, 0x00], 0), ([0xC4, 0x00, 0x24, 0x00, 0x20, 0x00, 0x00, 0x00, 0x00, 0x00, 0x00, 0x00, 0x00, 0x00, 0x00, 0x00, 0x00, 0x00, 0x00, 0x00, 0x00, 0x00, 0x00], 0), ([0xC3, 0x00, 0x24, 0x00, 0x00, 0x00, 0x50, 0x9A, 0x00, 0x00], 0), ([0xCA, 0x00, 0x10, 0x00, 0x00, 0x00, 0x00, 0x00, 0x00, 0x00, 0x00, 0x00, 0x00, 0x00, 0x00, 0x00, 0x00, 0x00, 0x00, 0x00], 0)]) := by decide +kernel

theorem test_exec_N7_negotiateAgain : seen (exec (.negotiate) (start false true .combined [readAnswer 4 0xCA [0, 0, 0, 1]])) =
    some (okWith 0, [([0xCA, 0x00, 0x10, 0x00, 0x00, 0x00, 0x00, 0x00, 0x00, 0x00, 0x00, 0x00, 0x00, 0x00, 0x00, 0x00, 0x00, 0x00, 0x00, 0x00], 0)]) := by decide +kernel

theorem test_exec_D1_rdreg : seen (exec (.rdreg 0x1000) (start false true .combined [readAnswer 4 0xCA [0x10, 0x00, 0x20, 0xB0]])) =
    some (okWith 0x100020B0, [([0xCA, 0x00, 0x10, 0x00, 0x00, 0x00, 0x00, 0x00, 0x00, 0x00, 0x00, 0x00, 0x00, 0x00, 0x00, 0x00, 0x00, 0x00, 0x00, 0x00], 0)]) := by decide +kernel

theorem test_exec_D13_rdregSeparate : seen (exec (.rdreg 0x1000) (start true false .separate [ok [], ok [0xCA], ok [0], ok [0], ok [0], ok [0xF3], ok [0x10, 0x00, 0x20, 0xB0], ok [0x12, 0x34]])) =
    some (okWith 0x100020B0, [([0xCA, 0x00, 0x10, 0x00, 0xCA], 0), ([], 1), ([], 1), ([], 1), ([], 1), ([], 1), ([], 4), ([], 2)]) := by decide +kernel

theorem test_exec_D9_wrregClockless : seen (exec (.wrreg 0x10 0xCAFEF00D) (start true false .combined [writeAnswer 8 0xC3])) =
    some (okWith 0, [([0xC3, 0x80, 0x10, 0xCA, 0xFE, 0xF0, 0x0D, 0xE6, 0x00, 0x00], 0)]) := by decide +kernel

theorem test_exec_T2_wrregSecondAttempt : seen (exec (.wrreg 0x10A8 1) (start false true .combined [bad, ok [0, 0, 0, 0, 0, 0xCF, 0], writeAnswer 8 0xC9])) =
    some (okWith 0, [([0xC9, 0x00, 0x10, 0xA8, 0x00, 0x00, 0x00, 0x01, 0x00, 0x00], 0), ([], 1), ([0xCF, 0xFF, 0xFF, 0xFF, 0x00, 0x00, 0x00], 0), ([], 1), ([0xC9, 0x00, 0x10, 0xA8, 0x00, 0x00, 0x00, 0x01, 0x00, 0x00], 0)]) := by decide +kernel

theorem test_exec_B1_wrbulk : seen (exec (.wrbulk 0x150400 5 7) ({ start true false .combined [writeAnswer 8 0xC7, ok []] with mem := [(7 * 2 ^ 24, 1), (7 * 2 ^ 24 + 1, 2), (7 * 2 ^ 24 + 2, 3), (7 * 2 ^ 24 + 3, 4), (7 * 2 ^ 24 + 4, 5)] })) =
    some (okWith 0, [([0xC7, 0x15, 0x04, 0x00, 0x00, 0x00, 0x05, 0x96, 0x00, 0x00], 0), ([0xF3, 0x01, 0x02, 0x03, 0x04, 0x05, 0x00, 0x00], 0)]) := by decide +kernel

theorem test_exec_K11_wrbulkRejected : seen (exec (.wrbulk 0x150400 4 7) (start true false .combined [])) =
    some (failedWith .rejected, []) := by decide +kernel

theorem test_exec_B5_rdbulk : seen (exec (.rdbulk 0x150400 12 7) (start true false .combined [ok (zeros 8 ++ [0xC8, 0, 0, 0, 0xF3, 1, 2, 3, 4, 5, 6, 7]), ok [8, 9, 10, 11, 12], ok [0xAA, 0xBB]])) =
    some (okWith 0, [([0xC8, 0x15, 0x04, 0x00, 0x00, 0x00, 0x0C, 0xCE, 0x00, 0x00, 0x00, 0x00, 0x00, 0x00, 0x00, 0x00, 0x00, 0x00, 0x00, 0x00], 0), ([], 5), ([], 2)]) := by decide +kernel

theorem test_exec_B5_rdbulkMemory : (match exec (.rdbulk 0x150400 12 7) (start true false .combined
      [ok (zeros 8 ++ [0xC8, 0, 0, 0, 0xF3, 1, 2, 3, 4, 5, 6, 7]), ok [8, 9, 10, 11, 12], ok [0xAA, 0xBB]]) with
    | .next t => memReadBytes t.mem (bufAddr 7 0) 13
    | .fault _ | .refused _ => []) = [1, 2, 3, 4, 5, 6, 7, 8, 9, 10, 11, 12, 0] := by decide +kernel

theorem test_exec_rdpend : seen (exec (.rdpend) (platform 0 [readAnswer 4 0xCA [0, 0, 1, 0]])) =
    some (okWith 0x100, [([0xCA, 0x00, 0x20, 0x00, 0x00, 0x00, 0x00, 0x00, 0x00, 0x00, 0x00, 0x00, 0x00, 0x00, 0x00, 0x00, 0x00, 0x00, 0x00, 0x00], 0)]) := by decide +kernel

theorem test_exec_M3_rdint : seen (exec (.rdint) (platform 2 [readAnswer 4 0xCA [0, 0, 3, 0]])) =
    some (okWith 0x300, [([0xCA, 0x00, 0x20, 0x04, 0x00, 0x00, 0x00, 0x00, 0x00, 0x00, 0x00, 0x00, 0x00, 0x00, 0x00, 0x00, 0x00, 0x00, 0x00, 0x00], 0)]) := by decide +kernel

theorem test_exec_rdintRereads : seen (exec (.rdint) (platform 2 [readAnswer 4 0xCA [0, 0, 4, 0], readAnswer 4 0xCA [0, 0, 3, 1]])) =
    some (okWith 0x301, [([0xCA, 0x00, 0x20, 0x04, 0x00, 0x00, 0x00, 0x00, 0x00, 0x00, 0x00, 0x00, 0x00, 0x00, 0x00, 0x00, 0x00, 0x00, 0x00, 0x00], 0),
      ([0xCA, 0x00, 0x20, 0x04, 0x00, 0x00, 0x00, 0x00, 0x00, 0x00, 0x00, 0x00, 0x00, 0x00, 0x00, 0x00, 0x00, 0x00, 0x00, 0x00], 0)]) := by decide +kernel

theorem test_exec_M4_rdintCapped : seen (exec (.rdint) (platform 2 [readAnswer 4 0xCA [0, 0, 4, 0], readAnswer 4 0xCA [0, 0, 4, 0], readAnswer 4 0xCA [0, 0, 4, 1]])) =
    some (okWith 0x401, [([0xCA, 0x00, 0x20, 0x04, 0x00, 0x00, 0x00, 0x00, 0x00, 0x00, 0x00, 0x00, 0x00, 0x00, 0x00, 0x00, 0x00, 0x00, 0x00, 0x00], 0), ([0xCA, 0x00, 0x20, 0x04, 0x00, 0x00, 0x00, 0x00, 0x00, 0x00, 0x00, 0x00, 0x00, 0x00, 0x00, 0x00, 0x00, 0x00, 0x00, 0x00], 0), ([0xCA, 0x00, 0x20, 0x04, 0x00, 0x00, 0x00, 0x00, 0x00, 0x00, 0x00, 0x00, 0x00, 0x00, 0x00, 0x00, 0x00, 0x00, 0x00, 0x00], 0), ([], 2)]) := by decide +kernel

theorem test_exec_clrint : seen (exec (.clrint 0x81) (platform 2 [writeAnswer 7 0xC3])) =
    some (okWith 0, [([0xC3, 0x80, 0x20, 0x00, 0x00, 0x00, 0x81, 0x00, 0x00], 0)]) := by decide +kernel

theorem test_exec_M1_syncRejected : seen (exec (.sync 9) (platform 2 [])) =
    some (failedWith .rejected, []) := by decide +kernel

theorem test_exec_M2_sync : seen (exec (.sync 8) (platform 2 [readAnswer 4 0xCA [0x12, 0x34, 0x56, 0x78], writeAnswer 8 0xC9])) =
    some (okWith 0, [([0xCA, 0x00, 0x20, 0x08, 0x00, 0x00, 0x00, 0x00, 0x00, 0x00, 0x00, 0x00, 0x00, 0x00, 0x00, 0x00, 0x00, 0x00, 0x00, 0x00], 0), ([0xC9, 0x00, 0x20, 0x08, 0x12, 0x34, 0x56, 0xFF, 0x00, 0x00], 0)]) := by decide +kernel

theorem test_exec_D10_rstbus : seen (exec (.rstbus) (start true false .combined [ok [0, 0, 0, 0, 0, 0x55, 0xCF, 0]])) =
    some (okWith 0, [([0xCF, 0xFF, 0xFF, 0xFF, 0xAA, 0x00, 0x00, 0x00], 0)]) := by decide +kernel

theorem test_exec_D12_rstbusBadStatus : seen (exec (.rstbus) (start false true .combined [ok [0, 0, 0, 0, 0x55, 0xCF, 1]])) =
    some (failedWith .badStatus, [([0xCF, 0xFF, 0xFF, 0xFF, 0x00, 0x00, 0x00], 0)]) := by decide +kernel

theorem test_exec_D14_reserved : seen (exec (.reserved 0xC) (start true false .combined [ok []])) =
    some (failedWith .invalidOpcode, []) := by decide +kernel

theorem test_step_runsFetchedWord : seen (step ((start false true .combined [readAnswer 4 0xCA [0x10, 0x00, 0x20, 0xB0]]).withFetchWord 32 0x001000CA)) =
    some (okWith 0x100020B0, [([0xCA, 0x00, 0x10, 0x00] ++ zeros 16, 0)]) := by decide +kernel

/-- R38: the whole request is latched, also the fields its operation ignores; a bulk length that is not admitted latches
nothing (R231). -/
theorem test_step_R38_latches :
    (match step { platform 0 [bad] with inputs := [.packet (request 0x9 1 2 3 4)] } with
    | .next t => t.req
    | .fault _ | .refused _ => { op := 0, addr := 0, wdata := 0, len := 0, buf := 0 }) =
      { op := 0x9, addr := 1, wdata := 2, len := 3, buf := 4 } := by decide +kernel

theorem test_step_R231_latchesNothing :
    (match step { platform 0 [] with inputs := [.packet (request 0x4 1 2 4 4)] } with
    | .next t => t.req
    | .fault _ | .refused _ => { op := 1, addr := 1, wdata := 1, len := 1, buf := 1 }) =
      { op := 0, addr := 0, wdata := 0, len := 0, buf := 0 } := by decide +kernel

theorem test_segments_K8 : segments 1000 256 = [(0, 256), (256, 256), (512, 256), (768, 232)] := by decide +kernel

theorem test_tags_K8 : (segments 1000 256).map (fun p => tagOf p.1 (1000 - p.1) 256) = [.first, .middle, .middle, .last] := by decide +kernel

theorem test_negotiatedReg_N10 : negotiatedReg defaultParams .c8192 0xFFFFFFFF = 0xFFFFFFD3 := by decide +kernel

/-! ## Witnesses: a concrete state and operands that meet the hypotheses of each obligation -/

/-- A legal reply with the most wait bytes allowed. -/
def reply : Reply :=
  { skip := 0x55, waits := zeros 9, header := 0xF3, payload := [0x10, 0x00, 0x02, 0xB0], ck := [0x12, 0x34] }

/-- What the peer puts on the line for it, with a byte for every placeholder. -/
def talk (P : Params) (k : Cmd) (ck : Bool) (r : Reply) : Talk :=
  { junk := zeros (frameLen P k ck), fields := replyFields P k ck r, extra := zeros (padOf P.pad (classOf k) ck) }

theorem reply_good : reply.Good defaultParams 4 :=
  ⟨by decide +kernel, by decide +kernel, by decide +kernel, rfl, rfl⟩

theorem answers_default (style : XferStyle) (ck : Bool) (k : Cmd) :
    Answers defaultParams style ck k reply (talk defaultParams k ck reply) :=
  ⟨reply_good, rfl, fun _ => by cases ck <;> cases k <;> decide +kernel⟩

/-- The reset state in the modes given, with the answers of a good peer to the commands given. -/
def served (ck neg : Bool) (style : XferStyle) (ks : List Cmd) (more : List Answer) : State :=
  start ck neg style ((ks.map fun k => exchangeAnswers defaultParams style k ck (talk defaultParams k ck reply)).flatten ++ more)

theorem params_default : paramsWf defaultParams = true := by decide +kernel

theorem witness_InvariantHoldsAtReset :
    paramsWf { defaultParams with chunkSizes := { defaultParams.chunkSizes with c256 := 100 }, chunkDefault := .c256 } = true := by
  decide +kernel

theorem test_params_chunkSize_refused :
    paramsWf { defaultParams with chunkSizes := { defaultParams.chunkSizes with c256 := 0 } } = false ∧
      paramsWf { defaultParams with chunkSizes := { defaultParams.chunkSizes with c256 := 512 } } = false := by
  decide +kernel

theorem witness_DecodeInvertsEncode :
    paramsWf defaultParams = true ∧ tagsApart defaultParams ∧ (Instr.dataLast [1]).wellFormed = true ∧
      (Instr.internalRead 0x7FFF true).wellFormed = true ∧ (Instr.reserved 0xA).wellFormed = true :=
  ⟨params_default, fun t => by cases t <;> decide +kernel, by decide +kernel, by decide +kernel, by decide +kernel⟩

theorem witness_FrameReadBackInBothModes :
    paramsWf defaultParams = true ∧ (Instr.dmaWrite 0xFFFFFF 0xFFFF).wellFormed = true ∧
      wireOperands (.dmaWrite 0xFFFFFF 0xFFFF) = some (.dmaWrite, 0xFFFFFF, 0, 0xFFFF, false) :=
  ⟨params_default, by decide +kernel, rfl⟩

theorem witness_DroppedAddressBitsDoNotShow :
    (∀ n : Nat, n < 24 → (0x12345678 : Word).getLsbD n = (0x00345678 : Word).getLsbD n) ∧
      (∀ n : Nat, n < 16 → (0x1FFFF : Word).getLsbD n = (0xFFFF : Word).getLsbD n) :=
  ⟨by decide +kernel, by decide +kernel⟩

theorem witness_AddressBit15IsTheClocklessBit :
    (Cmd.internalRead = .internalRead ∨ Cmd.internalRead = .internalWrite) ∧ (0x8024 : Word).getLsbD 15 = true :=
  ⟨.inl rfl, by decide +kernel⟩

theorem witness_StepRunsTheDecodedInstruction :
    let s : State := { State.reset with inputs := [.packet (request 0x1 0x1000 0 0 0)] }
    s.seq = .idle ∧ s.inputs = .packet (request 0x1 0x1000 0 0 0) :: [] ∧
      fetched { s with inputs := [] } (request 0x1 0x1000 0 0 0) = .ok (.rdreg 0x1000) :=
  ⟨rfl, rfl, rfl⟩

theorem witness_StepRunsTheDecodedInstruction_accepts :
    (0x9 : BitVec 4).toNat < 0xA ∧ ((0x3 : BitVec 4) = 0x3 ∨ (0x3 : BitVec 4) = 0x4) ∧ bulkRejected State.reset.cfg 5 = false ∧
      0xA ≤ (0xA : BitVec 4).toNat ∧ ((0x4 : BitVec 4) = 0x3 ∨ (0x4 : BitVec 4) = 0x4) ∧ bulkRejected State.reset.cfg 4 = true := by
  decide +kernel

theorem witness_StepOutsideInstructions_waits :
    State.reset.seq = .idle ∧ State.reset.inputs = [] :=
  ⟨rfl, rfl⟩

theorem witness_StepOutsideInstructions_unknownOpcode :
    let s : State := { State.reset with inputs := [.packet (.wire [0x55, 1])] }
    s.seq = .idle ∧ s.inputs = .packet (.wire [0x55, 1]) :: [] ∧
      fetched { s with inputs := [] } (.wire [0x55, 1]) = .error (.unknownOpcode 0x55) :=
  ⟨rfl, rfl, rfl⟩

theorem witness_StepOutsideInstructions_busy :
    ({ State.reset with seq := .cmdXfer } : State).seq ≠ .idle :=
  by decide +kernel

theorem witness_ResetInputGivesResetValues :
    let s : State := { served true false .combined [] [] with inputs := [.reset] }
    s.seq = .idle ∧ s.inputs = .reset :: [] :=
  ⟨rfl, rfl⟩

/-- `RSTBUS` with the reset input asserted during its exchange, before its one transport call, and what it would have
reached. -/
def interrupted : State :=
  { start true false .combined [bad] with inputs := [.packetThenReset (request 0x9 0 0 0 0) 1] }

/-- The events of the operation without the reset. -/
def interruptedEvents : List Event :=
  [{ seq := .cmdXfer, ret := [], port := .transact [0xCF, 0xFF, 0xFF, 0xFF, 0xAA, 0, 0, 0] false [] },
    { seq := .done, ret := [], port := .complete (failedWith .transportError) }]

theorem witness_ResetAbandonsTheOperation :
    ∃ u t : State, interrupted.seq = .idle ∧ interrupted.inputs = .packetThenReset (request 0x9 0 0 0 0) 1 :: [] ∧
      fetched { interrupted with inputs := [] } (request 0x9 0 0 0 0) = .ok .rstbus ∧
      exec .rstbus (accept (request 0x9 0 0 0 0) { interrupted with inputs := [] }) = .next u ∧ u.trace = interrupted.trace ++ interruptedEvents ∧
      1 < interruptedEvents.length ∧ step interrupted = .next t :=
  ⟨_, _, rfl, rfl, rfl, rfl, by decide +kernel, by decide +kernel, rfl⟩

theorem witness_EveryStepKeepsTheInvariant :
    Inv State.reset ∧ step State.reset = .next State.reset :=
  ⟨⟨params_default, rfl, rfl, rfl, by decide +kernel, by decide +kernel, by decide +kernel, by decide +kernel, by decide +kernel, rfl,
    rfl, rfl⟩, rfl⟩

theorem witness_ChecksumByteHoldsTheCrc :
    defaultParams.cmdCkLen = 1 :=
  rfl

theorem witness_BuiltFrameStandsInTheBuffer :
    paramsWf State.reset.cfg = true :=
  params_default

theorem witness_UnrecognisedOpcodeBuildsNothing :
    ∀ k : Cmd, opcOf State.reset.cfg.opc k ≠ 0x00 :=
  fun k => by cases k <;> decide +kernel

theorem witness_EchoThenStatusDecide :
    paramsWf State.reset.cfg = true ∧ (0xCB : Byte) ≠ opcOf State.reset.cfg.opc .singleRead ∧
      (0x01 : Byte) ≠ State.reset.cfg.statusOk ∧ (classOf .reset = .resetClass ∨ classOf .reset = .writeClass) ∧
      (classOf .singleWrite = .resetClass ∨ classOf .singleWrite = .writeClass) :=
  ⟨params_default, by decide +kernel, by decide +kernel, .inl rfl, .inr rfl⟩

theorem witness_ScanIsBoundedByItsBudget :
    paramsWf State.reset.cfg = true ∧ (classOf .dmaExtRead = .registerRead ∨ classOf .dmaExtRead = .bulkRead) ∧
      (∀ w ∈ zeros 10, isSentinel State.reset.cfg w = false) ∧ (zeros 10).length = State.reset.cfg.scanBudget ∧
      (∀ w ∈ zeros 9, isSentinel State.reset.cfg w = false) ∧ (zeros 9).length < State.reset.cfg.scanBudget ∧
      isSentinel State.reset.cfg 0xF0 = true ∧ classOf .dmaExtRead = .bulkRead :=
  ⟨params_default, .inr rfl, by decide +kernel, rfl, by decide +kernel, by decide +kernel, by decide +kernel, rfl⟩

theorem witness_PayloadStandsBehindTheSentinel :
    paramsWf State.reset.cfg = true ∧ classOf .singleRead = .registerRead ∧ reply.Good State.reset.cfg 4 ∧
      (zeros 5).length < (dataFields true reply).flatten.length ∧ (zeros 3).length < (dataFields false reply).flatten.length :=
  ⟨params_default, rfl, reply_good, by decide +kernel, by decide +kernel⟩

theorem witness_HeaderCutShortIsFrameTooShort :
    paramsWf State.reset.cfg = true :=
  params_default

theorem witness_RegisterReadCommandCompletes :
    let s := served true false .combined [.singleRead] [bad]
    wireOperands (.singleRead 0x1000) = some (.singleRead, 0x1000, 0, 0, false) ∧ classOf .singleRead = .registerRead ∧ paramsWf s.cfg = true ∧
      Answers s.cfg s.session.xferStyle s.session.checksumEnabled .singleRead reply (talk defaultParams .singleRead true reply) ∧
      s.answers = exchangeAnswers s.cfg s.session.xferStyle .singleRead s.session.checksumEnabled (talk defaultParams .singleRead true reply) ++ [bad] :=
  ⟨rfl, rfl, params_default, answers_default _ _ _, rfl⟩

theorem witness_RegisterReadCommandCompletes_separate :
    let s := served true false .separate [.internalRead] [bad]
    wireOperands (.internalRead 0x24 true) = some (.internalRead, 0x24, 0, 0, true) ∧ classOf .internalRead = .registerRead ∧ paramsWf s.cfg = true ∧
      Answers s.cfg s.session.xferStyle s.session.checksumEnabled .internalRead reply (talk defaultParams .internalRead true reply) ∧
      s.answers = exchangeAnswers s.cfg s.session.xferStyle .internalRead s.session.checksumEnabled (talk defaultParams .internalRead true reply) ++ [bad] :=
  ⟨rfl, rfl, params_default, answers_default _ _ _, rfl⟩

theorem witness_WriteCommandCompletes :
    let s := served true false .combined [.singleWrite] [bad]
    wireOperands (.singleWrite 0x1000 7) = some (.singleWrite, 0x1000, 7, 0, false) ∧ classOf .singleWrite = .writeClass ∧ paramsWf s.cfg = true ∧
      Answers s.cfg s.session.xferStyle s.session.checksumEnabled .singleWrite reply (talk defaultParams .singleWrite true reply) ∧
      s.answers = exchangeAnswers s.cfg s.session.xferStyle .singleWrite s.session.checksumEnabled (talk defaultParams .singleWrite true reply) ++ [bad] :=
  ⟨rfl, rfl, params_default, answers_default _ _ _, rfl⟩

theorem witness_WriteCommandCompletes_dma :
    let s := served false false .separate [.dmaExtWrite] [bad]
    wireOperands (.dmaExtWrite 0x1000 5) = some (.dmaExtWrite, 0x1000, 0, 5, false) ∧ classOf .dmaExtWrite = .writeClass ∧ paramsWf s.cfg = true ∧
      Answers s.cfg s.session.xferStyle s.session.checksumEnabled .dmaExtWrite reply (talk defaultParams .dmaExtWrite false reply) ∧
      s.answers = exchangeAnswers s.cfg s.session.xferStyle .dmaExtWrite s.session.checksumEnabled (talk defaultParams .dmaExtWrite false reply) ++ [bad] :=
  ⟨rfl, rfl, params_default, answers_default _ _ _, rfl⟩

theorem witness_ResetClassCommandCompletes :
    let s := served true false .combined [.terminate] [bad]
    wireOperands (.terminate) = some (.terminate, 0, 0, 0, false) ∧ classOf .terminate = .resetClass ∧ paramsWf s.cfg = true ∧
      Answers s.cfg s.session.xferStyle s.session.checksumEnabled .terminate reply (talk defaultParams .terminate true reply) ∧
      s.answers = exchangeAnswers s.cfg s.session.xferStyle .terminate s.session.checksumEnabled (talk defaultParams .terminate true reply) ++ [bad] :=
  ⟨rfl, rfl, params_default, answers_default _ _ _, rfl⟩

theorem witness_BulkReadCommandHandsOverTheReader :
    let s := served true false .combined [.dmaRead] [bad]
    wireOperands (.dmaRead 0x1000 5) = some (.dmaRead, 0x1000, 0, 5, false) ∧ classOf .dmaRead = .bulkRead ∧ paramsWf s.cfg = true ∧
      Answers s.cfg s.session.xferStyle s.session.checksumEnabled .dmaRead reply (talk defaultParams .dmaRead true reply) ∧
      s.answers = exchangeAnswers s.cfg s.session.xferStyle .dmaRead s.session.checksumEnabled (talk defaultParams .dmaRead true reply) ++ [bad] :=
  ⟨rfl, rfl, params_default, answers_default _ _ _, rfl⟩

theorem witness_BulkReadCommandHandsOverTheReader_separate :
    let s := served false false .separate [.dmaExtRead] [bad]
    wireOperands (.dmaExtRead 0x1000 5) = some (.dmaExtRead, 0x1000, 0, 5, false) ∧ classOf .dmaExtRead = .bulkRead ∧ paramsWf s.cfg = true ∧
      Answers s.cfg s.session.xferStyle s.session.checksumEnabled .dmaExtRead reply (talk defaultParams .dmaExtRead false reply) ∧
      s.answers = exchangeAnswers s.cfg s.session.xferStyle .dmaExtRead s.session.checksumEnabled (talk defaultParams .dmaExtRead false reply) ++ [bad] :=
  ⟨rfl, rfl, params_default, answers_default _ _ _, rfl⟩

theorem witness_WriteChunkGoesOutOnce :
    chunkOperands (.dataSingle [1, 2, 3, 4, 5]) = some (.single, [1, 2, 3, 4, 5]) ∧
      (start true false .combined [ok []]).answers = { ok := true, bytes := [] } :: [] :=
  ⟨rfl, rfl⟩

theorem witness_ReadRegisterCompletes_atThreshold :
    let s := served true false .combined [.internalRead] []
    paramsWf s.cfg = true ∧ (readRoute s.cfg 0x30).1 = .internalRead ∧
      Answers s.cfg s.session.xferStyle s.session.checksumEnabled (readRoute s.cfg 0x30).1 reply (talk defaultParams .internalRead true reply) ∧
      s.answers = exchangeAnswers s.cfg s.session.xferStyle (readRoute s.cfg 0x30).1 s.session.checksumEnabled
        (talk defaultParams .internalRead true reply) ++ [] :=
  by
  have h : (readRoute defaultParams 0x30).1 = .internalRead := by decide +kernel
  exact ⟨params_default, h, by rw [show (served true false .combined [.internalRead] []).cfg = defaultParams from rfl, h]; exact answers_default _ _ _,
    by rw [show (served true false .combined [.internalRead] []).cfg = defaultParams from rfl, h]; rfl⟩

theorem witness_ReadRegisterCompletes_aboveThreshold :
    let s := served false false .separate [.singleRead] []
    paramsWf s.cfg = true ∧ (readRoute s.cfg 0x31).1 = .singleRead ∧
      Answers s.cfg s.session.xferStyle s.session.checksumEnabled (readRoute s.cfg 0x31).1 reply (talk defaultParams .singleRead false reply) ∧
      s.answers = exchangeAnswers s.cfg s.session.xferStyle (readRoute s.cfg 0x31).1 s.session.checksumEnabled
        (talk defaultParams .singleRead false reply) ++ [] :=
  by
  have h : (readRoute defaultParams 0x31).1 = .singleRead := by decide +kernel
  exact ⟨params_default, h, by rw [show (served false false .separate [.singleRead] []).cfg = defaultParams from rfl, h]; exact answers_default _ _ _,
    by rw [show (served false false .separate [.singleRead] []).cfg = defaultParams from rfl, h]; rfl⟩

theorem witness_WriteRegisterCompletes_atThreshold :
    let s := served true false .combined [.internalWrite] []
    paramsWf s.cfg = true ∧ (writeRoute s.cfg 0x30).1 = .internalWrite ∧
      Answers s.cfg s.session.xferStyle s.session.checksumEnabled (writeRoute s.cfg 0x30).1 reply (talk defaultParams .internalWrite true reply) ∧
      s.answers = exchangeAnswers s.cfg s.session.xferStyle (writeRoute s.cfg 0x30).1 s.session.checksumEnabled
        (talk defaultParams .internalWrite true reply) ++ [] :=
  by
  have h : (writeRoute defaultParams 0x30).1 = .internalWrite := by decide +kernel
  exact ⟨params_default, h, by rw [show (served true false .combined [.internalWrite] []).cfg = defaultParams from rfl, h]; exact answers_default _ _ _,
    by rw [show (served true false .combined [.internalWrite] []).cfg = defaultParams from rfl, h]; rfl⟩

theorem witness_WriteRegisterCompletes_aboveThreshold :
    let s := served false false .separate [.singleWrite] []
    paramsWf s.cfg = true ∧ (writeRoute s.cfg 0x31).1 = .singleWrite ∧
      Answers s.cfg s.session.xferStyle s.session.checksumEnabled (writeRoute s.cfg 0x31).1 reply (talk defaultParams .singleWrite false reply) ∧
      s.answers = exchangeAnswers s.cfg s.session.xferStyle (writeRoute s.cfg 0x31).1 s.session.checksumEnabled
        (talk defaultParams .singleWrite false reply) ++ [] :=
  by
  have h : (writeRoute defaultParams 0x31).1 = .singleWrite := by decide +kernel
  exact ⟨params_default, h, by rw [show (served false false .separate [.singleWrite] []).cfg = defaultParams from rfl, h]; exact answers_default _ _ _,
    by rw [show (served false false .separate [.singleWrite] []).cfg = defaultParams from rfl, h]; rfl⟩

theorem witness_BusResetIsOneAttempt :
    let s := served true false .combined [.reset] []
    paramsWf s.cfg = true ∧
      Answers s.cfg s.session.xferStyle s.session.checksumEnabled .reset reply (talk defaultParams .reset true reply) ∧
      s.answers = exchangeAnswers s.cfg s.session.xferStyle .reset s.session.checksumEnabled
        (talk defaultParams .reset true reply) ++ [] :=
  ⟨params_default, answers_default _ _ _, rfl⟩

theorem witness_BusResetIsOneAttempt_dead :
    let s := start true false .combined [bad]
    paramsWf s.cfg = true ∧ s.answers = { ok := false, bytes := [] } :: [] :=
  ⟨params_default, rfl⟩

/-- A peer that answers a command with the byte `st` where the idle status belongs. -/
def nackTalk (k : Cmd) (ck : Bool) (st : Byte) : Talk :=
  { junk := zeros (frameLen defaultParams k ck)
    fields := (if classOf k = .resetClass then [[0]] else []) ++ [[opcOf defaultParams.opc k], [st]]
    extra := zeros 20 }

theorem nacks_default (style : XferStyle) (ck : Bool) (k : Cmd) : Nacks defaultParams style ck k 0 0x01 (nackTalk k ck 0x01) :=
  ⟨by decide +kernel, rfl, fun _ => by cases ck <;> cases k <;> decide +kernel⟩

theorem witness_BusResetIsOneAttempt_nacked :
    let s := start true false .combined (exchangeAnswers defaultParams .combined .reset true (nackTalk .reset true 0x01) ++ [bad])
    paramsWf s.cfg = true ∧
      (Nacks s.cfg s.session.xferStyle s.session.checksumEnabled .reset 0 0x01 (nackTalk .reset true 0x01) ∧
        Cause.badStatus = .badStatus) ∧
      s.answers = exchangeAnswers s.cfg s.session.xferStyle .reset s.session.checksumEnabled (nackTalk .reset true 0x01) ++ [bad] :=
  ⟨params_default, ⟨nacks_default _ _ _, rfl⟩, rfl⟩

theorem witness_BusResetIsOneAttempt_misechoed :
    let x : Talk := { junk := zeros 5, fields := [[0x55], [0xCA]], extra := zeros 1 }
    let s := start true false .combined (exchangeAnswers defaultParams .combined .reset true x ++ [bad])
    paramsWf s.cfg = true ∧
      (Misechoes s.cfg s.session.xferStyle s.session.checksumEnabled .reset 0x55 0xCA x ∧
        Cause.commandEchoMismatch = .commandEchoMismatch) ∧
      s.answers = exchangeAnswers s.cfg s.session.xferStyle .reset s.session.checksumEnabled x ++ [bad] :=
  ⟨params_default, ⟨⟨by decide +kernel, rfl, fun _ => by decide +kernel⟩, rfl⟩, rfl⟩

theorem witness_BusResetIsOneAttempt_any :
    ∃ (t : State) (ev : List Event), paramsWf (start true false .combined [bad]).cfg = true ∧
      exec .rstbus (start true false .combined [bad]) = .next t ∧ t.trace = (start true false .combined [bad]).trace ++ ev :=
  ⟨_, _, params_default, rfl, (List.nil_append _).symm⟩

theorem witness_BulkWriteSendsEveryPiece :
    let s := { served true false .combined [.dmaExtWrite] [ok [], ok [], bad] with
      session := { State.reset.session with chunkSize := .c256 } }
    paramsWf s.cfg = true ∧ bulkRejected s.cfg 257 = false ∧
      Answers s.cfg s.session.xferStyle s.session.checksumEnabled .dmaExtWrite reply (talk defaultParams .dmaExtWrite true reply) ∧
      [([] : List Byte), []].length = (segments (257 : Word).toNat (chunkBytes s.cfg.chunkSizes s.session.chunkSize)).length ∧
      s.answers = exchangeAnswers s.cfg s.session.xferStyle .dmaExtWrite s.session.checksumEnabled
        (talk defaultParams .dmaExtWrite true reply) ++ ([([] : List Byte), []].map fun b => { ok := true, bytes := b }) ++ [bad] :=
  ⟨params_default, by decide +kernel, answers_default _ _ _, by decide +kernel, rfl⟩

/-- The pieces of a bulk read of 257 bytes with chunks of 256. -/
def pieces : Reply × Reply :=
  ({ reply with payload := List.replicate 256 0x11 }, { reply with payload := [0x22] })

/-- What the peer puts on the line for it. -/
def bulkTalk : Talk :=
  { junk := zeros 8, fields := bulkReadFields defaultParams true pieces.1 [pieces.2], extra := [] }

/-- The state in which it is read. -/
def bulkState (style : XferStyle) : State :=
  { start true false style (exchangeAnswers defaultParams style .dmaExtRead true bulkTalk ++ [bad]) with
    session := { State.reset.session with chunkSize := .c256, xferStyle := style } }

theorem witness_BulkReadFillsTheBuffer_combined :
    let s := bulkState .combined
    paramsWf s.cfg = true ∧ memWf s.mem = true ∧ bulkRejected s.cfg 257 = false ∧
      (pieces.1 :: [pieces.2]).map (fun c => c.payload.length) =
        (segments (257 : Word).toNat (chunkBytes s.cfg.chunkSizes s.session.chunkSize)).map (fun p => p.2) ∧
      (∀ c ∈ pieces.1 :: [pieces.2], c.Good s.cfg c.payload.length) ∧
      bulkTalk.fields = bulkReadFields s.cfg s.session.checksumEnabled pieces.1 [pieces.2] ∧
      bulkTalk.Fits s.cfg s.session.xferStyle .dmaExtRead s.session.checksumEnabled
        (replyFields s.cfg .dmaExtRead s.session.checksumEnabled pieces.1).flatten.length ∧
      s.answers = exchangeAnswers s.cfg s.session.xferStyle .dmaExtRead s.session.checksumEnabled bulkTalk ++ [bad] :=
  ⟨params_default, rfl, by decide +kernel, by decide +kernel, by
    intro c hc
    simp only [List.mem_cons, List.not_mem_nil, or_false] at hc
    rcases hc with rfl | rfl
    · exact ⟨by decide +kernel, by decide +kernel, by decide +kernel, rfl, rfl⟩
    · exact ⟨by decide +kernel, by decide +kernel, by decide +kernel, rfl, rfl⟩, rfl, fun _ => by decide +kernel, rfl⟩

theorem witness_BulkReadFillsTheBuffer_separate :
    let s := bulkState .separate
    paramsWf s.cfg = true ∧ memWf s.mem = true ∧ bulkRejected s.cfg 257 = false ∧
      (pieces.1 :: [pieces.2]).map (fun c => c.payload.length) =
        (segments (257 : Word).toNat (chunkBytes s.cfg.chunkSizes s.session.chunkSize)).map (fun p => p.2) ∧
      (∀ c ∈ pieces.1 :: [pieces.2], c.Good s.cfg c.payload.length) ∧
      bulkTalk.fields = bulkReadFields s.cfg s.session.checksumEnabled pieces.1 [pieces.2] ∧
      bulkTalk.Fits s.cfg s.session.xferStyle .dmaExtRead s.session.checksumEnabled
        (replyFields s.cfg .dmaExtRead s.session.checksumEnabled pieces.1).flatten.length ∧
      s.answers = exchangeAnswers s.cfg s.session.xferStyle .dmaExtRead s.session.checksumEnabled bulkTalk ++ [bad] :=
  ⟨params_default, rfl, by decide +kernel, by decide +kernel, by
    intro c hc
    simp only [List.mem_cons, List.not_mem_nil, or_false] at hc
    rcases hc with rfl | rfl
    · exact ⟨by decide +kernel, by decide +kernel, by decide +kernel, rfl, rfl⟩
    · exact ⟨by decide +kernel, by decide +kernel, by decide +kernel, rfl, rfl⟩, rfl, fun _ => by decide +kernel, rfl⟩

/-- `platform`, with a good peer for the commands given. -/
def servedPlatform (ks : List Cmd) : State :=
  platform 2 ((ks.map fun k => exchangeAnswers defaultParams .combined k false (talk defaultParams k false reply)).flatten)

theorem params_platform : paramsWf (servedPlatform []).cfg = true := by decide +kernel

theorem answers_platform (k : Cmd) :
    Answers (servedPlatform []).cfg .combined false k reply (talk defaultParams k false reply) :=
  ⟨⟨by decide +kernel, by decide +kernel, by decide +kernel, rfl, rfl⟩, by cases k <;> rfl, fun _ => by cases k <;> decide +kernel⟩

theorem route_platform : (readRoute (servedPlatform []).cfg 0x2000).1 = .singleRead ∧
    (writeRoute (servedPlatform []).cfg 0x20).1 = .internalWrite ∧ (readRoute (servedPlatform []).cfg 0x2004).1 = .singleRead ∧
    (readRoute (servedPlatform []).cfg 0x2008).1 = .singleRead ∧ (writeRoute (servedPlatform []).cfg 0x2008).1 = .singleWrite := by
  decide +kernel

theorem witness_PendingReadAndInterruptClearComplete_rdpend :
    let s := servedPlatform [.singleRead]
    paramsWf s.cfg = true ∧ s.cfg.pendingSizeAddr = some 0x2000 ∧
      Answers s.cfg s.session.xferStyle s.session.checksumEnabled (readRoute s.cfg 0x2000).1 reply (talk defaultParams .singleRead false reply) ∧
      s.answers = exchangeAnswers s.cfg s.session.xferStyle (readRoute s.cfg 0x2000).1 s.session.checksumEnabled
        (talk defaultParams .singleRead false reply) ++ [] :=
  by
  have h : (readRoute (servedPlatform [.singleRead]).cfg 0x2000).1 = .singleRead := route_platform.1
  refine ⟨params_platform, rfl, by rw [h]; exact answers_platform _, by rw [h]; rfl⟩

theorem witness_PendingReadAndInterruptClearComplete_clrint :
    let s := servedPlatform [.internalWrite]
    paramsWf s.cfg = true ∧ s.cfg.intClearAddr = some 0x20 ∧
      Answers s.cfg s.session.xferStyle s.session.checksumEnabled (writeRoute s.cfg 0x20).1 reply (talk defaultParams .internalWrite false reply) ∧
      s.answers = exchangeAnswers s.cfg s.session.xferStyle (writeRoute s.cfg 0x20).1 s.session.checksumEnabled
        (talk defaultParams .internalWrite false reply) ++ [] :=
  by
  have h : (writeRoute (servedPlatform [.internalWrite]).cfg 0x20).1 = .internalWrite := route_platform.2.1
  refine ⟨params_platform, rfl, by rw [h]; exact answers_platform _, by rw [h]; rfl⟩

/-- A reply whose interrupt lines show line 2, and one that shows lines below it. -/
def lineReply (unexpected : Bool) : Reply × Talk :=
  let r := { reply with payload := [0x10, 0x00, if unexpected then 0x04 else 0x02, 0xB0] }
  (r, talk defaultParams .singleRead false r)

/-- `platform` with two lines, and a peer that answers one read with each of the replies. -/
def linesPlatform (l : List Bool) : State :=
  platform 2 (runAnswers defaultParams .combined .singleRead false (l.map lineReply))

theorem lines_platform (u : Bool) :
    Answers (linesPlatform []).cfg .combined false (readRoute (linesPlatform []).cfg 0x2004).1 (lineReply u).1 (lineReply u).2 := by
  have h : (readRoute (linesPlatform []).cfg 0x2004).1 = .singleRead := route_platform.2.2.1
  rw [h]
  cases u <;>
    exact ⟨⟨by decide +kernel, by decide +kernel, by decide +kernel, rfl, rfl⟩, rfl, fun _ => by decide +kernel⟩

/-- The hypotheses of InterruptReadCompletes: the reads `l` show line 2, and one more read follows. -/
def LinesMet (l : List Bool) (u : Bool) : Prop :=
  let s := linesPlatform (l ++ [u])
  let c : IntStatus := { addr := 0x2004, linesLsb := 8 }
  paramsWf s.cfg = true ∧ s.cfg.intStatus = some c ∧ (l.map lineReply).length < s.cfg.maxRetry ∧
    (∀ p ∈ l.map lineReply, Answers s.cfg s.session.xferStyle s.session.checksumEnabled (readRoute s.cfg c.addr).1 p.1 p.2 ∧
      intLinesField c (payloadValue s.cfg.rdPayloadOrder p.1.payload) >>> s.session.interruptLineCount.toNat ≠ 0) ∧
    Answers s.cfg s.session.xferStyle s.session.checksumEnabled (readRoute s.cfg c.addr).1 (lineReply u).1 (lineReply u).2 ∧
    s.answers = runAnswers s.cfg s.session.xferStyle (readRoute s.cfg c.addr).1 s.session.checksumEnabled
      (l.map lineReply ++ [((lineReply u).1, (lineReply u).2)]) ++ []

theorem lines_shown :
    intLinesField { addr := 0x2004, linesLsb := 8 } (payloadValue .bigEndian (lineReply true).1.payload) >>> 2 ≠ 0 ∧
      intLinesField { addr := 0x2004, linesLsb := 8 } (payloadValue .bigEndian (lineReply false).1.payload) >>> 2 = 0 := by
  decide +kernel

theorem lines_met {l : List Bool} (u : Bool) (h : ∀ b ∈ l, b = true) (hl : l.length < 3) : LinesMet l u := by
  refine ⟨params_platform, rfl, by rw [List.length_map]; exact hl, ?_, lines_platform u, ?_⟩
  · intro p hp
    obtain ⟨b, hb, rfl⟩ := List.mem_map.1 hp
    rw [h b hb]
    exact ⟨lines_platform true, lines_shown.1⟩
  · have hr : (readRoute (linesPlatform (l ++ [u])).cfg 0x2004).1 = .singleRead := route_platform.2.2.1
    rw [hr, List.append_nil]
    simp only [linesPlatform, List.map_append, List.map_cons, List.map_nil]
    rfl

theorem witness_InterruptReadCompletes_first :
    LinesMet [] false ∧
      intLinesField { addr := 0x2004, linesLsb := 8 } (payloadValue .bigEndian (lineReply false).1.payload) >>> 2 = 0 :=
  ⟨lines_met false (by simp) (by decide), lines_shown.2⟩

theorem witness_InterruptReadCompletes_third :
    LinesMet [true, true] false ∧
      intLinesField { addr := 0x2004, linesLsb := 8 } (payloadValue .bigEndian (lineReply false).1.payload) >>> 2 = 0 :=
  ⟨lines_met false (by simp) (by decide), lines_shown.2⟩

theorem witness_InterruptReadCompletes_capped :
    LinesMet [true, true] true ∧ ([true, true].map lineReply).length + 1 = (linesPlatform [true, true, true]).cfg.maxRetry ∧
      intLinesField { addr := 0x2004, linesLsb := 8 } (payloadValue .bigEndian (lineReply true).1.payload) >>> 2 ≠ 0 :=
  ⟨lines_met true (by simp) (by decide), rfl, lines_shown.1⟩

theorem witness_InterruptReadIsCapped :
    ∃ (t : State) (ev : List Event), paramsWf (servedPlatform [.singleRead]).cfg = true ∧
      (servedPlatform [.singleRead]).cfg.intStatus = some { addr := 0x2004, linesLsb := 8 } ∧
      exec .rdint (servedPlatform [.singleRead]) = .next t ∧ t.trace = (servedPlatform [.singleRead]).trace ++ ev :=
  ⟨_, _, params_platform, rfl, rfl, (List.nil_append _).symm⟩

theorem witness_SynchronizeCompletes :
    let s := servedPlatform [.singleRead, .singleWrite]
    paramsWf s.cfg = true ∧ s.cfg.intEnable = some { addr := 0x2008, mask := 0xFF, codes := [0, 1, 3, 7, 15, 31, 63, 127, 255] } ∧
      (8 : Word).toNat ≤ s.cfg.intLinesMax ∧
      Answers s.cfg s.session.xferStyle s.session.checksumEnabled (readRoute s.cfg 0x2008).1 reply (talk defaultParams .singleRead false reply) ∧
      Answers s.cfg s.session.xferStyle s.session.checksumEnabled (writeRoute s.cfg 0x2008).1 reply (talk defaultParams .singleWrite false reply) ∧
      s.answers = exchangeAnswers s.cfg s.session.xferStyle (readRoute s.cfg 0x2008).1 s.session.checksumEnabled (talk defaultParams .singleRead false reply) ++
        exchangeAnswers s.cfg s.session.xferStyle (writeRoute s.cfg 0x2008).1 s.session.checksumEnabled (talk defaultParams .singleWrite false reply) ++ [] :=
  by
  have h1 : (readRoute (servedPlatform [.singleRead, .singleWrite]).cfg 0x2008).1 = .singleRead := route_platform.2.2.2.1
  have h2 : (writeRoute (servedPlatform [.singleRead, .singleWrite]).cfg 0x2008).1 = .singleWrite := route_platform.2.2.2.2
  refine ⟨params_platform, rfl, by decide +kernel, by rw [h1]; exact answers_platform _, by rw [h2]; exact answers_platform _, by rw [h1, h2]; rfl⟩

/-- The answers of a good peer to a first negotiation: three accesses with the checksum byte, the identity read without. -/
def negotiationAnswers : List Answer :=
  exchangeAnswers defaultParams .combined .internalRead true (talk defaultParams .internalRead true reply) ++
    exchangeAnswers defaultParams .combined .internalRead true (talk defaultParams .internalRead true reply) ++
    exchangeAnswers defaultParams .combined .internalWrite true (talk defaultParams .internalWrite true reply) ++
    exchangeAnswers defaultParams .combined .singleRead false (talk defaultParams .singleRead false reply) ++ [bad]

theorem chipRoute : (readRoute defaultParams defaultParams.chipIdAddr).1 = .singleRead := by decide +kernel

theorem witness_NegotiationSucceeds :
    let s := start true false .combined negotiationAnswers
    paramsWf s.cfg = true ∧ s.session.negotiated = false ∧
      Answers s.cfg s.session.xferStyle true .internalRead reply (talk defaultParams .internalRead true reply) ∧
      Answers s.cfg s.session.xferStyle true .internalWrite reply (talk defaultParams .internalWrite true reply) ∧
      Answers s.cfg s.session.xferStyle false (readRoute s.cfg s.cfg.chipIdAddr).1 reply (talk defaultParams .singleRead false reply) ∧
      chipIdAccepts s.cfg.chipIdOk (payloadValue s.cfg.rdPayloadOrder reply.payload) = true ∧
      s.answers =
        exchangeAnswers s.cfg s.session.xferStyle .internalRead true (talk defaultParams .internalRead true reply) ++
          exchangeAnswers s.cfg s.session.xferStyle .internalRead true (talk defaultParams .internalRead true reply) ++
          exchangeAnswers s.cfg s.session.xferStyle .internalWrite true (talk defaultParams .internalWrite true reply) ++
          exchangeAnswers s.cfg s.session.xferStyle (readRoute s.cfg s.cfg.chipIdAddr).1 false (talk defaultParams .singleRead false reply) ++
          [bad] :=
  by
  have h : (readRoute (start true false .combined negotiationAnswers).cfg (start true false .combined negotiationAnswers).cfg.chipIdAddr).1 = .singleRead :=
    chipRoute
  refine ⟨params_default, rfl, answers_default _ _ _, answers_default _ _ _, by rw [h]; exact answers_default _ _ _, by decide +kernel,
    by rw [h]; rfl⟩

/-- One NACKed attempt of an internal read, and its bus reset. -/
def nackedAttempt : NackedAttempt :=
  { status := 0x01, command := nackTalk .internalRead true 0x01, resetReply := reply
    reset := talk defaultParams .reset true reply }

/-- A peer left without checksums by an earlier session, one attempt allowed. -/
def fallback : State :=
  { start true false .combined
      (nackedAnswers defaultParams .combined true .internalRead [nackedAttempt, nackedAttempt] ++
        exchangeAnswers defaultParams .combined .internalRead false (talk defaultParams .internalRead false reply) ++
        exchangeAnswers defaultParams .combined .singleRead false (talk defaultParams .singleRead false reply) ++ [bad]) with
    cfg := { defaultParams with maxRetry := 1 } }

theorem witness_NegotiationSucceeds_fallback :
    paramsWf fallback.cfg = true ∧ fallback.session.negotiated = false ∧ [nackedAttempt].length = fallback.cfg.maxRetry ∧
      (∀ a ∈ [nackedAttempt] ++ [nackedAttempt], a.Legal fallback.cfg fallback.session.xferStyle true .internalRead) ∧
      Answers fallback.cfg fallback.session.xferStyle false .internalRead reply (talk defaultParams .internalRead false reply) ∧
      Answers fallback.cfg fallback.session.xferStyle false (readRoute fallback.cfg fallback.cfg.chipIdAddr).1 reply
        (talk defaultParams .singleRead false reply) ∧
      chipIdAccepts fallback.cfg.chipIdOk (payloadValue fallback.cfg.rdPayloadOrder reply.payload) = true ∧
      fallback.answers =
        nackedAnswers fallback.cfg fallback.session.xferStyle true .internalRead ([nackedAttempt] ++ [nackedAttempt]) ++
          exchangeAnswers fallback.cfg fallback.session.xferStyle .internalRead false (talk defaultParams .internalRead false reply) ++
          exchangeAnswers fallback.cfg fallback.session.xferStyle (readRoute fallback.cfg fallback.cfg.chipIdAddr).1 false
            (talk defaultParams .singleRead false reply) ++ [bad] := by
  have h : (readRoute fallback.cfg fallback.cfg.chipIdAddr).1 = .singleRead := by decide +kernel
  rw [h]
  exact ⟨by decide +kernel, rfl, rfl,
    fun a ha => by
      simp only [List.cons_append, List.nil_append, List.mem_cons, List.not_mem_nil, or_false, or_self] at ha
      subst ha
      exact ⟨⟨by decide +kernel, rfl, fun _ => by decide +kernel⟩,
        ⟨⟨by decide +kernel, by decide +kernel, by decide +kernel, rfl, rfl⟩, rfl, fun _ => by decide +kernel⟩⟩,
    ⟨⟨by decide +kernel, by decide +kernel, by decide +kernel, rfl, rfl⟩, rfl, fun _ => by decide +kernel⟩,
    ⟨⟨by decide +kernel, by decide +kernel, by decide +kernel, rfl, rfl⟩, rfl, fun _ => by decide +kernel⟩, by decide +kernel, rfl⟩

theorem witness_NegotiatingAgainProbes :
    let s := served false true .combined [.singleRead] [bad]
    paramsWf s.cfg = true ∧ s.session.negotiated = true ∧
      Answers s.cfg s.session.xferStyle s.session.checksumEnabled (readRoute s.cfg s.cfg.chipIdAddr).1 reply (talk defaultParams .singleRead false reply) ∧
      s.answers = exchangeAnswers s.cfg s.session.xferStyle (readRoute s.cfg s.cfg.chipIdAddr).1 s.session.checksumEnabled
        (talk defaultParams .singleRead false reply) ++ [bad] :=
  by
  have h : (readRoute (served false true .combined [.singleRead] [bad]).cfg (served false true .combined [.singleRead] [bad]).cfg.chipIdAddr).1 = .singleRead :=
    chipRoute
  refine ⟨params_default, rfl, by rw [h]; exact answers_default _ _ _, by rw [h]; rfl⟩

theorem witness_BulkLengthIsAdmittedOrRejected :
    State.reset.cfg.bulkMin = 5 ∧ ((4 : Word).toNat ≤ 4 ∨ 0xFFFFFF < (4 : Word).toNat) ∧
      ((0x1000000 : Word).toNat ≤ 4 ∨ 0xFFFFFF < (0x1000000 : Word).toNat) ∧
      (5 ≤ (5 : Word).toNat ∧ (5 : Word).toNat ≤ 0xFFFFFF) ∧ 5 ≤ (0xFFFFFF : Word).toNat ∧ (0xFFFFFF : Word).toNat ≤ 0xFFFFFF :=
  by decide +kernel

theorem witness_SurroundingOperationsAreRejected :
    State.reset.cfg.intLinesMax = 8 ∧ 8 < (9 : Word).toNat ∧ State.reset.cfg.intEnable = none ∧ State.reset.cfg.pendingSizeAddr = none ∧
      State.reset.cfg.intStatus = none ∧ State.reset.cfg.intClearAddr = none :=
  ⟨rfl, by decide +kernel, rfl, rfl, rfl, rfl⟩

theorem witness_WireCommandFrame :
    ∃ t : State, wireOperands (.dmaExtRead 0x1000 5) = some (.dmaExtRead, 0x1000, 0, 5, false) ∧
      exec (.dmaExtRead 0x1000 5) (served true false .combined [.dmaExtRead] []) = .next t ∧
      paramsWf (served true false .combined [.dmaExtRead] []).cfg = true ∧ classOf .dmaExtRead ≠ .registerRead :=
  ⟨_, rfl, rfl, params_default, by decide +kernel⟩

theorem witness_WriteChunkFrame :
    ∃ t : State, (chunkOperands (.dataSingle [1, 2, 3, 4, 5])).isSome = true ∧
      exec (.dataSingle [1, 2, 3, 4, 5]) (start true false .combined [ok []]) = .next t :=
  ⟨_, rfl, rfl⟩

theorem witness_RegisterOperationFrame :
    ∃ t : State, exec (.rdreg 0x1000) (served true false .combined [.singleRead] []) = .next t ∧
      ((∃ a, Instr.rdreg 0x1000 = .rdreg a) ∨ (∃ a v, Instr.rdreg 0x1000 = .wrreg a v) ∨ Instr.rdreg 0x1000 = .rdpend ∨
        Instr.rdreg 0x1000 = .rdint ∨ (∃ v, Instr.rdreg 0x1000 = .clrint v) ∨ Instr.rdreg 0x1000 = .rstbus) :=
  ⟨_, rfl, .inl ⟨_, rfl⟩⟩

theorem witness_NegotiationAndSynchronizeFrame :
    ∃ t u : State, exec .negotiate (start true false .combined negotiationAnswers) = .next t ∧
      (Instr.negotiate = .negotiate ∨ ∃ v, Instr.negotiate = .sync v) ∧
      exec (.sync 8) (servedPlatform [.singleRead, .singleWrite]) = .next u ∧ (Instr.sync 8 = .negotiate ∨ ∃ v, Instr.sync 8 = .sync v) :=
  ⟨_, _, rfl, .inl rfl, rfl, .inr ⟨_, rfl⟩⟩

theorem witness_NegotiationAndSynchronizeFrame_counts :
    ∃ t u : State, exec (.sync 8) (servedPlatform [.singleRead, .singleWrite]) = .next t ∧ t.compl.ok = true ∧
      exec (.sync 9) (servedPlatform []) = .next u ∧ u.compl.ok = false ∧ Instr.sync 9 ≠ .negotiate :=
  ⟨_, _, rfl, by decide +kernel, rfl, by decide +kernel, by decide +kernel⟩

theorem witness_BulkTransferFrame :
    ∃ t u : State, exec (.rdbulk 0x150400 257 7) (bulkState .separate) = .next t ∧
      exec (.wrbulk 0x150400 4 7) (start true false .combined []) = .next u ∧ bulkRejected (start true false .combined []).cfg 4 = true :=
  ⟨_, _, rfl, rfl, by decide +kernel⟩

theorem witness_OnlyNegotiationAndSynchronizeWriteTheSession :
    ∃ t : State, exec (.rdreg 0x1000) (served true false .combined [.singleRead] []) = .next t :=
  ⟨_, rfl⟩

theorem witness_AttemptsResetsAndDelaysAreCounted :
    ∃ (t : State) (ev : List Event), paramsWf (start true false .combined [bad]).cfg = true ∧
      wrapped (start true false .combined [bad]).cfg (.rdbulk 0x150400 5 7) = true ∧
      exec (.rdbulk 0x150400 5 7) (start true false .combined [bad]) = .next t ∧ t.trace = (start true false .combined [bad]).trace ++ ev :=
  ⟨_, _, params_default, by decide +kernel, rfl, (List.nil_append _).symm⟩

/-- A transport that is dead for two attempts and their resets, with two attempts allowed. -/
def dead : State :=
  { start true false .combined [bad, bad, bad, bad] with cfg := { defaultParams with maxRetry := 2 } }

theorem params_dead : paramsWf dead.cfg = true := by decide +kernel

/-- The completion of an operation that ended in a next state. -/
def completed (o : Host.Outcome State Fault Refusal) : Option Completion :=
  match o with
  | .next t => some t.compl
  | .fault _ | .refused _ => none

theorem witness_FailureReportsTheLastError :
    ∃ (op : Eng Word) (t : State) (ev : List Event), paramsWf dead.cfg = true ∧ wrapped dead.cfg (.rdreg 0x1000) = true ∧
      attemptOf dead.cfg (.rdreg 0x1000) = some op ∧ exec (.rdreg 0x1000) dead = .next t ∧ t.trace = dead.trace ++ ev ∧
      t.compl.ok = false :=
  ⟨_, _, _, params_dead, rfl, rfl, rfl, (List.nil_append _).symm, by decide +kernel⟩

/-- Two attempts allowed: the first finds a dead transport, the second is NACKed; the bus resets are answered well. -/
def differing : State :=
  { start true false .combined
      (bad :: (exchangeAnswers defaultParams .combined .reset true (talk defaultParams .reset true reply) ++
        exchangeAnswers defaultParams .combined .singleRead true (nackTalk .singleRead true 0x01) ++
        exchangeAnswers defaultParams .combined .reset true (talk defaultParams .reset true reply))) with
    cfg := { defaultParams with maxRetry := 2 } }

theorem test_exec_R267_lastError : completed (exec (.rdreg 0x1000) differing) = some (failedWith .badStatus) := by
  decide +kernel

theorem witness_RecoveryIsDelayResetDelay :
    ∃ ev : List Event, paramsWf dead.cfg = true ∧ (recover dead).trace = dead.trace ++ ev :=
  ⟨_, params_dead, (List.nil_append _).symm⟩

theorem witness_DeadTransportExhaustsTheBudget :
    paramsWf dead.cfg = true ∧ ([[], [], [], []] : List (List Byte)).length = 2 * dead.cfg.maxRetry ∧
      dead.answers = (([[], [], [], []] : List (List Byte)).map fun b => { ok := false, bytes := b }) ++ [] :=
  ⟨params_dead, rfl, rfl⟩

theorem witness_SecondAttemptSucceeds :
    let s := { served true false .combined [.reset, .singleWrite] [] with
      answers := { ok := false, bytes := [] } :: (served true false .combined [.reset, .singleWrite] []).answers }
    paramsWf s.cfg = true ∧ 2 ≤ s.cfg.maxRetry ∧
      Answers s.cfg s.session.xferStyle s.session.checksumEnabled .reset reply (talk defaultParams .reset true reply) ∧
      Answers s.cfg s.session.xferStyle s.session.checksumEnabled (writeRoute s.cfg 0x31).1 reply (talk defaultParams .singleWrite true reply) ∧
      s.answers = { ok := false, bytes := [] } ::
        (exchangeAnswers s.cfg s.session.xferStyle .reset s.session.checksumEnabled (talk defaultParams .reset true reply) ++
          exchangeAnswers s.cfg s.session.xferStyle (writeRoute s.cfg 0x31).1 s.session.checksumEnabled (talk defaultParams .singleWrite true reply) ++ []) :=
  by
  have h : (writeRoute defaultParams 0x31).1 = .singleWrite := by decide +kernel
  refine ⟨params_default, by decide +kernel, answers_default _ _ _, ?_, ?_⟩
  · change Answers defaultParams _ _ (writeRoute defaultParams 0x31).1 _ _
    rw [h]; exact answers_default _ _ _
  · change _ = _ :: (_ ++ exchangeAnswers defaultParams _ (writeRoute defaultParams 0x31).1 _ _ ++ [])
    rw [h]; rfl

/-- A good peer for a write and a read of one register, which answers the read with the bytes written. -/
def echoing : State :=
  start true false .combined
    (exchangeAnswers defaultParams .combined .singleWrite true (talk defaultParams .singleWrite true reply) ++
      exchangeAnswers defaultParams .combined .singleRead true
        (talk defaultParams .singleRead true { reply with payload := be32 0xDEADBEEF }) ++ [])

theorem witness_WriteThenReadReturnsTheValue :
    ∃ t : State, paramsWf echoing.cfg = true ∧ echoing.cfg.rdPayloadOrder = .bigEndian ∧
      Answers echoing.cfg echoing.session.xferStyle echoing.session.checksumEnabled (writeRoute echoing.cfg 0x31).1 reply
        (talk defaultParams .singleWrite true reply) ∧
      Answers echoing.cfg echoing.session.xferStyle echoing.session.checksumEnabled (readRoute echoing.cfg 0x31).1
        { reply with payload := be32 0xDEADBEEF } (talk defaultParams .singleRead true { reply with payload := be32 0xDEADBEEF }) ∧
      echoing.answers =
        exchangeAnswers echoing.cfg echoing.session.xferStyle (writeRoute echoing.cfg 0x31).1 echoing.session.checksumEnabled
            (talk defaultParams .singleWrite true reply) ++
          exchangeAnswers echoing.cfg echoing.session.xferStyle (readRoute echoing.cfg 0x31).1 echoing.session.checksumEnabled
            (talk defaultParams .singleRead true { reply with payload := be32 0xDEADBEEF }) ++ [] ∧
      exec (.wrreg 0x31 0xDEADBEEF) echoing = .next t :=
  by
  have h1 : (writeRoute echoing.cfg 0x31).1 = .singleWrite := by decide +kernel
  have h2 : (readRoute echoing.cfg 0x31).1 = .singleRead := by decide +kernel
  rw [h1, h2]
  exact ⟨_, params_default, rfl, answers_default _ _ _,
    ⟨⟨by decide +kernel, by decide +kernel, by decide +kernel, rfl, rfl⟩, rfl, fun _ => by decide +kernel⟩, rfl, rfl⟩

/-- A write of 257 bytes whose second chunk the transport does not take (vector B9). -/
def writeFails : State :=
  { start true false .combined
      (exchangeAnswers defaultParams .combined .dmaExtWrite true (talk defaultParams .dmaExtWrite true reply) ++
        ([([] : List Byte)].map fun b => { ok := true, bytes := b }) ++ bad :: [bad]) with
    session := { State.reset.session with chunkSize := .c256 }, req := { op := 4, addr := 0x150400, wdata := 0, len := 257, buf := 7 } }

theorem witness_FailedChunkEndsTheAttempt_write :
    paramsWf writeFails.cfg = true ∧ bulkRejected writeFails.cfg writeFails.req.len = false ∧
      Answers writeFails.cfg writeFails.session.xferStyle writeFails.session.checksumEnabled .dmaExtWrite reply
        (talk defaultParams .dmaExtWrite true reply) ∧
      (segments writeFails.req.len.toNat (chunkBytes writeFails.cfg.chunkSizes writeFails.session.chunkSize))[[([] : List Byte)].length]? = some (256, 1) ∧
      writeFails.answers = exchangeAnswers writeFails.cfg writeFails.session.xferStyle .dmaExtWrite
          writeFails.session.checksumEnabled (talk defaultParams .dmaExtWrite true reply) ++
        ([([] : List Byte)].map fun b => { ok := true, bytes := b }) ++ { ok := false, bytes := [] } :: [bad] :=
  ⟨params_default, by decide +kernel, answers_default _ _ _, by decide +kernel, rfl⟩

/-- A failed call in one attempt: its event is the last. -/
theorem witness_FailedChunkEndsTheAttempt_any :
    ∃ (t : State) (r : Res Word) (e : Event),
      writeBulkOnce { writeFails with answers := [bad] } = (r, t) ∧ t.trace = writeFails.trace ++ ([] ++ e :: []) ∧
      failedCall e = true :=
  ⟨_, _, _, rfl, rfl, rfl⟩

/-- What the peer puts on the line for a read of 257 bytes whose second chunk has no sentinel (vector B8). -/
def lostTalk : Talk :=
  { bulkTalk with fields := bulkReadFields defaultParams true pieces.1 [] ++ (zeros 10).map fun w => [w] }

/-- What it puts on the line when nothing comes after the first chunk. -/
def cutTalk : Talk :=
  { bulkTalk with fields := bulkReadFields defaultParams true pieces.1 [] }

/-- A read of 257 bytes with the answers given. -/
def readFails (answers : List Answer) : State :=
  { start true false .combined answers with
    session := { State.reset.session with chunkSize := .c256 }, req := { op := 3, addr := 0x150400, wdata := 0, len := 257, buf := 7 } }

theorem witness_FailedChunkEndsTheAttempt_read :
    let s := readFails (exchangeAnswers defaultParams .combined .dmaExtRead true lostTalk ++ [bad])
    paramsWf s.cfg = true ∧ bulkRejected s.cfg s.req.len = false ∧
      ([] : List Reply).length + 1 < (segments s.req.len.toNat (chunkBytes s.cfg.chunkSizes s.session.chunkSize)).length ∧
      [pieces.1].map (fun c => c.payload.length) =
        ((segments s.req.len.toNat (chunkBytes s.cfg.chunkSizes s.session.chunkSize)).take (([] : List Reply).length + 1)).map (fun p => p.2) ∧
      (∀ c ∈ [pieces.1], c.Good s.cfg c.payload.length) ∧
      lostTalk.Fits s.cfg s.session.xferStyle .dmaExtRead s.session.checksumEnabled
        (replyFields s.cfg .dmaExtRead s.session.checksumEnabled pieces.1).flatten.length ∧
      cutTalk.Fits s.cfg s.session.xferStyle .dmaExtRead s.session.checksumEnabled
        (replyFields s.cfg .dmaExtRead s.session.checksumEnabled pieces.1).flatten.length ∧
      (zeros 10).length = s.cfg.scanBudget ∧ (∀ w ∈ zeros 10, isSentinel s.cfg w = false) ∧
      lostTalk.fields = bulkReadFields s.cfg s.session.checksumEnabled pieces.1 [] ++ (zeros 10).map (fun w => [w]) ∧
      s.answers = exchangeAnswers s.cfg s.session.xferStyle .dmaExtRead s.session.checksumEnabled lostTalk ++ [bad] ∧
      cutTalk.extra = [] ∧ cutTalk.fields = bulkReadFields s.cfg s.session.checksumEnabled pieces.1 [] ∧
      (readFails (exchangeAnswers defaultParams .combined .dmaExtRead true cutTalk ++ bad :: [bad])).answers =
        exchangeAnswers s.cfg s.session.xferStyle .dmaExtRead s.session.checksumEnabled cutTalk ++
          { ok := false, bytes := [] } :: [bad] :=
  ⟨params_default, by decide +kernel, by decide +kernel, by decide +kernel, by
    intro c hc
    simp only [List.mem_cons, List.not_mem_nil, or_false] at hc
    subst hc
    exact ⟨by decide +kernel, by decide +kernel, by decide +kernel, rfl, rfl⟩,
    fun _ => by decide +kernel, fun _ => by decide +kernel, rfl, by decide +kernel, rfl, rfl, rfl, rfl, rfl⟩

theorem witness_NegotiationLeavesTheSession :
    ∃ (t u : State) (ev ev' : List Event), paramsWf dead.cfg = true ∧ dead.ret = [] ∧ dead.session.negotiated = false ∧
      exec .negotiate dead = .next t ∧ t.trace = dead.trace ++ ev ∧ t.compl.ok = false ∧
      exec .negotiate (start true false .combined negotiationAnswers) = .next u ∧ u.compl.ok = true ∧
      u.trace = (start true false .combined negotiationAnswers).trace ++ ev' :=
  ⟨_, _, _, _, params_dead, rfl, rfl, rfl, (List.nil_append _).symm, by decide +kernel, rfl, by decide +kernel, (List.nil_append _).symm⟩

theorem witness_NegotiationWithoutAPeer :
    paramsWf dead.cfg = true ∧ dead.session.negotiated = false ∧
      ([[], [], [], []] : List (List Byte)).length = 2 * dead.cfg.maxRetry ∧
      dead.answers = (([[], [], [], []] : List (List Byte)).map fun b => { ok := false, bytes := b }) ++ [] :=
  ⟨params_dead, rfl, rfl, rfl⟩

theorem witness_CompletionErrorsAreTheAllowedOnes :
    ∃ t : State, paramsWf dead.cfg = true ∧ dead.cfg.pad = defaultPads dead.cfg.scanBudget ∧
      exec (.rdreg 0x1000) dead = .next t ∧ t.compl.ok = false :=
  ⟨_, params_dead, rfl, rfl, by decide +kernel⟩

theorem witness_HostOperationsSendSevenCommands :
    ∃ (t : State) (ev : List Event), paramsWf dead.cfg = true ∧ wireOperands (.rdreg 0x1000) = none ∧
      chunkOperands (.rdreg 0x1000) = none ∧ exec (.rdreg 0x1000) dead = .next t ∧ t.trace = dead.trace ++ ev :=
  ⟨_, _, params_dead, rfl, rfl, rfl, (List.nil_append _).symm⟩

theorem witness_NothingElseSurvivesAnOperation :
    let s' := { dead with dp := { dead.dp with cap := [1, 2], fetch := true }, retry := { attempt := 3, lastErr := .badStatus } }
    ∃ t t' : State, paramsWf dead.cfg = true ∧ wireOperands (.rdreg 0x1000) = none ∧ chunkOperands (.rdreg 0x1000) = none ∧
      s'.cfg = dead.cfg ∧ s'.session = dead.session ∧ s'.mem = dead.mem ∧ s'.answers = dead.answers ∧ s'.calls = dead.calls ∧
      s'.ret = dead.ret ∧ exec (.rdreg 0x1000) dead = .next t ∧ exec (.rdreg 0x1000) s' = .next t' :=
  ⟨_, _, params_dead, rfl, rfl, rfl, rfl, rfl, rfl, rfl, rfl, rfl, rfl⟩

end Sys2Proof.Tests
end

section
/-! The invariant (spec 10, `Inv`): it holds after reset, and every step keeps it. The argument is a triple over the
computations of the engine: what of the invariant holds during an operation (`OpInv`) is kept by every computation that
leaves the session alone, by negotiation and by `SYNC`, and a completion turns it into the invariant again. -/

namespace Sys2Proof.Machine

/-! ## Triples over computations -/

/-- From every state in `p` the computation ends in `q` with a value, or in `e` with an error. -/
def Ensures {α : Type} (p : State → Prop) (m : Eng α) (q e : State → Prop) : Prop :=
  ∀ s, p s → (∃ a t, m s = (.ok a, t) ∧ q t) ∨ ∃ c t, m s = (.err c, t) ∧ e t

section triples
variable {α β : Type} {p q r e : State → Prop}

theorem Ensures.pureE {a : α} (h : ∀ s, p s → q s) : Ensures p (pureE a) q e :=
  fun s hs => .inl ⟨a, s, rfl, h s hs⟩

theorem Ensures.raiseE {c : Cause} (h : ∀ s, p s → e s) : Ensures p (raiseE c : Eng α) q e :=
  fun s hs => .inr ⟨c, s, rfl, h s hs⟩

theorem Ensures.modify {f : State → State} (h : ∀ s, p s → q (f s)) : Ensures p (modifyE f) q e :=
  fun s hs => .inl ⟨(), f s, rfl, h s hs⟩

theorem Ensures.bindE {m : Eng α} {k : α → Eng β} (hm : Ensures p m r e) (hk : ∀ a, Ensures r (k a) q e) :
    Ensures p (bindE m k) q e := by
  intro s hs
  rcases hm s hs with ⟨a, t, h, ht⟩ | ⟨c, t, h, ht⟩
  · simpa only [Machine.bindE, h] using hk a t ht
  · exact .inr ⟨c, t, by simp only [Machine.bindE, h], ht⟩

/-- A caught computation has a value, whichever way it ended. -/
theorem Ensures.tryE {m : Eng α} (hm : Ensures p m q q) : Ensures p (tryE m) q e := by
  intro s hs
  rcases hm s hs with ⟨a, t, h, ht⟩ | ⟨c, t, h, ht⟩
  · exact .inl ⟨.ok a, t, by simp only [Machine.tryE, h], ht⟩
  · exact .inl ⟨.err c, t, by simp only [Machine.tryE, h], ht⟩

theorem Ensures.withE {f : State → Eng α} (h : ∀ s, Ensures p (f s) q e) : Ensures p (withE f) q e :=
  fun s hs => h s s hs

/-- A computation within a scope keeps what every change within the scope keeps. -/
theorem Ensures.of_obeys {w : Scope} {m : Eng α} (hm : Obeys w m) (hp : ∀ s t, Within w s t → p s → p t) :
    Ensures p m p p := by
  intro s hs
  have ht := hp s _ (hm s) hs
  rcases h : m s with ⟨a | c, t⟩
  · exact .inl ⟨a, t, rfl, by simpa only [h] using ht⟩
  · exact .inr ⟨c, t, rfl, by simpa only [h] using ht⟩

end triples

/-! ## The invariant during an operation -/

/-- The invariant without the completion registers and the sequencer, which an operation writes on its way. -/
structure OpInv (s : State) : Prop where
  params : paramsWf s.cfg = true
  chunk : s.session.chunkSize = s.cfg.chunkDefault
  style : s.session.xferStyle = s.cfg.xferStyle
  enhanced : s.session.enhancedThroughputMode = false
  lines : s.session.interruptLineCount.toNat ≤ s.cfg.intLinesMax
  mode : s.session.negotiated = true → s.session.checksumEnabled = false
  ret : s.ret = []
  mem : memWf s.mem = true

theorem Inv.opInv {s : State} (h : Inv s) : OpInv s :=
  { h with }

/-- What an operation may touch that is neither negotiation nor `SYNC`: all but the session (R27). -/
def Scope.sessionKept : Scope :=
  { retry := true, bulk := true, mem := true }

theorem OpInv.of_within {s t : State} (hw : Within .sessionKept s t) (h : OpInv s) : OpInv t where
  params := by rw [hw.cfg]; exact h.params
  chunk := by rw [hw.cfg, hw.chunkSize]; exact h.chunk
  style := by rw [hw.cfg, hw.xferStyle]; exact h.style
  enhanced := by rw [hw.enhanced]; exact h.enhanced
  lines := by rw [hw.cfg, hw.lines rfl]; exact h.lines
  mode := by rw [hw.negotiated rfl, hw.checksum rfl]; exact h.mode
  ret := by rw [hw.ret]; exact h.ret
  mem := hw.memWf h.mem

theorem OpInv.of_obeys {α : Type} {m : Eng α} (hm : Obeys .sessionKept m) : Ensures OpInv m OpInv OpInv :=
  Ensures.of_obeys hm fun _ _ => OpInv.of_within

/-- The request latches are no part of the invariant. -/
theorem OpInv.latch {s : State} (h : OpInv s) (r : Request) : OpInv { s with req := r } :=
  { h with }

theorem OpInv.accept {s : State} (h : OpInv s) (p : Packet) : OpInv (accept p s) := by
  rw [accept_eq]
  exact h.latch _

theorem causeCode_le (c : Cause) : (causeCode c).toNat ≤ 9 := by
  cases c <;> decide

/-- A completion makes the invariant whole: its registers agree with each other (R37, R209), and the sequencer is idle. -/
theorem OpInv.present {s : State} (h : OpInv s) (r : Res Word) : Inv (present r s) :=
  { h with
    errOfOk := by cases r <;> simp [completionOf]
    rdataOfErr := by cases r <;> simp [completionOf]
    errCode := by
      cases r with
      | ok v => simp [completionOf]
      | err c => exact causeCode_le c
    seq := rfl }

theorem OpInv.refuseRequest {s : State} (h : OpInv s) (c : Cause) : Inv (refuseRequest c s) :=
  h.present _

theorem OpInv.finishRaw {s : State} (h : OpInv s) {m : Eng Word} (hm : Ensures OpInv m OpInv OpInv) :
    Inv (finishRaw m s) := by
  rcases hm s h with ⟨v, t, hs, ht⟩ | ⟨c, t, hs, ht⟩
  · rw [finishRaw_eq hs]
    exact ht.present _
  · rw [finishRaw_eq hs]
    exact ht.present _

theorem OpInv.finish {s : State} (h : OpInv s) {m : Eng Word} (hm : Ensures OpInv m OpInv OpInv) :
    Inv (finish m s) := by
  have discarded : ∀ {t : State}, OpInv t → OpInv (discard t) := fun ht => { ht with }
  rcases hm s h with ⟨v, t, hs, ht⟩ | ⟨c, t, hs, ht⟩
  · rw [finish_eq hs]
    exact (discarded ht).present _
  · rw [finish_eq hs]
    exact (discarded ht).present _

/-! ## The two operations that write the session (R27) -/

/-- During an operation of a session that is not negotiated: checksum mode may go on and off. -/
def Unnegotiated (s : State) : Prop :=
  OpInv s ∧ s.session.negotiated = false

/-- Not negotiated, and checksum mode off, as `negotiated` asks for (R287). -/
def ChecksumOff (s : State) : Prop :=
  Unnegotiated s ∧ s.session.checksumEnabled = false

theorem unnegotiated_of_within {s t : State} (hw : Within .sessionKept s t) (h : Unnegotiated s) : Unnegotiated t :=
  ⟨h.1.of_within hw, (hw.negotiated rfl).trans h.2⟩

theorem checksumOff_of_within {s t : State} (hw : Within .sessionKept s t) (h : ChecksumOff s) : ChecksumOff t :=
  ⟨unnegotiated_of_within hw h.1, (hw.checksum rfl).trans h.2⟩

theorem unnegotiated_setChecksum {s : State} (b : Bool) (h : Unnegotiated s) : Unnegotiated (setChecksum b s) :=
  ⟨{ h.1 with mode := fun hn => absurd (h.2.symm.trans hn) (by decide) }, h.2⟩

theorem checksumOff_setChecksum {s : State} (h : Unnegotiated s) : ChecksumOff (setChecksum false s) :=
  ⟨unnegotiated_setChecksum false h, rfl⟩

theorem opInv_setNegotiated {s : State} (h : ChecksumOff s) : OpInv (setNegotiated s) :=
  { h.1.1 with mode := fun _ => h.2 }

/-- The tried accesses of negotiation (R283 to R286) keep what a computation outside the session keeps. -/
theorem ensures_tryE_under {α : Type} {p e : State → Prop} {m : Eng α} (q : Seq) (hm : Obeys .sessionKept m)
    (hp : ∀ s t, Within .sessionKept s t → p s → p t) : Ensures p (tryE (under q m)) p e :=
  Ensures.tryE (Ensures.of_obeys (Obeys.under q hm) hp)

theorem negStep1_ensures : Ensures Unnegotiated negStep1 Unnegotiated OpInv := by
  refine Ensures.bindE (Ensures.modify fun _ => unnegotiated_setChecksum true) fun _ => Ensures.withE fun _ =>
    Ensures.bindE (ensures_tryE_under _ (Obeys.internalReadOp rfl _) fun _ _ => unnegotiated_of_within) fun r1 => ?_
  split
  · exact Ensures.raiseE fun _ h => h.1
  · exact Ensures.pureE fun _ h => h

theorem negStep3_ensures (reg : Word) : Ensures Unnegotiated (negStep3 reg) ChecksumOff OpInv := by
  refine Ensures.withE fun _ =>
    Ensures.bindE (ensures_tryE_under _ (Obeys.internalWriteOp rfl _ _) fun _ _ => unnegotiated_of_within) fun r3 => ?_
  cases r3 with
  | ok _ => exact Ensures.modify fun _ => checksumOff_setChecksum
  | err _ => exact Ensures.raiseE fun _ h => h.1

theorem negStep2b_ensures : Ensures Unnegotiated negStep2b ChecksumOff OpInv := by
  refine Ensures.bindE (Ensures.modify fun _ => checksumOff_setChecksum) fun _ => Ensures.withE fun _ =>
    Ensures.bindE (ensures_tryE_under _ (Obeys.internalReadOp rfl _) fun _ _ => checksumOff_of_within) fun r => ?_
  cases r with
  | ok _ => exact Ensures.pureE fun _ h => h
  | err _ => exact Ensures.raiseE fun _ h => h.1.1

/-- Steps 2 and 3 succeed only with checksum mode off (R284, R285). -/
theorem negStep2_ensures : Ensures Unnegotiated negStep2 ChecksumOff OpInv := by
  refine Ensures.withE fun _ =>
    Ensures.bindE (ensures_tryE_under _ (Obeys.internalReadOp rfl _) fun _ _ => unnegotiated_of_within) fun r2 => ?_
  cases r2 with
  | ok reg => exact negStep3_ensures reg
  | err _ => exact negStep2b_ensures

theorem negStep4_ensures : Ensures ChecksumOff negStep4 ChecksumOff OpInv := by
  refine Ensures.withE fun s =>
    Ensures.bindE (ensures_tryE_under _ (Obeys.readRegister rfl _) fun _ _ => checksumOff_of_within) fun r4 => ?_
  split
  · split
    · exact Ensures.pureE fun _ h => h
    · exact Ensures.raiseE fun _ h => h.1.1
  · exact Ensures.raiseE fun _ h => h.1.1

theorem negotiateOp_negotiated {s : State} (h : s.session.negotiated = true) : negotiateOp s = livenessProbe s := by
  simp only [negotiateOp, withE, h, if_true]

theorem negotiateOp_unnegotiated {s : State} (h : s.session.negotiated = false) :
    negotiateOp s = bindE negStep1 (fun _ => bindE negStep2 fun _ => bindE negStep4 fun _ =>
      bindE (modifyE setNegotiated) fun _ => pureE 0) s := by
  simp only [negotiateOp, withE, h, Bool.false_eq_true, if_false]

theorem negotiateOp_ensures : Ensures OpInv negotiateOp OpInv OpInv := by
  intro s h
  cases hn : s.session.negotiated with
  | true =>
    rw [negotiateOp_negotiated hn]
    exact OpInv.of_obeys (Obeys.livenessProbe rfl) s h
  | false =>
    rw [negotiateOp_unnegotiated hn]
    exact Ensures.bindE negStep1_ensures (fun _ => Ensures.bindE negStep2_ensures fun _ =>
      Ensures.bindE negStep4_ensures fun _ => Ensures.bindE (Ensures.modify fun _ => opInv_setNegotiated) fun _ =>
      Ensures.pureE fun _ h => h) s ⟨h, hn⟩

/-- A count that `SYNC` admits fits the register and its bound (R23, R300). -/
theorem opInv_setLineCount {s : State} {count : Word} (hc : count.toNat ≤ 8) (h : OpInv s) :
    OpInv (setLineCount count s) :=
  { h with
    lines := by
      have h8 := (paramsWf_sizes h.params).1
      have ht : (count.truncate 4 : BitVec 4).toNat ≤ count.toNat := by
        simpa using Nat.mod_le count.toNat 16
      simp only [setLineCount_session, setLineCount_cfg]
      omega }

theorem syncOp_ensures (c : IntEnable) {count : Word} (hc : count.toNat ≤ 8) :
    Ensures OpInv (syncOp c count) OpInv OpInv :=
  Ensures.bindE (OpInv.of_obeys (Obeys.readRegister rfl _)) fun _ =>
    Ensures.bindE (OpInv.of_obeys (Obeys.writeRegister rfl _ _)) fun _ =>
    Ensures.bindE (Ensures.modify fun _ => opInv_setLineCount hc) fun _ => Ensures.pureE fun _ h => h

/-! ## Every instruction -/

/-- An operation that reads its operands from the latches, with the operands it reads. -/
theorem finish_withE (f : State → Eng Word) (s : State) : finish (withE f) s = finish (f s) s := rfl

/-- Every instruction completes, and in a state that meets the invariant. -/
theorem exec_inv (i : Instr) {s : State} (h : OpInv s) : ∃ t, exec i s = .next t ∧ Inv t := by
  cases i with
  | dmaWrite | dmaRead | terminate | repeatCmd | dmaExtWrite | dmaExtRead =>
    exact ⟨_, rfl, h.finishRaw (OpInv.of_obeys (Obeys.issueCommand _ _ _))⟩
  | internalWrite | singleWrite => exact ⟨_, rfl, h.finishRaw (OpInv.of_obeys (Obeys.writeRegOnce _ _ _ _))⟩
  | internalRead | singleRead => exact ⟨_, rfl, h.finishRaw (OpInv.of_obeys (Obeys.readRegOnce _ _ _))⟩
  | reset => exact ⟨_, rfl, h.finishRaw (OpInv.of_obeys Obeys.resetBusOnce)⟩
  | dataFirst | dataMiddle | dataLast | dataSingle =>
    exact ⟨_, rfl, h.finishRaw (OpInv.of_obeys (Obeys.sendChunk rfl _ _))⟩
  | negotiate => exact ⟨_, rfl, (h.latch _).finish negotiateOp_ensures⟩
  | rdreg => exact ⟨_, rfl, (h.latch _).finish (OpInv.of_obeys (Obeys.withE fun _ => Obeys.readRegister rfl _))⟩
  | wrreg => exact ⟨_, rfl, (h.latch _).finish (OpInv.of_obeys (Obeys.withE fun _ => Obeys.writeRegister rfl _ _))⟩
  | rdbulk =>
    refine ⟨_, rfl, ?_⟩
    split
    · exact h.refuseRequest _
    · exact (h.latch _).finish (OpInv.of_obeys (Obeys.readBulkOp rfl rfl rfl))
  | wrbulk =>
    refine ⟨_, rfl, ?_⟩
    split
    · exact h.refuseRequest _
    · exact (h.latch _).finish (OpInv.of_obeys (Obeys.retryOp rfl (Obeys.writeBulkOnce rfl)))
  | rdpend =>
    refine ⟨_, rfl, ?_⟩
    split
    · exact (h.latch _).refuseRequest _
    · exact (h.latch _).finish (OpInv.of_obeys (Obeys.readRegister rfl _))
  | rdint =>
    refine ⟨_, rfl, ?_⟩
    split
    · exact (h.latch _).refuseRequest _
    · exact (h.latch _).finish (OpInv.of_obeys (Obeys.rdintOp rfl _))
  | clrint =>
    refine ⟨_, rfl, ?_⟩
    split
    · exact (h.latch _).refuseRequest _
    · exact (h.latch _).finish (OpInv.of_obeys (Obeys.withE fun _ => Obeys.writeRegister rfl _ _))
  | sync count =>
    refine ⟨_, rfl, ?_⟩
    split
    · exact (h.latch _).refuseRequest _
    · rename_i hc
      rw [(paramsWf_sizes h.params).1, Nat.not_lt] at hc
      split
      · exact (h.latch _).refuseRequest _
      · rw [finish_withE]
        exact (h.latch _).finish (syncOp_ensures _ hc)
  | rstbus => exact ⟨_, rfl, (h.latch _).finish (OpInv.of_obeys Obeys.resetBusOnce)⟩
  | reserved => exact ⟨_, rfl, h.refuseRequest _⟩

/-! ## The step -/

theorem opInv_reset {P : Params} (hP : paramsWf P = true) : OpInv (resetWith P) :=
  { params := hP, chunk := rfl, style := rfl, enhanced := rfl, lines := Nat.zero_le _, mode := nofun, ret := rfl, mem := rfl }

/-- The reset state of every parameter set that satisfies R8 meets the invariant (R45). -/
theorem inv_resetWith {P : Params} (hP : paramsWf P = true) : Inv (resetWith P) :=
  { opInv_reset hP with errOfOk := nofun, rdataOfErr := fun _ => rfl, errCode := Nat.zero_le _, seq := rfl }

/-- The reset input brings the invariant back, whatever it interrupts (R350): it needs the parameters and the memory
alone. -/
theorem inv_engineReset {s : State} (hP : paramsWf s.cfg = true) (hm : memWf s.mem = true) : Inv (engineReset s) :=
  { inv_resetWith hP with mem := hm }

theorem memWf_abandonedMem (i : Instr) {s : State} (hm : memWf s.mem = true) : memWf (abandonedMem i s) = true := by
  unfold abandonedMem
  split
  · split
    · exact hm
    · exact memWf_memWriteBytes hm _ _
  · exact hm

/-- The invariant holds after an operation abandoned, and after one that had completed before the reset (R350). -/
theorem inv_abandon (i : Instr) (n : Nat) {s t : State} (hs : OpInv s) (ht : Inv t) : Inv (abandon i n s t) := by
  unfold abandon
  dsimp only
  split
  · exact inv_engineReset ht.params ht.mem
  · exact inv_engineReset hs.params (memWf_abandonedMem i hs.mem)

/-- What a packet that is answered with a next state has done: its instruction was run, or its first byte is no opcode. -/
theorem runPacket_next {p : Packet} {k : Instr → State → State} {s t : State} (h : runPacket p k s = .next t) :
    (∃ i u, exec i (accept p s) = .next u ∧ t = k i u) ∨ t = k (.reserved 0) (invalidOpcode s) := by
  unfold runPacket at h
  split at h
  · rename_i i _
    split at h
    · rename_i u hu
      exact .inl ⟨i, u, hu, (Host.Outcome.next.inj h).symm⟩
    · nomatch h
    · nomatch h
  · exact .inr (Host.Outcome.next.inj h).symm
  · nomatch h

theorem runPacket_inv {p : Packet} {k : Instr → State → State} {s t : State} (hs : OpInv s)
    (hk : ∀ i u, Inv u → Inv (k i u)) (h : runPacket p k s = .next t) : Inv t := by
  rcases runPacket_next h with ⟨i, u, hu, rfl⟩ | rfl
  · obtain ⟨v, hv, hi⟩ := exec_inv i (hs.accept p)
    obtain rfl : u = v := Host.Outcome.next.inj (hu.symm.trans hv)
    exact hk i u hi
  · exact hk _ _ (hs.refuseRequest _)

/-- One step keeps the invariant, whatever is presented. -/
theorem step_inv {s t : State} (h : Inv s) (hst : step s = .next t) : Inv t := by
  have taken : ∀ rest, OpInv { s with inputs := rest } := fun _ => { h with }
  unfold step at hst
  rw [if_pos h.seq] at hst
  split at hst
  · exact Host.Outcome.next.inj hst ▸ h
  · exact Host.Outcome.next.inj hst ▸ inv_engineReset h.params h.mem
  · exact runPacket_inv (taken _) (fun _ _ hu => hu) hst
  · exact runPacket_inv (taken _) (fun i _ hu => inv_abandon i _ (taken _) hu) hst

/-- Settles O10: the default parameters are one parameter set that satisfies R8. -/
theorem invariantHoldsAtReset : Obligations.InvariantHoldsAtReset :=
  have params_default : paramsWf defaultParams = true := by decide
  ⟨inv_resetWith params_default, fun _ => inv_resetWith⟩

/-- Settles O11: what holds during an operation is kept by every computation the instructions are made of, and a completion
or a reset makes it the invariant again. -/
theorem everyStepKeepsTheInvariant : Obligations.EveryStepKeepsTheInvariant :=
  fun _ _ => step_inv

end Sys2Proof.Machine
end

section
/-! What survives a host operation (spec R14, R40, R156): two machines that agree in configuration, session, host memory
and what the environment answers run a host operation side by side. `Alike` says what they agree in at a moment, `Follows`
that a computation takes them to the same outcome; the registers a computation reads are those an earlier step of the same
operation has written. -/

namespace Sys2Proof.Machine

/-! ## Two machines side by side -/

/-- The registers in which two machines agree at a moment of an operation, beside what they agree in all along. -/
structure Live where
  /-- `SEQ`, `FB` and `FLEN`: from the building of a frame on. -/
  frame : Bool := false
  /-- `CAP` and `FETCH`: from the exchange on. -/
  reader : Bool := false
  /-- `B_ADDR`, `B_LEN` and `B_OFF`: during an attempt of a bulk transfer. -/
  bulk : Bool := false

/-- `s` and `s'` agree in what an operation may depend on, have made the same port events since their traces were `T` and
`T'`, and agree in the registers that `v` lists; `q` says whether they agree in the latches of a bulk request. -/
structure Alike (q : Bool) (T T' : List Event) (v : Live) (s s' : State) : Prop where
  params : paramsWf s.cfg = true
  cfg : s'.cfg = s.cfg
  session : s'.session = s.session
  mem : s'.mem = s.mem
  answers : s'.answers = s.answers
  calls : s'.calls = s.calls
  ret : s'.ret = s.ret
  trace : ∃ ev, s.trace = T ++ ev ∧ s'.trace = T' ++ ev
  req : q = true → s'.req.addr = s.req.addr ∧ s'.req.len = s.req.len ∧ s'.req.buf = s.req.buf
  frame : v.frame = true → s'.seq = s.seq ∧ s'.dp.fb = s.dp.fb ∧ s'.dp.flen = s.dp.flen
  reader : v.reader = true → s'.dp.cap = s.dp.cap ∧ s'.dp.fetch = s.dp.fetch
  bulk : v.bulk = true → s'.bulk.addr = s.bulk.addr ∧ s'.bulk.len = s.bulk.len ∧ s'.bulk.off = s.bulk.off

/-- From machines alike in `v` the computation has one outcome: a value and machines alike in `v'`, or an error and
machines that need agree in no register. -/
def Follows {α : Type} (q : Bool) (v : Live) (m : Eng α) (v' : Live) : Prop :=
  ∀ T T' s s', Alike q T T' v s s' →
    (∃ a t t', m s = (.ok a, t) ∧ m s' = (.ok a, t') ∧ Alike q T T' v' t t') ∨
      ∃ e t t', m s = (.err e, t) ∧ m s' = (.err e, t') ∧ Alike q T T' {} t t'

section combinators
variable {α β : Type} {q : Bool} {T T' : List Event} {v v' w : Live} {s s' : State}

/-- Agreement in more registers is agreement in fewer. -/
theorem Alike.mono (h : Alike q T T' v s s') (hf : w.frame = true → v.frame = true)
    (hr : w.reader = true → v.reader = true) (hb : w.bulk = true → v.bulk = true) : Alike q T T' w s s' :=
  { h with
    frame := fun e => h.frame (hf e)
    reader := fun e => h.reader (hr e)
    bulk := fun e => h.bulk (hb e) }

theorem Alike.base (h : Alike q T T' v s s') : Alike q T T' {} s s' :=
  h.mono nofun nofun nofun

theorem Follows.to_base {m : Eng α} (hm : Follows q v m v') : Follows q v m {} := by
  intro T T' s s' h
  rcases hm T T' s s' h with ⟨a, t, t', e, e', ht⟩ | he
  · exact .inl ⟨a, t, t', e, e', ht.base⟩
  · exact .inr he

theorem Follows.pureE (a : α) : Follows q v (pureE a) v :=
  fun _ _ s s' h => .inl ⟨a, s, s', rfl, rfl, h⟩

theorem Follows.raiseE (e : Cause) : Follows q v (raiseE e : Eng α) v' :=
  fun _ _ s s' h => .inr ⟨e, s, s', rfl, rfl, h.base⟩

theorem Follows.modify {f : State → State}
    (hf : ∀ T T' s s', Alike q T T' v s s' → Alike q T T' v' (f s) (f s')) : Follows q v (modifyE f) v' :=
  fun _ _ s s' h => .inl ⟨(), f s, f s', rfl, rfl, hf _ _ _ _ h⟩

theorem Follows.bindE {m : Eng α} {k : α → Eng β} (hm : Follows q v m w) (hk : ∀ a, Follows q w (k a) v') :
    Follows q v (bindE m k) v' := by
  intro T T' s s' h
  rcases hm T T' s s' h with ⟨a, t, t', e, e', ht⟩ | ⟨c, t, t', e, e', ht⟩
  · simpa only [Machine.bindE, e, e'] using hk a T T' t t' ht
  · exact .inr ⟨c, t, t', by simp only [Machine.bindE, e], by simp only [Machine.bindE, e'], ht⟩

theorem Follows.tryE {m : Eng α} (hm : Follows q v m v') : Follows q v (tryE m) {} := by
  intro T T' s s' h
  rcases hm T T' s s' h with ⟨a, t, t', e, e', ht⟩ | ⟨c, t, t', e, e', ht⟩
  · exact .inl ⟨.ok a, t, t', by simp only [Machine.tryE, e], by simp only [Machine.tryE, e'], ht.base⟩
  · exact .inl ⟨.err c, t, t', by simp only [Machine.tryE, e], by simp only [Machine.tryE, e'], ht⟩

/-- A choice by the state that reads only what the machines agree in. -/
theorem Follows.withE {f : State → Eng α} (hf : ∀ T T' s s', Alike q T T' v s s' → f s' = f s)
    (hk : ∀ s, Follows q v (f s) v') : Follows q v (withE f) v' := by
  intro T T' s s' h
  have hs := hk s T T' s s' h
  simpa only [Machine.withE, hf _ _ _ _ h] using hs

theorem Follows.ite {c : Prop} [Decidable c] {m n : Eng α} (hm : Follows q v m v') (hn : Follows q v n v') :
    Follows q v (if c then m else n) v' := by
  split
  · exact hm
  · exact hn

/-- A step called by another one: both machines return to the caller. -/
theorem Follows.under {m : Eng α} (x : Seq) (hm : Follows q v m v') : Follows q v (under x m) v' := by
  intro T T' s s' h
  have entered : Alike q T T' v { s with seq := x, ret := x :: s.ret } { s' with seq := x, ret := x :: s'.ret } :=
    { h with
      ret := by simp only [h.ret]
      frame := fun e => ⟨rfl, (h.frame e).2⟩ }
  have left : ∀ {y : Live} {t t' : State}, Alike q T T' y t t' →
      Alike q T T' y { t with seq := x, ret := s.ret } { t' with seq := x, ret := s'.ret } := fun ht =>
    { ht with
      ret := h.ret
      frame := fun e => ⟨rfl, (ht.frame e).2⟩ }
  rcases hm T T' _ _ entered with ⟨a, t, t', e, e', ht⟩ | ⟨c, t, t', e, e', ht⟩
  · exact .inl ⟨a, _, _, by simp only [Machine.under, e], by simp only [Machine.under, e'], left ht⟩
  · exact .inr ⟨c, _, _, by simp only [Machine.under, e], by simp only [Machine.under, e'], left ht⟩

end combinators

/-! ## The ports and the reader -/

section reader
variable {α : Type} {q : Bool} {T T' : List Event} {v : Live} {s s' : State}

theorem Alike.setSeq (h : Alike q T T' v s s') (x : Seq) : Alike q T T' v (setSeq x s) (setSeq x s') :=
  { h with frame := fun e => ⟨rfl, (h.frame e).2⟩ }

theorem Follows.setSeq (x : Seq) : Follows q v (modifyE (setSeq x)) v :=
  Follows.modify fun _ _ _ _ h => h.setSeq x

/-- The registers of the datapath that no step of an operation reads may differ. -/
theorem Alike.modifyDp (h : Alike q T T' v s s') {d d' : Datapath}
    (hf : v.frame = true → d'.fb = d.fb ∧ d'.flen = d.flen) (hr : v.reader = true → d'.cap = d.cap ∧ d'.fetch = d.fetch) :
    Alike q T T' v { s with dp := d } { s' with dp := d' } :=
  { h with
    frame := fun e => ⟨(h.frame e).1, hf e⟩
    reader := hr }

/-- Writing response registers (R32), the scan counter among them. -/
theorem Follows.modifyRegs (f : State → Datapath)
    (hf : ∀ s, (f s).fb = s.dp.fb ∧ (f s).flen = s.dp.flen ∧ (f s).cap = s.dp.cap ∧ (f s).fetch = s.dp.fetch) :
    Follows q v (modifyE fun s => { s with dp := f s }) v := by
  refine Follows.modify fun _ _ s s' h => h.modifyDp (fun e => ?_) (fun e => ?_)
  · obtain ⟨-, hb, hl⟩ := h.frame e
    obtain ⟨h1, h2, -⟩ := hf s
    obtain ⟨h1', h2', -⟩ := hf s'
    exact ⟨by rw [h1, h1', hb], by rw [h2, h2', hl]⟩
  · obtain ⟨hc, hx⟩ := h.reader e
    obtain ⟨-, -, h1, h2⟩ := hf s
    obtain ⟨-, -, h1', h2'⟩ := hf s'
    exact ⟨by rw [h1, h1', hc], by rw [h2, h2', hx]⟩

/-- The same event in the same sequencer state. -/
theorem Alike.emit (h : Alike q T T' v s s') (hseq : s'.seq = s.seq) (p : PortEvent) :
    Alike q T T' v (emit p s) (emit p s') :=
  { h with
    trace := by
      obtain ⟨ev, ht, ht'⟩ := h.trace
      exact ⟨ev ++ [{ seq := s.seq, ret := s.ret, port := p }], by simp [ht], by simp [ht', hseq, h.ret]⟩ }

theorem Alike.takeAnswer (h : Alike q T T' v s s') : Alike q T T' v (takeAnswer s) (takeAnswer s') :=
  { h with
    answers := congrArg List.tail h.answers
    calls := congrArg Nat.succ h.calls }

/-- A transport call is answered alike (R13, R14). -/
theorem Follows.transport (hv : v.frame = true) (n : Nat) (ev : Bool → List Byte → PortEvent) :
    Follows q v (transport n ev) v := by
  intro T T' s s' h
  have answer : nextAnswer n s' = nextAnswer n s := by simp only [nextAnswer, h.answers, h.calls]
  have emitted : ∀ p, Alike q T T' v (Machine.emit p (Machine.takeAnswer s)) (Machine.emit p (Machine.takeAnswer s')) :=
    h.takeAnswer.emit (h.frame hv).1
  rcases ha : nextAnswer n s with ⟨_ | _, b⟩
  · exact .inr ⟨.transportError, _, _, by simp only [Machine.transport, ha, Bool.false_eq_true, if_false],
      by simp only [Machine.transport, answer, ha, Bool.false_eq_true, if_false], (emitted (ev false [])).base⟩
  · exact .inl ⟨b, _, _, by simp only [Machine.transport, ha, if_true], by simp only [Machine.transport, answer, ha, if_true],
      emitted (ev true b)⟩

/-- The reader takes what is captured. -/
theorem readNext_captured {n : Nat} {x : Where} {s : State} (h : ¬ s.dp.cap.length < n) :
    readNext n x s = (.ok (s.dp.cap.take n), { s with dp := { s.dp with cap := s.dp.cap.drop n } }) := by
  simp only [Machine.readNext, if_neg h]

/-- The reader fetches what is not captured. -/
theorem readNext_fetched {n : Nat} {x : Where} {s : State} (h : s.dp.cap.length < n) (hx : s.dp.fetch = true) :
    readNext n x s = Machine.bindE (receive (n - s.dp.cap.length)) (fun r => Machine.pureE (s.dp.cap.take n ++ r))
      { s with dp := { s.dp with cap := s.dp.cap.drop n } } := by
  simp only [Machine.readNext, if_pos h, hx, if_true]

/-- The captured bytes run out, and the reader may not fetch (R181). -/
theorem readNext_exhausted {n : Nat} {x : Where} {s : State} (h : s.dp.cap.length < n) (hx : s.dp.fetch = false) :
    readNext n x s = (.err (exhausted x), { s with dp := { s.dp with cap := s.dp.cap.drop n } }) := by
  simp only [Machine.readNext, if_pos h, hx, Bool.false_eq_true, if_false]

theorem Follows.readNext (hf : v.frame = true) (hr : v.reader = true) (n : Nat) (x : Where) :
    Follows q v (readNext n x) v := by
  intro T T' s s' h
  obtain ⟨hc, hx⟩ := h.reader hr
  have drained : Alike q T T' v { s with dp := { s.dp with cap := s.dp.cap.drop n } }
      { s' with dp := { s'.dp with cap := s'.dp.cap.drop n } } :=
    h.modifyDp (fun e => (h.frame e).2) fun _ => ⟨by rw [hc], hx⟩
  by_cases hl : s.dp.cap.length < n
  · have hl' : s'.dp.cap.length < n := by rwa [hc]
    cases hs : s.dp.fetch with
    | true =>
      rw [readNext_fetched hl hs, readNext_fetched hl' (hx.trans hs), hc]
      exact Follows.bindE (Follows.transport hf _ _) (fun r => Follows.pureE _) T T' _ _ (by rwa [hc] at drained)
    | false =>
      exact .inr ⟨_, _, _, readNext_exhausted hl hs, readNext_exhausted hl' (hx.trans hs), drained.base⟩
  · have hl' : ¬ s'.dp.cap.length < n := by rwa [hc]
    exact .inl ⟨_, _, _, readNext_captured hl, by rw [readNext_captured hl', hc], by rwa [hc] at drained⟩

end reader

/-! ## One exchange -/

section exchange
variable {q : Bool} {v : Live}

/-- The framer writes the whole of what is read of a frame (R153, R156). -/
theorem Alike.appendChecksum {T T' : List Event} {s s' : State} (h : Alike q T T' v s s') (hseq : s'.seq = s.seq)
    (body : List Byte) :
    Alike q T T' { v with frame := true } (appendChecksum body s) (appendChecksum body s') := by
  have loaded : ∀ (f : List Byte) {t t' : State}, Alike q T T' v t t' → t'.seq = t.seq →
      Alike q T T' { v with frame := true } (loadFrame f t) (loadFrame f t') := fun f t t' ht he =>
    { ht with
      frame := fun _ => ⟨he, rfl, rfl⟩
      reader := ht.reader }
  have hck : s'.session.checksumEnabled = s.session.checksumEnabled := by rw [h.session]
  have hw : ∀ ck, withCk s'.cfg ck body = withCk s.cfg ck body := by simp only [h.cfg, implies_true]
  rw [appendChecksum_eq, appendChecksum_eq, hck, hw]
  split
  · exact loaded _ (h.modifyDp (fun e => (h.frame e).2) h.reader) hseq
  · exact loaded _ h hseq

/-- A known opcode builds its frame. -/
theorem buildFrame_known {opcode : Byte} {addr data size : Word} {cl : Bool} {k : Cmd} {s : State}
    (hk : cmdOfByte s.cfg.opc opcode = some k) :
    buildFrame opcode addr data size cl s =
      (.ok (), appendChecksum (cmdBody s.cfg k addr data size cl) (setSeq .build s)) := by
  simp only [buildFrame, hk]

theorem Follows.buildFrame (opcode : Byte) (addr data size : Word) (cl : Bool) :
    Follows q v (buildFrame opcode addr data size cl) { v with frame := true } := by
  intro T T' s s' h
  cases hk : cmdOfByte s.cfg.opc opcode with
  | none =>
    exact .inr ⟨.invalidOpcode, Machine.setSeq .build s, Machine.setSeq .build s', by simp only [Machine.buildFrame, hk],
      by simp only [Machine.buildFrame, h.cfg, hk], (h.setSeq .build).base⟩
  | some k =>
    refine .inl ⟨(), _, _, buildFrame_known hk, buildFrame_known (by rw [h.cfg]; exact hk), ?_⟩
    rw [h.cfg]
    exact (h.setSeq .build).appendChecksum rfl _

/-- The same frame stands in the buffers, and the same number of placeholders goes with it. -/
theorem Alike.frameOf_eq {T T' : List Event} {s s' : State} (h : Alike q T T' v s s') (hv : v.frame = true) :
    frameOf s' = frameOf s ∧ padCount s' = padCount s := by
  obtain ⟨-, hb, hl⟩ := h.frame hv
  exact ⟨by simp only [frameOf, hb, hl], by simp only [padCount, hb, h.cfg, h.session]⟩

/-- The exchange sets the reader up, whatever it held (R184, R185). -/
theorem Follows.setReader (f : State → Datapath) (cap : List Byte) (fetch : Bool)
    (hf : ∀ s, (f s).fb = s.dp.fb ∧ (f s).flen = s.dp.flen ∧ (f s).cap = cap ∧ (f s).fetch = fetch) :
    Follows q v (modifyE fun s => { s with dp := f s }) { v with reader := true } := by
  refine Follows.modify fun T T' s s' h => ?_
  obtain ⟨hb, hl, hc, hx⟩ := hf s
  obtain ⟨hb', hl', hc', hx'⟩ := hf s'
  exact
    { h with
      frame := fun e => by
        obtain ⟨h1, h2, h3⟩ := h.frame e
        exact ⟨h1, by rw [hb, hb', h2], by rw [hl, hl', h3]⟩
      reader := fun _ => ⟨by rw [hc, hc'], by rw [hx, hx']⟩ }

theorem Follows.exchange (hv : v.frame = true) : Follows q v exchange { v with reader := true } := by
  refine Follows.bindE (Follows.setSeq _) fun _ => Follows.withE (fun _ _ _ _ h => by rw [h.session]) fun s => ?_
  split
  · exact Follows.withE (fun _ _ _ _ h => by rw [(h.frameOf_eq hv).1, (h.frameOf_eq hv).2]) fun _ =>
      Follows.bindE (Follows.transport hv _ _) fun _ => Follows.setReader _ _ _ fun _ => ⟨rfl, rfl, rfl, rfl⟩
  · exact Follows.withE (fun _ _ _ _ h => by rw [(h.frameOf_eq hv).1]) fun _ =>
      Follows.bindE (Follows.transport hv _ _) fun _ => Follows.setReader _ _ _ fun _ => ⟨rfl, rfl, rfl, rfl⟩

theorem Follows.scanLoop (hf : v.frame = true) (hr : v.reader = true) (n : Nat) : Follows q v (scanLoop n) v := by
  induction n with
  | zero => exact Follows.raiseE _
  | succ n ih =>
    exact Follows.bindE (Follows.readNext hf hr _ _) fun _ =>
      Follows.bindE (Follows.modifyRegs _ fun _ => ⟨rfl, rfl, rfl, rfl⟩) fun _ =>
      Follows.withE (fun _ _ _ _ h => by rw [h.cfg]) fun _ =>
        Follows.ite (Follows.modifyRegs _ fun _ => ⟨rfl, rfl, rfl, rfl⟩) ih

theorem Follows.scanSentinel (hf : v.frame = true) (hr : v.reader = true) (x : Seq) :
    Follows q v (scanSentinel x) v :=
  Follows.bindE (Follows.modify fun _ _ _ _ h => (h.setSeq x).modifyDp (fun e => (h.frame e).2) h.reader) fun _ =>
    Follows.withE (fun _ _ _ _ h => by rw [h.cfg]) fun _ => Follows.scanLoop hf hr _

theorem Follows.parseSkip (hf : v.frame = true) (hr : v.reader = true) (k : Cmd) : Follows q v (parseSkip k) v := by
  unfold Machine.parseSkip
  split
  · exact Follows.bindE (Follows.setSeq _) fun _ => Follows.bindE (Follows.readNext hf hr _ _) fun _ => Follows.pureE _
  · exact Follows.pureE _

theorem Follows.parseEcho (hf : v.frame = true) (hr : v.reader = true) : Follows q v parseEcho v :=
  Follows.bindE (Follows.setSeq _) fun _ => Follows.bindE (Follows.readNext hf hr _ _) fun _ =>
    Follows.bindE (Follows.modifyRegs _ fun _ => ⟨rfl, rfl, rfl, rfl⟩) fun _ =>
    Follows.withE (fun _ _ _ _ h => by rw [(h.frame hf).2.1]) fun _ => Follows.ite (Follows.pureE _) (Follows.raiseE _)

theorem Follows.parseStatus (hf : v.frame = true) (hr : v.reader = true) : Follows q v parseStatus v :=
  Follows.bindE (Follows.setSeq _) fun _ => Follows.bindE (Follows.readNext hf hr _ _) fun _ =>
    Follows.bindE (Follows.modifyRegs _ fun _ => ⟨rfl, rfl, rfl, rfl⟩) fun _ =>
    Follows.withE (fun _ _ _ _ h => by rw [h.cfg]) fun _ => Follows.ite (Follows.pureE _) (Follows.raiseE _)

theorem Follows.parsePayload (hf : v.frame = true) (hr : v.reader = true) : Follows q v parsePayload v :=
  Follows.bindE (Follows.setSeq _) fun _ => Follows.withE (fun _ _ _ _ h => by rw [h.cfg]) fun _ =>
    Follows.bindE (Follows.readNext hf hr _ _) fun _ =>
    Follows.bindE (Follows.modifyRegs _ fun _ => ⟨rfl, rfl, rfl, rfl⟩) fun _ => Follows.pureE _

theorem Follows.parseTrailing (hf : v.frame = true) (hr : v.reader = true) : Follows q v parseTrailing v :=
  Follows.withE (fun _ _ _ _ h => by rw [h.session, h.cfg]) fun _ => Follows.ite
    (Follows.bindE (Follows.setSeq _) fun _ => Follows.bindE (Follows.readNext hf hr _ _) fun _ =>
      Follows.bindE (Follows.modifyRegs _ fun _ => ⟨rfl, rfl, rfl, rfl⟩) fun _ => Follows.pureE _)
    (Follows.bindE (Follows.modifyRegs _ fun _ => ⟨rfl, rfl, rfl, rfl⟩) fun _ => Follows.pureE _)

/-- Fetching goes on, in both machines (R179). -/
theorem Follows.setFetch : Follows q v (modifyE fun s => { s with dp := { s.dp with fetch := true } }) v :=
  Follows.modify fun _ _ _ _ h => h.modifyDp (fun e => (h.frame e).2) fun e => ⟨(h.reader e).1, rfl⟩

theorem Follows.parseBody (hf : v.frame = true) (hr : v.reader = true) (k : Cmd) (st : Byte) :
    Follows q v (parseBody k st) v := by
  unfold Machine.parseBody
  split
  · exact Follows.pureE _
  · exact Follows.pureE _
  · exact Follows.bindE (Follows.scanSentinel hf hr _) fun _ => Follows.bindE (Follows.parsePayload hf hr) fun _ =>
      Follows.bindE (Follows.parseTrailing hf hr) fun _ => Follows.pureE _
  · exact Follows.bindE (Follows.scanSentinel hf hr _) fun _ => Follows.bindE Follows.setFetch fun _ => Follows.pureE _

theorem Follows.parseResponse (hf : v.frame = true) (hr : v.reader = true) (opcode : Byte) :
    Follows q v (parseResponse opcode) v := by
  refine Follows.withE (fun _ _ _ _ h => by rw [h.cfg]) fun s => ?_
  split
  · exact Follows.bindE (Follows.parseSkip hf hr _) fun _ => Follows.bindE (Follows.parseEcho hf hr) fun _ =>
      Follows.bindE (Follows.parseStatus hf hr) fun _ => Follows.parseBody hf hr _ _
  · exact Follows.raiseE _

/-- A command exchange reads no register that it has not written before (R156, R183). -/
theorem Follows.cmdExchange (opcode : Byte) (addr data size : Word) (cl : Bool) :
    Follows q v (cmdExchange opcode addr data size cl) { v with frame := true, reader := true } :=
  Follows.bindE (Follows.buildFrame _ _ _ _ _) fun _ => Follows.bindE (Follows.exchange rfl) fun _ =>
    Follows.parseResponse rfl rfl _

/-- The registers an exchange has written. -/
def Live.exchanged : Live :=
  { frame := true, reader := true }

theorem Follows.readRegOnce (opcode : Byte) (addr : Word) (cl : Bool) :
    Follows q {} (readRegOnce opcode addr cl) .exchanged :=
  Follows.bindE (Follows.cmdExchange _ _ _ _ _) fun _ => Follows.withE (fun _ _ _ _ h => by rw [h.cfg]) fun _ =>
    Follows.pureE _

theorem Follows.writeRegOnce (opcode : Byte) (addr data : Word) (cl : Bool) :
    Follows q {} (writeRegOnce opcode addr data cl) .exchanged :=
  Follows.bindE (Follows.cmdExchange _ _ _ _ _) fun _ => Follows.pureE _

theorem Follows.resetBusOnce : Follows q {} resetBusOnce .exchanged :=
  Follows.withE (fun _ _ _ _ h => by rw [h.cfg]) fun _ =>
    Follows.bindE (Follows.cmdExchange _ _ _ _ _) fun _ => Follows.pureE _

end exchange

/-! ## The retry controller -/

section retry
variable {α : Type} {q : Bool} {T T' : List Event} {v : Live} {s s' : State}

theorem Alike.setRetry (h : Alike q T T' v s s') (r r' : Retry) :
    Alike q T T' v { s with retry := r } { s' with retry := r' } :=
  { h with }

theorem Alike.takeError (h : Alike q T T' {} s s') (e : Cause) : Alike q T T' {} (takeError e s) (takeError e s') :=
  { h with frame := nofun, reader := nofun, bulk := nofun }

/-- A delay in a given sequencer state. -/
theorem Alike.delayIn (h : Alike q T T' {} s s') (x : Seq) :
    Alike q T T' {} (delayEvent (Machine.setSeq x s)) (delayEvent (Machine.setSeq x s')) := by
  simp only [delayEvent, setSeq_cfg, h.cfg]
  exact (h.setSeq x).emit rfl _

theorem under_seq {x : Seq} {m : Eng α} {t : State} {r : Res α} (h : under x m s = (r, t)) : t.seq = x := by
  rw [← (Prod.mk.inj h).2]

/-- The handler is the same for both machines: its reset fails in both or in neither (R261, R265). -/
theorem Alike.recover (h : Alike q T T' {} s s') : Alike q T T' {} (recover s) (recover s') := by
  unfold Machine.recover
  rcases Follows.under .retryReset Follows.resetBusOnce T T' _ _ (h.delayIn .retryDelayA) with
    ⟨a, t, t', e, e', ht⟩ | ⟨c, t, t', e, e', ht⟩
  · simp only [e, e']
    exact ht.base.delayIn .retryDelayB
  · simp only [e, e']
    have hseq : t'.seq = t.seq := (under_seq e').trans (under_seq e).symm
    exact (ht.emit hseq _).delayIn .retryDelayB

/-- The loop: an attempt reads nothing that an earlier one left but the error saved, which is read behind a failed attempt
alone. -/
theorem Follows.retryLoop {op : Eng α} (hop : Follows q {} op v) (n : Nat) (h : Alike q T T' {} s s')
    (hl : n = 0 → s'.retry.lastErr = s.retry.lastErr) :
    (∃ a t t', retryLoop op n s = (.ok a, t) ∧ retryLoop op n s' = (.ok a, t') ∧ Alike q T T' v t t') ∨
      ∃ e t t', retryLoop op n s = (.err e, t) ∧ retryLoop op n s' = (.err e, t') ∧ Alike q T T' {} t t' := by
  induction n generalizing s s' with
  | zero => exact .inr ⟨s.retry.lastErr, s, s', rfl, by simp only [Machine.retryLoop, hl rfl], h⟩
  | succ n ih =>
    rcases hop T T' s s' h with ⟨a, t, t', e, e', ht⟩ | ⟨c, t, t', e, e', ht⟩
    · exact .inl ⟨a, t, t', retryLoop_ok e, retryLoop_ok e', ht⟩
    · cases hc : retryable c with
      | false => exact .inr ⟨c, _, _, retryLoop_stop e hc, retryLoop_stop e' hc, ht.takeError c⟩
      | true =>
        rw [retryLoop_again e hc, retryLoop_again e' hc]
        exact ih ((ht.takeError c).recover.setRetry _ _) fun _ => by
          simp only [returnFromError_retry, recover_retry, takeError_retry]

theorem Follows.retryOp {op : Eng α} (hop : Follows q {} op v) : Follows q {} (retryOp op) v := by
  intro T T' s s' h
  have hn : s.cfg.maxRetry ≠ 0 := Nat.one_le_iff_ne_zero.1 (paramsWf_bounds h.params).1
  have hm : s'.cfg.maxRetry = s.cfg.maxRetry := by rw [h.cfg]
  simp only [Machine.retryOp, hm]
  exact Follows.retryLoop hop _ (h.setRetry _ _) fun h0 => absurd h0 hn

theorem Follows.readRegister (addr : Word) : Follows q {} (readRegister addr) .exchanged :=
  Follows.withE (fun _ _ _ _ h => by rw [h.cfg]) fun _ => Follows.ite (Follows.retryOp (Follows.readRegOnce _ _ _))
    (Follows.retryOp (Follows.readRegOnce _ _ _))

theorem Follows.writeRegister (addr x : Word) : Follows q {} (writeRegister addr x) .exchanged :=
  Follows.withE (fun _ _ _ _ h => by rw [h.cfg]) fun _ => Follows.ite (Follows.retryOp (Follows.writeRegOnce _ _ _ _))
    (Follows.retryOp (Follows.writeRegOnce _ _ _ _))

theorem Follows.internalReadOp (addr : Word) : Follows q {} (internalReadOp addr) .exchanged :=
  Follows.withE (fun _ _ _ _ h => by rw [h.cfg]) fun _ => Follows.retryOp (Follows.readRegOnce _ _ _)

theorem Follows.internalWriteOp (addr x : Word) : Follows q {} (internalWriteOp addr x) .exchanged :=
  Follows.withE (fun _ _ _ _ h => by rw [h.cfg]) fun _ => Follows.retryOp (Follows.writeRegOnce _ _ _ _)

end retry

/-! ## Bulk transfers, whose arguments stand in the latches -/

section bulk
variable {T T' : List Event} {s s' : State}

/-- The registers a bulk transfer has written behind its command exchange. -/
def Live.transfer : Live :=
  { frame := true, reader := true, bulk := true }

theorem Follows.startBulk : Follows true {} (modifyE startBulk) { bulk := true } :=
  Follows.modify fun _ _ _ _ h =>
    { h with
      frame := nofun
      reader := nofun
      bulk := fun _ => by
        obtain ⟨ha, hl, -⟩ := h.req rfl
        exact ⟨by simp only [startBulk_bulk, ha], by simp only [startBulk_bulk, hl], rfl⟩ }

theorem Follows.advance (n : Nat) : Follows true .transfer (modifyE (advance n)) .transfer :=
  Follows.modify fun _ _ _ _ h =>
    { h with
      bulk := fun _ => by
        obtain ⟨ha, hl, ho⟩ := h.bulk rfl
        exact ⟨ha, hl, by simp only [advance_bulk, ho]⟩ }

/-- Both machines are at the same chunk of the same transfer. -/
theorem Alike.chunk_eq (h : Alike true T T' .transfer s s') :
    chunkLen s' = chunkLen s ∧ chunkTag s' = chunkTag s ∧ chunkPayload s' = chunkPayload s := by
  obtain ⟨-, hl, ho⟩ := h.bulk rfl
  obtain ⟨-, -, hb⟩ := h.req rfl
  have hlen : chunkLen s' = chunkLen s := by simp only [chunkLen, hl, ho, h.cfg, h.session]
  exact ⟨hlen, by simp only [chunkTag, hl, ho, h.cfg, h.session], by simp only [chunkPayload, hlen, h.mem, hb, ho]⟩

/-- Both machines go on with the transfer, or neither does. -/
theorem Alike.more_eq (h : Alike true T T' .transfer s s') :
    (s'.bulk.off.toNat < s'.bulk.len.toNat) = (s.bulk.off.toNat < s.bulk.len.toNat) := by
  obtain ⟨-, hl, ho⟩ := h.bulk rfl
  rw [hl, ho]

theorem Follows.sendChunk (t : OrderTag) (p : List Byte) : Follows true .transfer (sendChunk t p) .transfer :=
  Follows.bindE (Follows.modify fun _ _ _ _ h =>
      { h with
        frame := fun e => ⟨rfl, (h.frame e).2⟩
        bulk := h.bulk }) fun _ =>
    Follows.withE (fun _ _ _ _ h => by rw [h.cfg, h.session]) fun _ =>
    Follows.bindE (Follows.transport rfl _ _) fun _ => Follows.pureE _

theorem Follows.writeChunk : Follows true .transfer writeChunk .transfer :=
  Follows.withE (fun _ _ _ _ h => by rw [h.chunk_eq.1, h.chunk_eq.2.1, h.chunk_eq.2.2]) fun _ =>
    Follows.bindE (Follows.sendChunk _ _) fun _ => Follows.advance _

theorem Follows.writeChunks (n : Nat) : Follows true .transfer (writeChunks n) .transfer := by
  induction n with
  | zero => exact Follows.pureE _
  | succ n ih =>
    exact Follows.withE (fun _ _ _ _ h => by simp only [h.more_eq]) fun _ =>
      Follows.ite (Follows.bindE Follows.writeChunk fun _ => ih) (Follows.pureE _)

/-- The operands of a bulk command are in the latches. -/
theorem Follows.withOperands {α : Type} {v v' : Live} {f : Params → Word → Word → Eng α}
    (hf : ∀ P a n, Follows true v (f P a n) v') :
    Follows true v (Machine.withE fun s => f s.cfg s.req.addr s.req.len) v' :=
  Follows.withE (fun _ _ _ _ h => by rw [h.cfg, (h.req rfl).1, (h.req rfl).2.1]) fun _ => hf _ _ _

theorem Follows.writeBulkOnce : Follows true {} writeBulkOnce .transfer :=
  Follows.bindE Follows.startBulk fun _ =>
    Follows.withOperands (f := fun P a n => Machine.bindE (Machine.cmdExchange P.opc.dmaExtWrite a 0 n false) fun _ =>
      Machine.bindE (Machine.writeChunks n.toNat) fun _ => Machine.pureE 0) fun _ _ _ =>
    Follows.bindE (Follows.cmdExchange _ _ _ _ _) fun _ => Follows.bindE (Follows.writeChunks _) fun _ => Follows.pureE _

theorem Follows.storeChunk (p : List Byte) : Follows true .transfer (modifyE (storeChunk p)) .transfer :=
  Follows.modify fun _ _ _ _ h =>
    { h with
      mem := by simp only [storeChunk_mem, h.mem, (h.req rfl).2.2, (h.bulk rfl).2.2] }

theorem Follows.skipChunkCk (x : Seq) : Follows true .transfer (skipChunkCk x) .transfer :=
  Follows.withE (fun _ _ _ _ h => by rw [h.session, h.cfg]) fun _ =>
    Follows.ite (Follows.bindE (Follows.setSeq _) fun _ => Follows.bindE (Follows.readNext rfl rfl _ _) fun _ =>
      Follows.pureE _) (Follows.pureE _)

theorem Follows.readChunk : Follows true .transfer readChunk .transfer := by
  refine Follows.withE (fun _ _ _ _ h => by simp only [h.chunk_eq.1, (h.bulk rfl).2.2]) fun s => ?_
  exact Follows.bindE (Follows.modify fun _ _ _ _ h => { h with bulk := h.bulk }) fun _ =>
    Follows.bindE (Follows.ite (Follows.pureE _) (Follows.scanSentinel rfl rfl _)) fun _ =>
    Follows.bindE (Follows.setSeq _) fun _ => Follows.bindE (Follows.readNext rfl rfl _ _) fun p =>
    Follows.bindE (Follows.storeChunk p) fun _ => Follows.bindE (Follows.skipChunkCk _) fun _ => Follows.advance _

theorem Follows.readChunks (n : Nat) : Follows true .transfer (readChunks n) .transfer := by
  induction n with
  | zero => exact Follows.pureE _
  | succ n ih =>
    exact Follows.withE (fun _ _ _ _ h => by simp only [h.more_eq]) fun _ =>
      Follows.ite (Follows.bindE Follows.readChunk fun _ => ih) (Follows.pureE _)

theorem Follows.readBulkOnce : Follows true {} readBulkOnce .transfer :=
  Follows.bindE Follows.startBulk fun _ =>
    Follows.withOperands (f := fun P a n => Machine.bindE (Machine.cmdExchange P.opc.dmaExtRead a 0 n false) fun _ =>
      Machine.bindE (modifyE fun t => { t with dp := { t.dp with fetch := true } }) fun _ =>
      Machine.bindE (Machine.readChunks n.toNat) fun _ =>
      Machine.bindE (modifyE fun t => { t with dp := { t.dp with cap := [] } }) fun _ => Machine.pureE 0) fun _ _ _ =>
    Follows.bindE (Follows.cmdExchange _ _ _ _ _) fun _ => Follows.bindE Follows.setFetch fun _ =>
    Follows.bindE (Follows.readChunks _) fun _ =>
    Follows.bindE (Follows.modify fun _ _ _ _ h => h.modifyDp (fun e => (h.frame e).2) fun e => ⟨rfl, (h.reader e).2⟩)
      fun _ => Follows.pureE _

/-- The buffer of a failed read holds the same free values: their index is the number of calls (R240,
notes/assumptions/16.md). -/
theorem Alike.spoilBuffer {v : Live} (h : Alike true T T' v s s') :
    Alike true T T' v (spoilBuffer s.req.buf s.req.len s) (spoilBuffer s'.req.buf s'.req.len s') :=
  { h with
    mem := by
      obtain ⟨-, hl, hb⟩ := h.req rfl
      simp only [spoilBuffer_mem, h.mem, h.calls, hl, hb] }

theorem Follows.readBulkOp : Follows true {} readBulkOp .transfer := by
  intro T T' s s' h
  rcases Follows.retryOp Follows.readBulkOnce T T' s s' h with ⟨a, t, t', e, e', ht⟩ | ⟨c, t, t', e, e', ht⟩
  · exact .inl ⟨a, t, t', by simp only [Machine.readBulkOp, e]; rfl, by simp only [Machine.readBulkOp, e']; rfl, ht⟩
  · exact .inr ⟨c, _, _, by simp only [Machine.readBulkOp, e]; rfl, by simp only [Machine.readBulkOp, e']; rfl,
      ht.spoilBuffer⟩

end bulk

/-! ## Negotiation and the surrounding operations -/

section session
variable {q : Bool} {T T' : List Event} {v : Live} {s s' : State}

theorem Alike.setSession (h : Alike q T T' v s s') (f : Session → Session) :
    Alike q T T' v { s with session := f s.session } { s' with session := f s'.session } :=
  { h with session := congrArg f h.session }

theorem Follows.setChecksum (b : Bool) : Follows q v (modifyE (setChecksum b)) v :=
  Follows.modify fun _ _ _ _ h => h.setSession fun x => { x with checksumEnabled := b }

theorem Follows.livenessProbe : Follows q {} livenessProbe .exchanged :=
  Follows.withE (fun _ _ _ _ h => by rw [h.cfg]) fun _ =>
    Follows.bindE (Follows.under _ (Follows.readRegister _)) fun _ => Follows.pureE _

theorem Follows.negStep1 : Follows q {} negStep1 {} := by
  refine Follows.bindE (Follows.setChecksum _) fun _ => Follows.withE (fun _ _ _ _ h => by rw [h.cfg]) fun _ =>
    Follows.bindE (Follows.tryE (Follows.under _ (Follows.internalReadOp _))) fun r1 => ?_
  split
  · exact Follows.raiseE _
  · exact Follows.pureE _

theorem Follows.negStep3 (reg : Word) : Follows q {} (negStep3 reg) {} := by
  refine Follows.withE (fun _ _ _ _ h => by rw [h.cfg, h.session]) fun _ =>
    Follows.bindE (Follows.tryE (Follows.under _ (Follows.internalWriteOp _ _))) fun r3 => ?_
  cases r3 with
  | ok _ => exact Follows.setChecksum _
  | err _ => exact Follows.raiseE _

theorem Follows.negStep2b : Follows q {} negStep2b {} := by
  refine Follows.bindE (Follows.setChecksum _) fun _ => Follows.withE (fun _ _ _ _ h => by rw [h.cfg]) fun _ =>
    Follows.bindE (Follows.tryE (Follows.under _ (Follows.internalReadOp _))) fun r => ?_
  cases r with
  | ok _ => exact Follows.pureE _
  | err _ => exact Follows.raiseE _

theorem Follows.negStep2 : Follows q {} negStep2 {} := by
  refine Follows.withE (fun _ _ _ _ h => by rw [h.cfg]) fun _ =>
    Follows.bindE (Follows.tryE (Follows.under _ (Follows.internalReadOp _))) fun r2 => ?_
  cases r2 with
  | ok reg => exact Follows.negStep3 reg
  | err _ => exact Follows.negStep2b

theorem Follows.negStep4 : Follows q {} negStep4 {} := by
  refine Follows.withE (fun _ _ _ _ h => by rw [h.cfg]) fun _ =>
    Follows.bindE (Follows.tryE (Follows.under _ (Follows.readRegister _))) fun r4 => ?_
  cases r4 with
  | ok _ => exact Follows.ite (Follows.pureE _) (Follows.raiseE _)
  | err _ => exact Follows.raiseE _

theorem Follows.negotiateOp : Follows q {} negotiateOp {} :=
  Follows.withE (fun _ _ _ _ h => by rw [h.session]) fun _ => Follows.ite Follows.livenessProbe.to_base
    (Follows.bindE Follows.negStep1 fun _ => Follows.bindE Follows.negStep2 fun _ => Follows.bindE Follows.negStep4 fun _ =>
      Follows.bindE (Follows.modify fun _ _ _ _ h => h.setSession fun x => { x with negotiated := true }) fun _ =>
      Follows.pureE _)

/-- The log event of `RDINT` is recorded in the sequencer state in which its last read ended (R298). -/
theorem Follows.logUnexpected : Follows q .exchanged (modifyE (logEvent .unexpectedInterruptBits)) .exchanged :=
  Follows.modify fun _ _ _ _ h => h.emit (h.frame rfl).1 _

theorem Follows.rdintLoop (c : IntStatus) (n : Nat) : Follows q {} (rdintLoop c n) {} := by
  induction n with
  | zero =>
    exact (Follows.bindE (Follows.readRegister _) fun _ => Follows.withE (fun _ _ _ _ h => by rw [h.session]) fun _ =>
      Follows.ite (Follows.bindE Follows.logUnexpected fun _ => Follows.pureE _) (Follows.pureE _)).to_base
  | succ n ih =>
    exact Follows.bindE (Follows.readRegister _).to_base fun _ =>
      Follows.withE (fun _ _ _ _ h => by rw [h.session]) fun _ => Follows.ite ih (Follows.pureE _)

theorem Follows.rdintOp (c : IntStatus) : Follows q {} (rdintOp c) {} :=
  Follows.withE (fun _ _ _ _ h => by rw [h.cfg]) fun _ => Follows.rdintLoop c _

theorem Follows.syncOp (c : IntEnable) (count : Word) : Follows q {} (syncOp c count) {} :=
  Follows.bindE (Follows.readRegister _).to_base fun _ => Follows.bindE (Follows.writeRegister _ _).to_base fun _ =>
    Follows.bindE (Follows.modify fun _ _ _ _ h => h.setSession fun x => { x with interruptLineCount := count.truncate 4 })
      fun _ => Follows.pureE _

end session

/-! ## Whole operations -/

section operations
variable {q : Bool} {T T' : List Event} {v : Live} {s s' : State}

/-- Two machines have ended alike: with the same completion, and alike in what survives. -/
def EndAlike (T T' : List Event) (t t' : State) : Prop :=
  t'.compl = t.compl ∧ Alike false T T' {} t t'

/-- Latching leaves the machines alike, in the latches of a bulk request when the same is latched in both (R38). -/
theorem Alike.latch (h : Alike false T T' {} s s') {r r' : Request}
    (hr : q = true → r'.addr = r.addr ∧ r'.len = r.len ∧ r'.buf = r.buf) :
    Alike q T T' {} { s with req := r } { s' with req := r' } :=
  { h with req := hr }

/-- The same outcome is presented alike (R209). -/
theorem Alike.present (h : Alike q T T' v s s') (r : Res Word) : EndAlike T T' (present r s) (present r s') := by
  have completed : Alike q T T' {} { s with compl := completionOf r, seq := .done }
      { s' with compl := completionOf r, seq := .done } :=
    { h.base with frame := nofun }
  exact ⟨rfl, { (completed.emit rfl (.complete (completionOf r))).setSeq .idle with req := nofun }⟩

theorem Follows.finish {m : Eng Word} (hm : Follows q {} m v) (h : Alike q T T' {} s s') :
    EndAlike T T' (finish m s) (finish m s') := by
  have discarded : ∀ {t t' : State}, Alike q T T' {} t t' → Alike q T T' {} (discard t) (discard t') := fun ht =>
    { ht with frame := nofun, reader := nofun }
  rcases hm T T' s s' h with ⟨a, t, t', e, e', ht⟩ | ⟨c, t, t', e, e', ht⟩
  · rw [finish_eq e, finish_eq e']
    exact (discarded ht.base).present _
  · rw [finish_eq e, finish_eq e']
    exact (discarded ht).present _

/-- Every host operation takes machines that are alike to machines that have ended alike: the operation reads no register
that it has not written, and of the latches those of its own operands. -/
theorem exec_endAlike {i : Instr} (hw : wireOperands i = none) (hc : chunkOperands i = none)
    (h : Alike false T T' {} s s') : ∃ t t', exec i s = .next t ∧ exec i s' = .next t' ∧ EndAlike T T' t t' := by
  have latched : ∀ r r', Alike false T T' {} { s with req := r } { s' with req := r' } := fun _ _ => h.latch nofun
  cases i with
  | dmaWrite | dmaRead | internalWrite | internalRead | terminate | repeatCmd | dmaExtWrite | dmaExtRead | singleWrite
  | singleRead | reset => nomatch hw
  | dataFirst | dataMiddle | dataLast | dataSingle => nomatch hc
  | negotiate => exact ⟨_, _, rfl, rfl, Follows.negotiateOp.finish (latched _ _)⟩
  | rdreg addr =>
    refine ⟨_, _, rfl, rfl, ?_⟩
    rw [finish_withE, finish_withE]
    exact (Follows.readRegister addr).finish (latched _ _)
  | wrreg addr wdata =>
    refine ⟨_, _, rfl, rfl, ?_⟩
    rw [finish_withE, finish_withE]
    exact (Follows.writeRegister addr wdata).finish (latched _ _)
  | rdbulk addr len buf =>
    refine ⟨_, _, rfl, rfl, ?_⟩
    have hr : bulkRejected s'.cfg len = bulkRejected s.cfg len := by rw [h.cfg]
    rw [hr]
    split
    · exact h.present _
    · exact Follows.readBulkOp.finish (h.latch fun _ => ⟨rfl, rfl, rfl⟩)
  | wrbulk addr len buf =>
    refine ⟨_, _, rfl, rfl, ?_⟩
    have hr : bulkRejected s'.cfg len = bulkRejected s.cfg len := by rw [h.cfg]
    rw [hr]
    split
    · exact h.present _
    · exact (Follows.retryOp Follows.writeBulkOnce).finish (h.latch fun _ => ⟨rfl, rfl, rfl⟩)
  | rdpend =>
    refine ⟨_, _, rfl, rfl, ?_⟩
    have ha : s'.cfg.pendingSizeAddr = s.cfg.pendingSizeAddr := by rw [h.cfg]
    rw [ha]
    split
    · exact (latched _ _).present _
    · exact (Follows.readRegister _).finish (latched _ _)
  | rdint =>
    refine ⟨_, _, rfl, rfl, ?_⟩
    have ha : s'.cfg.intStatus = s.cfg.intStatus := by rw [h.cfg]
    rw [ha]
    split
    · exact (latched _ _).present _
    · exact (Follows.rdintOp _).finish (latched _ _)
  | clrint mask =>
    refine ⟨_, _, rfl, rfl, ?_⟩
    have ha : s'.cfg.intClearAddr = s.cfg.intClearAddr := by rw [h.cfg]
    rw [ha]
    split
    · exact (latched _ _).present _
    · rw [finish_withE, finish_withE]
      exact (Follows.writeRegister _ mask).finish (latched _ _)
  | sync count =>
    refine ⟨_, _, rfl, rfl, ?_⟩
    have hm : s'.cfg.intLinesMax = s.cfg.intLinesMax := by rw [h.cfg]
    have ha : s'.cfg.intEnable = s.cfg.intEnable := by rw [h.cfg]
    rw [hm, ha]
    split
    · exact (latched _ _).present _
    · split
      · exact (latched _ _).present _
      · rw [finish_withE, finish_withE]
        exact (Follows.syncOp _ count).finish (latched _ _)
  | rstbus => exact ⟨_, _, rfl, rfl, Follows.resetBusOnce.finish (latched _ _)⟩
  | reserved => exact ⟨_, _, rfl, rfl, h.present _⟩

end operations

/-- Settles O59: what survives an operation is what machines that are `Alike` in no register agree in, and a host operation
reads no register that it has not written itself. -/
theorem nothingElseSurvivesAnOperation : Obligations.NothingElseSurvivesAnOperation := by
  intro i s s' t t' hP hw hc hcfg hsession hmem hanswers hcalls hret ht ht'
  have alike : Alike false s.trace s'.trace {} s s' :=
    { params := hP, cfg := hcfg, session := hsession, mem := hmem, answers := hanswers, calls := hcalls, ret := hret
      trace := ⟨[], by simp⟩, req := nofun, frame := nofun, reader := nofun, bulk := nofun }
  obtain ⟨u, u', hu, hu', hcompl, h⟩ := exec_endAlike hw hc alike
  obtain rfl : t = u := Host.Outcome.next.inj (ht.symm.trans hu)
  obtain rfl : t' = u' := Host.Outcome.next.inj (ht'.symm.trans hu')
  exact ⟨hcompl, h.session, h.mem, h.answers, h.trace⟩

end Sys2Proof.Machine
end

section
/-! What every instruction leaves alone (spec 10 R27, R38, spec 43 R209), the step and the reset input (spec 70 R350): an
instruction latches its operands, runs one computation within its scope, and completes. -/

namespace Sys2Proof.Machine

/-! ## Running an instruction -/

/-- The parts of the state an instruction may write, beside the datapath, the sequencer, the request latches, the completion
and the ports. -/
def scopeOf : Instr → Scope
  | .dmaWrite _ _ | .dmaRead _ _ | .internalWrite _ _ _ | .internalRead _ _ | .terminate | .repeatCmd => {}
  | .dmaExtWrite _ _ | .dmaExtRead _ _ | .singleWrite _ _ | .singleRead _ | .reset => {}
  | .dataFirst _ | .dataMiddle _ | .dataLast _ | .dataSingle _ => { bulk := true }
  | .negotiate => { retry := true, mode := true }
  | .rdreg _ | .wrreg _ _ | .rdpend | .rdint | .clrint _ => { retry := true }
  | .rdbulk _ _ _ => { retry := true, bulk := true, mem := true }
  | .wrbulk _ _ _ => { retry := true, bulk := true }
  | .sync _ => { retry := true, lines := true }
  | .rstbus | .reserved _ => {}

/-- The request latches with which the computation of an instruction begins (R38). -/
def latched (s : State) : Instr → Request
  | .dmaWrite _ _ | .dmaRead _ _ | .internalWrite _ _ _ | .internalRead _ _ | .terminate | .repeatCmd => s.req
  | .dmaExtWrite _ _ | .dmaExtRead _ _ | .singleWrite _ _ | .singleRead _ | .reset => s.req
  | .dataFirst _ | .dataMiddle _ | .dataLast _ | .dataSingle _ | .reserved _ => s.req
  | .negotiate => { s.req with op := 0x0 }
  | .rdreg addr => { s.req with op := 0x1, addr := addr }
  | .wrreg addr wdata => { s.req with op := 0x2, addr := addr, wdata := wdata }
  | .rdbulk addr len buf =>
    if bulkRejected s.cfg len then s.req else { s.req with op := 0x3, addr := addr, len := len, buf := buf }
  | .wrbulk addr len buf =>
    if bulkRejected s.cfg len then s.req else { s.req with op := 0x4, addr := addr, len := len, buf := buf }
  | .rdpend => { s.req with op := 0x5 }
  | .rdint => { s.req with op := 0x6 }
  | .clrint mask => { s.req with op := 0x7, wdata := mask }
  | .sync count => { s.req with op := 0x8, wdata := count }
  | .rstbus => { s.req with op := 0x9 }

/-- The state in which the computation of an instruction begins. -/
def begun (s : State) (i : Instr) : State :=
  { s with req := latched s i }

@[simp] theorem begun_req (s : State) (i : Instr) : (begun s i).req = latched s i := rfl

@[simp] theorem begun_trace (s : State) (i : Instr) : (begun s i).trace = s.trace := rfl

/-- `t` is the completion of a computation that began in `s` and stayed within the scope `w`. -/
def CompletedWithin (w : Scope) (s t : State) : Prop :=
  ∃ (r : Res Word) (u : State) (d : Datapath), t = present r { u with dp := d } ∧ Within w s u

theorem refuseRequest_within (w : Scope) (e : Cause) (s : State) : CompletedWithin w s (refuseRequest e s) :=
  ⟨.err e, s, s.dp, rfl, Within.refl w s⟩

theorem finishRaw_within {w : Scope} {m : Eng Word} (hm : Obeys w m) (s : State) :
    CompletedWithin w s (finishRaw m s) :=
  ⟨(m s).1, (m s).2, (m s).2.dp, rfl, hm s⟩

theorem finish_within {w : Scope} {m : Eng Word} (hm : Obeys w m) (s : State) : CompletedWithin w s (finish m s) :=
  ⟨(m s).1, (m s).2, { (m s).2.dp with cap := [], fetch := false }, rfl, hm s⟩

/-- Every instruction completes a computation within its scope. -/
theorem exec_within (i : Instr) (s : State) :
    ∃ t, exec i s = .next t ∧ CompletedWithin (scopeOf i) (begun s i) t := by
  cases i with
  | dmaWrite | dmaRead | terminate | repeatCmd | dmaExtWrite | dmaExtRead =>
    exact ⟨_, rfl, finishRaw_within (Obeys.issueCommand _ _ _) s⟩
  | internalWrite | singleWrite => exact ⟨_, rfl, finishRaw_within (Obeys.writeRegOnce _ _ _ _) s⟩
  | internalRead | singleRead => exact ⟨_, rfl, finishRaw_within (Obeys.readRegOnce _ _ _) s⟩
  | reset => exact ⟨_, rfl, finishRaw_within Obeys.resetBusOnce s⟩
  | dataFirst | dataMiddle | dataLast | dataSingle =>
    exact ⟨_, rfl, finishRaw_within (Obeys.sendChunk rfl _ _) s⟩
  | negotiate => exact ⟨_, rfl, finish_within (Obeys.negotiateOp rfl rfl) _⟩
  | rdreg => exact ⟨_, rfl, finish_within (Obeys.withE fun _ => Obeys.readRegister rfl _) _⟩
  | wrreg => exact ⟨_, rfl, finish_within (Obeys.withE fun _ => Obeys.writeRegister rfl _ _) _⟩
  | rdbulk addr len buf =>
    refine ⟨_, rfl, ?_⟩
    cases hr : bulkRejected s.cfg len <;> simp only [begun, latched, hr, if_true, Bool.false_eq_true, if_false]
    · exact finish_within (Obeys.readBulkOp rfl rfl rfl) _
    · exact refuseRequest_within _ _ _
  | wrbulk addr len buf =>
    refine ⟨_, rfl, ?_⟩
    cases hr : bulkRejected s.cfg len <;> simp only [begun, latched, hr, if_true, Bool.false_eq_true, if_false]
    · exact finish_within (Obeys.retryOp rfl (Obeys.writeBulkOnce rfl)) _
    · exact refuseRequest_within _ _ _
  | rdpend =>
    refine ⟨_, rfl, ?_⟩
    split
    · exact refuseRequest_within _ _ _
    · exact finish_within (Obeys.readRegister rfl _) _
  | rdint =>
    refine ⟨_, rfl, ?_⟩
    split
    · exact refuseRequest_within _ _ _
    · exact finish_within (Obeys.rdintOp rfl _) _
  | clrint =>
    refine ⟨_, rfl, ?_⟩
    split
    · exact refuseRequest_within _ _ _
    · exact finish_within (Obeys.withE fun _ => Obeys.writeRegister rfl _ _) _
  | sync =>
    refine ⟨_, rfl, ?_⟩
    split
    · exact refuseRequest_within _ _ _
    · split
      · exact refuseRequest_within _ _ _
      · exact finish_within (Obeys.withE fun _ => Obeys.syncOp rfl rfl _ _) _
  | rstbus => exact ⟨_, rfl, finish_within Obeys.resetBusOnce _⟩
  | reserved => exact ⟨_, rfl, refuseRequest_within _ _ _⟩

/-- What an instruction has done when it has ended. -/
theorem completedWithin_of_exec {i : Instr} {s t : State} (h : exec i s = .next t) :
    CompletedWithin (scopeOf i) (begun s i) t := by
  obtain ⟨u, hu, hw⟩ := exec_within i s
  rw [h] at hu
  exact Host.Outcome.next.inj hu ▸ hw

/-- Outside negotiation and `SYNC` the session is kept (R27). -/
theorem Within.session {w : Scope} {s t : State} (h : Within w s t) (hm : w.mode = false) (hl : w.lines = false) :
    t.session = s.session := by
  have session_ext : ∀ a b : Session, a.checksumEnabled = b.checksumEnabled → a.chunkSize = b.chunkSize →
      a.interruptLineCount = b.interruptLineCount → a.enhancedThroughputMode = b.enhancedThroughputMode →
      a.negotiated = b.negotiated → a.xferStyle = b.xferStyle → a = b := by
    rintro ⟨⟩ ⟨⟩ rfl rfl rfl rfl rfl rfl
    rfl
  exact session_ext _ _ (h.checksum hm) h.chunkSize (h.lines hl) h.enhanced (h.negotiated hm) h.xferStyle

theorem Within.sameMemory {w : Scope} {s t : State} (h : Within w s t) (hm : w.mem = false) : SameMemory s t :=
  fun a => congrArg (memRead · a) (h.mem hm)

/-! ## Completion -/

/-- Settles O41: the computation of an instruction completes nothing, and `present` adds the one completion. -/
theorem everyInstructionCompletesOnce : Obligations.EveryInstructionCompletesOnce := by
  intro i s
  obtain ⟨t, ht, r, u, d, rfl, hw⟩ := exec_within i s
  obtain ⟨ev, htrace, hnone, hcalls, hanswers⟩ := hw.ports
  have hret : u.ret = s.ret := hw.ret
  exact ⟨_, ev, ht, rfl, hret, by simp [htrace, hret], hnone, hcalls, hanswers⟩

/-! ## The step and the reset input -/

theorem leavesLatches_reserved (P : Params) {r : Request} (h : 0xA ≤ r.op.toNat) : leavesLatches P r = true := by
  simp [leavesLatches, h]

theorem leavesLatches_bulk {P : Params} {r : Request} (ho : r.op = 0x3 ∨ r.op = 0x4) (hl : bulkRejected P r.len = true) :
    leavesLatches P r = true := by
  simp only [leavesLatches, ho, hl, decide_true, Bool.and_self, Bool.or_true]

theorem leavesLatches_latched {P : Params} {r : Request} (h : r.op.toNat < 0xA)
    (hl : r.op = 0x3 ∨ r.op = 0x4 → bulkRejected P r.len = false) : leavesLatches P r = false := by
  by_cases ho : r.op = 0x3 ∨ r.op = 0x4
  · simp [leavesLatches, Nat.not_le.2 h, hl ho]
  · simp only [leavesLatches, Nat.not_le.2 h, ho, decide_false, Bool.false_and, Bool.or_self]

/-- Settles O6: the first branch of `runPacket`, and the three tests of `leavesLatches`. -/
theorem stepRunsTheDecodedInstruction : Obligations.StepRunsTheDecodedInstruction := by
  refine ⟨fun s p rest i hseq hin hf => ?_, fun s r bytes => ⟨fun h hl => ?_, fun h => ?_, fun ho hl => ?_, rfl⟩⟩
  · obtain ⟨t, ht, -⟩ := exec_within i (accept p { s with inputs := rest })
    simp only [step, if_pos hseq, hin, runPacket, hf, ht]
  · simp [accept, leavesLatches_latched h hl]
  · simp [accept, leavesLatches_reserved _ h]
  · simp [accept, leavesLatches_bulk ho hl]

/-- Settles O8: `engineReset` field by field. -/
theorem resetInputGivesResetValues : Obligations.ResetInputGivesResetValues := by
  intro s rest hseq hin
  refine ⟨engineReset { s with inputs := rest }, by simp only [step, if_pos hseq, hin], ?_⟩
  exact ⟨rfl, rfl, rfl, rfl, rfl, rfl, rfl, rfl, rfl, rfl, rfl, rfl, rfl, rfl, rfl, fun _ => rfl⟩

/-- An operation abandoned before its last event: the events up to the reset stand, and the engine is reset (R350). -/
theorem abandon_before_end (i : Instr) {n : Nat} {s u : State} {ev : List Event} (hu : u.trace = s.trace ++ ev)
    (hn : n < ev.length) : (abandon i n s u).trace = s.trace ++ ev.take n ∧
      ∃ v : State, v.cfg = s.cfg ∧ v.inputs = s.inputs ∧ abandon i n s u = engineReset v := by
  have hev : u.trace.drop s.trace.length = ev := by simp [hu]
  simp only [abandon, hev, if_neg (Nat.not_le.2 hn)]
  exact ⟨rfl, { s with
    mem := abandonedMem i s
    answers := s.answers.drop ((ev.take n).filter isTransport).length
    calls := s.calls + ((ev.take n).filter isTransport).length
    trace := s.trace ++ ev.take n }, rfl, rfl, rfl⟩

/-- Settles O9: the completion is an operation's last event, so a reset before that comes before it. -/
theorem resetAbandonsTheOperation : Obligations.ResetAbandonsTheOperation := by
  intro s t p n rest i u ev hseq hin hf hu htrace hn hst
  have hu0 : u.trace = ({ s with inputs := rest } : State).trace ++ ev := htrace
  have ht : t = abandon i n { s with inputs := rest } u := by
    simp only [step, if_pos hseq, hin, runPacket, hf, hu] at hst
    exact (Host.Outcome.next.inj hst).symm
  obtain ⟨t', ev', he, -, -, htr', hnone, -, -⟩ := everyInstructionCompletesOnce i (accept p { s with inputs := rest })
  obtain rfl : u = t' := Host.Outcome.next.inj (hu.symm.trans he)
  have hev : ev = ev' ++ [{ seq := .done, ret := s.ret, port := .complete u.compl }] := by
    simpa [htrace] using htr'
  have htake : completionsIn (ev.take n) = 0 := by
    have hle : n ≤ ev'.length := by
      rw [hev] at hn
      simpa using hn
    rw [hev, List.take_append_of_le_length hle]
    exact Nat.eq_zero_of_le_zero (hnone ▸ (List.take_sublist n ev').countP_le)
  obtain ⟨hcut, v, hcfg, hinputs, hv⟩ := abandon_before_end i hu0 hn
  rw [← ht] at hcut hv
  subst hv
  have hc : v.cfg = s.cfg := hcfg
  exact ⟨hcut, htake, hc, by rw [engineReset_session, hc], rfl, rfl, rfl, rfl, rfl, hinputs⟩

/-! ## Frames -/

/-- Settles O47: what the scope of each instruction says of the session. -/
theorem onlyNegotiationAndSynchronizeWriteTheSession : Obligations.OnlyNegotiationAndSynchronizeWriteTheSession := by
  refine ⟨fun s e => ⟨rfl, (within_recover {} s).session rfl rfl⟩, fun i s t h => ?_⟩
  obtain ⟨r, u, d, rfl, hw⟩ := completedWithin_of_exec h
  refine ⟨hw.chunkSize, hw.xferStyle, hw.enhanced, fun hi => ?_, fun hi => ?_⟩
  · have hm : (scopeOf i).mode = false := by
      cases i with
      | negotiate => exact absurd rfl hi
      | _ => rfl
    exact ⟨hw.checksum hm, hw.negotiated hm⟩
  · have hl : (scopeOf i).lines = false := by
      cases i with
      | sync w => exact absurd rfl (hi w)
      | _ => rfl
    exact hw.lines hl

/-- Settles O44: the scope of each of the six is the retry registers at most, and that of `RSTBUS` not even these. -/
theorem registerOperationFrame : Obligations.RegisterOperationFrame := by
  intro i s t h hi
  obtain ⟨r, u, d, rfl, hw⟩ := completedWithin_of_exec h
  have hretry : i = .rstbus → u.retry = s.retry := fun he => hw.retry (by rw [he]; rfl)
  rcases hi with ⟨a, rfl⟩ | ⟨a, w, rfl⟩ | rfl | rfl | ⟨w, rfl⟩ | rfl <;>
    exact ⟨hw.cfg, hw.session rfl rfl, hw.bulk rfl, hw.ret, hw.inputs, hw.sameMemory rfl, by simp [hw.req, latched],
      by simp [hw.req, latched], by simp [hw.req, latched], by simp [hw.req, latched], hretry⟩

/-- Settles O40: each rejection is the first branch of its operation. -/
theorem surroundingOperationsAreRejected : Obligations.SurroundingOperationsAreRejected := by
  intro s w
  refine ⟨fun h8 hw => ?_, fun h => ?_, fun h => ?_, fun h => ?_, fun h => ?_⟩
  · simp only [exec, execSync, h8, if_pos hw]; rfl
  · simp only [exec, execSync, h, ite_self]; rfl
  · simp only [exec, execRdpend, h]; rfl
  · simp only [exec, execRdint, h]; rfl
  · simp only [exec, execClrint, h]; rfl

end Sys2Proof.Machine
end

section
/-! What negotiation, `SYNC`, the wire commands and the bulk transfers leave alone beyond their scope: the interrupt line
count of a `SYNC` that fails (spec 46 R300), the payload and checksum registers of whatever is no register read (spec 10 R32,
spec 44 R241), and the host memory outside the buffer of a bulk read (spec 44 R240). -/

namespace Sys2Proof.Machine

/-! ## More triples -/

section triples
variable {α β : Type} {p q r e : State → Prop}

theorem Ensures.of_final {m : Eng α} (h : ∀ s, p s → q (m s).2) : Ensures p m q q := by
  intro s hs
  have ht := h s hs
  rcases hm : m s with ⟨a | c, t⟩
  · exact .inl ⟨a, t, rfl, by simpa only [hm] using ht⟩
  · exact .inr ⟨c, t, rfl, by simpa only [hm] using ht⟩

theorem Ensures.final {m : Eng α} (h : Ensures p m q q) {s : State} (hs : p s) : q (m s).2 := by
  rcases h s hs with ⟨a, t, hm, ht⟩ | ⟨c, t, hm, ht⟩
  · rwa [hm]
  · rwa [hm]

theorem Ensures.mono {p' q' e' : State → Prop} {m : Eng α} (h : Ensures p m q e) (hp : ∀ s, p' s → p s)
    (hq : ∀ s, q s → q' s) (he : ∀ s, e s → e' s) : Ensures p' m q' e' := by
  intro s hs
  rcases h s (hp s hs) with ⟨a, t, hm, ht⟩ | ⟨c, t, hm, ht⟩
  · exact .inl ⟨a, t, hm, hq t ht⟩
  · exact .inr ⟨c, t, hm, he t ht⟩

/-- A computation chosen by the state, of which the precondition is known. -/
theorem Ensures.withE_of {f : State → Eng α} (h : ∀ s, p s → Ensures p (f s) q e) : Ensures p (Machine.withE f) q e :=
  fun s hs => h s hs s hs

/-- A computation chosen by the state, which runs from that state. -/
theorem Ensures.withE_at {f : State → Eng α} (h : ∀ s, p s → Ensures (fun u => u = s) (f s) q e) :
    Ensures p (Machine.withE f) q e :=
  fun s hs => h s hs s rfl

theorem Ensures.ite {c : Prop} [Decidable c] {m n : Eng α} (hm : Ensures p m q e) (hn : Ensures p n q e) :
    Ensures p (if c then m else n) q e := by
  split
  · exact hm
  · exact hn

/-- What goes on from a value that is known to meet `v`. -/
theorem Ensures.bind_value {m : Eng α} {k : α → Eng β} {v : α → Prop} (hm : Ensures p m r e)
    (hv : ∀ s a t, m s = (.ok a, t) → v a) (hk : ∀ a, v a → Ensures r (k a) q e) : Ensures p (Machine.bindE m k) q e := by
  intro s hs
  rcases hm s hs with ⟨a, t, h, ht⟩ | ⟨c, t, h, ht⟩
  · simpa only [Machine.bindE, h] using hk a (hv s a t h) t ht
  · exact .inr ⟨c, t, by simp only [Machine.bindE, h], ht⟩

/-- What every attempt, the entry of an error and the recovery keep, the retry controller keeps (R261). -/
theorem Ensures.retryOp {op : Eng α} (hop : Ensures p op p p) (hset : ∀ s x, p s → p { s with retry := x })
    (herr : ∀ s c, p s → p (takeError c s)) (hrec : ∀ s, p s → p (recover s)) : Ensures p (retryOp op) p p := by
  have loop : ∀ n, Ensures p (retryLoop op n) p p := by
    intro n
    induction n with
    | zero => exact fun s hs => .inr ⟨s.retry.lastErr, s, rfl, hs⟩
    | succ n ih =>
      intro s hs
      rcases hop s hs with ⟨a, t, h, ht⟩ | ⟨c, t, h, ht⟩
      · exact .inl ⟨a, t, retryLoop_ok h, ht⟩
      · cases hc : retryable c with
        | true =>
          rw [retryLoop_again h hc]
          exact ih _ (hset _ _ (hrec _ (herr t c ht)))
        | false => exact .inr ⟨c, _, retryLoop_stop h hc, herr t c ht⟩
  exact fun s hs => loop s.cfg.maxRetry _ (hset s _ hs)

end triples

/-! ## The interrupt line count (R300) -/

/-- `SYNC` records its count as the last thing it does, and an error before that leaves the count alone. -/
theorem syncOp_lines (c : IntEnable) (count : Word) (n : BitVec 4) :
    Ensures (fun s => s.session.interruptLineCount = n) (syncOp c count)
      (fun t => t.session.interruptLineCount = count.truncate 4) (fun t => t.session.interruptLineCount = n) := by
  have kept : ∀ s t, Within .sessionKept s t → s.session.interruptLineCount = n → t.session.interruptLineCount = n :=
    fun s t hw hs => (hw.lines rfl).trans hs
  exact Ensures.bindE (Ensures.of_obeys (Obeys.readRegister rfl _) kept) fun _ =>
    Ensures.bindE (Ensures.of_obeys (Obeys.writeRegister rfl _ _) kept) fun _ =>
    Ensures.bindE (Ensures.modify fun _ _ => rfl) fun _ => Ensures.pureE fun _ h => h

theorem exec_sync_lines {s t : State} {count : Word} (h : exec (.sync count) s = .next t) :
    t.compl.ok = true ∧ t.session.interruptLineCount = count.truncate 4 ∨
      t.compl.ok = false ∧ t.session.interruptLineCount = s.session.interruptLineCount := by
  have ht := Host.Outcome.next.inj h
  split at ht
  · exact ht ▸ .inr ⟨rfl, rfl⟩
  · split at ht
    · exact ht ▸ .inr ⟨rfl, rfl⟩
    · rename_i c _
      rw [finish_withE] at ht
      rcases syncOp_lines c count _ { s with req := { s.req with op := 0x8, wdata := count } } rfl with
        ⟨v, u, hu, hl⟩ | ⟨e, u, hu, hl⟩
      · rw [finish_eq hu] at ht
        exact ht ▸ .inl ⟨rfl, hl⟩
      · rw [finish_eq hu] at ht
        exact ht ▸ .inr ⟨rfl, hl⟩

/-- Settles O45: the scopes of the two, and for `SYNC` the order of its steps. -/
theorem negotiationAndSynchronizeFrame : Obligations.NegotiationAndSynchronizeFrame := by
  intro i s t h hi
  obtain ⟨r, u, d, ht, hw⟩ := completedWithin_of_exec h
  rcases hi with rfl | ⟨w, rfl⟩
  · subst ht
    exact ⟨hw.cfg, hw.bulk rfl, hw.ret, hw.inputs, hw.sameMemory rfl, by simp [hw.req, latched], by simp [hw.req, latched],
      by simp [hw.req, latched], hw.chunkSize, hw.xferStyle, hw.enhanced,
      fun _ => ⟨hw.lines rfl, by simp [hw.req, latched]⟩, fun hn => absurd rfl hn, nofun⟩
  · have hlines := exec_sync_lines h
    subst ht
    refine ⟨hw.cfg, hw.bulk rfl, hw.ret, hw.inputs, hw.sameMemory rfl, by simp [hw.req, latched],
      by simp [hw.req, latched], by simp [hw.req, latched], hw.chunkSize, hw.xferStyle, hw.enhanced, nofun,
      fun _ => ⟨hw.checksum rfl, hw.negotiated rfl, fun hok => ?_⟩, fun w' he hok => ?_⟩
    · rcases hlines with ⟨h1, -⟩ | ⟨-, hl⟩
      · rw [hok] at h1
        nomatch h1
      · exact hl
    · obtain rfl := Instr.sync.inj he
      rcases hlines with ⟨-, hl⟩ | ⟨h1, -⟩
      · exact hl
      · rw [hok] at h1
        nomatch h1

/-! ## The payload and checksum registers (R32, R241) -/

/-- `t` has the configuration of `s`, its payload register and its checksum registers. -/
structure KeepsData (s t : State) : Prop where
  cfg : t.cfg = s.cfg
  payload : t.dp.rPayload = s.dp.rPayload
  ck : t.dp.rCk = s.dp.rCk
  ckValid : t.dp.rCkValid = s.dp.rCkValid

/-- The computation keeps them, from wherever they are those of `s`. -/
def DataKept {α : Type} (s : State) (m : Eng α) : Prop :=
  Ensures (KeepsData s) m (KeepsData s) (KeepsData s)

section data
variable {α β : Type} {s : State}

theorem KeepsData.refl (s : State) : KeepsData s s :=
  ⟨rfl, rfl, rfl, rfl⟩

theorem KeepsData.trans {t u : State} (h : KeepsData s t) (k : KeepsData t u) : KeepsData s u :=
  ⟨k.cfg.trans h.cfg, k.payload.trans h.payload, k.ck.trans h.ck, k.ckValid.trans h.ckValid⟩

theorem DataKept.pureE (a : α) : DataKept s (pureE a) :=
  Ensures.pureE fun _ h => h

theorem DataKept.raiseE (c : Cause) : DataKept s (raiseE c : Eng α) :=
  Ensures.raiseE fun _ h => h

theorem DataKept.modify {f : State → State} (hf : ∀ t, KeepsData t (f t)) : DataKept s (modifyE f) :=
  Ensures.modify fun t h => h.trans (hf t)

theorem DataKept.bindE {m : Eng α} {k : α → Eng β} (hm : DataKept s m) (hk : ∀ a, DataKept s (k a)) :
    DataKept s (bindE m k) :=
  Ensures.bindE hm hk

theorem DataKept.withE {f : State → Eng α} (h : ∀ t, DataKept s (f t)) : DataKept s (withE f) :=
  Ensures.withE h

theorem DataKept.ite {c : Prop} [Decidable c] {m n : Eng α} (hm : DataKept s m) (hn : DataKept s n) :
    DataKept s (if c then m else n) :=
  Ensures.ite hm hn

/-- A computation that writes no response register at all. -/
theorem DataKept.of_regs {m : Eng α} (hm : Obeys .sessionKept m)
    (hr : ∀ t, responseRegs (m t).2.dp = responseRegs t.dp) : DataKept s m :=
  Ensures.of_final fun t h =>
    { cfg := (hm t).cfg.trans h.cfg
      payload := (congrArg ResponseRegs.payload (hr t)).trans h.payload
      ck := (congrArg ResponseRegs.ck (hr t)).trans h.ck
      ckValid := (congrArg ResponseRegs.ckValid (hr t)).trans h.ckValid }

theorem DataKept.readNext (n : Nat) (w : Where) : DataKept s (readNext n w) :=
  DataKept.of_regs (Obeys.readNext n w) fun _ => (readNext_regs rfl).1

theorem DataKept.setSeq (q : Seq) : DataKept s (modifyE (setSeq q)) :=
  DataKept.modify fun _ => ⟨rfl, rfl, rfl, rfl⟩

theorem DataKept.scanLoop (n : Nat) : DataKept s (scanLoop n) := by
  induction n with
  | zero => exact DataKept.raiseE _
  | succ n ih =>
    exact DataKept.bindE (DataKept.readNext _ _) fun _ => DataKept.bindE (DataKept.modify fun _ => ⟨rfl, rfl, rfl, rfl⟩) fun _ =>
      DataKept.withE fun _ => DataKept.ite (DataKept.modify fun _ => ⟨rfl, rfl, rfl, rfl⟩) ih

theorem DataKept.scanSentinel (q : Seq) : DataKept s (scanSentinel q) :=
  DataKept.bindE (DataKept.modify fun _ => ⟨rfl, rfl, rfl, rfl⟩) fun _ => DataKept.withE fun _ => DataKept.scanLoop _

theorem DataKept.parseSkip (k : Cmd) : DataKept s (parseSkip k) := by
  unfold Machine.parseSkip
  split
  · exact DataKept.bindE (DataKept.setSeq _) fun _ => DataKept.bindE (DataKept.readNext _ _) fun _ =>
      DataKept.pureE _
  · exact DataKept.pureE _

theorem DataKept.parseEcho : DataKept s parseEcho :=
  DataKept.bindE (DataKept.setSeq _) fun _ => DataKept.bindE (DataKept.readNext _ _) fun _ =>
    DataKept.bindE (DataKept.modify fun _ => ⟨rfl, rfl, rfl, rfl⟩) fun _ =>
    DataKept.withE fun _ => DataKept.ite (DataKept.pureE _) (DataKept.raiseE _)

theorem DataKept.parseStatus : DataKept s parseStatus :=
  DataKept.bindE (DataKept.setSeq _) fun _ => DataKept.bindE (DataKept.readNext _ _) fun _ =>
    DataKept.bindE (DataKept.modify fun _ => ⟨rfl, rfl, rfl, rfl⟩) fun _ =>
    DataKept.withE fun _ => DataKept.ite (DataKept.pureE _) (DataKept.raiseE _)

/-- Behind the status only a register read takes data into registers (R177, R178). -/
theorem DataKept.parseBody {k : Cmd} (hk : classOf k ≠ .registerRead) (st : Byte) : DataKept s (parseBody k st) := by
  unfold Machine.parseBody
  split
  · exact DataKept.pureE _
  · exact DataKept.pureE _
  · rename_i hc
    exact absurd hc hk
  · exact DataKept.bindE (DataKept.scanSentinel _) fun _ => DataKept.bindE (DataKept.modify fun _ => ⟨rfl, rfl, rfl, rfl⟩) fun _ =>
      DataKept.pureE _

theorem DataKept.cmdExchange (hP : paramsWf s.cfg = true) {k : Cmd} (hk : classOf k ≠ .registerRead)
    (addr data size : Word) (cl : Bool) : DataKept s (cmdExchange (opcOf s.cfg.opc k) addr data size cl) := by
  refine DataKept.bindE (DataKept.of_regs (Obeys.buildFrame _ _ _ _ _) fun _ => buildFrame_regs rfl) fun _ =>
    DataKept.bindE (DataKept.of_regs Obeys.exchange fun _ => exchange_regs rfl) fun _ => Ensures.withE_of fun t ht => ?_
  rw [ht.cfg, cmdOfByte_opcOf hP k]
  exact DataKept.bindE (DataKept.parseSkip k) fun _ => DataKept.bindE DataKept.parseEcho fun _ =>
    DataKept.bindE DataKept.parseStatus fun st => DataKept.parseBody hk st

theorem KeepsData.recover (hP : paramsWf s.cfg = true) {t : State} (h : KeepsData s t) : KeepsData s (recover t) := by
  have reset : DataKept s resetBusOnce := Ensures.withE_of fun u hu => by
    rw [hu.cfg]
    exact DataKept.bindE (DataKept.cmdExchange hP (k := .reset) (by decide) 0 0 0 false) fun _ => DataKept.pureE _
  unfold Machine.recover
  rcases reset { delayEvent (Machine.setSeq .retryDelayA t) with
      seq := .retryReset, ret := .retryReset :: (delayEvent (Machine.setSeq .retryDelayA t)).ret } { h with } with
    ⟨a, u, hu, hd⟩ | ⟨c, u, hu, hd⟩
  · simp only [under, hu]
    exact { hd with }
  · simp only [under, hu]
    exact { hd with }

theorem DataKept.retryOp (hP : paramsWf s.cfg = true) {op : Eng α} (hop : DataKept s op) : DataKept s (retryOp op) :=
  Ensures.retryOp hop (fun _ _ h => { h with }) (fun _ _ h => { h with }) fun _ h => h.recover hP

theorem DataKept.writeChunks (n : Nat) : DataKept s (writeChunks n) := by
  induction n with
  | zero => exact DataKept.pureE _
  | succ n ih =>
    refine DataKept.withE fun _ => DataKept.ite (DataKept.bindE (DataKept.withE fun _ => ?_) fun _ => ih)
      (DataKept.pureE _)
    refine DataKept.bindE (DataKept.bindE (DataKept.modify fun _ => ⟨rfl, rfl, rfl, rfl⟩) fun _ => DataKept.withE fun _ => ?_) fun _ =>
      DataKept.modify fun _ => ⟨rfl, rfl, rfl, rfl⟩
    exact DataKept.bindE (DataKept.of_regs (Obeys.transmit _) fun _ => congrArg responseRegs (transport_regs _ _ _)) fun _ =>
      DataKept.pureE _

theorem DataKept.writeBulkOnce (hP : paramsWf s.cfg = true) : DataKept s writeBulkOnce := by
  refine DataKept.bindE (DataKept.modify fun _ => ⟨rfl, rfl, rfl, rfl⟩) fun _ => Ensures.withE_of fun t ht => ?_
  rw [ht.cfg]
  exact DataKept.bindE (DataKept.cmdExchange hP (k := .dmaExtWrite) (by decide) _ _ _ _) fun _ =>
    DataKept.bindE (DataKept.writeChunks _) fun _ => DataKept.pureE _

theorem DataKept.readChunk : DataKept s readChunk := by
  refine DataKept.withE fun t => DataKept.bindE (DataKept.modify fun _ => ⟨rfl, rfl, rfl, rfl⟩) fun _ => DataKept.bindE ?_ fun _ =>
    DataKept.bindE (DataKept.setSeq _) fun _ => DataKept.bindE (DataKept.readNext _ _) fun b =>
    DataKept.bindE (DataKept.modify fun _ => ⟨rfl, rfl, rfl, rfl⟩) fun _ => DataKept.bindE ?_ fun _ =>
    DataKept.modify fun _ => ⟨rfl, rfl, rfl, rfl⟩
  · exact DataKept.ite (DataKept.pureE _) (DataKept.scanSentinel _)
  · exact DataKept.withE fun _ => DataKept.ite (DataKept.bindE (DataKept.setSeq _) fun _ =>
      DataKept.bindE (DataKept.readNext _ _) fun _ => DataKept.pureE _) (DataKept.pureE _)

theorem DataKept.readChunks (n : Nat) : DataKept s (readChunks n) := by
  induction n with
  | zero => exact DataKept.pureE _
  | succ n ih =>
    exact DataKept.withE fun _ => DataKept.ite (DataKept.bindE DataKept.readChunk fun _ => ih) (DataKept.pureE _)

theorem DataKept.readBulkOnce (hP : paramsWf s.cfg = true) : DataKept s readBulkOnce := by
  refine DataKept.bindE (DataKept.modify fun _ => ⟨rfl, rfl, rfl, rfl⟩) fun _ => Ensures.withE_of fun t ht => ?_
  rw [ht.cfg]
  exact DataKept.bindE (DataKept.cmdExchange hP (k := .dmaExtRead) (by decide) _ _ _ _) fun _ =>
    DataKept.bindE (DataKept.modify fun _ => ⟨rfl, rfl, rfl, rfl⟩) fun _ => DataKept.bindE (DataKept.readChunks _) fun _ =>
    DataKept.bindE (DataKept.modify fun _ => ⟨rfl, rfl, rfl, rfl⟩) fun _ => DataKept.pureE _

end data

/-! ## The wire commands -/

/-- A wire command that is no register read is its exchange, completed without a value. -/
theorem exec_command {i : Instr} {k : Cmd} {addr data size : Word} {cl : Bool}
    (hi : wireOperands i = some (k, addr, data, size, cl)) (hk : classOf k ≠ .registerRead) (s : State) :
    exec i s =
      .next (finishRaw (bindE (cmdExchange (opcOf s.cfg.opc k) addr data size cl) fun _ => pureE 0) s) := by
  cases i with
  | internalRead | singleRead => cases hi; exact absurd rfl hk
  | dmaWrite | dmaRead | internalWrite | terminate | repeatCmd | dmaExtWrite | dmaExtRead | singleWrite | reset =>
    cases hi; rfl
  | _ => nomatch hi

/-- A wire command that is a register read is one attempt of it, completed with the value. -/
theorem exec_registerRead {i : Instr} {k : Cmd} {addr data size : Word} {cl : Bool}
    (hi : wireOperands i = some (k, addr, data, size, cl)) (hk : classOf k = .registerRead) (s : State) :
    exec i s = .next (finishRaw (readRegOnce (opcOf s.cfg.opc k) addr cl) s) ∧ data = 0 ∧ size = 0 := by
  cases i with
  | internalRead | singleRead => cases hi; exact ⟨rfl, rfl, rfl⟩
  | dmaWrite | dmaRead | internalWrite | terminate | repeatCmd | dmaExtWrite | dmaExtRead | singleWrite | reset =>
    cases hi; nomatch hk
  | _ => nomatch hi

theorem wire_scope {i : Instr} {x : Cmd × Word × Word × Word × Bool} (hi : wireOperands i = some x) (s : State) :
    scopeOf i = {} ∧ latched s i = s.req := by
  cases i with
  | dmaWrite | dmaRead | internalWrite | internalRead | terminate | repeatCmd | dmaExtWrite | dmaExtRead | singleWrite
  | singleRead | reset => exact ⟨rfl, rfl⟩
  | _ => nomatch hi

/-- Settles O42: the scope of a wire command is empty, and its exchange keeps the data registers. -/
theorem wireCommandFrame : Obligations.WireCommandFrame := by
  intro i k addr data size cl s t hi h
  have hdata : paramsWf s.cfg = true → classOf k ≠ .registerRead → KeepsData s t := by
    intro hP hk
    rw [exec_command hi hk] at h
    have kept : DataKept s (bindE (cmdExchange (opcOf s.cfg.opc k) addr data size cl) fun _ => pureE (0 : Word)) :=
      DataKept.bindE (DataKept.cmdExchange hP hk addr data size cl) fun _ => DataKept.pureE _
    exact Host.Outcome.next.inj h ▸ { Ensures.final kept (KeepsData.refl s) with }
  obtain ⟨r, u, d, rfl, hw⟩ := completedWithin_of_exec h
  obtain ⟨hscope, hreq⟩ := wire_scope hi s
  rw [hscope, begun, hreq] at hw
  refine ⟨hw.cfg, hw.session rfl rfl, hw.bulk rfl, hw.retry rfl, hw.req, hw.ret, hw.inputs, hw.sameMemory rfl,
    fun hP hk => ?_⟩
  obtain ⟨-, hp, hc, hv⟩ := hdata hP hk
  exact ⟨hp, hc, hv⟩

/-! ## The memory outside the buffer of a bulk read (R240) -/

/-- `t` has the request of `s` and its host memory outside the buffer the request names. -/
structure BufferOnly (s t : State) : Prop where
  req : t.req = s.req
  mem : ∀ a : Nat, ¬ (bufAddr s.req.buf 0 ≤ a ∧ a < bufAddr s.req.buf 0 + s.req.len.toNat) →
    memRead t.mem a = memRead s.mem a

/-- During an attempt of a bulk read: the length transferred is at most that of the request. -/
structure InTransfer (s t : State) : Prop extends BufferOnly s t where
  len : t.bulk.len.toNat ≤ s.req.len.toNat

/-- The next `n` bytes of the transfer lie within the buffer. -/
structure RoomFor (n : Nat) (s t : State) : Prop extends InTransfer s t where
  room : t.bulk.off.toNat + n ≤ s.req.len.toNat

section buffer
variable {α : Type} {s t u : State} {n : Nat}

theorem BufferOnly.of_within {w : Scope} (hm : w.mem = false) (hw : Within w t u) (h : BufferOnly s t) :
    BufferOnly s u :=
  ⟨hw.req.trans h.req, fun a ha => (hw.sameMemory hm a).trans (h.mem a ha)⟩

theorem InTransfer.of_within (hw : Within {} t u) (h : InTransfer s t) : InTransfer s u :=
  { h.toBufferOnly.of_within rfl hw with len := by rw [hw.bulk rfl]; exact h.len }

theorem RoomFor.of_within (hw : Within {} t u) (h : RoomFor n s t) : RoomFor n s u :=
  { h.toInTransfer.of_within hw with room := by rw [hw.bulk rfl]; exact h.room }

theorem RoomFor.of_obeys {m : Eng α} (hm : Obeys {} m) : Ensures (RoomFor n s) m (RoomFor n s) (BufferOnly s) :=
  (Ensures.of_obeys hm fun _ _ => RoomFor.of_within).mono (fun _ h => h) (fun _ h => h) fun _ h => h.toBufferOnly

theorem InTransfer.of_obeys {m : Eng α} (hm : Obeys {} m) : Ensures (InTransfer s) m (InTransfer s) (BufferOnly s) :=
  (Ensures.of_obeys hm fun _ _ => InTransfer.of_within).mono (fun _ h => h) (fun _ h => h) fun _ h => h.toBufferOnly

/-- Inside the transfer the next chunk has room. -/
theorem InTransfer.roomFor (h : InTransfer s t) (ho : t.bulk.off.toNat < t.bulk.len.toNat) :
    RoomFor (chunkLen t) s t :=
  { h with
    room := by
      have hl := h.len
      unfold chunkLen
      omega }

theorem bufAddr_eq_add (buf : Word) (i : Nat) : bufAddr buf i = bufAddr buf 0 + i := by
  simp only [bufAddr, Nat.add_zero]

/-- Bytes stored where they have room go into the buffer. -/
theorem RoomFor.storeChunk {p : List Byte} (h : RoomFor p.length s t) : InTransfer s (storeChunk p t) where
  req := h.req
  mem a ha := by
    have hout : ¬ (bufAddr t.req.buf t.bulk.off.toNat ≤ a ∧ a < bufAddr t.req.buf t.bulk.off.toNat + p.length) := by
      have hr := h.room
      rw [h.req, bufAddr_eq_add]
      omega
    rw [storeChunk_mem, memRead_memWriteBytes_out _ _ hout]
    exact h.mem a ha
  len := h.len

end buffer

/-- A transport call captures as many bytes as it asks for (R13). -/
theorem transport_length {n : Nat} {ev : Bool → List Byte → PortEvent} {s t : State} {b : List Byte}
    (h : transport n ev s = (.ok b, t)) : b.length = n := by
  unfold transport at h
  dsimp only at h
  split at h
  · cases h
    unfold nextAnswer
    split <;> exact answerBytes_length _ _ _ _
  · nomatch h

/-- The reader delivers as many bytes as it is asked for (R171). -/
theorem readNext_length {n : Nat} {w : Where} {s t : State} {b : List Byte} (h : readNext n w s = (.ok b, t)) :
    b.length = n := by
  by_cases hc : s.dp.cap.length < n
  · cases hf : s.dp.fetch with
    | false =>
      rw [readNext_exhausted hc hf] at h
      nomatch h
    | true =>
      rw [readNext_fetched hc hf] at h
      rcases hr : receive (n - s.dp.cap.length) { s with dp := { s.dp with cap := s.dp.cap.drop n } } with ⟨a | c, u⟩
      · have ha := transport_length hr
        simp only [bindE, hr, pureE] at h
        cases h
        rw [List.length_append, List.length_take]
        omega
      · simp only [bindE, hr] at h
        nomatch h
  · rw [readNext_captured hc] at h
    cases h
    rw [List.length_take]
    omega

/-- One pass of the read loop inside the transfer (R237). -/
theorem readChunk_inTransfer (s : State) :
    Ensures (fun t => InTransfer s t ∧ t.bulk.off.toNat < t.bulk.len.toNat) readChunk (InTransfer s) (BufferOnly s) := by
  refine Ensures.withE_at fun t ⟨ht, ho⟩ => ?_
  refine Ensures.bindE (r := RoomFor (chunkLen t) s)
    (Ensures.modify (by rintro u rfl; exact { ht.roomFor ho with })) fun _ => Ensures.bindE (RoomFor.of_obeys ?_) fun _ =>
    Ensures.bindE (RoomFor.of_obeys (Obeys.setSeq _)) fun _ =>
    Ensures.bind_value (RoomFor.of_obeys (Obeys.readNext _ _)) (v := fun b => b.length = chunkLen t)
      (fun _ _ _ => readNext_length) fun b hb =>
    Ensures.bindE (Ensures.modify fun u hu => RoomFor.storeChunk (hb ▸ hu)) fun _ =>
    Ensures.bindE (InTransfer.of_obeys ?_) fun _ => Ensures.modify fun _ h => { h with }
  · exact Obeys.ite (Obeys.pureE _) (Obeys.scanSentinel _)
  · exact Obeys.withE fun _ => Obeys.ite (Obeys.bindE (Obeys.setSeq _) fun _ =>
      Obeys.bindE (Obeys.readNext _ _) fun _ => Obeys.pureE _) (Obeys.pureE _)

theorem readChunks_inTransfer (s : State) (n : Nat) :
    Ensures (InTransfer s) (readChunks n) (InTransfer s) (BufferOnly s) := by
  induction n with
  | zero => exact Ensures.pureE fun _ h => h
  | succ n ih =>
    intro t ht
    by_cases ho : t.bulk.off.toNat < t.bulk.len.toNat
    · have := Ensures.bindE (readChunk_inTransfer s) (fun _ => ih) t ⟨ht, ho⟩
      simpa only [readChunks, withE, if_pos ho] using this
    · exact .inl ⟨(), t, by simp only [readChunks, withE, if_neg ho, pureE], ht⟩

/-- One attempt of a bulk read, whatever the environment answers (R237, R240). -/
theorem readBulkOnce_bufferOnly (s : State) : Ensures (BufferOnly s) readBulkOnce (BufferOnly s) (BufferOnly s) := by
  refine Ensures.bindE (r := InTransfer s) (Ensures.modify fun t ht => ?_) fun _ => Ensures.withE fun t =>
    Ensures.bindE (InTransfer.of_obeys (Obeys.cmdExchange _ _ _ _ _)) fun _ =>
    Ensures.bindE (InTransfer.of_obeys (Obeys.modifyDp _)) fun _ => Ensures.bindE (readChunks_inTransfer s _) fun _ =>
    Ensures.bindE (InTransfer.of_obeys (Obeys.modifyDp _)) fun _ => Ensures.pureE fun _ h => h.toBufferOnly
  exact
    { ht with
      len := by
        rw [startBulk_bulk, ht.req]
        simpa using Nat.mod_le _ _ }

theorem freeBytes_length (call i n : Nat) : (freeBytes call i n).length = n := by
  induction n generalizing i with
  | zero => rfl
  | succ n ih => simp [freeBytes, ih]

/-- A wrapped bulk read writes nothing outside its buffer, whether it succeeds or fails (R240). -/
theorem readBulkOp_bufferOnly (s : State) : BufferOnly s (readBulkOp s).2 := by
  have kept : Ensures (BufferOnly s) (retryOp readBulkOnce) (BufferOnly s) (BufferOnly s) :=
    Ensures.retryOp (readBulkOnce_bufferOnly s) (fun _ _ h => { h with }) (fun _ _ h => { h with })
      fun t h => h.of_within (w := {}) rfl (within_recover _ t)
  rcases kept s ⟨rfl, fun _ _ => rfl⟩ with ⟨v, t, h, ht⟩ | ⟨c, t, h, ht⟩
  · simp only [readBulkOp, h, spoilOnFailure]
    exact ht
  · simp only [readBulkOp, h, spoilOnFailure]
    refine ⟨ht.req, fun a ha => ?_⟩
    rw [spoilBuffer_mem, ht.req, memRead_memWriteBytes_out _ _ (by rw [freeBytes_length]; exact ha)]
    exact ht.mem a ha

/-- A wrapped bulk transfer keeps the payload and checksum registers (R241). -/
theorem readBulkOp_data {s : State} (hP : paramsWf s.cfg = true) : KeepsData s (readBulkOp s).2 := by
  rcases DataKept.retryOp hP (DataKept.readBulkOnce hP) s (KeepsData.refl s) with ⟨v, t, h, ht⟩ | ⟨c, t, h, ht⟩
  · simpa only [readBulkOp, h, spoilOnFailure] using ht
  · simp only [readBulkOp, h, spoilOnFailure]
    exact { ht with }

/-- The request of a bulk transfer latched (R38). -/
def latchBulk (op : BitVec 4) (addr len buf : Word) (s : State) : State :=
  { s with req := { s.req with op := op, addr := addr, len := len, buf := buf } }

theorem exec_rejected {i : Instr} {s t : State} {addr len buf : Word} (hr : bulkRejected s.cfg len = true)
    (hi : i = .wrbulk addr len buf ∨ i = .rdbulk addr len buf) (h : exec i s = .next t) : t = refuseRequest .rejected s := by
  rcases hi with rfl | rfl <;>
    simpa only [exec, execWrbulk, execRdbulk, hr, if_true, Host.Outcome.next.injEq, eq_comm] using h

theorem exec_wrbulk_admitted {s : State} {addr len buf : Word} (hr : bulkRejected s.cfg len = false) :
    exec (.wrbulk addr len buf) s = .next (finish (retryOp writeBulkOnce)
      (latchBulk 0x4 addr len buf s)) := by
  simp only [exec, execWrbulk, latchBulk, hr, Bool.false_eq_true, if_false]

theorem exec_rdbulk_admitted {s : State} {addr len buf : Word} (hr : bulkRejected s.cfg len = false) :
    exec (.rdbulk addr len buf) s = .next (finish readBulkOp
      (latchBulk 0x3 addr len buf s)) := by
  simp only [exec, execRdbulk, latchBulk, hr, Bool.false_eq_true, if_false]

theorem bulk_data {i : Instr} {s t : State} {addr len buf : Word} (hP : paramsWf s.cfg = true)
    (hi : i = .wrbulk addr len buf ∨ i = .rdbulk addr len buf) (h : exec i s = .next t) : KeepsData s t := by
  cases hr : bulkRejected s.cfg len with
  | true => exact exec_rejected hr hi h ▸ ⟨rfl, rfl, rfl, rfl⟩
  | false =>
    rcases hi with rfl | rfl
    · rw [exec_wrbulk_admitted hr] at h
      exact Host.Outcome.next.inj h ▸ { Ensures.final (DataKept.retryOp
        (s := latchBulk 0x4 addr len buf s) hP
        (DataKept.writeBulkOnce hP)) (KeepsData.refl _) with }
    · rw [exec_rdbulk_admitted hr] at h
      exact Host.Outcome.next.inj h ▸ { readBulkOp_data
        (s := latchBulk 0x3 addr len buf s) hP with }

/-- Settles O46: a rejected request changes no memory, `WRBULK` has none in its scope, and `RDBULK` only that of its buffer. -/
theorem bulkTransferFrame : Obligations.BulkTransferFrame := by
  intro i s t addr len buf h hi
  have hdata : paramsWf s.cfg = true → KeepsData s t := fun hP => bulk_data hP hi h
  have hrejected : bulkRejected s.cfg len = true → SameMemory s t := fun hr => exec_rejected hr hi h ▸ fun _ => rfl
  have hread : i = .rdbulk addr len buf → ∀ a : Nat, ¬ (bufAddr buf 0 ≤ a ∧ a < bufAddr buf 0 + len.toNat) →
      memRead t.mem a = memRead s.mem a := by
    rintro rfl a ha
    cases hr : bulkRejected s.cfg len with
    | true => exact hrejected hr a
    | false =>
      rw [exec_rdbulk_admitted hr] at h
      exact Host.Outcome.next.inj h ▸ (readBulkOp_bufferOnly _).mem a ha
  obtain ⟨r, u, d, rfl, hw⟩ := completedWithin_of_exec h
  have hscope : (scopeOf i).mode = false ∧ (scopeOf i).lines = false := by rcases hi with rfl | rfl <;> exact ⟨rfl, rfl⟩
  have hlatch : (latched s i).wdata = s.req.wdata := by
    rcases hi with rfl | rfl
    all_goals
      unfold latched
      dsimp only
      split <;> rfl
  have hwrite : i = .wrbulk addr len buf → ∀ a, memRead u.mem a = memRead s.mem a := by
    rintro rfl
    exact hw.sameMemory rfl
  refine ⟨hw.cfg, hw.session hscope.1 hscope.2, hw.ret, hw.inputs, (congrArg Request.wdata hw.req).trans hlatch,
    fun hP => ?_, hwrite, hrejected, fun a ha => ?_⟩
  · obtain ⟨-, hp, hc, hv⟩ := hdata hP
    exact ⟨hp, hc, hv⟩
  · rcases hi with he | he
    · exact hwrite he a
    · exact hread he a ha

end Sys2Proof.Machine
end

section
/-! The parser on a fixed capture (spec 42 R170 to R182, R188): the reader holds every byte and may not fetch, so each field is
taken from the capture, what is behind the fields stays there, and no port event occurs. -/

namespace Sys2Proof.Machine

/-! ## Fields that are captured already (R171) -/

theorem serve_captured {q : Nat} {fs : List (List Byte)} (h : fs.flatten.length ≤ q) : serve q fs = [] := by
  induction fs generalizing q with
  | nil => rfl
  | cons f fs ih =>
    rw [List.flatten_cons, List.length_append] at h
    rw [serve, if_pos (by omega), ih (by omega)]

/-- Fields are taken without a port event exactly when they are captured. -/
theorem servePorts_eq_nil {q : Nat} {fs : List (List Byte)} : servePorts q fs = [] ↔ fs.flatten.length ≤ q := by
  induction fs generalizing q with
  | nil => simp [servePorts]
  | cons f fs ih =>
    rw [List.flatten_cons, List.length_append, servePorts]
    split
    · rw [ih]
      omega
    · simp only [reduceCtorEq, false_iff]
      omega

/-- The state in which the parser starts on a fixed capture: `FB[0]` the opcode, fetching off (R188). -/
def loaded (opcode : Byte) (raw : List Byte) (s : State) : State :=
  { s with dp := { s.dp with fb := { s.dp.fb with b0 := opcode }, cap := raw, fetch := false } }

@[simp] theorem loaded_cfg (opcode : Byte) (raw : List Byte) (s : State) : (loaded opcode raw s).cfg = s.cfg := rfl
@[simp] theorem loaded_session (opcode : Byte) (raw : List Byte) (s : State) :
    (loaded opcode raw s).session = s.session := rfl
@[simp] theorem loaded_trace (opcode : Byte) (raw : List Byte) (s : State) :
    (loaded opcode raw s).trace = s.trace := rfl

section capture
variable {s t : State} {k : Cmd} {opcode : Byte} {q : Nat} {fs fs' later : List (List Byte)}

theorem parseLoaded_eq_parseResponse (opcode : Byte) (raw : List Byte) (s : State) :
    parseLoaded opcode raw s = parseResponse opcode (loaded opcode raw s) := rfl

/-- The four steps of the parser (R180). -/
theorem parseLoaded_eq (hP : paramsWf s.cfg = true) (k : Cmd) (raw : List Byte) :
    parseLoaded (opcOf s.cfg.opc k) raw s =
      bindE (parseSkip k) (fun _ => bindE parseEcho fun _ => bindE parseStatus fun st => parseBody k st)
        (loaded (opcOf s.cfg.opc k) raw s) := by
  have hk : cmdOfByte (loaded (opcOf s.cfg.opc k) raw s).cfg.opc (opcOf s.cfg.opc k) = some k := cmdOfByte_opcOf hP k
  simp only [parseLoaded_eq_parseResponse, parseResponse, withE, hk]

/-- Behind the fields of a fixed capture there is nothing to fetch. -/
theorem ready_loaded (opcode : Byte) (s : State) (fs later : List (List Byte)) :
    Ready (loaded opcode (fs ++ later).flatten s) (fs ++ later).flatten.length fs
      { later := later, extra := [], more := s.answers } where
  cap := by simp [loaded]
  len := by simp
  answers := by rw [serve_captured (Nat.le_refl _)]; rfl
  fetch := .inr (by simp)

/-- From a fixed capture the reader takes fields without a port event, and what is behind them stays captured. -/
theorem Advances.of_loaded
    (h : Advances (loaded opcode fs.flatten s) t fs.flatten.length fs q fs' { later := [], extra := [], more := s.answers }) :
    t.dp.cap = fs'.flatten ∧ t.dp.fetch = false ∧ t.trace = s.trace := by
  have hfetch : t.dp.fetch = false := h.fetch
  have hlen : fs'.flatten.length ≤ q := by
    rcases h.ready.fetch with hf | hf
    · rw [hfetch] at hf
      nomatch hf
    · exact hf
  obtain ⟨ev, htrace, hports⟩ := h.ports
  have hnone : servePorts fs.flatten.length (fs ++ []) = [] := servePorts_eq_nil.2 (by simp)
  have hev : ev = [] := by
    rw [hnone] at hports
    exact List.map_eq_nil_iff.1 (List.append_eq_nil_iff.1 hports.symm).1
  refine ⟨?_, hfetch, by rw [htrace, hev, List.append_nil]; rfl⟩
  have hcap := h.ready.cap
  simpa [List.take_of_length_le hlen] using hcap

end capture

/-! ## Skip byte, echo and status (R173 to R175) -/

/-- The skip field, where the class has one (R173). -/
def skipFields (k : Cmd) (skip : Byte) : List (List Byte) :=
  if classOf k = .resetClass then [[skip]] else []

theorem skipFields_flatten (k : Cmd) (skip : Byte) :
    (skipFields k skip).flatten = if classOf k = .resetClass then [skip] else [] := by
  unfold skipFields
  split <;> rfl

theorem skipFields_read {k : Cmd} (h : classOf k ≠ .resetClass) (skip : Byte) : skipFields k skip = [] :=
  if_neg h

/-- The skip byte is kept nowhere (R32). -/
theorem parseSkip_regs {k : Cmd} {s t : State} (h : parseSkip k s = (.ok (), t)) :
    responseRegs t.dp = responseRegs s.dp ∧ t.dp.fb = s.dp.fb := by
  by_cases hc : classOf k = .resetClass
  · rcases hr : readNext 1 .field (setSeq .rspSkip s) with ⟨r, u⟩
    obtain ⟨hregs, hfb, -⟩ := readNext_regs hr
    simp only [parseSkip, hc, bindE, modifyE, hr, pureE] at h
    cases r with
    | ok b => cases h; exact ⟨hregs, hfb⟩
    | err c => nomatch h
  · rw [parseSkip_none hc] at h
    cases h
    exact ⟨rfl, rfl⟩

section header
variable {s : State}

/-- Behind the skip byte, the reader stands before the echo, the opcode of the frame still in `FB[0]`. -/
theorem parseSkip_loaded (s : State) (k : Cmd) (skip : Byte) (fs : List (List Byte)) :
    ∃ t q, parseSkip k (loaded (opcOf s.cfg.opc k) (skipFields k skip ++ fs).flatten s) = (.ok (), t) ∧
      Advances (loaded (opcOf s.cfg.opc k) (skipFields k skip ++ fs).flatten s) t (skipFields k skip ++ fs).flatten.length
        (skipFields k skip ++ fs) q fs { later := [], extra := [], more := s.answers } ∧
      t.dp.fb.b0 = opcOf s.cfg.opc k ∧ t.cfg = s.cfg ∧ t.session = s.session ∧ responseRegs t.dp = responseRegs s.dp := by
  have hready := ready_loaded (opcOf s.cfg.opc k) s (skipFields k skip ++ fs) []
  rw [List.append_nil] at hready
  obtain ⟨t, q, ht, hadv⟩ := parseSkip_any hready
  exact ⟨t, q, ht, hadv, hadv.opcode, hadv.cfg, hadv.session, (parseSkip_regs ht).1⟩

/-- A response with a good header: the parser goes on with the body of its class (R173 to R175). -/
theorem parseLoaded_header (hP : paramsWf s.cfg = true) (k : Cmd) (skip : Byte) (fs : List (List Byte)) :
    ∃ t q, parseLoaded (opcOf s.cfg.opc k)
        (skipFields k skip ++ [opcOf s.cfg.opc k] :: [s.cfg.statusOk] :: fs).flatten s = parseBody k s.cfg.statusOk t ∧
      Advances (loaded (opcOf s.cfg.opc k) (skipFields k skip ++ [opcOf s.cfg.opc k] :: [s.cfg.statusOk] :: fs).flatten s) t
        (skipFields k skip ++ [opcOf s.cfg.opc k] :: [s.cfg.statusOk] :: fs).flatten.length
        (skipFields k skip ++ [opcOf s.cfg.opc k] :: [s.cfg.statusOk] :: fs) q fs
        { later := [], extra := [], more := s.answers } ∧
      responseRegs t.dp = { responseRegs s.dp with echo := opcOf s.cfg.opc k, status := s.cfg.statusOk } := by
  obtain ⟨t, q, ht, hadv, hop, hcfg, -, hregs⟩ :=
    parseSkip_loaded s k skip ([opcOf s.cfg.opc k] :: [s.cfg.statusOk] :: fs)
  have hready := hadv.ready
  rw [← hop] at hready
  obtain ⟨u, q1, hu, hadv1, hregs1⟩ := parseEcho_ready hready
  rw [hop] at hadv1 hregs1
  have hc : u.cfg = s.cfg := hadv1.cfg.trans hcfg
  have hready1 := hadv1.ready
  rw [← hc] at hready1
  obtain ⟨v, q2, hv, hadv2, hregs2⟩ := parseStatus_ready hready1
  rw [hc] at hv hadv2 hregs2
  refine ⟨v, q2, ?_, (hadv.trans hadv1).trans hadv2, by rw [hregs2, hregs1, hregs]⟩
  rw [parseLoaded_eq hP]
  simp only [bindE, ht, hu, hv]

end header

/-- Settles O18: the skip byte is taken, then the echo decides, then the status. -/
theorem echoThenStatusDecide : Obligations.EchoThenStatusDecide := by
  intro s k skip e st rest hP
  refine ⟨fun he => ?_, fun hst => ?_, fun hc => ?_⟩
  · obtain ⟨t, q, ht, hadv, hop, -, -, hregs⟩ := parseSkip_loaded s k skip [[e], rest]
    obtain ⟨u, q1, hu, hadv1, hregs1⟩ := parseEcho_wrong hadv.ready (by rw [hop]; exact he)
    obtain ⟨hcap, -, htrace⟩ := (hadv.trans hadv1).of_loaded
    refine ⟨u, ?_, by simpa using hcap, htrace, by rw [hregs1, hregs]⟩
    rw [parseLoaded_eq hP]
    simp only [List.flatten_append, skipFields_flatten, List.flatten_cons, List.flatten_nil, List.append_nil,
      List.singleton_append] at ht
    simp only [bindE, ht, hu]
  · obtain ⟨t, q, ht, hadv, hop, hcfg, -, hregs⟩ := parseSkip_loaded s k skip [[opcOf s.cfg.opc k], [st], rest]
    have hready := hadv.ready
    rw [← hop] at hready
    obtain ⟨u, q1, hu, hadv1, hregs1⟩ := parseEcho_ready hready
    rw [hop] at hadv1 hregs1
    obtain ⟨v, q2, hv, hadv2, hregs2⟩ := parseStatus_wrong hadv1.ready (by rw [hadv1.cfg, hcfg]; exact hst)
    obtain ⟨hcap, -, htrace⟩ := ((hadv.trans hadv1).trans hadv2).of_loaded
    refine ⟨v, ?_, by simpa using hcap, htrace, by rw [hregs2, hregs1, hregs]⟩
    rw [parseLoaded_eq hP]
    simp only [List.flatten_append, skipFields_flatten, List.flatten_cons, List.flatten_nil, List.append_nil,
      List.singleton_append] at ht
    simp only [bindE, ht, hu, hv]
  · obtain ⟨t, q, ht, hadv, hregs⟩ := parseLoaded_header hP k skip [rest]
    obtain ⟨hcap, -, htrace⟩ := hadv.of_loaded
    have hbody : parseBody k s.cfg.statusOk t = (.ok { status := s.cfg.statusOk, payload := [], trailing := none }, t) := by
      rcases hc with hc | hc <;> simp only [parseBody, hc, pureE]
    refine ⟨t, ?_, by simpa using hcap, htrace, hregs⟩
    rw [← hbody, ← ht]
    simp [skipFields_flatten]

/-! ## The scan (R176) -/

/-- The scan passes over wait bytes and goes on behind them with what is left of its budget. -/
theorem scanLoop_waits {s : State} {q : Nat} {waits : List Byte} {fs : List (List Byte)} {z : Rest} (n : Nat)
    (h : Ready s q (waits.map (fun w => [w]) ++ fs) z) (hw : ∀ w ∈ waits, isSentinel s.cfg w = false) :
    ∃ t q', scanLoop (waits.length + n) s = scanLoop n t ∧ Advances s t q (waits.map (fun w => [w]) ++ fs) q' fs z ∧
      responseRegs t.dp = { responseRegs s.dp with scanCnt := s.dp.scanCnt + waits.length } := by
  induction waits generalizing s q with
  | nil => exact ⟨s, q, by simp, by simpa using Advances.refl h, rfl⟩
  | cons w rest ih =>
    obtain ⟨t, q1, ht, hadv⟩ := readNext_ready h .scan (n := 1) rfl
    have hadv1 := hadv.before (t' := { t with dp := { t.dp with scanCnt := t.dp.scanCnt + 1 } }) rfl rfl rfl rfl rfl rfl rfl
    have hnot : ¬ w.extractLsb' 4 4 = t.cfg.sentinelNibble := by
      rw [hadv.cfg]
      simpa [isSentinel] using hw w (by simp)
    obtain ⟨u, q2, hu, hadv2, hregs⟩ := ih hadv1.ready fun v hv => by rw [hadv1.cfg]; exact hw v (by simp [hv])
    refine ⟨u, q2, ?_, hadv1.trans hadv2, ?_⟩
    · rw [List.length_cons, Nat.add_right_comm]
      simp [scanLoop, bindE, ht, modifyE, withE, hnot, hu]
    · have hg := (readNext_regs ht).1
      rw [hregs]
      simp only [responseRegs, ResponseRegs.mk.injEq, List.length_cons] at hg ⊢
      simp only [hg, true_and]
      omega

theorem scanSentinel_eq (q : Seq) (s : State) :
    scanSentinel q s = scanLoop s.cfg.scanBudget { s with seq := q, dp := { s.dp with scanCnt := 0 } } := rfl

/-- A scan that fails is the end of the parse (R180). -/
theorem parseBody_scan_err {k : Cmd} {st : Byte} {c : Cause} {s t : State}
    (hk : classOf k = .registerRead ∨ classOf k = .bulkRead) (h : scanSentinel .rspScan s = (.err c, t)) :
    parseBody k st s = (.err c, t) := by
  rcases hk with hk | hk <;> simp only [parseBody, hk, bindE, h]

/-- A good response on a fixed capture (R170 to R180): what stands behind it stays captured. -/
theorem parseLoaded_good {s : State} {k : Cmd} {r : Reply} {n : Nat} (hP : paramsWf s.cfg = true) (hr : r.Good s.cfg n)
    (hn : classOf k = .registerRead → n = s.cfg.regPayloadLen) (rest : List Byte) :
    ∃ u, parseLoaded (opcOf s.cfg.opc k) ((replyFields s.cfg k s.session.checksumEnabled r).flatten ++ rest) s =
        (.ok (parsedOf s.cfg k s.session.checksumEnabled r), u) ∧
      u.dp.cap = rest ∧ u.trace = s.trace ∧ (classOf k = .bulkRead → u.dp.fetch = true) ∧
      responseRegs u.dp = regsAfter s.cfg k s.session.checksumEnabled r (responseRegs s.dp) := by
  obtain ⟨u, q, hu, hready, -, -, ⟨ev, htrace, hports⟩, hfetch, hregs⟩ := parseResponse_ready
    (s := loaded (opcOf s.cfg.opc k) (replyFields s.cfg k s.session.checksumEnabled r ++ [rest]).flatten s)
    (cmdOfByte_opcOf hP k) rfl hr hn (ready_loaded _ s _ [rest])
  change servePorts _ (replyFields s.cfg k s.session.checksumEnabled r ++ [rest]) = _ ++ servePorts q [rest] at hports
  rw [servePorts_eq_nil.2 (Nat.le_refl _), eq_comm, List.append_eq_nil_iff, List.map_eq_nil_iff, servePorts_eq_nil] at hports
  obtain ⟨rfl, hlen⟩ := hports
  simp only [List.flatten_cons, List.flatten_nil, List.append_nil] at hlen
  have hcap := hready.cap
  refine ⟨u, ?_, by simpa [List.take_of_length_le hlen] using hcap, by simpa using htrace, hfetch, hregs⟩
  simpa [parseLoaded_eq_parseResponse] using hu

/-- A response with a good header and wait bytes behind it: what the scan does with the rest of its budget, `n` bytes, when it
fails is what the parser does. -/
theorem parseLoaded_scan {s : State} {k : Cmd} {waits : List Byte} {n : Nat} (hP : paramsWf s.cfg = true)
    (hk : classOf k = .registerRead ∨ classOf k = .bulkRead) (hw : ∀ w ∈ waits, isSentinel s.cfg w = false)
    (hn : waits.length + n = s.cfg.scanBudget) (rest : List Byte) :
    ∃ t, (∀ c u, scanLoop n t = (.err c, u) →
        parseLoaded (opcOf s.cfg.opc k) ([opcOf s.cfg.opc k, s.cfg.statusOk] ++ waits ++ rest) s = (.err c, u)) ∧
      t.dp.cap = rest ∧ t.dp.fetch = false ∧
      responseRegs t.dp =
        { responseRegs s.dp with echo := opcOf s.cfg.opc k, status := s.cfg.statusOk, scanCnt := waits.length } := by
  have hnoskip : classOf k ≠ .resetClass := by rcases hk with hk | hk <;> simp [hk]
  obtain ⟨v, q, hv, hadv, hregs⟩ := parseLoaded_header hP k 0 (waits.map (fun w => [w]) ++ [rest])
  have hc : v.cfg = s.cfg := hadv.cfg
  obtain ⟨t, q1, ht, hadv1, hregs1⟩ := scanLoop_waits n
    (hadv.ready.congr (s' := { v with seq := .rspScan, dp := { v.dp with scanCnt := 0 } }) rfl rfl rfl)
    (fun w h => by rw [← hw w h]; exact congrArg (isSentinel · w) hc)
  obtain ⟨hcap, hfetch, -⟩ := (hadv.trans (hadv1.after rfl rfl rfl rfl rfl)).of_loaded
  refine ⟨t, fun c u hu => ?_, by simpa using hcap, hfetch, ?_⟩
  · have hscan : scanSentinel .rspScan v = (.err c, u) := by
      rw [scanSentinel_eq, show v.cfg.scanBudget = waits.length + n by rw [hc, hn], ht, hu]
    rw [← parseBody_scan_err (st := s.cfg.statusOk) hk hscan, ← hv, skipFields_read hnoskip]
    simp [← List.flatMap_def]
  · rw [hregs1]
    simp only [responseRegs, ResponseRegs.mk.injEq] at hregs ⊢
    simp [hregs]

/-- Settles O19: the wait bytes are passed over; behind them the budget is used up, the capture ends, or the sentinel
stands. -/
theorem scanIsBoundedByItsBudget : Obligations.ScanIsBoundedByItsBudget := by
  intro s k waits rest hP hk hw
  refine ⟨fun hn => ?_, fun hn => ?_, fun h hh hn hb => ?_⟩
  · obtain ⟨t, hscan, hcap, -, hregs⟩ := parseLoaded_scan (n := 0) hP hk hw (by omega) rest
    exact ⟨t, hscan _ t rfl, hcap, by rw [hregs, hn]⟩
  · obtain ⟨n, hbudget⟩ := Nat.exists_eq_add_of_lt hn
    obtain ⟨t, hscan, hcap, hfetch, hregs⟩ := parseLoaded_scan (n := n + 1) hP hk hw (by omega) []
    have hread := readNext_exhausted (n := 1) (x := .scan) (s := t) (by simp [hcap]) hfetch
    refine ⟨{ t with dp := { t.dp with cap := t.dp.cap.drop 1 } }, ?_, hregs⟩
    have hend := hscan .resetRequired _ (by simp only [scanLoop, bindE, hread]; rfl)
    simpa using hend
  · let r : Reply := { skip := 0, waits := waits, header := h, payload := [], ck := zeros s.cfg.dataCkLen }
    have hr : r.Good s.cfg 0 := ⟨hn, hw, hh, rfl, List.length_replicate⟩
    obtain ⟨u, hu, hcap, -, hfetch, hregs⟩ := parseLoaded_good (k := k) hP hr (fun hc => absurd (hb.symm.trans hc) (by decide)) rest
    simp only [replyFields, parsedOf, regsAfter, hb] at hu hregs
    refine ⟨u, ?_, hcap, hfetch hb, hregs⟩
    simpa [scanFields, r, ← List.flatMap_def] using hu

/-! ## Payload and checksum pair (R177, R178, R181) -/

theorem parsePayload_short {s : State} (h : s.dp.cap.length < s.cfg.regPayloadLen) (hf : s.dp.fetch = false) :
    (parsePayload s).1 = .err .frameTooShort := by
  have hread := readNext_exhausted (n := s.cfg.regPayloadLen) (x := .field) (s := setSeq .rspData s) h hf
  simp only [parsePayload, bindE, modifyE, withE, setSeq_cfg, hread]
  rfl

theorem parseTrailing_short {s : State} (hck : s.session.checksumEnabled = true) (h : s.dp.cap.length < s.cfg.dataCkLen)
    (hf : s.dp.fetch = false) : (parseTrailing s).1 = .err .frameTooShort := by
  have hread := readNext_exhausted (n := s.cfg.dataCkLen) (x := .field) (s := setSeq .rspCk s) h hf
  simp only [parseTrailing, bindE, modifyE, withE, hck, if_true, hread]
  rfl

/-- A register read whose sentinel has been found: the parser goes on with the payload (R177). -/
theorem parseRaw_data {s : State} {k : Cmd} {r : Reply} {n : Nat} (hP : paramsWf s.cfg = true)
    (hk : classOf k = .registerRead) (hr : r.Good s.cfg n) (fs : List (List Byte)) :
    ∃ t q gs, parseRaw (opcOf s.cfg.opc k) ([opcOf s.cfg.opc k, s.cfg.statusOk] ++ r.waits ++ r.header :: fs.flatten) s =
        (bindE parsePayload (fun p => bindE parseTrailing fun ck =>
          pureE { status := s.cfg.statusOk, payload := p, trailing := ck }) t).1 ∧
      Advances (loaded (opcOf s.cfg.opc k) gs.flatten s) t gs.flatten.length gs q fs
        { later := [], extra := [], more := s.answers } := by
  obtain ⟨v, q, hv, hadv, -⟩ := parseLoaded_header hP k 0 (scanFields r ++ fs)
  obtain ⟨t, q1, ht, hadv1, -⟩ := scanSentinel_ready .rspScan hadv.ready (by rw [hadv.cfg]; exact hr)
  refine ⟨t, q1, _, ?_, hadv.trans hadv1⟩
  have hbody : parseBody k s.cfg.statusOk v = bindE parsePayload (fun p => bindE parseTrailing fun ck =>
      pureE { status := s.cfg.statusOk, payload := p, trailing := ck }) t := by
    simp only [parseBody, hk]
    simp only [bindE, ht]
  rw [← hbody, ← hv, skipFields_read (by simp [hk]), parseRaw]
  simp [scanFields, ← List.flatMap_def]

/-- Settles O20: a good response is taken whole; of one cut short the payload field fails, or else the checksum pair. -/
theorem payloadStandsBehindTheSentinel : Obligations.PayloadStandsBehindTheSentinel := by
  intro s k r rest cut hP hk hr
  obtain ⟨-, hpl, hcl, -⟩ := paramsWf_sizes hP
  refine ⟨?_, fun hcut => ?_⟩
  · obtain ⟨u, hu, hcap, htrace, -, hregs⟩ := parseLoaded_good (k := k) hP hr (fun _ => hpl.symm) rest
    simp only [parsedOf, hk] at hu
    exact ⟨u, hu, hcap, htrace, hregs⟩
  · by_cases h4 : cut.length < 4
    · obtain ⟨t, q, gs, ht, hadv⟩ := parseRaw_data hP hk hr [cut]
      obtain ⟨hcap, hfetch, -⟩ := hadv.of_loaded
      have hc : t.cfg = s.cfg := hadv.cfg
      have hshort := parsePayload_short (s := t) (by rw [hcap, hc, hpl]; simpa using h4) hfetch
      rw [List.flatten_singleton] at ht
      rw [ht]
      rcases hp : parsePayload t with ⟨res, u⟩
      rw [hp] at hshort
      simp only [bindE, hp, show res = .err .frameTooShort from hshort]
    · have hck : s.session.checksumEnabled = true := by
        by_contra hoff
        simp [dataFields, hoff, hr.payload] at hcut
        omega
      have h2 : (cut.drop 4).length < 2 := by
        simp [dataFields, hck, hr.payload, hr.ck, hcl] at hcut
        rw [List.length_drop]
        omega
      obtain ⟨t, q, gs, ht, hadv⟩ := parseRaw_data hP hk hr [cut.take 4, cut.drop 4]
      have hc : t.cfg = s.cfg := hadv.cfg
      obtain ⟨u, q1, hu, hadv1, -⟩ := parsePayload_ready hadv.ready (by rw [hc, hpl, List.length_take]; omega)
      have hall := hadv.trans hadv1
      obtain ⟨hcap, hfetch, -⟩ := hall.of_loaded
      have hshort := parseTrailing_short (s := u) (by rw [hall.session]; exact hck)
        (by rw [hcap, hall.cfg, loaded_cfg, hcl]; simpa using h2) hfetch
      rw [show [cut.take 4, cut.drop 4].flatten = cut by simp] at ht
      rw [ht]
      rcases hp : parseTrailing u with ⟨res, v⟩
      rw [hp] at hshort
      simp only [bindE, hu, hp, show res = .err .frameTooShort from hshort]

end Sys2Proof.Machine
end

section
/-! Instructions whose peer answers well (spec 42 R183, spec 43 R203, R204, R209): one exchange, one completion, and what is
left in the registers; where the reader stands after a bulk read command (spec 42 R179). -/

namespace Sys2Proof.Machine

/-! ## Completing after the events of the operation (R209) -/

/-- The completion of a computation that has shown the ports `ports` and left the answers `more`. -/
theorem completes_present {s u : State} {ports : List PortEvent} {more : List Answer} (v : Word) (ev : List Event)
    (htrace : u.trace = s.trace ++ ev) (hports : ev.map (fun e => e.port) = ports) (hanswers : u.answers = more) :
    Completes s (present (.ok v) u) (okWith v) ports more where
  compl := rfl
  trace := ⟨ev ++ [{ seq := .done, ret := u.ret, port := .complete (okWith v) }], by simp [htrace, completionOf, okWith],
    by simp [hports]⟩
  answers := hanswers
  idle := rfl

/-! ## Wire commands on their own -/

/-- A command without a value, answered well (R183). -/
theorem command_completes {i : Instr} {k : Cmd} {addr data size : Word} {cl : Bool} {s : State} {r : Reply} {x : Talk}
    {more : List Answer} (hi : wireOperands i = some (k, addr, data, size, cl)) (hk : classOf k ≠ .registerRead)
    (hP : paramsWf s.cfg = true) (hA : Answers s.cfg s.session.xferStyle s.session.checksumEnabled k r x)
    (ha : s.answers = exchangeAnswers s.cfg s.session.xferStyle k s.session.checksumEnabled x ++ more) :
    ∃ t : State, exec i s = .next t ∧
      Completes s t (okWith 0)
        (exchangePorts s.cfg s.session.xferStyle k s.session.checksumEnabled
          (withCk s.cfg s.session.checksumEnabled (cmdBody s.cfg k addr data size cl)) x) more ∧
      responseRegs t.dp = regsAfter s.cfg k s.session.checksumEnabled r (responseRegs s.dp) := by
  obtain ⟨t, ev, ht, -, -, hmore, htrace, hports, hregs⟩ := cmdExchange_done hP hA ha addr data size cl
  exact ⟨present (.ok 0) t, by rw [exec_command hi hk, finishRaw_eq ht], completes_present 0 ev htrace hports hmore, hregs⟩

/-- Settles O23: a frame answered by echo and idle status. -/
theorem writeCommandCompletes : Obligations.WriteCommandCompletes :=
  fun _ _ _ _ _ _ _ _ _ _ hi hk hP hA ha => command_completes hi (by simp [hk]) hP hA ha

/-- Settles O24: a frame answered by a skip byte, echo and idle status. -/
theorem resetClassCommandCompletes : Obligations.ResetClassCommandCompletes :=
  fun _ _ _ _ _ _ _ _ _ _ hi hk hP hA ha => command_completes hi (by simp [hk]) hP hA ha

/-- Settles O22: a register read command is one attempt of the register read. -/
theorem registerReadCommandCompletes : Obligations.RegisterReadCommandCompletes := by
  intro i k addr data size cl s r x more hi hk hP hA ha
  obtain ⟨hexec, rfl, rfl⟩ := exec_registerRead hi hk s
  obtain ⟨t, ev, ht, -, -, hmore, htrace, hports, hregs⟩ := readRegOnce_ready hP hk hA ha addr cl
  exact ⟨present (.ok _) t, by rw [hexec, finishRaw_eq ht], completes_present _ ev htrace hports hmore, hregs⟩

/-! ## Register operations (R203, R204) -/

/-- Settles O27: the first attempt of the access its address is routed to. -/
theorem readRegisterCompletes : Obligations.ReadRegisterCompletes := by
  intro s addr r x more hP hA ha
  obtain ⟨t, ev, ht, -, -, hmore, htrace, hports, hregs⟩ := readRegOnce_ready
    (s := { begun s (.rdreg addr) with retry := { s.retry with attempt := 0 } })
    hP (readRoute_class _ addr) hA ha addr (readRoute s.cfg addr).2
  have hrun : readRegister addr (begun s (.rdreg addr)) =
      (.ok (payloadValue s.cfg.rdPayloadOrder r.payload), t) := by
    rw [readRegister_eq]
    exact retryOp_first hP ht
  have hreq := (Obeys.readRegister (w := { retry := true }) rfl addr (begun s (.rdreg addr))).req
  rw [hrun] at hreq
  exact ⟨present (.ok _) (discard t), congrArg Host.Outcome.next (finish_eq hrun),
    completes_present _ ev htrace hports hmore, hreq, hregs⟩

/-- Settles O28: the first attempt of the access its address is routed to. -/
theorem writeRegisterCompletes : Obligations.WriteRegisterCompletes := by
  intro s addr wdata r x more hP hA ha
  obtain ⟨t, ev, ht, -, -, hmore, htrace, hports, -⟩ := cmdExchange_done
    (s := { begun s (.wrreg addr wdata) with retry := { s.retry with attempt := 0 } })
    hP hA ha addr wdata 0 (writeRoute s.cfg addr).2
  have hrun : writeRegister addr wdata (begun s (.wrreg addr wdata)) =
      (.ok 0, t) := by
    rw [writeRegister_eq]
    exact retryOp_first hP ht
  have hreq := (Obeys.writeRegister (w := { retry := true }) rfl addr wdata (begun s (.wrreg addr wdata))).req
  rw [hrun] at hreq
  exact ⟨present (.ok 0) (discard t), congrArg Host.Outcome.next (finish_eq hrun),
    completes_present 0 ev htrace hports hmore, hreq⟩

/-! ## Where the reader stands after a bulk read command (R179) -/

section length
variable {p q : State → Prop} {s : State} {k : Cmd} {n : Nat}

/-- What is delivered has come off the capture, as far as there was any (R171). -/
theorem readNext_cap {m : Nat} {w : Where} {s t : State} {b : List Byte} (h : readNext m w s = (.ok b, t)) :
    t.dp.cap = s.dp.cap.drop m := by
  by_cases hc : s.dp.cap.length < m
  · cases hf : s.dp.fetch with
    | false =>
      rw [readNext_exhausted hc hf] at h
      nomatch h
    | true =>
      rw [readNext_fetched hc hf] at h
      have hdp := transport_regs (m - s.dp.cap.length) (fun ok r => .receive (m - s.dp.cap.length) ok r)
        { s with dp := { s.dp with cap := s.dp.cap.drop m } }
      rcases hr : receive (m - s.dp.cap.length) { s with dp := { s.dp with cap := s.dp.cap.drop m } } with ⟨r, u⟩
      rw [receive] at hr
      rw [hr] at hdp
      simp only [bindE, receive, hr, pureE] at h
      cases r with
      | ok a => cases h; exact congrArg Datapath.cap hdp
      | err c => nomatch h
  · rw [readNext_captured hc] at h
    cases h
    rfl

/-- A read, with what it does to the number of captured bytes; of a failed read nothing is said. -/
theorem Ensures.readNext_capLength (m : Nat) (w : Where)
    (h : ∀ s t, p s → t.dp.cap.length = s.dp.cap.length - m → t.dp.scanCnt = s.dp.scanCnt → q t) :
    Ensures p (readNext m w) q (fun _ => True) := by
  intro s hs
  rcases hr : readNext m w s with ⟨b | c, t⟩
  · refine .inl ⟨b, t, rfl, h s t hs (by rw [readNext_cap hr, List.length_drop]) ?_⟩
    exact congrArg ResponseRegs.scanCnt (readNext_regs hr).1
  · exact .inr ⟨c, t, rfl, trivial⟩

/-- Every byte examined comes off the capture, and is counted (R36, R176). -/
theorem scanLoop_capLength (n m : Nat) :
    Ensures (fun s => s.dp.cap.length = n - s.dp.scanCnt) (scanLoop m) (fun t => t.dp.cap.length = n - t.dp.scanCnt)
      (fun _ => True) := by
  induction m with
  | zero => exact Ensures.raiseE fun _ _ => trivial
  | succ m ih =>
    refine Ensures.bindE (r := fun s => s.dp.cap.length = n - s.dp.scanCnt - 1)
      (Ensures.readNext_capLength 1 .scan fun s t hs ht hcnt => by rw [ht, hs, hcnt]) fun b =>
      Ensures.bindE (r := fun s => s.dp.cap.length = n - s.dp.scanCnt) (Ensures.modify fun s hs => ?_) fun _ =>
      Ensures.withE fun _ => Ensures.ite (Ensures.modify fun _ h => h) ih
    exact hs.trans (Nat.sub_sub _ _ _)

/-- A field of one byte is taken, and nothing behind it. -/
theorem oneByte_capLength {α : Type} {f : List Byte → Eng α} (n : Nat) (x : Seq)
    (hf : ∀ b, Ensures (fun s => s.dp.cap.length = n - 1) (f b) (fun t => t.dp.cap.length = n - 1) (fun _ => True)) :
    Ensures (fun s => s.dp.cap.length = n) (bindE (modifyE (setSeq x)) fun _ => bindE (readNext 1 .field) f)
      (fun t => t.dp.cap.length = n - 1) (fun _ => True) :=
  Ensures.bindE (r := fun s => s.dp.cap.length = n) (Ensures.modify fun _ h => h) fun _ =>
    Ensures.bindE (Ensures.readNext_capLength 1 .field fun _ _ hs ht _ => by rw [ht, hs]) hf

theorem parseEcho_capLength (n : Nat) :
    Ensures (fun s => s.dp.cap.length = n) parseEcho (fun t => t.dp.cap.length = n - 1) (fun _ => True) :=
  oneByte_capLength n .rspEcho fun _ =>
    Ensures.bindE (r := fun s => s.dp.cap.length = n - 1) (Ensures.modify fun _ h => h) fun _ =>
    Ensures.withE fun _ => Ensures.ite (Ensures.pureE fun _ h => h) (Ensures.raiseE fun _ _ => trivial)

theorem parseStatus_capLength (n : Nat) :
    Ensures (fun s => s.dp.cap.length = n) parseStatus (fun t => t.dp.cap.length = n - 1) (fun _ => True) :=
  oneByte_capLength n .rspStatus fun _ =>
    Ensures.bindE (r := fun s => s.dp.cap.length = n - 1) (Ensures.modify fun _ h => h) fun _ =>
    Ensures.withE fun _ => Ensures.ite (Ensures.pureE fun _ h => h) (Ensures.raiseE fun _ _ => trivial)

/-- The parser takes echo, status and the bytes scanned of a bulk read's response off the capture (R179). -/
theorem parseResponse_capLength (hP : paramsWf s.cfg = true) (hk : classOf k = .bulkRead) (n : Nat) :
    Ensures (fun u => u.cfg = s.cfg ∧ u.dp.cap.length = n) (parseResponse (opcOf s.cfg.opc k))
      (fun t => t.dp.cap.length = n - 2 - t.dp.scanCnt) (fun _ => True) := by
  refine Ensures.withE_of fun u hu => ?_
  rw [hu.1, cmdOfByte_opcOf hP k]
  refine Ensures.bindE (r := fun u => u.dp.cap.length = n)
    (fun v hv => .inl ⟨(), v, parseSkip_none (by simp [hk]) v, hv.2⟩) fun _ =>
    Ensures.bindE (parseEcho_capLength n) fun _ => Ensures.bindE (parseStatus_capLength _) fun st => ?_
  simp only [parseBody, hk]
  exact Ensures.bindE (Ensures.bindE (Ensures.modify fun v hv => hv) fun _ => Ensures.withE fun _ => scanLoop_capLength _ _)
    fun _ => Ensures.bindE (Ensures.modify fun _ h => h) fun _ => Ensures.pureE fun _ h => h

/-- The frame of the command `k` stands in the buffer, in the configuration and the session of `s`. -/
structure Built (s : State) (k : Cmd) (u : State) : Prop where
  opcode : u.dp.fb.b0 = opcOf s.cfg.opc k
  cfg : u.cfg = s.cfg
  session : u.session = s.session

theorem Built.padCount {u : State} (hP : paramsWf s.cfg = true) (h : Built s k u) :
    padCount u = padOf s.cfg.pad (classOf k) s.session.checksumEnabled := by
  simp only [Machine.padCount, h.opcode, h.cfg, h.session, cmdOfByte_opcOf hP k]

/-- The number of bytes an exchange captures behind the frame (R184, R185). -/
def captureLength (P : Params) (style : XferStyle) (k : Cmd) (ck : Bool) : Nat :=
  match style with
  | .combined => padOf P.pad (classOf k) ck
  | .separate => 0

/-- A transport call leaves the frame where it stands. -/
theorem transport_built (m : Nat) (ev : Bool → List Byte → PortEvent) :
    Ensures (Built s k) (transport m ev) (Built s k) (fun _ => True) := by
  refine (Ensures.of_final fun u hu => ?_).mono (fun _ h => h) (fun _ h => h) fun _ _ => trivial
  have hdp := transport_regs m ev u
  have hrest : (transport m ev u).2.cfg = u.cfg ∧ (transport m ev u).2.session = u.session := by
    unfold transport
    dsimp only
    split <;> exact ⟨rfl, rfl⟩
  exact ⟨by rw [hdp]; exact hu.opcode, hrest.1.trans hu.cfg, hrest.2.trans hu.session⟩

theorem exchange_capLength (hP : paramsWf s.cfg = true) :
    Ensures (Built s k) exchange
      (fun u => u.cfg = s.cfg ∧
        u.dp.cap.length = captureLength s.cfg s.session.xferStyle k s.session.checksumEnabled) (fun _ => True) := by
  refine Ensures.bindE (r := Built s k) (Ensures.modify fun u hu => ⟨hu.opcode, hu.cfg, hu.session⟩) fun _ =>
    Ensures.withE_of fun u hu => ?_
  rw [hu.session]
  cases s.session.xferStyle with
  | combined =>
    refine Ensures.withE_of fun v hv => Ensures.bind_value (transport_built _ _)
      (v := fun b => b.length = (frameOf v ++ zeros (padCount v)).length)
      (fun _ _ _ => transport_length) fun b hb => Ensures.modify fun w hw => ⟨hw.cfg, ?_⟩
    rw [List.length_append, zeros, List.length_replicate, hv.padCount hP] at hb
    simp [captureLength, hv.padCount hP, hb]
  | separate =>
    exact Ensures.withE fun v => Ensures.bindE (transport_built _ _) fun _ => Ensures.modify fun w hw => ⟨hw.cfg, rfl⟩

theorem cmdExchange_capLength (hP : paramsWf s.cfg = true) (hk : classOf k = .bulkRead) (addr data size : Word) (cl : Bool) :
    Ensures (fun u => u = s) (cmdExchange (opcOf s.cfg.opc k) addr data size cl)
      (fun t => t.dp.cap.length =
        captureLength s.cfg s.session.xferStyle k s.session.checksumEnabled - 2 - t.dp.scanCnt) (fun _ => True) := by
  obtain ⟨b, hb, -, -, hop, hcfg, hsession, -, -, -, -⟩ := buildFrame_spec hP k addr data size cl
  have built : Ensures (fun u => u = s) (buildFrame (opcOf s.cfg.opc k) addr data size cl) (Built s k) (fun _ => True) := by
    rintro u rfl
    exact .inl ⟨(), b, hb, hop, hcfg, hsession⟩
  exact Ensures.bindE built fun _ => Ensures.bindE (exchange_capLength hP) fun _ => parseResponse_capLength hP hk _

end length

/-- Settles O25: the exchange is done as any other, and what is captured behind the sentinel is what is left of the
placeholders. -/
theorem bulkReadCommandHandsOverTheReader : Obligations.BulkReadCommandHandsOverTheReader := by
  intro i k addr data size cl s r x more hi hk hP hA ha
  obtain ⟨t, q, ev, ht, hready, hfetch, -, -, htrace, hports, hregs⟩ :=
    cmdExchange_ready (later := []) hP addr data size cl hA.good (fun _ => rfl) (by simpa using hA.fields)
      (by rw [← hA.fields]; exact hA.fits) ha
  have hdone : bindE (cmdExchange (opcOf s.cfg.opc k) addr data size cl) (fun _ => pureE (0 : Word)) s =
      (.ok 0, t) := by
    simp only [bindE, ht, pureE]
  refine ⟨present (.ok 0) t, by rw [exec_command hi (by simp [hk]), finishRaw_eq hdone],
    completes_present 0 ev htrace (by simpa [servePorts] using hports.symm) (by simpa [serve] using hready.answers),
    hfetch hk, hregs, ?_⟩
  have hcap : t.dp.cap = x.extra.take q := by simpa using hready.cap
  have hq : q ≤ x.extra.length := by simpa using hready.len
  have hscan : t.dp.scanCnt = r.waits.length + 1 := by
    simp only [regsAfter, hk] at hregs
    exact congrArg ResponseRegs.scanCnt hregs
  have hfields : x.fields.flatten.length = r.waits.length + 3 := by
    simp [hA.fields, replyFields, hk, scanFields, Function.comp_def]
  have hlen : q = captureLength s.cfg s.session.xferStyle k s.session.checksumEnabled - x.fields.flatten.length := by
    rcases cmdExchange_capLength hP hk addr data size cl s rfl with ⟨p, u, hu, hl⟩ | ⟨c, u, hu, -⟩
    · obtain rfl : t = u := congrArg Prod.snd (ht.symm.trans hu)
      rw [hcap, List.length_take, hscan] at hl
      omega
    · rw [ht] at hu
      nomatch hu
  change t.dp.cap = _
  rw [hcap, hlen]
  cases s.session.xferStyle <;> simp [captureLength, hk]

end Sys2Proof.Machine
end

section
/-! The bulk read answered well (spec 44 R237, R240, R241): one attempt, the bytes it stores, and the sentinel it found last. -/

namespace Sys2Proof.Machine

/-! ## The pieces of a transfer (R233) -/

/-- The pieces from piece `j` on are as long as the stretch they cover. -/
theorem piecesFrom_sum {n c : Nat} (hc : 0 < c) (j k : Nat) (h : j + k ≤ (n + c - 1) / c) :
    ((piecesFrom n c j k).map fun p => p.2).sum + min (j * c) n = min ((j + k) * c) n := by
  induction k generalizing j with
  | zero => simp [piecesFrom]
  | succ k ih =>
    have hpos := position_step (c := c) (piece_start (n := n) hc (j := j) (by omega))
    have hrest := ih (j + 1) (by omega)
    have hstart := piece_start (n := n) hc (j := j) (by omega)
    rw [show j + 1 + k = j + (k + 1) by omega] at hrest
    simp only [piecesFrom, List.map_cons, List.sum_cons]
    omega

theorem segments_sum {n c : Nat} (hc : 0 < c) : ((segments n c).map fun p => p.2).sum = n := by
  have hsum := piecesFrom_sum (n := n) hc 0 ((n + c - 1) / c) (by omega)
  have hend := piece_end (n := n) hc
  rw [segments_eq]
  simp only [Nat.zero_mul, Nat.zero_add, Nat.zero_min] at hsum
  omega

theorem segments_length (n c : Nat) : (segments n c).length = (n + c - 1) / c := by
  simp [segments]

/-- The payloads of a transfer of `n` bytes are `n` bytes. -/
theorem payloads_length {n c : Nat} {cs : List Reply} (hc : 0 < c)
    (h : cs.map (fun r => r.payload.length) = (segments n c).map fun p => p.2) :
    (cs.map fun r => r.payload).flatten.length = n := by
  rw [List.length_flatten, List.map_map, show List.length ∘ (fun r : Reply => r.payload) = fun r => r.payload.length from rfl,
    h, segments_sum hc]

theorem bulkRejected_le {P : Params} {len : Word} (h : bulkRejected P len = false) : len.toNat < 2 ^ 24 := by
  simp only [bulkRejected, Bool.or_eq_false_iff, decide_eq_false_iff_not] at h
  have hmax : ¬ 0xFFFFFF < len.toNat := h.2
  omega

/-! ## One attempt (R237) -/

/-- The reader goes on to the fields that stand behind those taken. -/
theorem Ready.enter {s : State} {q : Nat} {fs : List (List Byte)} {extra : List Byte} {more : List Answer}
    (h : Ready s q [] { later := fs, extra := extra, more := more }) (hf : s.dp.fetch = true) :
    Ready s q fs { later := [], extra := extra, more := more } where
  cap := by simpa using h.cap
  len := by simpa using h.len
  answers := by simpa using h.answers
  fetch := .inl hf

/-- The sentinel and the scan count are those of the last piece, the first piece's being those of the command (R32, R36). -/
theorem scanned_regsAfter (P : Params) (ck : Bool) (r : Reply) (later : List Reply) (g : ResponseRegs) :
    scanned true (r :: later) (regsAfter P .dmaExtRead ck r g) =
      regsAfter P .dmaExtRead ck ((r :: later).getLastD r) g := by
  cases hl : later.getLast? with
  | none =>
    obtain rfl := List.getLast?_eq_none_iff.1 hl
    rfl
  | some c =>
    have hlast : (r :: later).getLastD r = c := by simp [List.getLastD_eq_getLast?, List.getLast?_cons, hl]
    rw [hlast]
    simp only [scanned, if_true, List.tail_cons, hl, regsAfter, classOf]

theorem restFields_bulkRead (P : Params) (ck : Bool) (r : Reply) (later : List Reply) :
    bulkReadFields P ck r later = replyFields P .dmaExtRead ck r ++ restFields ck true (r :: later) := by
  simp [bulkReadFields, restFields, chunkFields]

/-- The read loop over a whole transfer, every piece sent well (R237). -/
theorem readChunks_transfer {s : State} {q : Nat} {r : Reply} {later : List Reply} {z : Rest}
    (hP : paramsWf s.cfg = true) (hoff : s.bulk.off.toNat = 0)
    (hp : (r :: later).map (fun c => c.payload.length) =
      (segments s.bulk.len.toNat (chunkBytes s.cfg.chunkSizes s.session.chunkSize)).map fun p => p.2)
    (hg : ∀ c ∈ r :: later, c.Good s.cfg c.payload.length)
    (h : Ready s q (restFields s.session.checksumEnabled true (r :: later)) z) :
    ∃ t q', readChunks s.bulk.len.toNat s = (.ok (), t) ∧
      Advances s t q (restFields s.session.checksumEnabled true (r :: later)) q' [] z ∧
      t.mem = memWriteBytes s.mem (bufAddr s.req.buf 0) ((r :: later).map fun c => c.payload).flatten ∧
      responseRegs t.dp = scanned true (r :: later) (responseRegs s.dp) := by
  have hcount : 0 + (r :: later).length = (s.bulk.len.toNat + chunkBytes s.cfg.chunkSizes s.session.chunkSize - 1) /
      chunkBytes s.cfg.chunkSizes s.session.chunkSize := by
    have hl := congrArg List.length hp
    rw [List.length_map, List.length_map, segments_length] at hl
    rw [Nat.zero_add, hl]
  obtain ⟨t, q', ht, hadv, hm, -, -, -, hregs⟩ := readChunks_ready (j := 0) (n := s.bulk.len.toNat) hP s.bulk.len.isLt
    (by rw [hoff]; omega) hcount (by omega) (by rw [hp, segments_eq, ← hcount, Nat.zero_add]) hg h
  rw [hoff] at hm
  exact ⟨t, q', ht, hadv, hm, hregs⟩

/-- One attempt of a bulk read answered well (R237): the port events are those of its exchange, and the buffer takes every
payload byte. -/
theorem readBulkOnce_ready {s : State} {r : Reply} {later : List Reply} {x : Talk} {more : List Answer}
    (hP : paramsWf s.cfg = true) (hlen : bulkRejected s.cfg s.req.len = false)
    (hp : (r :: later).map (fun c => c.payload.length) =
      (segments s.req.len.toNat (chunkBytes s.cfg.chunkSizes s.session.chunkSize)).map fun p => p.2)
    (hg : ∀ c ∈ r :: later, c.Good s.cfg c.payload.length)
    (hx : x.fields = bulkReadFields s.cfg s.session.checksumEnabled r later)
    (hf : x.Fits s.cfg s.session.xferStyle .dmaExtRead s.session.checksumEnabled
      (replyFields s.cfg .dmaExtRead s.session.checksumEnabled r).flatten.length)
    (ha : s.answers = exchangeAnswers s.cfg s.session.xferStyle .dmaExtRead s.session.checksumEnabled x ++ more) :
    ∃ t ev, readBulkOnce s = (.ok 0, t) ∧ t.answers = more ∧ t.trace = s.trace ++ ev ∧
      ev.map (fun e => e.port) = exchangePorts s.cfg s.session.xferStyle .dmaExtRead s.session.checksumEnabled
        (withCk s.cfg s.session.checksumEnabled (cmdBody s.cfg .dmaExtRead s.req.addr 0 s.req.len false)) x ∧
      t.mem = memWriteBytes s.mem (bufAddr s.req.buf 0) ((r :: later).map fun c => c.payload).flatten ∧
      responseRegs t.dp =
        regsAfter s.cfg .dmaExtRead s.session.checksumEnabled ((r :: later).getLastD r) (responseRegs s.dp) := by
  rw [restFields_bulkRead] at hx
  -- the command, up to the sentinel of the first piece
  obtain ⟨a, q, ev, hcmd, hready, hfetch, hac, has, hatrace, haports, haregs⟩ :=
    cmdExchange_ready (s := startBulk s) (k := .dmaExtRead) hP s.req.addr 0 s.req.len false (hg r (by simp)) nofun hx hf ha
  have hw := Obeys.cmdExchange (w := {}) (opcOf s.cfg.opc .dmaExtRead) s.req.addr 0 s.req.len false (startBulk s)
  rw [show cmdExchange (opcOf s.cfg.opc .dmaExtRead) s.req.addr 0 s.req.len false (startBulk s) = (_, a) from hcmd] at hw
  have hbulk : a.bulk = (startBulk s).bulk := hw.bulk rfl
  have hal : a.bulk.len.toNat = s.req.len.toNat := by
    rw [hbulk]
    simpa using Nat.mod_eq_of_lt (bulkRejected_le hlen)
  -- the pieces
  have hac' : a.cfg = s.cfg := hac
  have has' : a.session = s.session := has
  obtain ⟨b, q', hb, hadv, hbm, hbregs⟩ := readChunks_transfer (s := { a with dp := { a.dp with fetch := true } })
    (r := r) (later := later) (z := { later := [], extra := x.extra, more := more }) (q := q)
    (by rw [hac']; exact hP) (by rw [hbulk]; rfl) (by rw [hal, hac', has']; exact hp) (by rw [hac']; exact hg)
    (by rw [has']; exact (hready.enter (hfetch rfl)).congr rfl rfl (hfetch rfl).symm)
  rw [has'] at hadv
  obtain ⟨ev2, hbtrace, hbports⟩ := hadv.ports
  refine ⟨{ b with dp := { b.dp with cap := [] } }, ev ++ ev2, ?_, by simpa [serve] using hadv.ready.answers, ?_, ?_, ?_, ?_⟩
  · have hcmd' : cmdExchange s.cfg.opc.dmaExtRead s.req.addr 0 s.req.len false (startBulk s) = (.ok _, a) := hcmd
    have hb' : readChunks s.req.len.toNat { a with dp := { a.dp with fetch := true } } = (.ok (), b) := by rw [← hal]; exact hb
    simp only [readBulkOnce, bindE, modifyE, withE, startBulk_cfg, startBulk_req, hcmd', hb', pureE]
  · change b.trace = _
    rw [hbtrace]
    change a.trace ++ ev2 = _
    rw [hatrace, startBulk_trace, List.append_assoc]
  · simp only [List.append_nil, servePorts] at hbports
    rw [List.map_append, ← hbports]
    exact haports.symm
  · change b.mem = _
    rw [hbm]
    change memWriteBytes a.mem (bufAddr a.req.buf 0) _ = _
    rw [hw.mem rfl, hw.req]
    rfl
  · change responseRegs b.dp = _
    rw [hbregs, ← scanned_regsAfter]
    exact congrArg (scanned true (r :: later)) haregs

/-- Settles O31: one attempt, and the memory that its run of writes leaves. -/
theorem bulkReadFillsTheBuffer : Obligations.BulkReadFillsTheBuffer := by
  intro s addr len buf r later x more hP hm hlen hp hg hx hf ha
  obtain ⟨t, ev, ht, hmore, htrace, hports, hmem, hregs⟩ := readBulkOnce_ready
    (s := { latchBulk 0x3 addr len buf s with retry := { s.retry with attempt := 0 } })
    hP hlen hp hg hx hf ha
  have hrun : readBulkOp (latchBulk 0x3 addr len buf s) = (.ok 0, t) := by
    have hfirst : retryOp readBulkOnce (latchBulk 0x3 addr len buf s) =
      (.ok 0, t) := retryOp_first hP ht
    simp only [readBulkOp, hfirst, spoilOnFailure]
  have hbytes : ((r :: later).map fun c => c.payload).flatten.length = len.toNat :=
    payloads_length (chunkBytes_bounds hP s.session.chunkSize).1 hp
  have hmem' : t.mem = memWriteBytes s.mem (bufAddr buf 0) ((r :: later).map fun c => c.payload).flatten := hmem
  have hread : ∀ a, memRead t.mem a = if bufAddr buf 0 ≤ a ∧ a < bufAddr buf 0 + len.toNat then
      ((r :: later).map fun c => c.payload).flatten.getD (a - bufAddr buf 0) 0 else memRead s.mem a := by
    intro a
    rw [hmem', memRead_memWriteBytes hm, hbytes]
  refine ⟨present (.ok 0) (discard t), by rw [exec_rdbulk_admitted hlen, finish_eq hrun],
    completes_present 0 ev htrace hports hmore, fun j hj => ?_, fun a ha => ?_, hregs⟩
  · change memRead t.mem _ = _
    rw [hread, if_pos (by rw [bufAddr_eq_add buf j]; omega), bufAddr_eq_add buf j, Nat.add_sub_cancel_left]
  · change memRead t.mem a = _
    rw [hread, if_neg ha]

end Sys2Proof.Machine
end

section
/-! The address field of a frame (spec 20 R51, R73, spec 30 R83): it is the bits the format carries and no others, and bit 15 of
an internal address stands where the clockless flag stands. -/

namespace Sys2Proof.Machine

/-! ## Fields of words that agree in their low bits (R73) -/

theorem extractLsb'_congr {a b : Word} {w i n : Nat} (h : ∀ j < w, a.getLsbD j = b.getLsbD j) (hw : i + n ≤ w) :
    a.extractLsb' i n = b.extractLsb' i n := by
  apply BitVec.eq_of_getLsbD_eq
  intro j hj
  simp only [BitVec.getLsbD_extractLsb', h (i + j) (by omega)]

theorem be24_congr {a b : Word} (h : ∀ j < 24, a.getLsbD j = b.getLsbD j) : be24 a = be24 b := by
  rw [be24, be24, extractLsb'_congr (i := 16) h (by omega), extractLsb'_congr (i := 8) h (by omega),
    extractLsb'_congr (i := 0) h (by omega)]

theorem internalAddr_congr {a b : Word} (h : ∀ j < 16, a.getLsbD j = b.getLsbD j) (cl : Bool) :
    internalAddr a cl = internalAddr b cl := by
  rw [internalAddr, internalAddr, extractLsb'_congr (i := 8) h (by omega), extractLsb'_congr (i := 0) h (by omega)]

/-! ## Where the address stands in the body of a frame (R83) -/

theorem cmdBody_congr_internal (P : Params) {k : Cmd} (hk : k = .internalRead ∨ k = .internalWrite) {a b : Word}
    {cl cl' : Bool} (h : internalAddr a cl = internalAddr b cl') (data size : Word) :
    cmdBody P k a data size cl = cmdBody P k b data size cl' := by
  rcases hk with rfl | rfl
  · simp only [cmdBody, h]
  · simp only [cmdBody, h]

theorem cmdBody_congr_external (P : Params) {k : Cmd} (hk : ¬ (k = .internalRead ∨ k = .internalWrite)) {a b : Word}
    (h : be24 a = be24 b) (data size : Word) (cl : Bool) : cmdBody P k a data size cl = cmdBody P k b data size cl := by
  cases k
  case internalRead | internalWrite => simp at hk
  case reset | terminate | repeatCmd => rfl
  all_goals simp only [cmdBody, h]

/-- Settles O4: the bytes of the address field are made of the carried bits, and the checksum byte is made of the body. -/
theorem droppedAddressBitsDoNotShow : Obligations.DroppedAddressBitsDoNotShow := by
  intro P k a b data size cl ck h
  by_cases hk : k = .internalRead ∨ k = .internalWrite
  · rw [if_pos hk] at h
    rw [cmdBody_congr_internal P hk (internalAddr_congr h cl)]
  · rw [if_neg hk] at h
    rw [cmdBody_congr_external P hk (be24_congr h)]

/-! ## Bit 15 of an internal address (R51) -/

/-- Only the top bit of the first byte is in question: the address gives it, or the flag does. -/
theorem internalAddr_bit15 {a : Word} (h : a.getLsbD 15 = true) : internalAddr a false = internalAddr (a &&& 0x7FFF) true := by
  have hhigh : a.extractLsb' 8 8 ||| 0x00 = (a &&& 0x7FFF).extractLsb' 8 8 ||| 0x80 := by
    apply BitVec.eq_of_getLsbD_eq
    intro j hj
    interval_cases j <;> simp [h]
  have hlow : a.extractLsb' 0 8 = (a &&& 0x7FFF).extractLsb' 0 8 := by
    apply BitVec.eq_of_getLsbD_eq
    intro j hj
    interval_cases j <;> simp
  simp only [internalAddr, hlow, ← hhigh, if_true, Bool.false_eq_true, if_false]

/-- Settles O5: the two address fields are the same bytes, and the rest of an internal frame does not read the address. -/
theorem addressBit15IsTheClocklessBit : Obligations.AddressBit15IsTheClocklessBit :=
  fun P _ _ data size hk h => cmdBody_congr_internal P hk (internalAddr_bit15 h) data size

end Sys2Proof.Machine
end

section
/-! The decoder undoes the encoder (spec 30 R81 to R89, R96, R100, R101): the fields of a command frame, the tags of the write
chunks, which R8 keeps apart where one of them may be meant, the codes of the host requests, and the checksum byte. -/

namespace Sys2Proof.Machine

/-! ## Command frames (R81, R83 to R86) -/

/-- The fields of a command's frame, put together again: every operand fits the field that carries it. -/
theorem decodeFields_cmdBody (P : Params) {i : Instr} {k : Cmd} {addr data size : Word} {cl : Bool}
    (hw : i.wellFormed = true) (hi : wireOperands i = some (k, addr, data, size, cl)) :
    decodeFields k (cmdBody P k addr data size cl).tail = .ok i := by
  cases i with
  | dmaWrite | dmaRead =>
    cases hi
    obtain ⟨ha, hs⟩ := Bool.and_eq_true_iff.1 hw
    simp only [cmdBody, be24, be16, List.cons_append, List.nil_append, List.tail_cons, decodeFields, addr24,
      word32_be24 ha, word32_be16 hs]
  | dmaExtWrite | dmaExtRead =>
    cases hi
    obtain ⟨ha, hs⟩ := Bool.and_eq_true_iff.1 hw
    simp only [cmdBody, be24, List.cons_append, List.nil_append, List.tail_cons, decodeFields, addr24, word32_be24 ha,
      word32_be24 hs]
  | internalWrite | internalRead =>
    cases hi
    obtain ⟨ha, hc⟩ := addr15_internalAddr hw cl
    simp only [cmdBody, internalAddr, be32, List.cons_append, List.nil_append, List.tail_cons, decodeFields, ha, hc,
      word32_be32]
  | singleWrite | singleRead =>
    cases hi
    simp only [cmdBody, be24, be32, List.cons_append, List.nil_append, List.tail_cons, decodeFields, addr24,
      word32_be24 hw, word32_be32]
  | terminate | repeatCmd | reset => cases hi; rfl
  | _ => nomatch hi

/-- A command frame with checksum mode off is read back, whatever transfer is under way (R81, R96). -/
theorem decodeWire_cmdBody {P : Params} (hP : paramsWf P = true) (mid : Bool) {i : Instr} {k : Cmd}
    {addr data size : Word} {cl : Bool} (hw : i.wellFormed = true)
    (hi : wireOperands i = some (k, addr, data, size, cl)) :
    decodeWire P mid (cmdBody P k addr data size cl) = .ok i := by
  have hhead : cmdBody P k addr data size cl = opcOf P.opc k :: (cmdBody P k addr data size cl).tail := rfl
  rw [hhead, decodeWire, cmdOfByte_opcOf hP k]
  exact decodeFields_cmdBody P hw hi

/-- The receiver takes off the checksum the framer put on, in either mode (R87, R127). -/
theorem decodeFrame_withCk (P : Params) (ck : Bool) (body : List Byte) :
    decodeFrame P ck (withCk P ck body) = decodeWire P false body := by
  cases ck with
  | false => rfl
  | true =>
    have htake : (withCk P true body).take ((withCk P true body).length - P.cmdCkLen) = body := by
      simp [withCk, ckField]
    simp only [decodeFrame, if_true, htake]

/-- Settles O2: the checksum comes off again, and the body is read as with checksum mode off. -/
theorem frameReadBackInBothModes : Obligations.FrameReadBackInBothModes := by
  intro P ck i k addr data size cl hP hw hi
  rw [decodeFrame_withCk]
  exact decodeWire_cmdBody hP false hw hi

/-! ## Write chunks (R89) -/

/-- What R8 asks of the order codes, and R7 of `TAG_BASE`. -/
theorem paramsWf_tags {P : Params} (h : paramsWf P = true) :
    P.ordMiddle ≠ P.ordLast ∧ P.ordFirst ≠ P.ordSingle ∧ P.tagBase.extractLsb' 0 4 = 0 := by
  simp only [paramsWf, Bool.and_eq_true, bne_iff_ne, beq_iff_eq] at h
  obtain ⟨⟨⟨⟨⟨⟨-, hml⟩, -⟩, hfs⟩, hbase⟩, -⟩, -⟩ := h
  exact ⟨hml, hfs, hbase⟩

/-- The low nibble of a tag byte is its order code. -/
theorem tagByte_lowNibble {P : Params} (h : P.tagBase.extractLsb' 0 4 = 0) (t : OrderTag) :
    (tagByte P t).extractLsb' 0 4 = ordOf P t := by
  rw [tagByte, BitVec.extractLsb'_or, h]
  apply BitVec.eq_of_getLsbD_eq
  intro n hn
  simp [hn, show n < 8 by omega]

theorem tagByte_ne {P : Params} (h : P.tagBase.extractLsb' 0 4 = 0) {t u : OrderTag} (hne : ordOf P t ≠ ordOf P u) :
    tagByte P t ≠ tagByte P u := fun he =>
  hne (by rw [← tagByte_lowNibble h t, ← tagByte_lowNibble h u, he])

/-- The tag byte of a chunk stands for its tag where that chunk can come (R234): only `first` is looked for before `single`,
only `middle` before `last`, and R8 keeps the two of each pair apart. -/
theorem decodeTag_tagByte {P : Params} (hP : paramsWf P = true) (t : OrderTag) (p : List Byte) :
    decodeTag P (chunkInstr t p).continues (tagByte P t) = some t := by
  obtain ⟨hml, hfs, hbase⟩ := paramsWf_tags hP
  have hlast : tagByte P .middle ≠ tagByte P .last := tagByte_ne hbase hml
  have hsingle : tagByte P .first ≠ tagByte P .single := tagByte_ne hbase hfs
  cases t with
  | first | middle => simp [decodeTag, chunkInstr, Instr.continues]
  | last => simp [decodeTag, chunkInstr, Instr.continues, hlast]
  | single => simp [decodeTag, chunkInstr, Instr.continues, hsingle]

theorem chunkInstr_of_chunkOperands {i : Instr} {t : OrderTag} {p : List Byte} (h : chunkOperands i = some (t, p)) :
    chunkInstr t p = i := by
  cases i with
  | dataFirst | dataMiddle | dataLast | dataSingle => cases h; rfl
  | _ => nomatch h

/-- No chunk that is allowed is empty (R157 to R160). -/
theorem chunkInstr_wellFormed_ne_nil {t : OrderTag} {p : List Byte} (h : (chunkInstr t p).wellFormed = true) : p ≠ [] := by
  rintro rfl
  cases t <;> nomatch h

/-- A write chunk is read back when a chunk of its tag can come, its tag byte being no opcode (R89). -/
theorem decodeWire_chunkFrame {P : Params} (hP : paramsWf P = true) (ht : tagsApart P) {t : OrderTag} {p : List Byte}
    (hp : p ≠ []) : decodeWire P (chunkInstr t p).continues (chunkFrame P t p false) = .ok (chunkInstr t p) := by
  simp [chunkFrame, decodeWire, ht t, decodeTag_tagByte hP, hp]

/-! ## Host requests (R100, R101) -/

/-- The codes from `0xA` on are reserved, each of them for itself (R101). -/
theorem decodeRequest_reserved {r : Request} (h : 0xA ≤ r.op.toNat) : decodeRequest r = .reserved r.op := by
  have hne : ∀ c : BitVec 4, c.toNat < 0xA → r.op ≠ c := by
    rintro c hc rfl
    omega
  simp only [decodeRequest, if_neg (hne 0x0 (by decide)), if_neg (hne 0x1 (by decide)), if_neg (hne 0x2 (by decide)),
    if_neg (hne 0x3 (by decide)), if_neg (hne 0x4 (by decide)), if_neg (hne 0x5 (by decide)),
    if_neg (hne 0x6 (by decide)), if_neg (hne 0x7 (by decide)), if_neg (hne 0x8 (by decide)),
    if_neg (hne 0x9 (by decide))]

/-- What is neither a command nor a chunk is encoded as a request, which stands for it again (R100, R101). -/
theorem decode_encode_request {P : Params} (mid : Bool) {i : Instr} (hw : i.wellFormed = true)
    (hi : wireOperands i = none) (hc : chunkOperands i = none) : decode P mid (encode P i) = .ok i := by
  cases i with
  | dmaWrite | dmaRead | internalWrite | internalRead | terminate | repeatCmd => nomatch hi
  | dmaExtWrite | dmaExtRead | singleWrite | singleRead | reset => nomatch hi
  | dataFirst | dataMiddle | dataLast | dataSingle => nomatch hc
  | negotiate | rdreg | wrreg | rdbulk | wrbulk | rdpend | rdint | clrint | sync | rstbus => rfl
  | reserved code => exact congrArg Except.ok (decodeRequest_reserved (of_decide_eq_true hw))

/-! ## The encoder, by the shape of the packet -/

theorem encode_of_wireOperands (P : Params) {i : Instr} {k : Cmd} {addr data size : Word} {cl : Bool}
    (hi : wireOperands i = some (k, addr, data, size, cl)) : encode P i = .wire (cmdBody P k addr data size cl) := by
  cases i with
  | dmaWrite | dmaRead | internalWrite | internalRead | terminate | repeatCmd => cases hi; rfl
  | dmaExtWrite | dmaExtRead | singleWrite | singleRead | reset => cases hi; rfl
  | _ => nomatch hi

theorem encode_chunkInstr (P : Params) (t : OrderTag) (p : List Byte) :
    encode P (chunkInstr t p) = .wire (chunkFrame P t p false) := by
  cases t <;> rfl

/-- Settles O1: an instruction is a command, a chunk or a host operation, and each shape is read back. -/
theorem decodeInvertsEncode : Obligations.DecodeInvertsEncode := by
  intro P i hP ht hw
  cases hi : wireOperands i with
  | some x =>
    obtain ⟨k, addr, data, size, cl⟩ := x
    rw [encode_of_wireOperands P hi]
    exact decodeWire_cmdBody hP _ hw hi
  | none =>
    cases hc : chunkOperands i with
    | some x =>
      obtain ⟨t, p⟩ := x
      obtain rfl := chunkInstr_of_chunkOperands hc
      rw [encode_chunkInstr]
      exact decodeWire_chunkFrame hP ht (chunkInstr_wellFormed_ne_nil hw)
    | none => exact decode_encode_request _ hw hi hc

/-- Settles O38: the arm of the reserved codes is a refusal, which writes the completion alone. -/
theorem reservedCodeIsInvalidOpcode : Obligations.ReservedCodeIsInvalidOpcode :=
  ⟨fun _ _ => rfl, fun _ _ _ h => congrArg Except.ok (decodeRequest_reserved h)⟩

/-! ## Words of the tables (R81, R82, R100) -/

/-- Settles O3: each word is evaluated under the default parameters. -/
theorem knownWordsDecode : Obligations.KnownWordsDecode :=
  ⟨by decide, by decide, by decide, by decide, by decide, by decide,
    by decide, by decide⟩

end Sys2Proof.Machine
end

section
/-! A write chunk on its own (spec 41 R157 to R160, spec 44 R236, R243): one `transmit`, and a completion that says whether the
transport took it. -/

namespace Sys2Proof.Machine

theorem exec_chunk {i : Instr} {t : OrderTag} {p : List Byte} (hi : chunkOperands i = some (t, p)) (s : State) :
    exec i s = .next (finishRaw (sendChunk t p) s) := by
  cases i with
  | dataFirst | dataMiddle | dataLast | dataSingle => cases hi; rfl
  | _ => nomatch hi

/-- One chunk the transport does not take: one `transmit`, one answer consumed (R187). -/
theorem sendChunk_false {s : State} {t : OrderTag} {p b : List Byte} {more : List Answer}
    (ha : s.answers = { ok := false, bytes := b } :: more) :
    ∃ u e, sendChunk t p s = (.err .transportError, u) ∧
      u.bulk = { s.bulk with n := BitVec.ofNat 14 p.length, tag := t } ∧ u.answers = more ∧ u.trace = s.trace ++ [e] ∧
      e.port = .transmit (chunkFrame s.cfg t p s.session.checksumEnabled) false := by
  have htr := transport_false (n := 0)
    (s := { s with seq := .chunkTx, bulk := { s.bulk with n := BitVec.ofNat 14 p.length, tag := t } })
    (ev := fun ok _ => .transmit (chunkFrame s.cfg t p s.session.checksumEnabled) ok) ha
  refine ⟨_, _, by simp only [sendChunk, bindE, modifyE, withE, transmit, htr]; rfl, rfl, ?_, rfl, rfl⟩
  simp [ha]

/-- The completion of a computation, well or not, that has shown the ports `ports` and left the answers `more` (R209). -/
theorem completes_outcome {s u : State} {ports : List PortEvent} {more : List Answer} (r : Res Word) (ev : List Event)
    (htrace : u.trace = s.trace ++ ev) (hports : ev.map (fun e => e.port) = ports) (hanswers : u.answers = more) :
    Completes s (present r u) (completionOf r) ports more where
  compl := rfl
  trace := ⟨ev ++ [{ seq := .done, ret := u.ret, port := .complete (completionOf r) }], by simp [htrace], by simp [hports]⟩
  answers := hanswers
  idle := rfl

/-- Settles O26: the one `transmit` of the chunk is taken or fails, and its outcome is completed. -/
theorem writeChunkGoesOutOnce : Obligations.WriteChunkGoesOutOnce := by
  intro i tag p s ok b more hi ha
  cases ok with
  | true =>
    obtain ⟨u, e, hsend, -, -, -, -, hbulk, hmore, htrace, hport⟩ := sendChunk_ok (t := tag) (p := p) ha
    exact ⟨present (.ok 0) u, by rw [exec_chunk hi, finishRaw_eq hsend],
      completes_outcome (.ok 0) [e] htrace (by simp [hport]) hmore, hbulk⟩
  | false =>
    obtain ⟨u, e, hsend, hbulk, hmore, htrace, hport⟩ := sendChunk_false (t := tag) (p := p) ha
    exact ⟨present (.err .transportError) u, by rw [exec_chunk hi, finishRaw_eq hsend],
      completes_outcome (.err .transportError) [e] htrace (by simp [hport]) hmore, hbulk⟩

end Sys2Proof.Machine
end

section
/-! CRC7 (spec 40). The serial definition is linear over GF(2) in the register and the byte together (R124), and a register
that meets its own bits in the byte never feeds back. The table step and the residue of a checked frame both follow from
these two facts. -/

namespace Sys2Proof.Machine

/-! ## Linearity of the serial definition (R121) -/

/-- The feedback bit is 0 where the incoming bit is the register's top bit (R121). -/
@[simp] theorem crcBit_same (poly c : BitVec 7) : crcBit poly c (c.getLsbD 6) = c <<< 1 := by
  simp [crcBit]

/-- The feedback bit of a sum is the sum of the feedback bits; the polynomial fed back twice cancels (R124). -/
theorem crcBit_xor (poly c c' : BitVec 7) (x x' : Bool) :
    crcBit poly (c ^^^ c') (x ^^ x') = crcBit poly c x ^^^ crcBit poly c' x' := by
  have hfeed : ((c ^^^ c').getLsbD 6 ^^ (x ^^ x')) = ((c.getLsbD 6 ^^ x) ^^ (c'.getLsbD 6 ^^ x')) := by
    rw [BitVec.getLsbD_xor, Bool.xor_assoc, Bool.xor_left_comm (c'.getLsbD 6), ← Bool.xor_assoc]
  rw [crcBit, crcBit, crcBit, hfeed, BitVec.shiftLeft_xor_distrib]
  cases c.getLsbD 6 ^^ x with
  | false =>
    cases c'.getLsbD 6 ^^ x' with
    | false => rfl
    | true => exact BitVec.xor_assoc _ _ _
  | true =>
    cases c'.getLsbD 6 ^^ x' with
    | false =>
      change c <<< 1 ^^^ c' <<< 1 ^^^ poly = c <<< 1 ^^^ poly ^^^ c' <<< 1
      ac_rfl
    | true =>
      change c <<< 1 ^^^ c' <<< 1 = c <<< 1 ^^^ poly ^^^ (c' <<< 1 ^^^ poly)
      rw [BitVec.xor_comm (c' <<< 1) poly, BitVec.xor_assoc, ← BitVec.xor_assoc poly, BitVec.xor_self, BitVec.zero_xor]

theorem crcBits_xor (poly : BitVec 7) (b b' : Byte) (k : Nat) (c c' : BitVec 7) :
    crcBits poly (b ^^^ b') k (c ^^^ c') = crcBits poly b k c ^^^ crcBits poly b' k c' := by
  induction k generalizing c c' with
  | zero => rfl
  | succ k ih => simp only [crcBits, BitVec.getLsbD_xor, crcBit_xor, ih]

theorem crcSerial_xor (poly c c' : BitVec 7) (b b' : Byte) :
    crcSerial poly (c ^^^ c') (b ^^^ b') = crcSerial poly c b ^^^ crcSerial poly c' b' :=
  crcBits_xor poly b b' 8 c c'

/-! ## A register that meets its own bits -/

/-- As long as each incoming bit is the register's top bit at that moment, the register is only shifted (R121). -/
theorem crcBits_eq_shiftLeft (poly : BitVec 7) (b : Byte) (k : Nat) (c : BitVec 7)
    (h : ∀ i < k, b.getLsbD (k - 1 - i) = (c <<< i).getLsbD 6) : crcBits poly b k c = c <<< k := by
  induction k generalizing c with
  | zero => simp [crcBits]
  | succ k ih =>
    have htop : b.getLsbD k = c.getLsbD 6 := by simpa using h 0 (by omega)
    have hrest : ∀ i < k, b.getLsbD (k - 1 - i) = ((c <<< 1) <<< i).getLsbD 6 := by
      intro i hi
      have hnext := h (i + 1) (by omega)
      rwa [show k + 1 - 1 - (i + 1) = k - 1 - i by omega, Nat.add_comm i 1, BitVec.shiftLeft_add] at hnext
    rw [crcBits, htop, crcBit_same, ih _ hrest, ← BitVec.shiftLeft_add, Nat.add_comm]

/-- The checksum byte lines the register up with the feedback tap: it shifts the register out (R124). -/
theorem crcSerial_ckOfCrc (poly c : BitVec 7) : crcSerial poly c (ckOfCrc c) = 0 := by
  have hmeet : ∀ i < 8, (ckOfCrc c).getLsbD (8 - 1 - i) = (c <<< i).getLsbD 6 := by
    intro i hi
    interval_cases i <;> simp [ckOfCrc]
  rw [crcSerial, crcBits_eq_shiftLeft poly _ 8 c hmeet]
  exact BitVec.shiftLeft_eq_zero (by omega)

/-! ## The table and the byte step (R122 to R124) -/

theorem crcTable_xor (poly : BitVec 7) (i j : Byte) : crcTable poly (i ^^^ j) = crcTable poly i ^^^ crcTable poly j :=
  crcSerial_xor poly 0 0 i j

@[simp] theorem crcTable_zero (poly : BitVec 7) : crcTable poly 0 = 0 :=
  crcSerial_ckOfCrc poly 0

/-- Seven zero bits leave the register zero; the last bit feeds the polynomial back (R122). -/
theorem crcTable_one (poly : BitVec 7) : crcTable poly 1 = poly := by
  simp [crcTable, crcSerial, crcBits, crcBit]

/-- The table's index is the checksum byte of the register, exclusive-or with the byte (R123, R126). -/
theorem crcStep_eq (poly c : BitVec 7) (b : Byte) : crcStep poly c b = crcTable poly (ckOfCrc c ^^^ b) :=
  rfl

theorem crcStep_ckOfCrc (poly c : BitVec 7) : crcStep poly c (ckOfCrc c) = 0 := by
  rw [crcStep_eq, BitVec.xor_self]
  exact crcTable_zero poly

/-- Settles O12: the table starts from `c ^^^ c`, and the half of it that meets its own bits contributes nothing. -/
theorem tableStepIsSerialStep : Obligations.TableStepIsSerialStep := by
  intro poly c b
  calc crcStep poly c b
      = crcSerial poly (c ^^^ c) (ckOfCrc c ^^^ b) := by rw [BitVec.xor_self]; rfl
    _ = crcSerial poly c (ckOfCrc c) ^^^ crcSerial poly c b := crcSerial_xor poly c c _ b
    _ = crcSerial poly c b := by rw [crcSerial_ckOfCrc]; exact BitVec.zero_xor

/-- Settles O13: linearity is that of the serial definition at register 0 (R122). -/
theorem crcTableIsLinear : Obligations.CrcTableIsLinear :=
  fun poly i j => ⟨crcTable_zero poly, crcTable_one poly, crcTable_xor poly i j⟩

/-! ## Sequences of bytes (R120, R127) -/

theorem crc7_append (poly c : BitVec 7) (a b : List Byte) : crc7 poly c (a ++ b) = crc7 poly (crc7 poly c a) b := by
  induction a generalizing c with
  | nil => rfl
  | cons x rest ih => exact ih (crcStep poly c x)

/-- A frame with its checksum byte leaves no residue (R127 (c)). -/
theorem crc7_append_ckByte (P : Params) (f : List Byte) : crc7 P.crc7Poly P.crc7Seed (f ++ [ckByte P f]) = 0 := by
  rw [crc7_append]
  exact crcStep_ckOfCrc P.crc7Poly (crc7 P.crc7Poly P.crc7Seed f)

theorem crc7_zeros (poly : BitVec 7) (n : Nat) : crc7 poly 0 (zeros n) = 0 := by
  induction n with
  | zero => rfl
  | succ n ih =>
    have hstep : crcStep poly 0 0 = 0 := crcStep_ckOfCrc poly 0
    change crc7 poly (crcStep poly 0 0) (zeros n) = 0
    rw [hstep, ih]

theorem ckByte_nil (P : Params) : ckByte P [] = ckOfCrc P.crc7Seed :=
  rfl

/-- Settles O14: the clauses (a) to (e) of R127, in turn. -/
theorem crcConcatenatesAndLeavesNoResidue : Obligations.CrcConcatenatesAndLeavesNoResidue := by
  intro P c a b f n
  refine ⟨(crc7_append _ c a b).symm, rfl, ?_, crc7_append_ckByte P f, (crc7 P.crc7Poly c a).isLt, crc7_zeros _ n⟩
  intro hseed
  rw [ckByte_nil, hseed]
  rfl

/-! ## The checksum byte (R126) -/

theorem ckOfCrc_bit0 (c : BitVec 7) : (ckOfCrc c).getLsbD 0 = false := by
  simp [ckOfCrc]

/-- The CRC has no bit 7, so shifting it left by one within a byte drops nothing (R126). -/
theorem ckOfCrc_shiftRight (c : BitVec 7) : ckOfCrc c >>> 1 = c.zeroExtend 8 := by
  apply BitVec.eq_of_getLsbD_eq
  intro j hj
  interval_cases j <;> simp [ckOfCrc]

/-- One checksum byte ends a frame in checksum mode (R6, R87). -/
theorem withCk_true {P : Params} (hlen : P.cmdCkLen = 1) (f : List Byte) : withCk P true f = f ++ [ckByte P f] := by
  simp [withCk, ckField, hlen]

/-- Settles O15: bit 0 is shifted in as zero and no bit is shifted out (R126). -/
theorem checksumByteHoldsTheCrc : Obligations.ChecksumByteHoldsTheCrc :=
  fun _ f hlen => ⟨withCk_true hlen f, ckOfCrc_bit0 _, ckOfCrc_shiftRight _⟩

end Sys2Proof.Machine
end

section
/-! The command framer (spec 41 R140, R153, R154): what building a frame writes, and a byte that names no command; the step
when it runs no instruction (spec 60 R340, spec 70 R360). -/

namespace Sys2Proof.Machine

/-- Building a frame writes `CRC`, `FB`, `FLEN` and the sequencer at most, whatever the opcode byte (R140, R154). -/
theorem buildFrame_writes {opcode : Byte} {addr data size : Word} {cl : Bool} {s t : State} {r : Res Unit}
    (h : buildFrame opcode addr data size cl s = (r, t)) :
    t = { s with seq := .build, dp := { s.dp with crc := t.dp.crc, fb := t.dp.fb, flen := t.dp.flen } } := by
  cases hk : cmdOfByte s.cfg.opc opcode with
  | some k =>
    rw [buildFrame_known hk, appendChecksum_eq] at h
    obtain ⟨-, rfl⟩ := Prod.mk.inj h
    unfold loadFrame
    split <;> rfl
  | none =>
    simp only [buildFrame, hk] at h
    obtain ⟨-, rfl⟩ := Prod.mk.inj h
    rfl

/-- Settles O16: the frame is the one that stands in the buffer, and no other register is written. -/
theorem builtFrameStandsInTheBuffer : Obligations.BuiltFrameStandsInTheBuffer := by
  intro s k addr data size cl hP
  obtain ⟨t, hbuild, hframe, hlen, -⟩ := buildFrame_spec hP k addr data size cl
  exact ⟨t, hbuild, hframe, hlen, buildFrame_writes hbuild⟩

/-! ## A byte that is none of the opcodes (R154) -/

theorem cmdOfByte_eq_none {o : Opcodes} {b : Byte} (h : ∀ k : Cmd, opcOf o k ≠ b) : cmdOfByte o b = none := by
  rw [cmdOfByte, List.find?_eq_none]
  exact fun k _ hk => h k (beq_iff_eq.1 hk)

/-- The framer turns away a byte that names no command: only the sequencer has moved (R154). -/
theorem buildFrame_unknown {opcode : Byte} {s : State} (h : cmdOfByte s.cfg.opc opcode = none) (addr data size : Word)
    (cl : Bool) : buildFrame opcode addr data size cl s = (.err .invalidOpcode, setSeq .build s) := by
  simp only [buildFrame, h]

/-- Settles O17: the framer has written no register of the frame, and `InvalidOpcode` is not retryable (R310). -/
theorem unrecognisedOpcodeBuildsNothing : Obligations.UnrecognisedOpcodeBuildsNothing :=
  fun s _ addr data size cl h =>
    ⟨setSeq .build s, buildFrame_unknown (cmdOfByte_eq_none h) addr data size cl, rfl, rfl, rfl, rfl, rfl⟩

/-! ## The step when no instruction is run (R340, R360) -/

/-- A request turned away changes the completion and the trace alone (R101, R154, R231). -/
theorem refuseRequest_eq (e : Cause) (s : State) : refuseRequest e s = onlyCompleted e s :=
  rfl

theorem runPacket_unknownOpcode {p : Packet} {k : Instr → State → State} {s : State} {b : Byte}
    (h : fetched s p = .error (.unknownOpcode b)) :
    runPacket p k s = .next (k (.reserved 0) (onlyCompleted .invalidOpcode s)) := by
  simp only [runPacket, h, invalidOpcode, refuseRequest_eq]

/-- Settles O7: waiting and busy are the outer branches of `step`, the unknown opcode byte is the second of `runPacket`. -/
theorem stepOutsideInstructions : Obligations.StepOutsideInstructions := by
  refine ⟨fun s hidle hin => ?_, fun s p b rest hidle hin hb => ?_, fun s hbusy => ?_⟩
  · simp only [step, if_pos hidle, hin]
  · simp only [step, if_pos hidle, hin, runPacket_unknownOpcode hb]
  · simp only [step, if_neg hbusy]

end Sys2Proof.Machine
end

section
/-! A write chunk on its own (spec 41 R157 to R160, R243): what it leaves alone, whether or not the transport takes it. -/

namespace Sys2Proof.Machine

/-- The state in which a chunk is handed to the transport (R236). -/
def chunkLoaded (t : OrderTag) (p : List Byte) (s : State) : State :=
  { s with seq := .chunkTx, bulk := { s.bulk with n := BitVec.ofNat 14 p.length, tag := t } }

/-- Nothing is done behind the `transmit` of a chunk (R243). -/
theorem sendChunk_final (t : OrderTag) (p : List Byte) (s : State) :
    (sendChunk t p s).2 =
      (transmit (chunkFrame s.cfg t p s.session.checksumEnabled) (chunkLoaded t p s)).2 := by
  have hsend : sendChunk t p s =
      bindE (transmit (chunkFrame s.cfg t p s.session.checksumEnabled)) (fun _ => pureE 0) (chunkLoaded t p s) := rfl
  rw [hsend, bindE]
  split
  · next h => rw [h]; rfl
  · next h => rw [h]

theorem sendChunk_dp (t : OrderTag) (p : List Byte) (s : State) : (sendChunk t p s).2.dp = s.dp := by
  rw [sendChunk_final]
  exact transport_regs _ _ (chunkLoaded t p s)

theorem sendChunk_bulk (t : OrderTag) (p : List Byte) (s : State) :
    (sendChunk t p s).2.bulk = { s.bulk with n := BitVec.ofNat 14 p.length, tag := t } := by
  rw [sendChunk_final]
  exact (Obeys.transmit (w := {}) _ (chunkLoaded t p s)).bulk rfl

/-- Settles O43: the scope of a chunk is the bulk registers, of which the chunk writes `B_N` and `B_TAG`. -/
theorem writeChunkFrame : Obligations.WriteChunkFrame := by
  intro i s t hi hexec
  obtain ⟨⟨tag, p⟩, hop⟩ := Option.isSome_iff_exists.1 hi
  have hw := Obeys.sendChunk (w := { bulk := true }) rfl tag p s
  have hbulk := sendChunk_bulk tag p s
  rw [exec_chunk hop] at hexec
  obtain rfl := Host.Outcome.next.inj hexec
  exact ⟨hw.cfg, hw.session rfl rfl, sendChunk_dp tag p s, hw.retry rfl, hw.req, hw.ret, hw.inputs, hw.sameMemory rfl,
    (congrArg Bulk.addr hbulk :), (congrArg Bulk.len hbulk :), (congrArg Bulk.off hbulk :)⟩

end Sys2Proof.Machine
end

section
/-! A register write that fails once in the transport (spec 42 R187, spec 45 R261, R269): the failed exchange, the recovery
answered well, and the same frame again. -/

namespace Sys2Proof.Machine

/-! ## An exchange whose transport call fails (R187) -/

theorem exchange_dead {s : State} {k : Cmd} {b : List Byte} {more : List Answer}
    (hpad : padCount s = padOf s.cfg.pad (classOf k) s.session.checksumEnabled)
    (ha : s.answers = { ok := false, bytes := b } :: more) :
    exchange s = (.err .transportError,
      emit (deadExchange s.cfg s.session.xferStyle k s.session.checksumEnabled (frameOf s)) (takeAnswer (setSeq .cmdXfer s))) := by
  have hfail : ∀ (n : Nat) (ev : Bool → List Byte → PortEvent), transport n ev (setSeq .cmdXfer s) =
      (.err .transportError, emit (ev false []) (takeAnswer (setSeq .cmdXfer s))) := fun _ _ => transport_false ha
  simp only [exchange, bindE, modifyE, withE, setSeq_session, deadExchange, ← hpad]
  cases s.session.xferStyle with
  | combined =>
    simp only [exchangeCombined, bindE, withE, transact, hfail]
    rfl
  | separate =>
    simp only [exchangeSeparate, bindE, withE, transmit, hfail]
    rfl

/-- A command whose transport call fails: its frame has gone out once, and nothing is parsed (R183, R187). -/
theorem cmdExchange_dead {s : State} {k : Cmd} {b : List Byte} {more : List Answer} (hP : paramsWf s.cfg = true)
    (addr data size : Word) (cl : Bool) (ha : s.answers = { ok := false, bytes := b } :: more) :
    ∃ t, cmdExchange (opcOf s.cfg.opc k) addr data size cl s = (.err .transportError, t) ∧ t.cfg = s.cfg ∧
      t.session = s.session ∧ t.answers = more ∧
      t.trace = s.trace ++ [{
        seq := .cmdXfer
        ret := s.ret
        port := deadExchange s.cfg s.session.xferStyle k s.session.checksumEnabled
          (withCk s.cfg s.session.checksumEnabled (cmdBody s.cfg k addr data size cl)) }] := by
  obtain ⟨u, hbuild, hframe, -, hopcode, hcfg, hsession, hanswers, htrace, -, hret⟩ := buildFrame_spec hP k addr data size cl
  have hpad : padCount u = padOf u.cfg.pad (classOf k) u.session.checksumEnabled := by
    rw [hcfg, hsession]
    exact Built.padCount hP ⟨hopcode, hcfg, hsession⟩
  have hdead := exchange_dead hpad (hanswers.trans ha)
  rw [hcfg, hsession, hframe] at hdead
  simp only [cmdExchange, bindE, hbuild, hdead]
  exact ⟨_, rfl, hcfg, hsession, by simp [hanswers, ha], by simp [htrace, hret]⟩

/-! ## The second attempt (R261) -/

/-- Where the next attempt begins when the bus reset was answered well: in the configuration and the session of the failed
one, behind delay, bus reset, delay (R261, R320, R322). -/
theorem next_attempt_ready {s : State} {r : Reply} {x : Talk} {more : List Answer} (e : Cause) (hP : paramsWf s.cfg = true)
    (hA : Answers s.cfg s.session.xferStyle s.session.checksumEnabled .reset r x)
    (ha : s.answers = exchangeAnswers s.cfg s.session.xferStyle .reset s.session.checksumEnabled x ++ more) :
    ∃ t ev, returnFromError (recover (takeError e s)) = t ∧ t.cfg = s.cfg ∧ t.session = s.session ∧ t.answers = more ∧
      t.trace = s.trace ++ ev ∧
      ev.map (fun e => e.port) = .delay s.cfg.retryDelay ::
        (exchangePorts s.cfg s.session.xferStyle .reset s.session.checksumEnabled
          (resetFrame s.cfg s.session.checksumEnabled) x ++ [.delay s.cfg.retryDelay]) := by
  obtain ⟨ev, hcfg, hsession, hmore, htrace, hports⟩ := recover_ready (s := takeError e s) hP hA ha
  exact ⟨_, ev, rfl, hcfg, hsession, hmore, htrace, hports⟩

/-- A command without a value whose first attempt fails in the transport, the bus reset and the second attempt answered
well (R261, R269): both attempts build the frame from the same operands, configuration and session (R156). -/
theorem retryLoop_secondAttempt {s : State} {k : Cmd} {b : List Byte} {r1 r2 : Reply} {x1 x2 : Talk} {more : List Answer}
    (n : Nat) (hP : paramsWf s.cfg = true) (hreset : Answers s.cfg s.session.xferStyle s.session.checksumEnabled .reset r1 x1)
    (hA : Answers s.cfg s.session.xferStyle s.session.checksumEnabled k r2 x2)
    (ha : s.answers = { ok := false, bytes := b } ::
      (exchangeAnswers s.cfg s.session.xferStyle .reset s.session.checksumEnabled x1 ++
        exchangeAnswers s.cfg s.session.xferStyle k s.session.checksumEnabled x2 ++ more))
    (addr data : Word) (cl : Bool) :
    ∃ t ev, retryLoop (writeRegOnce (opcOf s.cfg.opc k) addr data cl) (n + 2) s = (.ok 0, t) ∧ t.answers = more ∧
      t.trace = s.trace ++ ev ∧
      ev.map (fun e => e.port) =
        deadExchange s.cfg s.session.xferStyle k s.session.checksumEnabled
            (withCk s.cfg s.session.checksumEnabled (cmdBody s.cfg k addr data 0 cl)) ::
          .delay s.cfg.retryDelay ::
          (exchangePorts s.cfg s.session.xferStyle .reset s.session.checksumEnabled
              (resetFrame s.cfg s.session.checksumEnabled) x1 ++
            .delay s.cfg.retryDelay ::
            exchangePorts s.cfg s.session.xferStyle k s.session.checksumEnabled
              (withCk s.cfg s.session.checksumEnabled (cmdBody s.cfg k addr data 0 cl)) x2) := by
  obtain ⟨t, hdead, hcfg, hsession, hanswers, htrace⟩ := cmdExchange_dead (k := k) hP addr data 0 cl ha
  have hfirst : writeRegOnce (opcOf s.cfg.opc k) addr data cl s = (.err .transportError, t) := by
    simp only [writeRegOnce, bindE, hdead]
  rw [List.append_assoc, ← hcfg, ← hsession] at hanswers
  obtain ⟨u, ev, hu, hucfg, husession, huanswers, hutrace, hrecover⟩ :=
    next_attempt_ready .transportError (hcfg ▸ hP) (by rwa [hcfg, hsession]) hanswers
  rw [hcfg, hsession] at hrecover huanswers
  replace hucfg := hucfg.trans hcfg
  replace husession := husession.trans hsession
  obtain ⟨v, ev', hsecond, -, -, hmore, hvtrace, hports, -⟩ := cmdExchange_done (hucfg ▸ hP)
    (by rwa [hucfg, husession]) (by rwa [hucfg, husession]) addr data 0 cl
  rw [hucfg, husession] at hports
  rw [hucfg] at hsecond
  refine ⟨v, _ :: (ev ++ ev'), ?_, hmore, by rw [hvtrace, hutrace, htrace, List.append_assoc, List.append_assoc]; rfl,
    by simp [hrecover, hports]⟩
  rw [retryLoop_again hfirst rfl, hu]
  exact retryLoop_ok hsecond

/-- Settles O53: `TransportError` is retryable, and with a budget of two a second attempt remains. -/
theorem secondAttemptSucceeds : Obligations.SecondAttemptSucceeds := by
  intro s addr wdata b r1 r2 x1 x2 more hP hmax hreset hwrite ha
  obtain ⟨n, hn⟩ := Nat.exists_eq_add_of_le' hmax
  obtain ⟨t, ev, ht, hmore, htrace, hports⟩ := retryLoop_secondAttempt
    (s := { begun s (.wrreg addr wdata) with retry := { s.retry with attempt := 0 } })
    n hP hreset hwrite ha addr wdata (writeRoute s.cfg addr).2
  have hrun : writeRegister addr wdata (begun s (.wrreg addr wdata)) = (.ok 0, t) := by
    rw [writeRegister_eq, retryOp, show (begun s (.wrreg addr wdata)).cfg.maxRetry = n + 2 from hn]
    exact ht
  exact ⟨present (.ok 0) (discard t), congrArg Host.Outcome.next (finish_eq hrun),
    completes_present 0 ev htrace hports hmore⟩

end Sys2Proof.Machine
end

section
/-! The header of a response on a fixed capture that ends too soon (spec 42 R173 to R175, R181): a field of one byte with nothing
captured and nothing to fetch. -/

namespace Sys2Proof.Machine

section short
variable {α β : Type} {s : State}

theorem bindE_failed {m : Eng α} {f : α → Eng β} {s t : State} {c : Cause} (h : m s = (.err c, t)) :
    bindE m f s = (.err c, t) := by
  rw [bindE, h]

/-- An error of the first part is the outcome of the whole (R12). -/
theorem bindE_err {m : Eng α} {f : α → Eng β} {c : Cause} (h : (m s).1 = .err c) : (bindE m f s).1 = .err c := by
  rcases hm : m s with ⟨r, t⟩
  obtain rfl : r = .err c := by rw [← h, hm]
  rw [bindE_failed hm]

/-- A one-byte field beyond a fixed capture (R181). -/
theorem oneByte_short {f : List Byte → Eng α} (q : Seq) (hcap : s.dp.cap = []) (hfetch : s.dp.fetch = false) :
    (bindE (modifyE (setSeq q)) (fun _ => bindE (readNext 1 .field) f) s).1 = .err .frameTooShort :=
  bindE_err (m := readNext 1 .field) (s := setSeq q s)
    (by rw [readNext_exhausted (by simp [hcap]) (by simpa using hfetch)]; rfl)

theorem parseSkip_short {k : Cmd} (hk : classOf k = .resetClass) (hcap : s.dp.cap = []) (hfetch : s.dp.fetch = false) :
    (parseSkip k s).1 = .err .frameTooShort := by
  rw [parseSkip, hk]
  exact oneByte_short _ hcap hfetch

theorem parseEcho_short (hcap : s.dp.cap = []) (hfetch : s.dp.fetch = false) : (parseEcho s).1 = .err .frameTooShort :=
  oneByte_short _ hcap hfetch

theorem parseStatus_short (hcap : s.dp.cap = []) (hfetch : s.dp.fetch = false) : (parseStatus s).1 = .err .frameTooShort :=
  oneByte_short _ hcap hfetch

end short

/-- A capture that ends behind the skip byte, where the class has one. -/
theorem parseRaw_beforeEcho {s : State} (hP : paramsWf s.cfg = true) (k : Cmd) (skip : Byte) :
    parseRaw (opcOf s.cfg.opc k) (skipFields k skip).flatten s = .err .frameTooShort := by
  obtain ⟨t, q, ht, hadv, -⟩ := parseSkip_loaded s k skip []
  obtain ⟨hcap, hfetch, -⟩ := hadv.of_loaded
  rw [List.append_nil] at ht
  rw [parseRaw, parseLoaded_eq hP, bindE, ht]
  exact bindE_err (parseEcho_short hcap hfetch)

/-- A capture that ends behind a correct echo. -/
theorem parseRaw_beforeStatus {s : State} (hP : paramsWf s.cfg = true) (k : Cmd) (skip : Byte) :
    parseRaw (opcOf s.cfg.opc k) (skipFields k skip ++ [[opcOf s.cfg.opc k]]).flatten s = .err .frameTooShort := by
  obtain ⟨t, q, ht, hadv, hop, -⟩ := parseSkip_loaded s k skip [[opcOf s.cfg.opc k]]
  have hready := hadv.ready
  rw [← hop] at hready
  obtain ⟨u, q1, hu, hadv1, -⟩ := parseEcho_ready hready
  rw [hop] at hadv1
  obtain ⟨hcap, hfetch, -⟩ := (hadv.trans hadv1).of_loaded
  rw [parseRaw, parseLoaded_eq hP, bindE, ht]
  change (bindE parseEcho _ t).1 = _
  rw [bindE, hu]
  exact bindE_err (parseStatus_short hcap hfetch)

/-- Settles O21: the capture ends before the skip byte of a reset-class response, before the echo, or before the status. -/
theorem headerCutShortIsFrameTooShort : Obligations.HeaderCutShortIsFrameTooShort := by
  intro s k skip hP
  refine ⟨?_, ?_, ?_⟩
  · by_cases hk : classOf k = .resetClass
    · rw [parseRaw, parseLoaded_eq hP]
      exact bindE_err (parseSkip_short hk rfl rfl)
    · simpa [skipFields_read hk] using parseRaw_beforeEcho hP k skip
  · rw [← skipFields_flatten]
    exact parseRaw_beforeEcho hP k skip
  · simpa [skipFields_flatten] using parseRaw_beforeStatus hP k skip

end Sys2Proof.Machine
end

section
/-! A register access with a dead transport (spec 42 R187, spec 45 R261, R263 to R267): every attempt fails in its exchange, and
so does the bus reset of every recovery, until the budget is used up. -/

namespace Sys2Proof.Machine

/-! ## One exchange (R187) -/

/-- Under the configuration `P` and in the session `S`, an answer `false` to its first transport call, the exchange `p`, ends
the computation with `TransportError`. -/
def DiesAt {α : Type} (P : Params) (S : Session) (p : PortEvent) (m : Eng α) : Prop :=
  ∀ (s : State) (b : List Byte) (more : List Answer), s.cfg = P → s.session = S →
    s.answers = { ok := false, bytes := b } :: more →
      ∃ t, m s = (.err .transportError, t) ∧ t.cfg = P ∧ t.session = S ∧ t.answers = more ∧
        t.trace = s.trace ++ [{ seq := .cmdXfer, ret := s.ret, port := p }]

section dies
variable {α β : Type} {P : Params} {S : Session} {p : PortEvent}

theorem DiesAt.bindE {m : Eng α} (hm : DiesAt P S p m) (f : α → Eng β) : DiesAt P S p (bindE m f) := by
  intro s b more hcfg hsession ha
  obtain ⟨t, ht, hleft⟩ := hm s b more hcfg hsession ha
  exact ⟨t, by rw [Machine.bindE, ht], hleft⟩

theorem DiesAt.cmdExchange (hP : paramsWf P = true) (S : Session) (k : Cmd) (addr data size : Word) (cl : Bool) :
    DiesAt P S (deadExchange P S.xferStyle k S.checksumEnabled (withCk P S.checksumEnabled (cmdBody P k addr data size cl)))
      (cmdExchange (opcOf P.opc k) addr data size cl) := by
  rintro s b more rfl rfl ha
  exact cmdExchange_dead hP addr data size cl ha

/-- The one attempt of a bus reset (R205). -/
theorem DiesAt.resetBusOnce (hP : paramsWf P = true) (S : Session) :
    DiesAt P S (deadExchange P S.xferStyle .reset S.checksumEnabled (resetFrame P S.checksumEnabled)) resetBusOnce := by
  rintro s b more rfl
  exact (DiesAt.cmdExchange hP S .reset 0 0 0 false).bindE (fun _ => pureE 0) s b more rfl

end dies

/-! ## The recovery (R265) -/

/-- Where the bus reset of the recovery begins: behind the first delay, as the step `RETRY_RESET`. -/
def resetting (s : State) : State :=
  { delayEvent (setSeq .retryDelayA s) with seq := .retryReset, ret := .retryReset :: s.ret }

theorem under_eq {α : Type} {m : Eng α} {q : Seq} {s t : State} {r : Res α}
    (h : m { s with seq := q, ret := q :: s.ret } = (r, t)) : under q m s = (r, { t with seq := q, ret := s.ret }) := by
  rw [under, h]

/-- A bus reset that fails is logged, and its error dropped (R265). -/
theorem recover_failed {s t : State} {e : Cause} (h : resetBusOnce (resetting s) = (.err e, t)) :
    recover s = delayEvent (setSeq .retryDelayB (logEvent .resetFailed { t with seq := .retryReset, ret := s.ret })) := by
  have hunder : under .retryReset resetBusOnce (delayEvent (setSeq .retryDelayA s)) =
      (.err e, { t with seq := .retryReset, ret := s.ret }) := under_eq h
  simp only [recover, hunder]

/-- The port events of a recovery whose bus reset fails in the transport. -/
def deadRecovery (P : Params) (S : Session) : List PortEvent :=
  [.delay P.retryDelay, deadExchange P S.xferStyle .reset S.checksumEnabled (resetFrame P S.checksumEnabled),
    .log .resetFailed, .delay P.retryDelay]

theorem recover_dead {s : State} {b : List Byte} {more : List Answer} (hP : paramsWf s.cfg = true)
    (ha : s.answers = { ok := false, bytes := b } :: more) :
    (recover s).cfg = s.cfg ∧ (recover s).session = s.session ∧ (recover s).answers = more ∧
      ∃ ev, (recover s).trace = s.trace ++ ev ∧ ev.map (fun e => e.port) = deadRecovery s.cfg s.session := by
  obtain ⟨t, hdead, hcfg, hsession, hmore, htrace⟩ := DiesAt.resetBusOnce hP s.session (resetting s) b more rfl rfl ha
  have hbegin : (resetting s).trace = s.trace ++ [{ seq := .retryDelayA, ret := s.ret, port := .delay s.cfg.retryDelay }] := rfl
  rw [recover_failed hdead]
  refine ⟨hcfg, hsession, hmore, ?_⟩
  simp only [delayEvent_trace, setSeq_trace, logEvent_trace, htrace, hbegin, List.append_assoc]
  exact ⟨_, rfl, by simp [deadRecovery, hcfg]⟩

/-! ## The loop (R261) -/

/-- Every attempt left dies, and so does every bus reset (R263, R264, R267). -/
theorem retryLoop_dead {α : Type} {op : Eng α} {P : Params} {S : Session} {p : PortEvent} (hP : paramsWf P = true)
    (hop : DiesAt P S p op) {n : Nat} {s : State} {bs : List (List Byte)} {more : List Answer} (hcfg : s.cfg = P)
    (hsession : s.session = S) (hn : bs.length = 2 * n) (hlast : n = 0 → s.retry.lastErr = .transportError)
    (ha : s.answers = (bs.map fun b => { ok := false, bytes := b }) ++ more) :
    ∃ t ev, retryLoop op n s = (.err .transportError, t) ∧ t.answers = more ∧ t.trace = s.trace ++ ev ∧
      ev.map (fun e => e.port) = (List.replicate n (p :: deadRecovery P S)).flatten := by
  induction n generalizing s bs with
  | zero =>
    obtain rfl := List.length_eq_zero_iff.1 hn
    exact ⟨s, [], by simp [retryLoop, hlast], by simpa using ha, by simp, by simp⟩
  | succ n ih =>
    match bs, hn with
    | b :: b' :: bs, hn =>
      obtain ⟨t, ht, htcfg, htsession, htanswers, httrace⟩ := hop s b _ hcfg hsession ha
      have hfailed : (takeError .transportError t).cfg = P := htcfg
      obtain ⟨hrcfg, hrsession, hranswers, ev, hrtrace, hrports⟩ :=
        recover_dead (s := takeError .transportError t) (hfailed ▸ hP) htanswers
      obtain ⟨u, ev', hu, hmore, hutrace, huports⟩ := ih (s := returnFromError (recover (takeError .transportError t)))
        (hrcfg.trans htcfg) (hrsession.trans htsession) (by simpa [Nat.mul_add] using hn)
        (fun _ => by simp [recover_retry]) hranswers
      have hall : u.trace = s.trace ++ ({ seq := .cmdXfer, ret := s.ret, port := p } :: (ev ++ ev')) := by
        rw [hutrace, returnFromError_trace, hrtrace, takeError_trace, httrace]
        simp
      rw [hfailed, show (takeError .transportError t).session = S from htsession] at hrports
      refine ⟨u, _, by rw [retryLoop_again ht rfl, hu], hmore, hall, ?_⟩
      rw [List.map_cons, List.map_append, hrports, huports]
      rfl

/-- A host operation that is one access with the whole budget (R261, R263), its request latched. -/
theorem finish_dead {m : Eng Word} {k : Cmd} {f : List Byte} {op : Eng Word} {s : State} {r : Request}
    {bs : List (List Byte)} {more : List Answer} (hP : paramsWf s.cfg = true)
    (hm : m { s with req := r } = retryOp op { s with req := r })
    (hop : DiesAt s.cfg s.session (deadExchange s.cfg s.session.xferStyle k s.session.checksumEnabled f) op)
    (hn : bs.length = 2 * s.cfg.maxRetry) (ha : s.answers = (bs.map fun b => { ok := false, bytes := b }) ++ more) :
    Completes s (finish m { s with req := r }) (failedWith .transportError)
      (List.replicate s.cfg.maxRetry (deadAttempt s.cfg s.session.xferStyle k s.session.checksumEnabled f)).flatten more := by
  have hbudget := (paramsWf_bounds hP).1
  obtain ⟨t, ev, ht, hmore, htrace, hports⟩ := retryLoop_dead
    (s := { s with req := r, retry := { s.retry with attempt := 0 } }) hP hop rfl rfl hn (by omega) ha
  rw [finish_eq (hm.trans ht)]
  exact completes_outcome (.err .transportError) ev htrace hports hmore

/-- Settles O52: `TransportError` is retryable, and each attempt takes two of the answers. -/
theorem deadTransportExhaustsTheBudget : Obligations.DeadTransportExhaustsTheBudget := by
  intro s addr wdata bs more hP hn ha
  exact ⟨⟨_, rfl, finish_dead hP (readRegister_eq addr _) ((DiesAt.cmdExchange hP _ _ addr 0 0 _).bindE _) hn ha⟩,
    ⟨_, rfl, finish_dead hP (writeRegister_eq addr wdata _) ((DiesAt.cmdExchange hP _ _ addr wdata 0 _).bindE _) hn ha⟩⟩

end Sys2Proof.Machine
end

section
/-! The port events of a computation whatever is answered (spec 00 R13, spec 42 R171, R187): which they are, and that a transport
call that fails is the last of them. -/

namespace Sys2Proof.Machine

/-! ## The events of a computation -/

/-- Every event of the computation satisfies `A`. The events before `last` are no failed call; where a `last` one stands, the
computation ends with `TransportError` (R187). -/
def Shows {α : Type} (A : PortEvent → Prop) (m : Eng α) : Prop :=
  ∀ s : State, ∃ ev last : List Event, (m s).2.trace = s.trace ++ (ev ++ last) ∧ (∀ e ∈ ev ++ last, A e.port) ∧
    (∀ e ∈ ev, failedCall e = false) ∧ (last = [] ∨ last.length = 1 ∧ (m s).1 = .err .transportError)

section shows
variable {α β : Type} {A : PortEvent → Prop} {m : Eng α}

theorem Shows.nothing (h : ∀ s, (m s).2.trace = s.trace) : Shows A m :=
  fun s => ⟨[], [], by simp [h s], by simp, by simp, .inl rfl⟩

theorem Shows.pureE (a : α) : Shows A (pureE a) :=
  Shows.nothing fun _ => rfl

theorem Shows.raiseE (c : Cause) : Shows A (raiseE c : Eng α) :=
  Shows.nothing fun _ => rfl

theorem Shows.modify {f : State → State} (h : ∀ s, (f s).trace = s.trace) : Shows A (modifyE f) :=
  Shows.nothing h

theorem Shows.withE {f : State → Eng α} (h : ∀ s, Shows A (f s)) : Shows A (withE f) :=
  fun s => h s s

theorem Shows.ite {c : Prop} [Decidable c] {n : Eng α} (hm : Shows A m) (hn : Shows A n) :
    Shows A (if c then m else n) := by
  split
  · exact hm
  · exact hn

/-- The second part runs only where no call of the first has failed. -/
theorem Shows.bindE {k : α → Eng β} (hm : Shows A m) (hk : ∀ a, Shows A (k a)) : Shows A (bindE m k) := by
  intro s
  obtain ⟨ev, last, htrace, hA, hgood, hlast⟩ := hm s
  rcases hms : m s with ⟨r, t⟩
  rw [hms] at htrace hlast
  simp only [Machine.bindE, hms]
  cases r with
  | err c => exact ⟨ev, last, htrace, hA, hgood, hlast.imp_right fun ⟨hl, hc⟩ => ⟨hl, by cases hc; rfl⟩⟩
  | ok a =>
    obtain rfl : last = [] := hlast.resolve_right nofun
    obtain ⟨ev', last', htrace', hA', hgood', hlast'⟩ := hk a t
    refine ⟨ev ++ ev', last', by rw [htrace', htrace]; simp, fun e he => ?_, fun e he => ?_, hlast'⟩
    · rw [List.append_assoc] at he
      exact (List.mem_append.1 he).elim (fun h => hA e (by simpa using h)) (hA' e)
    · exact (List.mem_append.1 he).elim (hgood e) (hgood' e)

/-- A failed call is the last event, and the outcome is its error. -/
theorem Shows.failed_last (hm : Shows A m) {s t : State} {r : Res α} {pre post : List Event} {e : Event} (h : m s = (r, t))
    (htrace : t.trace = s.trace ++ (pre ++ e :: post)) (he : failedCall e = true) :
    post = [] ∧ r = .err .transportError := by
  obtain ⟨ev, last, htrace', -, hgood, hlast⟩ := hm s
  rw [h] at htrace' hlast
  have hne : e ∉ ev := fun hmem => by rw [hgood e hmem] at he; nomatch he
  have hsplit : ev ++ last = pre ++ e :: post := List.append_cancel_left (htrace'.symm.trans htrace)
  obtain ⟨a, hl⟩ : ∃ a, last = a ++ e :: post := by
    rcases List.append_eq_append_iff.1 hsplit with ⟨a, -, hl⟩ | ⟨c, hev, hl⟩
    · exact ⟨a, hl⟩
    · cases c with
      | nil => exact ⟨[], hl.symm⟩
      | cons f c =>
        obtain rfl : e = f := (List.cons.inj hl).1
        exact absurd (by simp [hev]) hne
  have hone := hlast.resolve_left (by simp [hl])
  refine ⟨?_, hone.2⟩
  have hlen : (a ++ e :: post).length = 1 := hl ▸ hone.1
  simp at hlen
  exact List.eq_nil_of_length_eq_zero (by omega)

/-! ## The ports (R13) -/

/-- One transport call, whose event is a failed one exactly when the answer is `false`. -/
theorem Shows.transport {n : Nat} {ev : Bool → List Byte → PortEvent} (hA : ∀ ok r, A (ev ok r))
    (hok : ∀ q st r, failedCall { seq := q, ret := st, port := ev true r } = false) : Shows A (transport n ev) := by
  intro s
  unfold Machine.transport
  dsimp only
  split
  · exact ⟨[_], [], rfl, by simp [hA], by simp [hok], .inl rfl⟩
  · exact ⟨[], [_], rfl, by simp [hA], by simp, .inr ⟨rfl, rfl⟩⟩

end shows

/-! ## The reader and the parser (R170, R171) -/

section reader
variable {A : PortEvent → Prop} (hA : ∀ n ok r, A (.receive n ok r))
include hA

theorem Shows.readNext (n : Nat) (w : Where) : Shows A (readNext n w) := by
  intro s
  unfold Machine.readNext
  dsimp only
  split_ifs
  · exact (Shows.transport (hA _) fun _ _ _ => rfl).bindE (fun _ => Shows.pureE _) _
  · exact ⟨[], [], (List.append_nil _).symm, by simp, by simp, .inl rfl⟩
  · exact ⟨[], [], (List.append_nil _).symm, by simp, by simp, .inl rfl⟩

/-- A field taken in a step of the sequencer, and what is made of it. -/
theorem Shows.field {α : Type} (q : Seq) (n : Nat) (w : Where) {f : List Byte → Eng α} (hf : ∀ b, Shows A (f b)) :
    Shows A (Machine.bindE (modifyE (setSeq q)) fun _ => Machine.bindE (Machine.readNext n w) f) :=
  Shows.bindE (Shows.modify fun _ => rfl) fun _ => (Shows.readNext hA n w).bindE hf

theorem Shows.scanLoop (n : Nat) : Shows A (scanLoop n) := by
  induction n with
  | zero => exact Shows.raiseE _
  | succ n ih =>
    exact (Shows.readNext hA _ _).bindE fun _ => Shows.bindE (Shows.modify fun _ => rfl) fun _ =>
      Shows.withE fun _ => Shows.ite (Shows.modify fun _ => rfl) ih

theorem Shows.scanSentinel (q : Seq) : Shows A (scanSentinel q) :=
  Shows.bindE (Shows.modify fun _ => rfl) fun _ => Shows.withE fun _ => Shows.scanLoop hA _

theorem Shows.parseSkip (k : Cmd) : Shows A (parseSkip k) := by
  unfold Machine.parseSkip
  split
  · exact Shows.field hA _ _ _ fun _ => Shows.pureE _
  · exact Shows.pureE _

theorem Shows.parseEcho : Shows A parseEcho :=
  Shows.field hA _ _ _ fun _ => Shows.bindE (Shows.modify fun _ => rfl) fun _ =>
    Shows.withE fun _ => Shows.ite (Shows.pureE _) (Shows.raiseE _)

theorem Shows.parseStatus : Shows A parseStatus :=
  Shows.field hA _ _ _ fun _ => Shows.bindE (Shows.modify fun _ => rfl) fun _ =>
    Shows.withE fun _ => Shows.ite (Shows.pureE _) (Shows.raiseE _)

theorem Shows.parsePayload : Shows A parsePayload :=
  Shows.bindE (Shows.modify fun _ => rfl) fun _ => Shows.withE fun _ => (Shows.readNext hA _ _).bindE fun _ =>
    Shows.bindE (Shows.modify fun _ => rfl) fun _ => Shows.pureE _

theorem Shows.parseTrailing : Shows A parseTrailing :=
  Shows.withE fun _ => Shows.ite
    (Shows.field hA _ _ _ fun _ => Shows.bindE (Shows.modify fun _ => rfl) fun _ => Shows.pureE _)
    (Shows.bindE (Shows.modify fun _ => rfl) fun _ => Shows.pureE _)

theorem Shows.parseBody (k : Cmd) (st : Byte) : Shows A (parseBody k st) := by
  unfold Machine.parseBody
  split
  · exact Shows.pureE _
  · exact Shows.pureE _
  · exact (Shows.scanSentinel hA _).bindE fun _ => (Shows.parsePayload hA).bindE fun _ =>
      (Shows.parseTrailing hA).bindE fun _ => Shows.pureE _
  · exact (Shows.scanSentinel hA _).bindE fun _ => Shows.bindE (Shows.modify fun _ => rfl) fun _ => Shows.pureE _

theorem Shows.parseResponse (opcode : Byte) : Shows A (parseResponse opcode) := by
  refine Shows.withE fun s => ?_
  split
  · exact (Shows.parseSkip hA _).bindE fun _ => (Shows.parseEcho hA).bindE fun _ =>
      (Shows.parseStatus hA).bindE fun _ => Shows.parseBody hA _ _
  · exact Shows.raiseE _

end reader

/-! ## The command exchange and the bulk transfers (R183, R236, R237) -/

theorem Shows.exchange : Shows (fun _ => True) exchange := by
  refine Shows.bindE (Shows.modify fun _ => rfl) fun _ => Shows.withE fun s => ?_
  split
  · exact Shows.withE fun _ => (Shows.transport (fun _ _ => trivial) fun _ _ _ => rfl).bindE fun _ => Shows.modify fun _ => rfl
  · exact Shows.withE fun _ => (Shows.transport (fun _ _ => trivial) fun _ _ _ => rfl).bindE fun _ => Shows.modify fun _ => rfl

theorem Shows.buildFrame (opcode : Byte) (addr data size : Word) (cl : Bool) :
    Shows (fun _ => True) (buildFrame opcode addr data size cl) := by
  refine Shows.nothing fun s => ?_
  unfold Machine.buildFrame
  split
  · simp only [appendChecksum_eq, loadFrame_trace]
    split <;> rfl
  · rfl

theorem Shows.cmdExchange (opcode : Byte) (addr data size : Word) (cl : Bool) :
    Shows (fun _ => True) (cmdExchange opcode addr data size cl) :=
  (Shows.buildFrame _ _ _ _ _).bindE fun _ => Shows.exchange.bindE fun _ => Shows.parseResponse (fun _ _ _ => trivial) _

theorem Shows.writeChunks (n : Nat) : Shows (fun _ => True) (writeChunks n) := by
  induction n with
  | zero => exact Shows.pureE _
  | succ n ih =>
    have hsend : ∀ (t : OrderTag) (p : List Byte), Shows (fun _ => True) (sendChunk t p) := fun t p =>
      Shows.bindE (Shows.modify fun _ => rfl) fun _ => Shows.withE fun _ =>
        (Shows.transport (fun _ _ => trivial) fun _ _ _ => rfl).bindE fun _ => Shows.pureE _
    exact Shows.withE fun _ => Shows.ite
      (Shows.bindE (Shows.withE fun _ => (hsend _ _).bindE fun _ => Shows.modify fun _ => rfl) fun _ => ih) (Shows.pureE _)

theorem Shows.writeBulkOnce : Shows (fun _ => True) writeBulkOnce :=
  Shows.bindE (Shows.modify fun _ => rfl) fun _ => Shows.withE fun _ => (Shows.cmdExchange _ _ _ _ _).bindE fun _ =>
    (Shows.writeChunks _).bindE fun _ => Shows.pureE _

theorem Shows.readChunk : Shows (fun _ => True) readChunk :=
  Shows.withE fun _ => Shows.bindE (Shows.modify fun _ => rfl) fun _ =>
    (Shows.ite (Shows.pureE _) (Shows.scanSentinel (fun _ _ _ => trivial) _)).bindE fun _ =>
    Shows.field (fun _ _ _ => trivial) _ _ _ fun _ => Shows.bindE (Shows.modify fun _ => rfl) fun _ =>
    Shows.bindE (Shows.withE fun _ => Shows.ite (Shows.field (fun _ _ _ => trivial) _ _ _ fun _ => Shows.pureE _)
      (Shows.pureE _)) fun _ => Shows.modify fun _ => rfl

theorem Shows.readChunks (n : Nat) : Shows (fun _ => True) (readChunks n) := by
  induction n with
  | zero => exact Shows.pureE _
  | succ n ih => exact Shows.withE fun _ => Shows.ite (Shows.readChunk.bindE fun _ => ih) (Shows.pureE _)

theorem Shows.readBulkOnce : Shows (fun _ => True) readBulkOnce :=
  Shows.bindE (Shows.modify fun _ => rfl) fun _ => Shows.withE fun _ => (Shows.cmdExchange _ _ _ _ _).bindE fun _ =>
    Shows.bindE (Shows.modify fun _ => rfl) fun _ => (Shows.readChunks _).bindE fun _ =>
    Shows.bindE (Shows.modify fun _ => rfl) fun _ => Shows.pureE _

end Sys2Proof.Machine
end

section
/-! `RSTBUS` (spec 42 R174, R175, spec 43 R205, R206): one `RESET` exchange, completed with its outcome, without retry, delay
or log event. -/

namespace Sys2Proof.Machine

/-! ## What one exchange sends (R184, R185) -/

/-- A transport call with a change of registers behind it is one event, which sends what the call does. -/
theorem transport_then_sends {n : Nat} {ev : Bool → List Byte → PortEvent} {f : List Byte → State → State} {w : List Byte}
    (hf : ∀ b u, (f b u).trace = u.trace) (hw : ∀ ok r, portBytes (ev ok r) = w) (s : State) :
    ∃ e, (bindE (transport n ev) (fun b => modifyE (f b)) s).2.trace = s.trace ++ [e] ∧ portBytes e.port = w := by
  rcases ha : nextAnswer n s with ⟨ok, b⟩
  cases ok with
  | true => exact ⟨_, by simp only [bindE, transport, ha, if_true]; exact hf _ _, hw _ _⟩
  | false => exact ⟨_, by simp only [bindE, transport, ha, Bool.false_eq_true, if_false]; rfl, hw _ _⟩

theorem exchange_sends {s : State} {k : Cmd} (hpad : padCount s = padOf s.cfg.pad (classOf k) s.session.checksumEnabled) :
    ∃ e, (exchange s).2.trace = s.trace ++ [e] ∧
      portBytes e.port = exchangeBytes s.cfg s.session.xferStyle k s.session.checksumEnabled (frameOf s) := by
  have henter : exchange s = (match s.session.xferStyle with
    | .combined => exchangeCombined
    | .separate => exchangeSeparate) (setSeq .cmdXfer s) := rfl
  rw [henter]
  simp only [exchangeBytes, ← hpad]
  cases s.session.xferStyle with
  | combined =>
    simp only [exchangeCombined, withE]
    refine transport_then_sends ?_ ?_ (setSeq .cmdXfer s)
    · exact fun _ _ => rfl
    · exact fun _ _ => rfl
  | separate =>
    simp only [exchangeSeparate, withE]
    refine transport_then_sends ?_ ?_ (setSeq .cmdXfer s)
    · exact fun _ _ => rfl
    · exact fun _ _ => rfl

/-- A command exchange sends its frame in one call, and nothing in any other (R183). -/
theorem cmdExchange_sends {s : State} (hP : paramsWf s.cfg = true) (k : Cmd) (addr data size : Word) (cl : Bool) :
    ∃ ev, (cmdExchange (opcOf s.cfg.opc k) addr data size cl s).2.trace = s.trace ++ ev ∧
      ∀ e ∈ ev, portBytes e.port = [] ∨
        portBytes e.port = exchangeBytes s.cfg s.session.xferStyle k s.session.checksumEnabled
          (withCk s.cfg s.session.checksumEnabled (cmdBody s.cfg k addr data size cl)) := by
  obtain ⟨u, hbuild, hframe, -, hopcode, hcfg, hsession, -, htrace, -, -⟩ := buildFrame_spec hP k addr data size cl
  have hpad : padCount u = padOf u.cfg.pad (classOf k) u.session.checksumEnabled := by
    rw [hcfg, hsession]
    exact Built.padCount hP ⟨hopcode, hcfg, hsession⟩
  obtain ⟨e, hsent, hbytes⟩ := exchange_sends hpad
  rw [hcfg, hsession, hframe] at hbytes
  rcases hx : exchange u with ⟨r, v⟩
  rw [hx, htrace] at hsent
  cases r with
  | err c => exact ⟨[e], by simpa only [cmdExchange, bindE, hbuild, hx] using hsent, by simp [hbytes]⟩
  | ok _ =>
    obtain ⟨ev, last, hparsed, hnone, -⟩ := Shows.parseResponse (A := fun p => portBytes p = []) (fun _ _ _ => rfl)
      (opcOf s.cfg.opc k) v
    refine ⟨e :: (ev ++ last), ?_, fun f hf => ?_⟩
    · simp only [cmdExchange, bindE, hbuild, hx, hparsed]
      rw [show v.trace = s.trace ++ [e] from hsent, List.append_assoc]
      rfl
    · rcases List.mem_cons.1 hf with rfl | hf
      · exact .inr hbytes
      · exact .inl (hnone f hf)

theorem bindE_pureE_final {α β : Type} (m : Eng α) (b : β) (s : State) :
    (bindE m (fun _ => pureE b) s).2 = (m s).2 := by
  rcases h : m s with ⟨_ | _, t⟩ <;> simp only [bindE, h, pureE]

/-! ## Counts of the events of one exchange (R263, R264, R266) -/

section counts
variable {base : List Seq} {ev : List Event}

theorem attemptsIn_cons (base : List Seq) (e : Event) (ev : List Event) :
    attemptsIn base (e :: ev) = attemptsIn base ev + if e.seq = .cmdXfer ∧ e.ret = base then 1 else 0 := by
  simp [attemptsIn, List.countP_cons]

theorem attemptsIn_inner {b : List Seq} (h : ∀ e ∈ ev, IsInner b e) : attemptsIn base ev = 0 :=
  List.countP_eq_zero.2 fun e he => by simp [(h e he).2.1]

theorem delaysIn_transport (h : ∀ e ∈ ev, isTransport e = true) : delaysIn ev = 0 :=
  List.countP_eq_zero.2 fun e he => by
    have hcall := h e he
    obtain ⟨q, st, p⟩ := e
    cases p with
    | transmit | receive | transact => simp
    | delay | log | complete => nomatch hcall

theorem logsIn_transport (tag : LogTag) (h : ∀ e ∈ ev, isTransport e = true) : logsIn tag ev = 0 :=
  List.countP_eq_zero.2 fun e he => by
    have hcall := h e he
    obtain ⟨q, st, p⟩ := e
    cases p with
    | transmit | receive | transact => simp
    | delay | log | complete => nomatch hcall

/-- The completion is no attempt, no delay and no log event (R209). -/
theorem attemptsIn_completed (base : List Seq) (ev : List Event) (q : List Seq) (c : Completion) :
    attemptsIn base (ev ++ [{ seq := .done, ret := q, port := .complete c }]) = attemptsIn base ev := by
  simp [attemptsIn]

theorem delaysIn_completed (ev : List Event) (q : List Seq) (c : Completion) :
    delaysIn (ev ++ [{ seq := .done, ret := q, port := .complete c }]) = delaysIn ev := by
  simp [delaysIn]

theorem logsIn_completed (tag : LogTag) (ev : List Event) (q : List Seq) (c : Completion) :
    logsIn tag (ev ++ [{ seq := .done, ret := q, port := .complete c }]) = logsIn tag ev := by
  simp [logsIn]

end counts

/-- The events of a bus reset, whatever is answered: one attempt, of calls alone, which sends its frame (R205). -/
theorem resetBusOnce_once {s : State} {ev : List Event} (hP : paramsWf s.cfg = true)
    (h : (resetBusOnce s).2.trace = s.trace ++ ev) :
    attemptsIn s.ret ev = 1 ∧ resetsIn s.ret ev = 0 ∧ (∀ e ∈ ev, isTransport e = true) ∧
      ∀ e ∈ ev, portBytes e.port = [] ∨
        portBytes e.port = exchangeBytes s.cfg s.session.xferStyle .reset s.session.checksumEnabled
          (resetFrame s.cfg s.session.checksumEnabled) := by
  obtain ⟨-, e, inner, htrace, hseq, hret, hcall, -, hinner⟩ := resetBusOnce_tries hP
  obtain ⟨sent, hsent, hbytes⟩ := cmdExchange_sends hP .reset 0 0 0 false
  obtain rfl : ev = e :: inner := List.append_cancel_left (h.symm.trans htrace)
  have hsame : (resetBusOnce s).2 = (cmdExchange (opcOf s.cfg.opc .reset) 0 0 0 false s).2 := bindE_pureE_final _ _ s
  rw [← hsame] at hsent
  obtain rfl : sent = e :: inner := List.append_cancel_left (hsent.symm.trans htrace)
  refine ⟨?_, ?_, fun f hf => ?_, hbytes⟩
  · rw [attemptsIn_cons, attemptsIn_inner hinner, if_pos ⟨hseq, hret⟩]
  · rw [resetsIn, attemptsIn_cons, attemptsIn_inner hinner, if_neg (by simp [hret])]
  · rcases List.mem_cons.1 hf with rfl | hf
    · exact hcall
    · exact (hinner f hf).2.2

/-! ## The operation (R206) -/

theorem exec_rstbus_completes {s t : State} {r : Res Word} {ev : List Event} {ports : List PortEvent} {more : List Answer}
    (hrun : resetBusOnce (begun s .rstbus) = (r, t)) (htrace : t.trace = s.trace ++ ev)
    (hports : ev.map (fun e => e.port) = ports) (hmore : t.answers = more) :
    ∃ u, exec .rstbus s = .next u ∧ Completes s u (completionOf r) ports more :=
  ⟨_, congrArg Host.Outcome.next (finish_eq hrun), completes_outcome _ _ htrace hports hmore⟩

/-- The events of the operation are those of its bus reset and the completion. -/
theorem exec_rstbus_trace {s t : State} (h : exec .rstbus s = .next t) :
    ∃ ev q c, (resetBusOnce (begun s .rstbus)).2.trace = s.trace ++ ev ∧
      t.trace = s.trace ++ (ev ++ [{ seq := .done, ret := q, port := .complete c }]) := by
  obtain ⟨ev, htrace, -⟩ := (Obeys.resetBusOnce (w := {}) (begun s .rstbus)).ports
  refine ⟨ev, (resetBusOnce (begun s .rstbus)).2.ret, completionOf (resetBusOnce (begun s .rstbus)).1, htrace, ?_⟩
  rw [← Host.Outcome.next.inj h, ← List.append_assoc, ← begun_trace s .rstbus, ← htrace]
  rfl

/-- A bus reset that the peer answers with another status or another echo (R174, R175). -/
theorem resetBusOnce_refused {s : State} {skip b : Byte} {x : Talk} {c : Cause} {more : List Answer} (hP : paramsWf s.cfg = true)
    (hc : Nacks s.cfg s.session.xferStyle s.session.checksumEnabled .reset skip b x ∧ c = .badStatus ∨
      Misechoes s.cfg s.session.xferStyle s.session.checksumEnabled .reset skip b x ∧ c = .commandEchoMismatch)
    (ha : s.answers = exchangeAnswers s.cfg s.session.xferStyle .reset s.session.checksumEnabled x ++ more) :
    ∃ t ev, resetBusOnce s = (.err c, t) ∧ t.answers = more ∧ t.trace = s.trace ++ ev ∧
      ev.map (fun e => e.port) = exchangePorts s.cfg s.session.xferStyle .reset s.session.checksumEnabled
        (resetFrame s.cfg s.session.checksumEnabled) x := by
  rcases hc with ⟨hN, rfl⟩ | ⟨hM, rfl⟩
  · obtain ⟨t, ev, ht, -, -, hleft⟩ := cmdExchange_nacked hP 0 0 0 false hN ha
    exact ⟨t, ev, bindE_failed ht, hleft⟩
  · obtain ⟨t, ev, ht, -, -, hleft⟩ := cmdExchange_misechoed hP 0 0 0 false hM ha
    exact ⟨t, ev, bindE_failed ht, hleft⟩

/-- Settles O29: the exchange answered well, dead, or refused, completed with its outcome; whatever is answered, the events are
those of one attempt and the completion. -/
theorem busResetIsOneAttempt : Obligations.BusResetIsOneAttempt := by
  intro s more hP
  refine ⟨fun r x hA ha => ?_, fun b ha => ?_, fun skip b x c hc ha => ?_, fun t ev hexec htrace => ?_⟩
  · obtain ⟨t, ev, ht, -, -, hmore, htrace, hports, -⟩ := cmdExchange_done (s := begun s .rstbus) hP hA ha 0 0 0 false
    exact exec_rstbus_completes ht htrace hports hmore
  · obtain ⟨t, ht, -, -, hmore, htrace⟩ := DiesAt.resetBusOnce hP s.session (begun s .rstbus) b more rfl rfl ha
    exact exec_rstbus_completes ht htrace rfl hmore
  · obtain ⟨t, ev, ht, hmore, htrace, hports⟩ := resetBusOnce_refused (s := begun s .rstbus) hP hc ha
    exact exec_rstbus_completes ht htrace hports hmore
  · obtain ⟨calls, q, c, hreset, hend⟩ := exec_rstbus_trace hexec
    obtain rfl := List.append_cancel_left (htrace.symm.trans hend)
    obtain ⟨hone, hnone, hcalls, hbytes⟩ := resetBusOnce_once (s := begun s .rstbus) hP hreset
    simp only [resetsIn, attemptsIn_completed, delaysIn_completed, logsIn_completed]
    refine ⟨hone, hnone, delaysIn_transport hcalls, logsIn_transport _ hcalls, logsIn_transport _ hcalls, fun e he => ?_⟩
    rcases List.mem_append.1 he with he | he
    · exact hbytes e he
    · obtain rfl := List.mem_singleton.1 he
      exact .inl rfl

end Sys2Proof.Machine
end

section
/-! A bulk transfer cut short by a failed chunk (spec 42 R187, spec 44 R236, R237, R240): the pieces before it have gone through,
and nothing is sent or taken behind it. -/

namespace Sys2Proof.Machine

/-! ## The first pieces of a transfer (R233) -/

theorem segments_take {n c k : Nat} (h : k ≤ (n + c - 1) / c) : (segments n c).take k = piecesFrom n c 0 k := by
  rw [segments_eq, piecesFrom_eq, piecesFrom_eq, ← List.map_take, List.take_range, Nat.min_eq_left h]

theorem segments_getElem?_eq {n c j : Nat} {p : Nat × Nat} (h : (segments n c)[j]? = some p) :
    j < (n + c - 1) / c ∧ p = (j * c, min (n - j * c) c) := by
  have hj : j < (n + c - 1) / c := by
    rw [← segments_length]
    exact (List.getElem?_eq_some_iff.1 h).1
  refine ⟨hj, ?_⟩
  rw [segments, List.getElem?_map, List.getElem?_range hj] at h
  exact (Option.some.inj h).symm

/-! ## The command of a transfer (R236, R237) -/

/-- Where the transfer of the latched request `s.req` begins, behind its command: nothing has been moved. -/
structure TransferBegun (s a : State) : Prop where
  cfg : a.cfg = s.cfg
  session : a.session = s.session
  req : a.req = s.req
  mem : a.mem = s.mem
  len : a.bulk.len.toNat = s.req.len.toNat
  off : a.bulk.off.toNat = 0

/-- The command of a transfer answered well; `later` are the fields that stand behind its response. -/
theorem bulkCommand_ready {s : State} {k : Cmd} {r : Reply} {n : Nat} {x : Talk} {later : List (List Byte)} {more : List Answer}
    (hP : paramsWf s.cfg = true) (hlen : bulkRejected s.cfg s.req.len = false) (hk : classOf k ≠ .registerRead)
    (hr : r.Good s.cfg n) (hx : x.fields = replyFields s.cfg k s.session.checksumEnabled r ++ later)
    (hf : x.Fits s.cfg s.session.xferStyle k s.session.checksumEnabled
      (replyFields s.cfg k s.session.checksumEnabled r).flatten.length)
    (ha : s.answers = exchangeAnswers s.cfg s.session.xferStyle k s.session.checksumEnabled x ++ more) :
    ∃ a q ev p, cmdExchange (opcOf s.cfg.opc k) s.req.addr 0 s.req.len false (startBulk s) = (.ok p, a) ∧
      TransferBegun s a ∧ Ready a q [] { later := later, extra := x.extra, more := more } ∧
      (classOf k = .bulkRead → a.dp.fetch = true) ∧ a.trace = s.trace ++ ev ∧
      exchangePorts s.cfg s.session.xferStyle k s.session.checksumEnabled
        (withCk s.cfg s.session.checksumEnabled (cmdBody s.cfg k s.req.addr 0 s.req.len false)) x =
        ev.map (fun e => e.port) ++ servePorts q later := by
  obtain ⟨a, q, ev, hcmd, hready, hfetch, hcfg, hsession, htrace, hports, -⟩ :=
    cmdExchange_ready (s := startBulk s) hP s.req.addr 0 s.req.len false hr (fun h => absurd h hk) hx hf ha
  have hw := Obeys.cmdExchange (w := {}) (opcOf s.cfg.opc k) s.req.addr 0 s.req.len false (startBulk s)
  rw [show cmdExchange (opcOf s.cfg.opc k) s.req.addr 0 s.req.len false (startBulk s) = (_, a) from hcmd] at hw
  have hbulk : a.bulk = (startBulk s).bulk := hw.bulk rfl
  refine ⟨a, q, ev, _, hcmd, ⟨hcfg, hsession, hw.req, hw.mem rfl, ?_, by rw [hbulk]; rfl⟩, hready, hfetch, htrace, hports⟩
  rw [hbulk]
  simpa using Nat.mod_eq_of_lt (bulkRejected_le hlen)

/-! ## A write chunk that is not taken (R236) -/

theorem writeChunks_failed {n : Nat} {s t : State} {c : Cause} (hlt : s.bulk.off.toNat < s.bulk.len.toNat)
    (h : sendChunk (chunkTag s) (chunkPayload s) s = (.err c, t)) : writeChunks (n + 1) s = (.err c, t) := by
  have hchunk : writeChunk s = (.err c, t) := bindE_failed h
  simp only [writeChunks, withE, if_pos hlt, bindE_failed hchunk]

/-- The write loop of a whole transfer with a transport that takes the first pieces and not the next. -/
theorem writeChunks_lost {s : State} {acks : List (List Byte)} {b : List Byte} {p : Nat × Nat} {more : List Answer}
    (hP : paramsWf s.cfg = true) (hoff : s.bulk.off.toNat = 0)
    (hp : (segments s.bulk.len.toNat (chunkBytes s.cfg.chunkSizes s.session.chunkSize))[acks.length]? = some p)
    (ha : s.answers = (acks.map fun b => { ok := true, bytes := b }) ++ { ok := false, bytes := b } :: more) :
    ∃ t ev, writeChunks s.bulk.len.toNat s = (.err .transportError, t) ∧ t.answers = more ∧ t.trace = s.trace ++ ev ∧
      ev.map (fun e => e.port) =
        (chunkPorts s.cfg s.mem s.req.buf s.bulk.len.toNat (chunkBytes s.cfg.chunkSizes s.session.chunkSize)
          s.session.checksumEnabled).take acks.length ++
        [.transmit (pieceFrame s.cfg s.mem s.req.buf s.bulk.len.toNat (chunkBytes s.cfg.chunkSizes s.session.chunkSize)
          s.session.checksumEnabled p) false] := by
  obtain ⟨hj, rfl⟩ := segments_getElem?_eq hp
  obtain ⟨u, m, ev, hu, hm, hcfg, hsession, hreq, hmem, -, hlen, huoff, hanswers, htrace, hports⟩ :=
    writeChunks_prefix (j := 0) (n := s.bulk.len.toNat) hP s.bulk.len.isLt (by omega) (by rw [hoff]; omega) (by omega) rfl ha
  have hstart := piece_start (chunkBytes_bounds hP s.session.chunkSize).1 hj
  have huoff' : u.bulk.off.toNat = acks.length * chunkBytes s.cfg.chunkSizes s.session.chunkSize := by
    rw [huoff, Nat.zero_add, Nat.min_eq_left (Nat.le_of_lt hstart)]
  obtain ⟨m, rfl⟩ : ∃ k, m = k + 1 := ⟨m - 1, by rw [hlen, huoff'] at hm; omega⟩
  obtain ⟨t, e, hsend, -, hmore, httrace, hport⟩ := sendChunk_false (t := chunkTag u) (p := chunkPayload u) hanswers
  refine ⟨t, ev ++ [e], by rw [hu, writeChunks_failed (by rw [hlen, huoff']; exact hstart) hsend], hmore,
    by rw [httrace, htrace, List.append_assoc], ?_⟩
  rw [List.map_append, hports, List.map_singleton, hport, chunkPorts, ← List.map_take, segments_take (Nat.le_of_lt hj)]
  simp only [pieceFrame, chunkTag, chunkPayload, chunkLen, hcfg, hsession, hreq, hmem, hlen, huoff']

theorem writeBulkOnce_lost {s : State} {r : Reply} {x : Talk} {acks : List (List Byte)} {b : List Byte} {p : Nat × Nat}
    {more : List Answer} (hP : paramsWf s.cfg = true) (hlen : bulkRejected s.cfg s.req.len = false)
    (hA : Answers s.cfg s.session.xferStyle s.session.checksumEnabled .dmaExtWrite r x)
    (hp : (segments s.req.len.toNat (chunkBytes s.cfg.chunkSizes s.session.chunkSize))[acks.length]? = some p)
    (ha : s.answers = exchangeAnswers s.cfg s.session.xferStyle .dmaExtWrite s.session.checksumEnabled x ++
      (acks.map fun b => { ok := true, bytes := b }) ++ { ok := false, bytes := b } :: more) :
    ∃ (t : State) (ev : List Event), writeBulkOnce s = (.err .transportError, t) ∧ t.answers = more ∧
      t.trace = s.trace ++ ev ∧
      ev.map (fun e => e.port) =
        exchangePorts s.cfg s.session.xferStyle .dmaExtWrite s.session.checksumEnabled
            (withCk s.cfg s.session.checksumEnabled (cmdBody s.cfg .dmaExtWrite s.req.addr 0 s.req.len false)) x ++
          (chunkPorts s.cfg s.mem s.req.buf s.req.len.toNat (chunkBytes s.cfg.chunkSizes s.session.chunkSize)
            s.session.checksumEnabled).take acks.length ++
          [.transmit (pieceFrame s.cfg s.mem s.req.buf s.req.len.toNat (chunkBytes s.cfg.chunkSizes s.session.chunkSize)
            s.session.checksumEnabled p) false] := by
  obtain ⟨a, q, ev, o, hcmd, hbegun, hready, -, htrace, hports⟩ :=
    bulkCommand_ready (k := .dmaExtWrite) (later := []) hP hlen nofun hA.good (by simpa using hA.fields)
      (by rw [← hA.fields]; exact hA.fits) (by rw [ha, List.append_assoc])
  obtain ⟨hcfg, hsession, hreq, hmem, halen, hoff⟩ := hbegun
  obtain ⟨t, ev', ht, hmore, httrace, htports⟩ := writeChunks_lost (s := a) (p := p) (by rw [hcfg]; exact hP) hoff
    (by rw [halen, hcfg, hsession]; exact hp) (by simpa [serve] using hready.answers)
  rw [halen] at ht
  rw [hcfg, hsession, hreq, hmem, halen] at htports
  refine ⟨t, ev ++ ev', ?_, hmore, by rw [httrace, htrace, List.append_assoc], ?_⟩
  · have hcmd' : cmdExchange s.cfg.opc.dmaExtWrite s.req.addr 0 s.req.len false (startBulk s) = (.ok o, a) := hcmd
    simp only [writeBulkOnce, bindE, modifyE, withE, startBulk_cfg, startBulk_req, hcmd', ht]
  · simp only [servePorts, List.append_nil] at hports
    rw [List.map_append, htports, hports, List.append_assoc]

/-! ## A read chunk that does not come (R237) -/

theorem readChunks_failed {n : Nat} {s t : State} {c : Cause} (h0 : s.bulk.off.toNat ≠ 0)
    (hlt : s.bulk.off.toNat < s.bulk.len.toNat)
    (h : scanSentinel .chunkScan { s with bulk := { s.bulk with n := BitVec.ofNat 14 (chunkLen s) } } = (.err c, t)) :
    readChunks (n + 1) s = (.err c, t) := by
  simp only [readChunks, withE, if_pos hlt, readChunk, if_neg h0, bindE, modifyE, h]

/-- The reader may fetch the pieces (R179, R237). -/
def fetching (s : State) : State :=
  { s with dp := { s.dp with fetch := true } }

/-- Where the scan for the sentinel of the next piece begins. -/
def scanning (s : State) : State :=
  { s with
    bulk := { s.bulk with n := BitVec.ofNat 14 (chunkLen s) }
    seq := .chunkScan
    dp := { s.dp with scanCnt := 0 } }

/-- The read loop over the first pieces of a transfer, up to the scan before the next piece: a scan that fails is its end. -/
theorem readChunks_nextScan {s : State} {q : Nat} {r : Reply} {later : List Reply} {fs : List (List Byte)} {z : Rest}
    (hP : paramsWf s.cfg = true) (hoff : s.bulk.off.toNat = 0)
    (hcount : later.length + 1 < (segments s.bulk.len.toNat (chunkBytes s.cfg.chunkSizes s.session.chunkSize)).length)
    (hp : (r :: later).map (fun c => c.payload.length) =
      ((segments s.bulk.len.toNat (chunkBytes s.cfg.chunkSizes s.session.chunkSize)).take (later.length + 1)).map fun p => p.2)
    (hg : ∀ c ∈ r :: later, c.Good s.cfg c.payload.length)
    (h : Ready s q (restFields s.session.checksumEnabled true (r :: later) ++ fs) z) :
    ∃ t q', (∀ c v, scanLoop s.cfg.scanBudget t = (.err c, v) → readChunks s.bulk.len.toNat s = (.err c, v)) ∧
      Advances s t q (restFields s.session.checksumEnabled true (r :: later) ++ fs) q' fs z := by
  rw [segments_length] at hcount
  rw [segments_take (Nat.le_of_lt hcount)] at hp
  obtain ⟨u, m, q', hu, hm, hadv, -, -, hlen, huoff, -⟩ := readChunks_prefix (j := 0) (n := s.bulk.len.toNat) (cs := r :: later)
    hP s.bulk.len.isLt (by omega) (by rw [List.length_cons]; omega) (by omega) hp hg h
  have hbytes := (chunkBytes_bounds hP s.session.chunkSize).1
  have hstart := piece_start hbytes hcount
  have huoff' : u.bulk.off.toNat = (later.length + 1) * chunkBytes s.cfg.chunkSizes s.session.chunkSize := by
    rw [huoff, Nat.zero_add, List.length_cons, Nat.min_eq_left (Nat.le_of_lt hstart)]
  obtain ⟨m, rfl⟩ : ∃ k, m = k + 1 := ⟨m - 1, by rw [hlen, huoff'] at hm; omega⟩
  refine ⟨scanning u, q', fun c v hv => ?_, hadv.before rfl rfl rfl rfl rfl rfl rfl⟩
  rw [hu]
  refine readChunks_failed ?_ (by rw [hlen, huoff']; exact hstart) ?_
  · rw [huoff']
    exact Nat.mul_ne_zero (by omega) (by omega)
  · rw [scanSentinel_eq, ← hv, show s.cfg = u.cfg from hadv.cfg.symm]
    rfl

/-- One attempt of a bulk read up to the scan before a later piece, the pieces before it sent well. -/
theorem readBulkOnce_nextScan {s : State} {r : Reply} {later : List Reply} {x : Talk} {fs : List (List Byte)} {more : List Answer}
    (hP : paramsWf s.cfg = true) (hlen : bulkRejected s.cfg s.req.len = false)
    (hcount : later.length + 1 < (segments s.req.len.toNat (chunkBytes s.cfg.chunkSizes s.session.chunkSize)).length)
    (hp : (r :: later).map (fun c => c.payload.length) =
      ((segments s.req.len.toNat (chunkBytes s.cfg.chunkSizes s.session.chunkSize)).take (later.length + 1)).map fun p => p.2)
    (hg : ∀ c ∈ r :: later, c.Good s.cfg c.payload.length)
    (hf : x.Fits s.cfg s.session.xferStyle .dmaExtRead s.session.checksumEnabled
      (replyFields s.cfg .dmaExtRead s.session.checksumEnabled r).flatten.length)
    (hx : x.fields = bulkReadFields s.cfg s.session.checksumEnabled r later ++ fs)
    (ha : s.answers = exchangeAnswers s.cfg s.session.xferStyle .dmaExtRead s.session.checksumEnabled x ++ more) :
    ∃ t q ev, (∀ c v, scanLoop s.cfg.scanBudget t = (.err c, v) → readBulkOnce s = (.err c, v)) ∧
      Ready t q fs { later := [], extra := x.extra, more := more } ∧ t.cfg = s.cfg ∧ t.dp.fetch = true ∧
      t.trace = s.trace ++ ev ∧
      exchangePorts s.cfg s.session.xferStyle .dmaExtRead s.session.checksumEnabled
        (withCk s.cfg s.session.checksumEnabled (cmdBody s.cfg .dmaExtRead s.req.addr 0 s.req.len false)) x =
        ev.map (fun e => e.port) ++ servePorts q fs := by
  rw [restFields_bulkRead, List.append_assoc] at hx
  obtain ⟨a, q, ev, o, hcmd, hbegun, hready, hfetch, htrace, hports⟩ :=
    bulkCommand_ready (k := .dmaExtRead) hP hlen nofun (hg r (by simp)) hx hf ha
  have hcfg : (fetching a).cfg = s.cfg := hbegun.cfg
  have hsession : (fetching a).session = s.session := hbegun.session
  have halen : (fetching a).bulk.len.toNat = s.req.len.toNat := hbegun.len
  obtain ⟨t, q', hscan, hadv⟩ := readChunks_nextScan (s := fetching a) (r := r) (later := later) (fs := fs)
    (by rw [hcfg]; exact hP) hbegun.off (by rw [halen, hcfg, hsession]; exact hcount)
    (by rw [halen, hcfg, hsession]; exact hp) (by rw [hcfg]; exact hg)
    (by rw [hsession]; exact (hready.enter (hfetch rfl)).congr rfl rfl (hfetch rfl).symm)
  rw [halen, hcfg] at hscan
  rw [hsession] at hadv
  obtain ⟨ev', httrace, htports⟩ := hadv.ports
  refine ⟨t, q', ev ++ ev', fun c v hv => ?_, hadv.ready, hadv.cfg.trans hcfg, hadv.fetch, ?_, ?_⟩
  · have hcmd' : cmdExchange s.cfg.opc.dmaExtRead s.req.addr 0 s.req.len false (startBulk s) = (.ok o, a) := hcmd
    simp only [readBulkOnce, bindE, modifyE, withE, startBulk_cfg, startBulk_req, hcmd']
    exact bindE_failed (s := fetching a) (hscan c v hv)
  · rw [httrace, ← List.append_assoc, ← htrace]
    rfl
  · simp only [List.append_nil] at htports
    rw [hports, htports, List.map_append, List.append_assoc]

/-- A scan over a whole budget of bytes without a sentinel (R176). -/
theorem scanLoop_exhausted {s : State} {q : Nat} {lost : List Byte} {z : Rest}
    (h : Ready s q (lost.map fun w => [w]) z) (hw : ∀ w ∈ lost, isSentinel s.cfg w = false) :
    ∃ t q', scanLoop lost.length s = (.err .resetRequired, t) ∧ Advances s t q (lost.map fun w => [w]) q' [] z := by
  obtain ⟨t, q', ht, hadv, -⟩ := scanLoop_waits (fs := []) 0 (by simpa using h) hw
  exact ⟨t, q', ht, by simpa using hadv⟩

/-- A scan whose first `receive` fails (R187). -/
theorem scanLoop_dead {n : Nat} {s : State} {b : List Byte} {more : List Answer} (hcap : s.dp.cap = [])
    (hfetch : s.dp.fetch = true) (ha : s.answers = { ok := false, bytes := b } :: more) :
    ∃ t, scanLoop (n + 1) s = (.err .transportError, t) ∧ t.answers = more ∧
      t.trace = s.trace ++ [{ seq := s.seq, ret := s.ret, port := .receive 1 false [] }] := by
  have hreceive := transport_false (n := 1) (ev := fun ok r => .receive 1 ok r)
    (s := { s with dp := { s.dp with cap := s.dp.cap.drop 1 } }) ha
  have hread : readNext 1 .scan s = (.err .transportError,
      emit (.receive 1 false []) (takeAnswer { s with dp := { s.dp with cap := s.dp.cap.drop 1 } })) := by
    rw [readNext_fetched (by simp [hcap]) hfetch, hcap]
    exact bindE_failed (by rw [hcap] at hreceive; exact hreceive)
  exact ⟨_, bindE_failed hread, by simp [ha], rfl⟩

/-- Settles O60: a failed call ends the attempt at once; the loops run up to the lost piece, whose `transmit` or scan fails. -/
theorem failedChunkEndsTheAttempt : Obligations.FailedChunkEndsTheAttempt := by
  refine ⟨fun s t r pre post e hrun htrace he => ?_, fun s r x acks b p more hP hlen hA hp ha =>
    writeBulkOnce_lost hP hlen hA hp ha, fun s r later x more hP hlen hcount hp hg hf =>
      ⟨fun lost hlost hw hx ha => ?_, fun b hextra hx ha => ?_⟩⟩
  · rcases hrun with hrun | hrun
    · exact Shows.writeBulkOnce.failed_last hrun htrace he
    · exact Shows.readBulkOnce.failed_last hrun htrace he
  · obtain ⟨t, q, ev, hscan, hready, hcfg, -, htrace, hports⟩ := readBulkOnce_nextScan hP hlen hcount hp hg hf hx ha
    obtain ⟨u, q', hu, hadv⟩ := scanLoop_exhausted hready (by rw [hcfg]; exact hw)
    obtain ⟨ev', hutrace, huports⟩ := hadv.ports
    refine ⟨u, ev ++ ev', hscan _ _ (by rw [← hlost]; exact hu), by simpa [serve] using hadv.ready.answers,
      by rw [hutrace, htrace, List.append_assoc], ?_⟩
    simp only [List.append_nil, servePorts] at huports
    rw [List.map_append, hports, huports]
  · obtain ⟨n, hn⟩ := Nat.exists_eq_add_of_le' (paramsWf_bounds hP).2
    obtain ⟨t, q, ev, hscan, hready, hcfg, hfetch, htrace, hports⟩ :=
      readBulkOnce_nextScan (fs := []) hP hlen hcount hp hg hf (by rw [hx, List.append_nil]) ha
    obtain ⟨u, hu, hmore, hutrace⟩ := scanLoop_dead (n := n) (b := b) (more := more)
      (by simpa [hextra] using hready.cap) hfetch (by simpa [serve] using hready.answers)
    refine ⟨u, ev ++ [{ seq := t.seq, ret := t.ret, port := .receive 1 false [] }], hscan _ _ (by rw [hn]; exact hu), hmore,
      by rw [hutrace, htrace, List.append_assoc], ?_⟩
    simp only [servePorts, List.append_nil] at hports
    rw [List.map_append, hports]
    rfl

end Sys2Proof.Machine
end

section
/-! A register write and then a register read of the same address (spec 43 R208). -/

namespace Sys2Proof.Machine

/-- Settles O54: the write leaves configuration and session as they were and the answers to the read unconsumed, and the payload
of the read is the word written in the order in which it is read. -/
theorem writeThenReadReturnsTheValue : Obligations.WriteThenReadReturnsTheValue := by
  intro s t addr v r1 r2 x1 x2 more hP horder hA1 hA2 hpayload ha hexec
  rw [List.append_assoc] at ha
  obtain ⟨w, hw, hwritten, -⟩ := writeRegisterCompletes s addr v r1 x1 _ hP hA1 ha
  obtain rfl : t = w := Host.Outcome.next.inj (hexec.symm.trans hw)
  obtain ⟨hcfg, hsession, -⟩ := registerOperationFrame _ s t hexec (.inr (.inl ⟨addr, v, rfl⟩))
  obtain ⟨u, hu, hread, -⟩ := readRegisterCompletes t addr r2 x2 more (by rwa [hcfg]) (by rwa [hcfg, hsession])
    (by rw [hwritten.answers, hcfg, hsession])
  have hvalue : payloadValue t.cfg.rdPayloadOrder r2.payload = v := by
    rw [hcfg, horder, hpayload]
    exact fromBe32_be32 v
  exact ⟨hwritten.compl, u, hu, by rw [hread.compl, hvalue], hread.answers⟩

end Sys2Proof.Machine
end

section
/-! The commands a host operation sends (spec 43 R207, spec 44 R232): every event in the state `CMD_XFER`, in an attempt or in
the recovery between two attempts, sends the frame of one of the seven commands that host operations use. -/

namespace Sys2Proof.Machine

/-! ## What has been sent -/

/-- The commands that host operations send (R207, R232). -/
def hostCommands : List Cmd :=
  [.internalWrite, .internalRead, .dmaExtWrite, .dmaExtRead, .singleWrite, .singleRead, .reset]

/-- An event in the state `CMD_XFER` sends the frame of such a command. -/
def SendsHostCommand (P : Params) (e : Event) : Prop :=
  e.seq = .cmdXfer → ∃ k ∈ hostCommands, (sentBytes e).head? = some (opcOf P.opc k)

/-- The machine has the configuration `P`, and since the trace was `T` only such frames have been sent. -/
structure Sent (P : Params) (T : List Event) (s : State) : Prop where
  cfg : s.cfg = P
  events : ∃ ev : List Event, s.trace = T ++ ev ∧ ∀ e ∈ ev, SendsHostCommand P e

/-- And the sequencer has left the exchange: a port event here is none of `CMD_XFER`. -/
structure SentOutside (P : Params) (T : List Event) (s : State) : Prop extends Sent P T s where
  outside : s.seq ≠ .cmdXfer

/-- The computation keeps that so, from wherever it is so. -/
def SendsOnly {α : Type} (P : Params) (T : List Event) (m : Eng α) : Prop :=
  Ensures (Sent P T) m (Sent P T) (Sent P T)

section sent
variable {α : Type} {P : Params} {T : List Event} {s t : State}

theorem Sent.more {ev : List Event} (h : Sent P T s) (hcfg : t.cfg = s.cfg) (htrace : t.trace = s.trace ++ ev)
    (hev : ∀ e ∈ ev, SendsHostCommand P e) : Sent P T t := by
  obtain ⟨ev', htrace', hev'⟩ := h.events
  refine ⟨hcfg.trans h.cfg, ev' ++ ev, by rw [htrace, htrace', List.append_assoc], fun e he => ?_⟩
  exact (List.mem_append.1 he).elim (hev' e) (hev e)

/-- The reader's calls and those that send chunks are outside the exchange. -/
theorem IsInner.sendsHostCommand {b : List Seq} {e : Event} (h : IsInner b e) : SendsHostCommand P e :=
  fun hseq => absurd hseq h.2.1

/-! ## One attempt -/

/-- An exchange sends the frame of its command, and its reader is outside it when it ends with a value (R183). -/
theorem cmdExchange_sent (hP : paramsWf P = true) {k : Cmd} (hk : k ∈ hostCommands) (addr data size : Word) (cl : Bool) :
    Ensures (Sent P T) (cmdExchange (opcOf P.opc k) addr data size cl) (SentOutside P T) (Sent P T) := by
  intro s hs
  obtain rfl := hs.cfg
  obtain ⟨-, hleft, e, ev, htrace, -, -, -, hhead, hinner⟩ := cmdExchange_events hP k addr data size cl
  have hsent := hs.more (Obeys.cmdExchange (w := {}) _ _ _ _ _ s).cfg htrace fun f hf => by
    rcases List.mem_cons.1 hf with rfl | hf
    · exact fun _ => ⟨k, hk, hhead⟩
    · exact (hinner f hf).sendsHostCommand
  rcases hx : cmdExchange (opcOf s.cfg.opc k) addr data size cl s with ⟨p | c, t⟩
  · rw [hx] at hsent hleft
    exact .inl ⟨p, t, rfl, { hsent with outside := hleft p rfl }⟩
  · rw [hx] at hsent
    exact .inr ⟨c, t, rfl, hsent⟩

/-- What stands behind an exchange in an attempt stays outside `CMD_XFER`. -/
theorem Inner.sent {w : Scope} {m : Eng α} (hm : Inner m) (hw : Obeys w m) :
    Ensures (SentOutside P T) m (SentOutside P T) (Sent P T) := by
  refine Ensures.mono (Ensures.of_final fun s hs => ?_) (fun _ h => h) (fun _ h => h) (fun _ h => h.toSent)
  obtain ⟨-, houtside, ev, htrace, hinner⟩ := hm s hs.outside
  exact { hs.toSent.more (hw s).cfg htrace fun e he => (hinner e he).sendsHostCommand with outside := houtside }

theorem readRegOnce_sent (hP : paramsWf P = true) {k : Cmd} (hk : k ∈ hostCommands) (addr : Word) (cl : Bool) :
    Ensures (Sent P T) (readRegOnce (opcOf P.opc k) addr cl) (SentOutside P T) (Sent P T) :=
  Ensures.bindE (cmdExchange_sent hP hk _ _ _ _) fun _ => Ensures.withE fun _ => Ensures.pureE fun _ h => h

theorem writeRegOnce_sent (hP : paramsWf P = true) {k : Cmd} (hk : k ∈ hostCommands) (addr data : Word) (cl : Bool) :
    Ensures (Sent P T) (writeRegOnce (opcOf P.opc k) addr data cl) (SentOutside P T) (Sent P T) :=
  Ensures.bindE (cmdExchange_sent hP hk _ _ _ _) fun _ => Ensures.pureE fun _ h => h

theorem resetBusOnce_sent (hP : paramsWf P = true) : Ensures (Sent P T) resetBusOnce (SentOutside P T) (Sent P T) :=
  Ensures.withE_of fun s hs => by
    rw [hs.cfg]
    exact Ensures.bindE (cmdExchange_sent hP (k := .reset) (by decide) _ _ _ _) fun _ => Ensures.pureE fun _ h => h

theorem writeBulkOnce_sent (hP : paramsWf P = true) : Ensures (Sent P T) writeBulkOnce (SentOutside P T) (Sent P T) := by
  refine Ensures.bindE (r := Sent P T) (Ensures.modify fun _ h => { h with }) fun _ => Ensures.withE_of fun s hs => ?_
  rw [hs.cfg]
  exact Ensures.bindE (cmdExchange_sent hP (k := .dmaExtWrite) (by decide) _ _ _ _) fun _ =>
    Ensures.bindE ((Inner.writeChunks _).sent (Obeys.writeChunks (w := { bulk := true }) rfl _)) fun _ =>
    Ensures.pureE fun _ h => h

theorem readBulkOnce_sent (hP : paramsWf P = true) : Ensures (Sent P T) readBulkOnce (SentOutside P T) (Sent P T) := by
  refine Ensures.bindE (r := Sent P T) (Ensures.modify fun _ h => { h with }) fun _ => Ensures.withE_of fun s hs => ?_
  rw [hs.cfg]
  exact Ensures.bindE (cmdExchange_sent hP (k := .dmaExtRead) (by decide) _ _ _ _) fun _ =>
    Ensures.bindE (Ensures.modify fun _ h => { h with }) fun _ =>
    Ensures.bindE ((Inner.readChunks _).sent (Obeys.readChunks (w := { bulk := true, mem := true }) rfl rfl _)) fun _ =>
    Ensures.bindE (Ensures.modify fun _ h => { h with }) fun _ => Ensures.pureE fun _ h => h

/-! ## The retry controller (R261) -/

/-- The recovery sends the frame of the bus reset and no other (R265). -/
theorem Sent.recover (hP : paramsWf P = true) (h : Sent P T s) : Sent P T (recover s) := by
  obtain rfl := h.cfg
  obtain ⟨d1, e, ev, logs, d2, htrace, -, -, hd1, -, -, hd2, -, -, -, hhead, hinner, hlogs⟩ := recover_events hP
  refine h.more (within_recover {} s).cfg (by simpa only [List.append_assoc] using htrace) fun f hf => ?_
  simp only [List.cons_append, List.mem_cons, List.mem_append, List.not_mem_nil, or_false] at hf
  rcases hf with rfl | rfl | hf | hf | rfl
  · simp [SendsHostCommand, hd1]
  · exact fun _ => ⟨.reset, by decide, hhead⟩
  · exact (hinner f hf).sendsHostCommand
  · rcases hlogs with rfl | rfl
    · nomatch hf
    · simp [SendsHostCommand, List.mem_singleton.1 hf]
  · simp [SendsHostCommand, hd2]

/-- What every attempt makes of a state that the recovery keeps, when it ends with a value, the retry controller makes of it
(R261); `Ensures.retryOp` is the case that a value changes nothing. -/
theorem Ensures.retryOp_value {p q : State → Prop} {op : Eng α} (hop : Ensures p op q p)
    (hset : ∀ s x, p s → p { s with retry := x }) (herr : ∀ s c, p s → p (takeError c s))
    (hrec : ∀ s, p s → p (recover s)) : Ensures p (Machine.retryOp op) q p := by
  have loop : ∀ n, Ensures p (retryLoop op n) q p := by
    intro n
    induction n with
    | zero => exact fun s hs => .inr ⟨_, s, rfl, hs⟩
    | succ n ih =>
      intro s hs
      rcases hop s hs with ⟨a, t, h, ht⟩ | ⟨c, t, h, ht⟩
      · exact .inl ⟨a, t, retryLoop_ok h, ht⟩
      · by_cases hc : retryable c = true
        · rw [retryLoop_again h hc]
          exact ih _ (hset _ _ (hrec _ (herr t c ht)))
        · exact .inr ⟨c, _, retryLoop_stop h (by simpa using hc), herr t c ht⟩
  exact fun s hs => loop _ _ (hset s _ hs)

theorem retryOp_sent (hP : paramsWf P = true) {op : Eng α} (hop : Ensures (Sent P T) op (SentOutside P T) (Sent P T)) :
    Ensures (Sent P T) (retryOp op) (SentOutside P T) (Sent P T) :=
  Ensures.retryOp_value hop (fun _ _ h => { h with }) (fun _ _ h => { h with }) fun _ h => h.recover hP

theorem SendsOnly.of_outside {m : Eng α} (h : Ensures (Sent P T) m (SentOutside P T) (Sent P T)) : SendsOnly P T m :=
  h.mono (fun _ h => h) (fun _ h => h.toSent) fun _ h => h

/-! ## The wrapped operations -/

/-- A wrapped register read ends with a value outside the exchange, so that what is logged behind it is no event of
`CMD_XFER`. -/
theorem readRegister_sent (hP : paramsWf P = true) (addr : Word) :
    Ensures (Sent P T) (readRegister addr) (SentOutside P T) (Sent P T) :=
  Ensures.withE_of fun s hs => by
    rw [hs.cfg]
    exact Ensures.ite (retryOp_sent hP (readRegOnce_sent hP (k := .internalRead) (by decide) _ _))
      (retryOp_sent hP (readRegOnce_sent hP (k := .singleRead) (by decide) _ _))

theorem SendsOnly.readRegister (hP : paramsWf P = true) (addr : Word) : SendsOnly P T (readRegister addr) :=
  SendsOnly.of_outside (readRegister_sent hP addr)

theorem SendsOnly.writeRegister (hP : paramsWf P = true) (addr v : Word) : SendsOnly P T (writeRegister addr v) :=
  SendsOnly.of_outside <| Ensures.withE_of fun s hs => by
    rw [hs.cfg]
    exact Ensures.ite (retryOp_sent hP (writeRegOnce_sent hP (k := .internalWrite) (by decide) _ _ _))
      (retryOp_sent hP (writeRegOnce_sent hP (k := .singleWrite) (by decide) _ _ _))

theorem SendsOnly.internalReadOp (hP : paramsWf P = true) (addr : Word) : SendsOnly P T (internalReadOp addr) :=
  SendsOnly.of_outside <| Ensures.withE_of fun s hs => by
    rw [hs.cfg]
    exact retryOp_sent hP (readRegOnce_sent hP (k := .internalRead) (by decide) _ _)

theorem SendsOnly.internalWriteOp (hP : paramsWf P = true) (addr v : Word) : SendsOnly P T (internalWriteOp addr v) :=
  SendsOnly.of_outside <| Ensures.withE_of fun s hs => by
    rw [hs.cfg]
    exact retryOp_sent hP (writeRegOnce_sent hP (k := .internalWrite) (by decide) _ _ _)

theorem SendsOnly.readBulkOp (hP : paramsWf P = true) : SendsOnly P T readBulkOp := by
  refine Ensures.of_final fun s hs => ?_
  rcases retryOp_sent hP (readBulkOnce_sent hP) s hs with ⟨v, t, h, ht⟩ | ⟨c, t, h, ht⟩
  · simpa only [Machine.readBulkOp, h, spoilOnFailure] using ht.toSent
  · simp only [Machine.readBulkOp, h, spoilOnFailure]
    exact { ht with }

/-! ## Negotiation and the surrounding operations -/

theorem SendsOnly.under {m : Eng α} (q : Seq) (hm : SendsOnly P T m) : SendsOnly P T (under q m) := by
  refine Ensures.of_final fun s hs => ?_
  have ht : Sent P T (m { s with seq := q, ret := q :: s.ret }).2 := Ensures.final hm { hs with }
  exact { ht with }

/-- An access that negotiation tries (R283 to R286). -/
theorem SendsOnly.tried {m : Eng α} (q : Seq) (hm : SendsOnly P T m) : SendsOnly P T (tryE (Machine.under q m)) :=
  Ensures.tryE (hm.under q)

theorem SendsOnly.livenessProbe (hP : paramsWf P = true) : SendsOnly P T livenessProbe :=
  Ensures.withE fun _ => Ensures.bindE ((SendsOnly.readRegister hP _).under _) fun _ => Ensures.pureE fun _ h => h

theorem SendsOnly.setChecksum (b : Bool) : SendsOnly P T (modifyE (setChecksum b)) :=
  Ensures.modify fun _ h => { h with }

theorem SendsOnly.negStep1 (hP : paramsWf P = true) : SendsOnly P T negStep1 := by
  refine Ensures.bindE (SendsOnly.setChecksum _) fun _ => Ensures.withE fun _ =>
    Ensures.bindE ((SendsOnly.internalReadOp hP _).tried _) fun r1 => ?_
  split
  · exact Ensures.raiseE fun _ h => h
  · exact Ensures.pureE fun _ h => h

theorem SendsOnly.negStep3 (hP : paramsWf P = true) (reg : Word) : SendsOnly P T (negStep3 reg) := by
  refine Ensures.withE fun _ => Ensures.bindE ((SendsOnly.internalWriteOp hP _ _).tried _) fun r3 => ?_
  cases r3 with
  | ok _ => exact SendsOnly.setChecksum _
  | err _ => exact Ensures.raiseE fun _ h => h

theorem SendsOnly.negStep2b (hP : paramsWf P = true) : SendsOnly P T negStep2b := by
  refine Ensures.bindE (SendsOnly.setChecksum _) fun _ => Ensures.withE fun _ =>
    Ensures.bindE ((SendsOnly.internalReadOp hP _).tried _) fun r => ?_
  cases r with
  | ok _ => exact Ensures.pureE fun _ h => h
  | err _ => exact Ensures.raiseE fun _ h => h

theorem SendsOnly.negStep2 (hP : paramsWf P = true) : SendsOnly P T negStep2 := by
  refine Ensures.withE fun _ => Ensures.bindE ((SendsOnly.internalReadOp hP _).tried _) fun r2 => ?_
  cases r2 with
  | ok reg => exact SendsOnly.negStep3 hP reg
  | err _ => exact SendsOnly.negStep2b hP

theorem SendsOnly.negStep4 (hP : paramsWf P = true) : SendsOnly P T negStep4 := by
  refine Ensures.withE fun _ => Ensures.bindE ((SendsOnly.readRegister hP _).tried _) fun r4 => ?_
  cases r4 with
  | ok v => exact Ensures.ite (Ensures.pureE fun _ h => h) (Ensures.raiseE fun _ h => h)
  | err _ => exact Ensures.raiseE fun _ h => h

theorem SendsOnly.negotiateOp (hP : paramsWf P = true) : SendsOnly P T negotiateOp :=
  Ensures.withE fun _ => Ensures.ite (SendsOnly.livenessProbe hP) <|
    Ensures.bindE (SendsOnly.negStep1 hP) fun _ => Ensures.bindE (SendsOnly.negStep2 hP) fun _ =>
    Ensures.bindE (SendsOnly.negStep4 hP) fun _ => Ensures.bindE (Ensures.modify fun _ h => { h with }) fun _ =>
    Ensures.pureE fun _ h => h

/-- A log event outside the exchange sends nothing (R339). -/
theorem SentOutside.logEvent (h : SentOutside P T s) (tag : LogTag) : Sent P T (logEvent tag s) :=
  h.toSent.more rfl rfl fun e he => by
    rw [List.mem_singleton.1 he]
    exact fun hseq => absurd hseq h.outside

theorem SendsOnly.rdintLoop (hP : paramsWf P = true) (c : IntStatus) (n : Nat) : SendsOnly P T (rdintLoop c n) := by
  induction n with
  | zero =>
    exact Ensures.bindE (readRegister_sent hP _) fun _ => Ensures.withE fun _ => Ensures.ite
      (Ensures.bindE (Ensures.modify fun _ h => h.logEvent _) fun _ => Ensures.pureE fun _ h => h)
      (Ensures.pureE fun _ h => h.toSent)
  | succ n ih =>
    exact Ensures.bindE (SendsOnly.readRegister hP _) fun _ => Ensures.withE fun _ => Ensures.ite ih (Ensures.pureE fun _ h => h)

theorem SendsOnly.syncOp (hP : paramsWf P = true) (c : IntEnable) (count : Word) : SendsOnly P T (syncOp c count) :=
  Ensures.bindE (SendsOnly.readRegister hP _) fun _ => Ensures.bindE (SendsOnly.writeRegister hP _ _) fun _ =>
    Ensures.bindE (Ensures.modify fun _ h => { h with }) fun _ => Ensures.pureE fun _ h => h

/-! ## Whole operations -/

theorem Sent.latch (h : Sent P T s) (r : Request) : Sent P T { s with req := r } :=
  { h with }

/-- A completion is presented in `DONE` (R209). -/
theorem Sent.present (h : Sent P T s) (r : Res Word) : Sent P T (present r s) :=
  h.more rfl (present_trace s r) fun e he => by
    rw [List.mem_singleton.1 he]
    exact nofun

theorem SendsOnly.finish {m : Eng Word} (hm : SendsOnly P T m) (h : Sent P T s) : Sent P T (finish m s) :=
  have discarded : Sent P T (discard (m s).2) := { Ensures.final hm h with }
  discarded.present (m s).1

/-- Every host operation sends only the frames of the seven commands. -/
theorem exec_sent (hP : paramsWf P = true) {i : Instr} (hw : wireOperands i = none) (hc : chunkOperands i = none)
    (h : Sent P T s) : ∃ t, exec i s = .next t ∧ Sent P T t := by
  cases i with
  | dmaWrite | dmaRead | internalWrite | internalRead | terminate | repeatCmd | dmaExtWrite | dmaExtRead | singleWrite
  | singleRead | reset => nomatch hw
  | dataFirst | dataMiddle | dataLast | dataSingle => nomatch hc
  | negotiate => exact ⟨_, rfl, (SendsOnly.negotiateOp hP).finish (h.latch _)⟩
  | rdreg => exact ⟨_, rfl, SendsOnly.finish (Ensures.withE fun _ => SendsOnly.readRegister hP _) (h.latch _)⟩
  | wrreg => exact ⟨_, rfl, SendsOnly.finish (Ensures.withE fun _ => SendsOnly.writeRegister hP _ _) (h.latch _)⟩
  | rdbulk =>
    refine ⟨_, rfl, ?_⟩
    split
    · exact h.present _
    · exact (SendsOnly.readBulkOp hP).finish (h.latch _)
  | wrbulk =>
    refine ⟨_, rfl, ?_⟩
    split
    · exact h.present _
    · exact (SendsOnly.of_outside (retryOp_sent hP (writeBulkOnce_sent hP))).finish (h.latch _)
  | rdpend =>
    refine ⟨_, rfl, ?_⟩
    split
    · exact (h.latch _).present _
    · exact (SendsOnly.readRegister hP _).finish (h.latch _)
  | rdint =>
    refine ⟨_, rfl, ?_⟩
    split
    · exact (h.latch _).present _
    · exact SendsOnly.finish (Ensures.withE fun _ => SendsOnly.rdintLoop hP _ _) (h.latch _)
  | clrint =>
    refine ⟨_, rfl, ?_⟩
    split
    · exact (h.latch _).present _
    · exact SendsOnly.finish (Ensures.withE fun _ => SendsOnly.writeRegister hP _ _) (h.latch _)
  | sync =>
    refine ⟨_, rfl, ?_⟩
    split
    · exact (h.latch _).present _
    · split
      · exact (h.latch _).present _
      · exact SendsOnly.finish (Ensures.withE fun _ => SendsOnly.syncOp hP _ _) (h.latch _)
  | rstbus => exact ⟨_, rfl, (SendsOnly.of_outside (resetBusOnce_sent hP)).finish (h.latch _)⟩
  | reserved => exact ⟨_, rfl, h.present _⟩

end sent

/-- Settles O58: `Sent` holds where the operation begins, and every operation keeps it up to its completion. -/
theorem hostOperationsSendSevenCommands : Obligations.HostOperationsSendSevenCommands := by
  intro i s t ev hP hw hc hexec htrace
  obtain ⟨u, hu, hsent⟩ := exec_sent hP hw hc (T := s.trace) ⟨rfl, [], (List.append_nil _).symm, nofun⟩
  obtain rfl : t = u := Host.Outcome.next.inj (hexec.symm.trans hu)
  obtain ⟨ev', htrace', hev⟩ := hsent.events
  obtain rfl : ev = ev' := List.append_cancel_left (htrace.symm.trans htrace')
  exact hev

end Sys2Proof.Machine
end

section
/-! The admission of a bulk length (spec 44 R231), and the bulk write answered well (R233, R234, R236): one attempt, and the
pieces it hands over. -/

namespace Sys2Proof.Machine

/-! ## Admission (R231) -/

theorem bulkRejected_eq_true {P : Params} {len : Word} :
    bulkRejected P len = true ↔ len.toNat < P.bulkMin ∨ bulkMax < len.toNat := by
  simp [bulkRejected]

/-- A bulk request whose length is not admitted completes as `Rejected` and does nothing else. -/
theorem exec_bulk_rejected {i : Instr} {s : State} {addr len buf : Word} (hr : bulkRejected s.cfg len = true)
    (hi : i = .wrbulk addr len buf ∨ i = .rdbulk addr len buf) : exec i s = .next (onlyCompleted .rejected s) := by
  obtain ⟨t, ht, -⟩ := exec_within i s
  rw [ht, exec_rejected hr hi ht, refuseRequest_eq]

/-- Settles O39: with a minimum of 5 the two tests of `bulkRejected` are those of R231. -/
theorem bulkLengthIsAdmittedOrRejected : Obligations.BulkLengthIsAdmittedOrRejected := by
  intro s addr len buf hmin
  refine ⟨fun hlen => ?_, fun hlow hhigh => ?_⟩
  · have hr : bulkRejected s.cfg len = true :=
      bulkRejected_eq_true.2 (hlen.imp (fun hlow => by rw [hmin]; exact Nat.lt_succ_of_le hlow) id)
    exact ⟨exec_bulk_rejected hr (.inl rfl), exec_bulk_rejected hr (.inr rfl)⟩
  · refine Bool.eq_false_iff.2 fun hr => ?_
    rcases bulkRejected_eq_true.1 hr with hshort | hlong
    · exact absurd hlow (by rw [← hmin]; exact Nat.not_le.2 hshort)
    · exact absurd hhigh (Nat.not_le.2 hlong)

/-! ## A bulk write (R236) -/

/-- The write loop over a whole transfer with a transport that takes every piece. -/
theorem writeChunks_transfer {s : State} {acks : List (List Byte)} {more : List Answer} (hP : paramsWf s.cfg = true)
    (hoff : s.bulk.off.toNat = 0)
    (hacks : acks.length =
      (segments s.bulk.len.toNat (chunkBytes s.cfg.chunkSizes s.session.chunkSize)).length)
    (ha : s.answers = (acks.map fun b => { ok := true, bytes := b }) ++ more) :
    ∃ t ev, writeChunks s.bulk.len.toNat s = (.ok (), t) ∧ t.req = s.req ∧ t.bulk.addr = s.bulk.addr ∧
      t.bulk.len = s.bulk.len ∧ t.bulk.off.toNat = s.bulk.len.toNat ∧ t.answers = more ∧ t.trace = s.trace ++ ev ∧
      ev.map (fun e => e.port) = chunkPorts s.cfg s.mem s.req.buf s.bulk.len.toNat
        (chunkBytes s.cfg.chunkSizes s.session.chunkSize) s.session.checksumEnabled := by
  obtain ⟨t, ev, ht, -, -, hreq, -, haddr, hlen, htoff, hmore, htrace, hports⟩ :=
    writeChunks_sends (j := 0) (n := s.bulk.len.toNat) hP s.bulk.len.isLt (by rw [Nat.zero_add, segments_length])
      (by rw [hoff]; omega) (Nat.sub_le _ _) hacks ha
  refine ⟨t, ev, ht, hreq, haddr, hlen, htoff, hmore, htrace, ?_⟩
  rw [hports, chunkPorts, segments_length, ← segments_eq]
  rfl

/-- One attempt of a bulk write answered well: the exchange of its command, then every piece once. -/
theorem writeBulkOnce_ready {s : State} {r : Reply} {x : Talk} {acks : List (List Byte)} {more : List Answer}
    (hP : paramsWf s.cfg = true) (hlen : bulkRejected s.cfg s.req.len = false)
    (hA : Answers s.cfg s.session.xferStyle s.session.checksumEnabled .dmaExtWrite r x)
    (hacks : acks.length = (segments s.req.len.toNat (chunkBytes s.cfg.chunkSizes s.session.chunkSize)).length)
    (ha : s.answers = exchangeAnswers s.cfg s.session.xferStyle .dmaExtWrite s.session.checksumEnabled x ++
      (acks.map fun b => { ok := true, bytes := b }) ++ more) :
    ∃ t ev, writeBulkOnce s = (.ok 0, t) ∧ t.req = s.req ∧ t.bulk.addr = s.req.addr.truncate 24 ∧
      t.bulk.len.toNat = s.req.len.toNat ∧ t.bulk.off.toNat = s.req.len.toNat ∧ t.answers = more ∧
      t.trace = s.trace ++ ev ∧
      ev.map (fun e => e.port) =
        exchangePorts s.cfg s.session.xferStyle .dmaExtWrite s.session.checksumEnabled
            (withCk s.cfg s.session.checksumEnabled (cmdBody s.cfg .dmaExtWrite s.req.addr 0 s.req.len false)) x ++
          chunkPorts s.cfg s.mem s.req.buf s.req.len.toNat (chunkBytes s.cfg.chunkSizes s.session.chunkSize)
            s.session.checksumEnabled := by
  -- the command, which has no field behind its response
  obtain ⟨a, q, ev, o, hcmd, hbegun, hready, -, htrace, hports⟩ :=
    bulkCommand_ready (k := .dmaExtWrite) (later := []) hP hlen nofun hA.good (by simpa using hA.fields)
      (by rw [← hA.fields]; exact hA.fits) (by rw [ha, List.append_assoc])
  obtain ⟨hcfg, hsession, hreq, hmem, halen, hoff⟩ := hbegun
  have haddr : a.bulk.addr = s.req.addr.truncate 24 := by
    have hw := Obeys.cmdExchange (w := {}) (opcOf s.cfg.opc .dmaExtWrite) s.req.addr 0 s.req.len false (startBulk s)
    rw [hcmd] at hw
    rw [hw.bulk rfl, startBulk_bulk]
  -- the pieces
  obtain ⟨t, ev', ht, htreq, htaddr, htlen, htoff, hmore, httrace, htports⟩ := writeChunks_transfer (s := a) (acks := acks)
    (more := more) (by rw [hcfg]; exact hP) hoff (by rw [halen, hcfg, hsession]; exact hacks)
    (by simpa [serve] using hready.answers)
  rw [halen] at ht htoff
  rw [hcfg, hsession, hreq, hmem, halen] at htports
  refine ⟨t, ev ++ ev', ?_, htreq.trans hreq, htaddr.trans haddr, by rw [htlen, halen], htoff, hmore,
    by rw [httrace, htrace, List.append_assoc], ?_⟩
  · have hcmd' : cmdExchange s.cfg.opc.dmaExtWrite s.req.addr 0 s.req.len false (startBulk s) = (.ok o, a) := hcmd
    simp only [writeBulkOnce, bindE, modifyE, withE, startBulk_cfg, startBulk_req, hcmd', ht, pureE]
  · simp only [servePorts, List.append_nil] at hports
    rw [List.map_append, htports, hports]

/-- Settles O30: the first attempt of the latched request, whose completion leaves the bulk and request registers alone. -/
theorem bulkWriteSendsEveryPiece : Obligations.BulkWriteSendsEveryPiece := by
  intro s addr len buf r x acks more hP hlen hA hacks ha
  obtain ⟨t, ev, ht, hreq, haddr, htlen, hoff, hmore, htrace, hports⟩ := writeBulkOnce_ready
    (s := { latchBulk 0x4 addr len buf s with retry := { s.retry with attempt := 0 } }) hP hlen hA hacks ha
  have hrun : retryOp writeBulkOnce (latchBulk 0x4 addr len buf s) = (.ok 0, t) := retryOp_first hP ht
  exact ⟨present (.ok 0) (discard t), by rw [exec_wrbulk_admitted hlen, finish_eq hrun],
    completes_present 0 ev htrace hports hmore, haddr, htlen, hoff, hreq⟩

end Sys2Proof.Machine
end

section
/-! The recovery between two attempts (spec 45 R265, spec 60 R322, R323): the events of its bus reset, whatever is answered,
stand between the two delays, and the log event is there exactly when the reset ended in an error. -/

namespace Sys2Proof.Machine

/-! ## The events of one exchange, in order (R183) -/

/-- A call of the reader (R171). -/
def IsReceive (p : PortEvent) : Prop :=
  ∃ (n : Nat) (ok : Bool) (r : List Byte), p = .receive n ok r

/-- A command exchange sends its frame in its first call, and every call after it is the reader's. -/
theorem cmdExchange_takes {s : State} (hP : paramsWf s.cfg = true) (k : Cmd) (addr data size : Word) (cl : Bool) :
    ∃ (e : Event) (taken : List Event),
      (cmdExchange (opcOf s.cfg.opc k) addr data size cl s).2.trace = s.trace ++ e :: taken ∧
        portBytes e.port = exchangeBytes s.cfg s.session.xferStyle k s.session.checksumEnabled
          (withCk s.cfg s.session.checksumEnabled (cmdBody s.cfg k addr data size cl)) ∧
        ∀ f ∈ taken, IsReceive f.port := by
  obtain ⟨u, hbuild, hframe, -, hopcode, hcfg, hsession, -, htrace, -, -⟩ := buildFrame_spec hP k addr data size cl
  have hpad : padCount u = padOf u.cfg.pad (classOf k) u.session.checksumEnabled := by
    rw [hcfg, hsession]
    exact Built.padCount hP ⟨hopcode, hcfg, hsession⟩
  obtain ⟨e, hsent, hbytes⟩ := exchange_sends hpad
  rw [hcfg, hsession, hframe] at hbytes
  rcases hx : exchange u with ⟨_ | c, v⟩
  · replace hsent : v.trace = s.trace ++ [e] := by rw [← htrace, ← hsent, hx]
    obtain ⟨ev, last, hparsed, hread, -⟩ := Shows.parseResponse (A := IsReceive) (fun n ok r => ⟨n, ok, r, rfl⟩)
      (opcOf s.cfg.opc k) v
    refine ⟨e, ev ++ last, ?_, hbytes, hread⟩
    simp only [cmdExchange, bindE, hbuild, hx, hparsed, hsent, List.append_assoc, List.singleton_append]
  · rw [hx, htrace] at hsent
    exact ⟨e, [], by simpa only [cmdExchange, bindE, hbuild, hx] using hsent, hbytes, nofun⟩

theorem resetBusOnce_takes {s : State} (hP : paramsWf s.cfg = true) :
    ∃ (e : Event) (taken : List Event), (resetBusOnce s).2.trace = s.trace ++ e :: taken ∧
      portBytes e.port = exchangeBytes s.cfg s.session.xferStyle .reset s.session.checksumEnabled
        (resetFrame s.cfg s.session.checksumEnabled) ∧
      ∀ f ∈ taken, IsReceive f.port := by
  have hsame : (resetBusOnce s).2 = (cmdExchange (opcOf s.cfg.opc .reset) 0 0 0 false s).2 := bindE_pureE_final _ _ s
  rw [hsame]
  exact cmdExchange_takes hP .reset 0 0 0 false

/-! ## The recovery -/

/-- What the recovery logs of its bus reset (R265, R339). -/
def resetLog : Res Word → List PortEvent
  | .ok _ => []
  | .err _ => [.log .resetFailed]

/-- A bus reset that succeeds is not logged (R265). -/
theorem recover_succeeded {s t : State} {v : Word} (h : resetBusOnce (resetting s) = (.ok v, t)) :
    recover s = delayEvent (setSeq .retryDelayB { t with seq := .retryReset, ret := s.ret }) := by
  have hunder : under .retryReset resetBusOnce (delayEvent (setSeq .retryDelayA s)) =
      (.ok v, { t with seq := .retryReset, ret := s.ret }) := under_eq h
  simp only [recover, hunder]

/-- The events of the recovery, `reset` being those of its bus reset. -/
theorem recover_ports {s t : State} {r : Res Word} {reset : List Event} (h : resetBusOnce (resetting s) = (r, t))
    (hreset : t.trace = (resetting s).trace ++ reset) :
    ∃ ev : List Event, (recover s).trace = s.trace ++ ev ∧
      ev.map (fun e => e.port) = .delay s.cfg.retryDelay ::
        (reset.map (fun e => e.port) ++ resetLog r ++ [.delay s.cfg.retryDelay]) := by
  have hcfg : t.cfg = s.cfg := by
    have hw := (Obeys.resetBusOnce (w := {}) (resetting s)).cfg
    rwa [h] at hw
  have hbegin : (resetting s).trace =
      s.trace ++ [{ seq := .retryDelayA, ret := s.ret, port := .delay s.cfg.retryDelay }] := rfl
  cases r with
  | ok v =>
    rw [recover_succeeded h]
    simp only [delayEvent_trace, setSeq_trace, hreset, hbegin, List.append_assoc]
    exact ⟨_, rfl, by simp [resetLog, hcfg]⟩
  | err c =>
    rw [recover_failed h]
    simp only [delayEvent_trace, setSeq_trace, logEvent_trace, hreset, hbegin, List.append_assoc]
    exact ⟨_, rfl, by simp [resetLog, hcfg]⟩

/-! ## Counts (R263, R264, R266) -/

theorem attemptsIn_append (base : List Seq) (ev ev' : List Event) :
    attemptsIn base (ev ++ ev') = attemptsIn base ev + attemptsIn base ev' :=
  List.countP_append

theorem delaysIn_append (ev ev' : List Event) : delaysIn (ev ++ ev') = delaysIn ev + delaysIn ev' :=
  List.countP_append

theorem logsIn_append (tag : LogTag) (ev ev' : List Event) : logsIn tag (ev ++ ev') = logsIn tag ev + logsIn tag ev' :=
  List.countP_append

/-- The events `ev` hold `a` attempts and `b` bus resets, two delays for each bus reset, at most one log event for each, and
no log event of `RDINT`. -/
structure Tally (base : List Seq) (ev : List Event) (a b : Nat) : Prop where
  attempts : attemptsIn base ev = a
  resets : resetsIn base ev = b
  delays : delaysIn ev = 2 * b
  logs : logsIn .resetFailed ev ≤ b
  unexpected : logsIn .unexpectedInterruptBits ev = 0

theorem Tally.append {base : List Seq} {ev ev' : List Event} {a a' b b' : Nat} (h : Tally base ev a b)
    (k : Tally base ev' a' b') : Tally base (ev ++ ev') (a + a') (b + b') where
  attempts := by rw [attemptsIn_append, h.attempts, k.attempts]
  resets := by rw [resetsIn, attemptsIn_append, ← resetsIn, ← resetsIn, h.resets, k.resets]
  delays := by rw [delaysIn_append, h.delays, k.delays, Nat.mul_add]
  logs := by rw [logsIn_append]; exact Nat.add_le_add h.logs k.logs
  unexpected := by rw [logsIn_append, h.unexpected, k.unexpected]

/-- An exchange with `base` on the return stack, and the calls behind it, are one attempt (R263). -/
theorem tally_attempt {base : List Seq} {e : Event} {inner : List Event} (hseq : e.seq = .cmdXfer) (hret : e.ret = base)
    (hcall : isTransport e = true) (hinner : ∀ f ∈ inner, IsInner base f) : Tally base (e :: inner) 1 0 := by
  have hcalls : ∀ f ∈ e :: inner, isTransport f = true :=
    List.forall_mem_cons.2 ⟨hcall, fun f hf => (hinner f hf).2.2⟩
  exact
    { attempts := by rw [attemptsIn_cons, attemptsIn_inner hinner, if_pos ⟨hseq, hret⟩]
      resets := by rw [resetsIn, attemptsIn_cons, attemptsIn_inner hinner, if_neg (by simp [hret])]
      delays := delaysIn_transport hcalls
      logs := (logsIn_transport _ hcalls).le
      unexpected := logsIn_transport _ hcalls }

/-- The delay of the recovery before or after its bus reset (R266). -/
def recoveryDelay (s : State) (q : Seq) : Event :=
  { seq := q, ret := s.ret, port := .delay s.cfg.retryDelay }

/-- The recovery is one bus reset, whose exchange is none of the operation's attempts (R264, R266). -/
theorem tally_recover {s : State} (hP : paramsWf s.cfg = true) :
    ∃ ev, (recover s).trace = s.trace ++ ev ∧ Tally s.ret ev 0 1 := by
  obtain ⟨⟨q1, r1, p1⟩, e, inner, logs, ⟨q2, r2, p2⟩, htrace, hp1, hr1, hs1, hp2, hr2, hs2, hseq, hret, hcall, -,
    hinner, hlogs⟩ := recover_events hP
  dsimp only at hp1 hr1 hs1 hp2 hr2 hs2
  subst hp1 hr1 hs1 hp2 hr2 hs2
  have hdelay : ∀ base, attemptsIn base [recoveryDelay s .retryDelayA] = 0 ∧
      attemptsIn base [recoveryDelay s .retryDelayB] = 0 := fun base => by simp [attemptsIn, recoveryDelay]
  have hreset := tally_attempt hseq hret hcall hinner
  have hother : attemptsIn s.ret (e :: inner) = 0 := by
    rw [attemptsIn_cons, attemptsIn_inner hinner, if_neg (by simp [hret])]
  obtain ⟨hlog, hlogDelays, hlogged, hunexpected⟩ : (∀ base, attemptsIn base logs = 0) ∧ delaysIn logs = 0 ∧
      logsIn .resetFailed logs ≤ 1 ∧ logsIn .unexpectedInterruptBits logs = 0 := by
    rcases hlogs with rfl | rfl <;> simp [attemptsIn, delaysIn, logsIn]
  refine ⟨[recoveryDelay s .retryDelayA] ++ (e :: inner) ++ logs ++ [recoveryDelay s .retryDelayB],
    by rw [htrace]; simp [recoveryDelay], ?_, ?_, ?_, ?_, ?_⟩
  · simp only [attemptsIn_append, hother, hlog, hdelay]
  · simp only [resetsIn, attemptsIn_append, hreset.attempts, hlog, hdelay]
  · rw [delaysIn_append, delaysIn_append, delaysIn_append, hreset.delays, hlogDelays]
    rfl
  · rw [logsIn_append, logsIn_append, logsIn_append]
    change 0 + logsIn _ (e :: inner) + logsIn _ logs + 0 ≤ 1
    have hnone := hreset.logs
    omega
  · rw [logsIn_append, logsIn_append, logsIn_append, hreset.unexpected, hunexpected]
    rfl

/-- Settles O51: the events of the recovery, and what they count. -/
theorem recoveryIsDelayResetDelay : Obligations.RecoveryIsDelayResetDelay := by
  intro s ev hP htrace
  obtain ⟨ev', htrace', htally⟩ := tally_recover hP
  obtain rfl : ev = ev' := List.append_cancel_left (htrace.symm.trans htrace')
  have hw := within_recover {} s
  refine ⟨recover_retry s, hw.session rfl rfl, hw.ret, htally.delays, htally.resets, htally.attempts, ?_⟩
  obtain ⟨e, taken, hreset, hbytes, hread⟩ := resetBusOnce_takes (s := resetting s) hP
  rcases h : resetBusOnce (resetting s) with ⟨r, t⟩
  rw [h] at hreset
  obtain ⟨ev', htrace', hports⟩ := recover_ports h hreset
  obtain rfl : ev = ev' := List.append_cancel_left (htrace.symm.trans htrace')
  have hunder : under .retryReset resetBusOnce (delayEvent (setSeq .retryDelayA s)) =
      (r, { t with seq := .retryReset, ret := s.ret }) := under_eq h
  refine ⟨e.port, taken.map fun e => e.port, ?_, hbytes, ?_⟩
  · rw [hports, hunder]
    cases r <;> simp [resetLog]
  · exact List.forall_mem_map.2 hread

end Sys2Proof.Machine
end

section
/-! The errors an instruction can complete with, whatever the environment answers (spec 42 R181, R187, spec 60 R326). The
engine never finds a `Combined` capture too short when the placeholders are the default ones (spec 42 R186): they are as many
as the response has bytes at most, so before each field the reader holds what the rest of the parse can take, or may fetch. -/

namespace Sys2Proof.Machine

/-! ## Triples that know the error -/

/-- From every state in `p` the computation ends in `q` with a value, or with an error of which `E` holds: `Ensures` speaks of
the state an error leaves, this of the error. -/
def Ends {α : Type} (p : State → Prop) (m : Eng α) (q : State → Prop) (E : Cause → Prop) : Prop :=
  ∀ s, p s → (∃ a t, m s = (.ok a, t) ∧ q t) ∨ ∃ c t, m s = (.err c, t) ∧ E c

section triples
variable {α β : Type} {p q r : State → Prop} {E : Cause → Prop} {m : Eng α}

theorem Ends.pureE {a : α} (h : ∀ s, p s → q s) : Ends p (pureE a) q E :=
  fun s hs => .inl ⟨a, s, rfl, h s hs⟩

theorem Ends.raiseE {c : Cause} (h : E c) : Ends p (raiseE c : Eng α) q E :=
  fun s _ => .inr ⟨c, s, rfl, h⟩

theorem Ends.modify {f : State → State} (h : ∀ s, p s → q (f s)) : Ends p (modifyE f) q E :=
  fun s hs => .inl ⟨(), f s, rfl, h s hs⟩

theorem Ends.bindE {k : α → Eng β} (hm : Ends p m r E) (hk : ∀ a, Ends r (k a) q E) : Ends p (bindE m k) q E := by
  intro s hs
  rcases hm s hs with ⟨a, t, h, ht⟩ | ⟨c, t, h, hc⟩
  · simpa only [Machine.bindE, h] using hk a t ht
  · exact .inr ⟨c, t, bindE_failed h, hc⟩

/-- A computation chosen by the state, of which the precondition is known. -/
theorem Ends.withE {f : State → Eng α} (h : ∀ s, p s → Ends p (f s) q E) : Ends p (withE f) q E :=
  fun s hs => h s hs s hs

theorem Ends.ite {c : Prop} [Decidable c] {n : Eng α} (hm : Ends p m q E) (hn : Ends p n q E) :
    Ends p (if c then m else n) q E := by
  split
  · exact hm
  · exact hn

/-- A caught computation raises nothing (R12). -/
theorem Ends.tryE (m : Eng α) : Ends p (tryE m) (fun _ => True) E :=
  fun s _ => .inl ⟨(m s).1, (m s).2, rfl, trivial⟩

theorem Ends.mono {p' q' : State → Prop} {E' : Cause → Prop} (h : Ends p m q E) (hp : ∀ s, p' s → p s)
    (hq : ∀ s, q s → q' s) (hE : ∀ c, E c → E' c) : Ends p' m q' E' := by
  intro s hs
  rcases h s (hp s hs) with ⟨a, t, hm, ht⟩ | ⟨c, t, hm, hc⟩
  · exact .inl ⟨a, t, hm, hq t ht⟩
  · exact .inr ⟨c, t, hm, hE c hc⟩

/-- An error the computation has ended with. -/
theorem Ends.error (h : Ends p m q E) {s t : State} {c : Cause} (hs : p s) (hm : m s = (.err c, t)) : E c := by
  rcases h s hs with ⟨a, u, hu, -⟩ | ⟨d, u, hu, hd⟩
  · rw [hm] at hu
    nomatch hu
  · rw [hm] at hu
    cases hu
    exact hd

end triples

/-! ## The errors of one exchange (R310, R326) -/

/-- The errors of a command exchange, by class: the scan of a read may be used up (R176). -/
def exchangeErrors : CmdClass → List Cause
  | .resetClass | .writeClass => [.transportError, .commandEchoMismatch, .badStatus]
  | .registerRead | .bulkRead => [.transportError, .commandEchoMismatch, .badStatus, .resetRequired]

/-- The error is one of `E`; or a capture was too short, and the placeholders are not the default ones. -/
def MayFail (P : Params) (E : List Cause) (c : Cause) : Prop :=
  c ∈ E ∨ c = .frameTooShort ∧ P.pad ≠ defaultPads P.scanBudget

theorem MayFail.mono {P : Params} {E F : List Cause} {c : Cause} (h : MayFail P E c) (hEF : E ⊆ F) : MayFail P F c :=
  h.imp_left fun hc => hEF hc

section parser
variable {α : Type} {P : Params} {ck : Bool} {E : List Cause} {q : State → Prop}

/-- The state has the configuration `P`. -/
def Configured (P : Params) (s : State) : Prop :=
  s.cfg = P

/-- The reader can deliver `n` bytes, from its capture or by fetching, if the placeholders are the default ones. -/
structure Stocked (P : Params) (ck : Bool) (n : Nat) (s : State) : Prop where
  cfg : s.cfg = P
  mode : s.session.checksumEnabled = ck
  supply : P.pad = defaultPads P.scanBudget → s.dp.fetch = true ∨ n ≤ s.dp.cap.length

theorem Stocked.fewer {n k : Nat} {s : State} (h : Stocked P ck n s) (hk : k ≤ n) : Stocked P ck k s :=
  { h with supply := fun hd => (h.supply hd).imp_right hk.trans }

/-! ## The reader (R171, R181) -/

theorem transport_error {n : Nat} {ev : Bool → List Byte → PortEvent} {s t : State} {c : Cause}
    (h : transport n ev s = (.err c, t)) : c = .transportError := by
  unfold transport at h
  dsimp only at h
  split at h
  · nomatch h
  · cases h
    rfl

/-- A read that fails had a call that failed, or a capture too short and nothing to fetch. -/
theorem readNext_error {n : Nat} {w : Where} {s t : State} {c : Cause} (h : readNext n w s = (.err c, t)) :
    c = .transportError ∨ c = exhausted w ∧ s.dp.fetch = false ∧ s.dp.cap.length < n := by
  by_cases hc : s.dp.cap.length < n
  · cases hf : s.dp.fetch with
    | false =>
      rw [readNext_exhausted hc hf] at h
      cases h
      exact .inr ⟨rfl, rfl, hc⟩
    | true =>
      rw [readNext_fetched hc hf] at h
      rcases hr : receive (n - s.dp.cap.length) { s with dp := { s.dp with cap := s.dp.cap.drop n } } with ⟨r | d, u⟩
      · simp only [bindE, hr, pureE] at h
        nomatch h
      · rw [bindE_failed hr] at h
        cases h
        exact .inl (transport_error hr)
  · rw [readNext_captured hc] at h
    nomatch h

/-- A call of the reader, and what is made of its bytes, write no register (R171). -/
theorem receive_pureE_dp (n : Nat) (f : List Byte → List Byte) (s : State) :
    (bindE (receive n) (fun r => pureE (f r)) s).2.dp = s.dp := by
  have hdp := transport_regs n (fun ok r => .receive n ok r) s
  rw [← receive] at hdp
  rcases hr : receive n s with ⟨r | c, u⟩ <;> rw [hr] at hdp <;> simpa only [bindE, hr, pureE] using hdp

theorem readNext_fetch (n : Nat) (w : Where) (s : State) : (readNext n w s).2.dp.fetch = s.dp.fetch := by
  by_cases hc : s.dp.cap.length < n
  · cases hf : s.dp.fetch with
    | false => rw [readNext_exhausted hc hf]; exact hf
    | true =>
      rw [readNext_fetched hc hf, receive_pureE_dp]
      exact hf
  · rw [readNext_captured hc]

/-- A read of `n` bytes leaves the others, and with enough at hand it fails in a call alone. -/
theorem readNext_ends {n m k : Nat} (w : Where) (h : n + k ≤ m) :
    Ends (Stocked P ck m) (readNext n w) (Stocked P ck k)
      (fun c => c = .transportError ∨ c = exhausted w ∧ P.pad ≠ defaultPads P.scanBudget) := by
  intro s hs
  have hw := Obeys.readNext (w := {}) n w s
  have hfetch := readNext_fetch n w s
  rcases hr : readNext n w s with ⟨b | c, t⟩
  · rw [hr] at hw hfetch
    refine .inl ⟨b, t, rfl, hw.cfg.trans hs.cfg, (hw.checksum rfl).trans hs.mode, fun hd => ?_⟩
    rw [readNext_cap hr, List.length_drop, hfetch]
    exact (hs.supply hd).imp_right fun hm => by omega
  · refine .inr ⟨c, t, rfl, (readNext_error hr).imp_right fun ⟨hc, hf, hlen⟩ => ⟨hc, fun hd => ?_⟩⟩
    rcases hs.supply hd with hs' | hs'
    · rw [hf] at hs'
      nomatch hs'
    · omega

/-! ## The parser (R170 to R181) -/

/-- A fixed field (R177, R181). -/
theorem fixedRead_ends {n m k : Nat} (h : n + k ≤ m) (hE : .transportError ∈ E) :
    Ends (Stocked P ck m) (readNext n .field) (Stocked P ck k) (MayFail P E) :=
  (readNext_ends .field h).mono (fun _ hs => hs) (fun _ hs => hs) fun c hc => by
    rcases hc with rfl | hc
    · exact .inl hE
    · exact .inr hc

/-- A fixed field taken in a step of the sequencer, and what is made of it. -/
theorem field_ends {n m k : Nat} (x : Seq) {f : List Byte → Eng α} (h : n + k ≤ m) (hE : .transportError ∈ E)
    (hf : ∀ b, Ends (Stocked P ck k) (f b) q (MayFail P E)) :
    Ends (Stocked P ck m) (bindE (modifyE (setSeq x)) fun _ => bindE (readNext n .field) f) q (MayFail P E) :=
  Ends.bindE (r := Stocked P ck m) (Ends.modify fun _ hs => { hs with }) fun _ =>
    Ends.bindE (fixedRead_ends h hE) hf

/-- The scan examines at most so many bytes (R176). -/
theorem scanLoop_ends (n k : Nat) (ht : .transportError ∈ E) (hr : .resetRequired ∈ E) :
    Ends (Stocked P ck (n + k)) (scanLoop n) (Stocked P ck k) (MayFail P E) := by
  induction n with
  | zero => exact Ends.raiseE (.inl hr)
  | succ n ih =>
    refine Ends.bindE (r := Stocked P ck (n + k))
      ((readNext_ends .scan (by omega)).mono (fun _ hs => hs) (fun _ hs => hs) fun c hc => .inl ?_) fun b =>
      Ends.bindE (r := Stocked P ck (n + k)) (Ends.modify fun _ hs => { hs with }) fun _ => Ends.withE fun _ _ =>
      Ends.ite (Ends.modify fun _ hs => { hs.fewer (Nat.le_add_left k n) with }) ih
    rcases hc with rfl | ⟨rfl, -⟩
    · exact ht
    · exact hr

theorem scanSentinel_ends (x : Seq) (k : Nat) (ht : .transportError ∈ E) (hr : .resetRequired ∈ E) :
    Ends (Stocked P ck (P.scanBudget + k)) (scanSentinel x) (Stocked P ck k) (MayFail P E) :=
  Ends.bindE (r := Stocked P ck (P.scanBudget + k)) (Ends.modify fun _ hs => { hs with }) fun _ =>
    Ends.withE fun s hs => by
      rw [hs.cfg]
      exact scanLoop_ends _ _ ht hr

theorem parseEcho_ends (k : Nat) (ht : .transportError ∈ E) (he : .commandEchoMismatch ∈ E) :
    Ends (Stocked P ck (k + 1)) parseEcho (Stocked P ck k) (MayFail P E) :=
  field_ends (k := k) _ (by omega) ht fun _ => Ends.bindE (r := Stocked P ck k) (Ends.modify fun _ hs => { hs with }) fun _ =>
    Ends.withE fun _ _ => Ends.ite (Ends.pureE fun _ hs => hs) (Ends.raiseE (.inl he))

theorem parseStatus_ends (k : Nat) (ht : .transportError ∈ E) (hb : .badStatus ∈ E) :
    Ends (Stocked P ck (k + 1)) parseStatus (Stocked P ck k) (MayFail P E) :=
  field_ends (k := k) _ (by omega) ht fun _ => Ends.bindE (r := Stocked P ck k) (Ends.modify fun _ hs => { hs with }) fun _ =>
    Ends.withE fun _ _ => Ends.ite (Ends.pureE fun _ hs => hs) (Ends.raiseE (.inl hb))

/-- The bytes of a skip field, where the class has one (R173). -/
def skipLength (c : CmdClass) : Nat :=
  if c = .resetClass then 1 else 0

theorem parseSkip_ends (j : Cmd) (k : Nat) (ht : .transportError ∈ E) :
    Ends (Stocked P ck (k + skipLength (classOf j))) (parseSkip j) (Stocked P ck k) (MayFail P E) := by
  by_cases hj : classOf j = .resetClass
  · simp only [parseSkip, hj, skipLength, if_true]
    exact field_ends (k := k) _ (by omega) ht fun _ => Ends.pureE fun _ hs => hs
  · exact fun s hs => .inl ⟨(), s, parseSkip_none hj s, hs.fewer (Nat.le_add_right _ _)⟩

/-- The bytes of a response behind the status, at most (R172, R176 to R179). -/
def bodyLength (P : Params) (ck : Bool) : CmdClass → Nat
  | .resetClass | .writeClass => 0
  | .registerRead => P.scanBudget + (4 + if ck then 2 else 0)
  | .bulkRead => P.scanBudget

theorem parsePayload_ends (hP : paramsWf P = true) (k : Nat) (ht : .transportError ∈ E) :
    Ends (Stocked P ck (4 + k)) parsePayload (Stocked P ck k) (MayFail P E) :=
  Ends.bindE (r := Stocked P ck (4 + k)) (Ends.modify fun _ hs => { hs with }) fun _ => Ends.withE fun s hs =>
    Ends.bindE (fixedRead_ends (by rw [hs.cfg, (paramsWf_sizes hP).2.1]) ht) fun _ =>
    Ends.bindE (r := Stocked P ck k) (Ends.modify fun _ hs => { hs with }) fun _ => Ends.pureE fun _ hs => hs

theorem parseTrailing_ends (hP : paramsWf P = true) (ht : .transportError ∈ E) :
    Ends (Stocked P ck (if ck then 2 else 0)) parseTrailing (Stocked P ck 0) (MayFail P E) :=
  Ends.withE fun s hs => by
    rw [hs.mode, hs.cfg, (paramsWf_sizes hP).2.2.1]
    cases ck with
    | false =>
      exact Ends.bindE (r := Stocked P false 0) (Ends.modify fun _ hs => { hs with }) fun _ => Ends.pureE fun _ hs => hs
    | true =>
      exact field_ends (k := 0) _ (by simp) ht fun _ =>
        Ends.bindE (r := Stocked P true 0) (Ends.modify fun _ hs => { hs with }) fun _ => Ends.pureE fun _ hs => hs

theorem parseBody_ends (hP : paramsWf P = true) (j : Cmd) (st : Byte) :
    Ends (Stocked P ck (bodyLength P ck (classOf j))) (parseBody j st) (Stocked P ck 0)
      (MayFail P (exchangeErrors (classOf j))) := by
  unfold parseBody
  cases classOf j with
  | resetClass | writeClass => exact Ends.pureE fun _ hs => hs
  | registerRead =>
    exact Ends.bindE (scanSentinel_ends _ _ (by decide) (by decide)) fun _ =>
      Ends.bindE (parsePayload_ends hP _ (by decide)) fun _ => Ends.bindE (parseTrailing_ends hP (by decide)) fun _ =>
      Ends.pureE fun _ hs => hs
  | bulkRead =>
    exact Ends.bindE (scanSentinel_ends _ 0 (by decide) (by decide)) fun _ =>
      Ends.bindE (r := Stocked P ck 0) (Ends.modify fun _ hs => { hs with supply := fun _ => .inl rfl }) fun _ =>
      Ends.pureE fun _ hs => hs

/-- The default placeholders are as many as the response can have bytes (R186). -/
theorem padOf_default (P : Params) (c : CmdClass) (ck : Bool) :
    padOf (defaultPads P.scanBudget) c ck = bodyLength P ck c + 1 + 1 + skipLength c := by
  cases c <;> cases ck <;> simp [padOf, defaultPads, bodyLength, skipLength] <;> omega

theorem parseResponse_ends (hP : paramsWf P = true) (j : Cmd) :
    Ends (Stocked P ck (padOf (defaultPads P.scanBudget) (classOf j) ck)) (parseResponse (opcOf P.opc j)) (Stocked P ck 0)
      (MayFail P (exchangeErrors (classOf j))) := by
  have hhead : .transportError ∈ exchangeErrors (classOf j) ∧ .commandEchoMismatch ∈ exchangeErrors (classOf j) ∧
      .badStatus ∈ exchangeErrors (classOf j) := by cases classOf j <;> decide
  obtain ⟨ht, he, hb⟩ := hhead
  refine Ends.withE fun s hs => ?_
  rw [hs.cfg, cmdOfByte_opcOf hP j, padOf_default]
  exact Ends.bindE (parseSkip_ends j _ ht) fun _ => Ends.bindE (parseEcho_ends _ ht he) fun _ =>
    Ends.bindE (parseStatus_ends _ ht hb) fun st => parseBody_ends hP j st

end parser

/-! ## The command exchange and the single attempts (R183, R200, R201, R236, R237) -/

/-- A computation that keeps the configuration, of whose errors something is known in each state. -/
theorem Ends.configured {α : Type} {w : Scope} {P : Params} {m : Eng α} {E : Cause → Prop} (hm : Obeys w m)
    (h : ∀ s c t, s.cfg = P → m s = (.err c, t) → E c) : Ends (Configured P) m (Configured P) E := by
  intro s hs
  have hw := (hm s).cfg
  rcases hr : m s with ⟨a | c, t⟩
  · rw [hr] at hw
    exact .inl ⟨a, t, rfl, hw.trans hs⟩
  · exact .inr ⟨c, t, rfl, h s c t hs hr⟩

theorem exchange_separate_fetches {s t : State} (h : s.session.xferStyle = .separate) (hx : exchange s = (.ok (), t)) :
    t.dp.fetch = true := by
  simp only [exchange, bindE, modifyE, withE, setSeq_session, h, exchangeSeparate] at hx
  rcases hr : transmit (frameOf (setSeq .cmdXfer s)) (setSeq .cmdXfer s) with ⟨b | c, u⟩
  · rw [hr] at hx
    cases hx
    rfl
  · rw [hr] at hx
    nomatch hx

/-- The exchange leaves the reader what the default placeholders capture, or fetching (R184 to R186). -/
theorem exchange_ends {s : State} (hP : paramsWf s.cfg = true) (k : Cmd) :
    Ends (Built s k) exchange
      (Stocked s.cfg s.session.checksumEnabled
        (padOf (defaultPads s.cfg.scanBudget) (classOf k) s.session.checksumEnabled))
      (fun c => c = .transportError) := by
  intro u hu
  have hw := Obeys.exchange (w := {}) u
  obtain ⟨-, -, -, -, -, -, -, herr⟩ := exchange_event u
  rcases exchange_capLength hP u hu with ⟨_, t, ht, hcfg, hcap⟩ | ⟨c, t, ht, -⟩
  · rw [ht] at hw
    refine .inl ⟨(), t, ht, hcfg, (hw.checksum rfl).trans (by rw [hu.session]), fun hd => ?_⟩
    cases hstyle : s.session.xferStyle with
    | combined =>
      simp only [hcap, captureLength, hstyle, hd, Nat.le_refl, or_true]
    | separate => exact .inl (exchange_separate_fetches (hu.session ▸ hstyle) ht)
  · exact .inr ⟨c, t, ht, herr c (by rw [ht])⟩

theorem sendChunk_ends (P : Params) (t : OrderTag) (p : List Byte) :
    Ends (Configured P) (sendChunk t p) (Configured P) (fun c => c = .transportError) :=
  Ends.configured (Obeys.sendChunk (w := { bulk := true }) rfl t p) fun s c u _ h => by
    simp only [sendChunk, bindE, modifyE, withE] at h
    split at h
    · nomatch h
    · rename_i ht
      cases h
      exact transport_error ht

theorem writeChunks_ends (P : Params) (n : Nat) :
    Ends (Configured P) (writeChunks n) (Configured P) (fun c => c = .transportError) := by
  induction n with
  | zero => exact Ends.pureE fun _ h => h
  | succ n ih =>
    exact Ends.withE fun _ _ => Ends.ite (Ends.bindE (Ends.withE fun _ _ => Ends.bindE (sendChunk_ends P _ _) fun _ =>
      Ends.modify fun _ h => h) fun _ => ih) (Ends.pureE fun _ h => h)

section attempts
variable {P : Params} (hP : paramsWf P = true)
include hP

theorem cmdExchange_ends (k : Cmd) (addr data size : Word) (cl : Bool) :
    Ends (Configured P) (cmdExchange (opcOf P.opc k) addr data size cl) (Configured P)
      (MayFail P (exchangeErrors (classOf k))) := by
  rintro s rfl
  obtain ⟨u, hbuild, -, -, hopcode, hcfg, hsession, -, -, -, -⟩ := buildFrame_spec hP k addr data size cl
  have ht : .transportError ∈ exchangeErrors (classOf k) := by cases classOf k <;> decide
  have hrun : Ends (Built s k) (bindE exchange fun _ => parseResponse (opcOf s.cfg.opc k)) (Configured s.cfg)
      (MayFail s.cfg (exchangeErrors (classOf k))) :=
    Ends.bindE ((exchange_ends hP k).mono (fun _ h => h) (fun _ h => h) fun c hc => .inl (hc ▸ ht)) fun _ =>
      (parseResponse_ends hP k).mono (fun _ h => h) (fun _ h => h.cfg) fun _ h => h
  have hstart : cmdExchange (opcOf s.cfg.opc k) addr data size cl s =
      (bindE exchange fun _ => parseResponse (opcOf s.cfg.opc k)) u := by
    simp only [cmdExchange, bindE, hbuild]
  rw [hstart]
  exact hrun u ⟨hopcode, hcfg, hsession⟩

theorem readRegOnce_ends (k : Cmd) (addr : Word) (cl : Bool) :
    Ends (Configured P) (readRegOnce (opcOf P.opc k) addr cl) (Configured P) (MayFail P (exchangeErrors (classOf k))) :=
  Ends.bindE (cmdExchange_ends hP k _ _ _ _) fun _ => Ends.withE fun _ _ => Ends.pureE fun _ h => h

theorem writeRegOnce_ends (k : Cmd) (addr data : Word) (cl : Bool) :
    Ends (Configured P) (writeRegOnce (opcOf P.opc k) addr data cl) (Configured P)
      (MayFail P (exchangeErrors (classOf k))) :=
  Ends.bindE (cmdExchange_ends hP k _ _ _ _) fun _ => Ends.pureE fun _ h => h

theorem resetBusOnce_ends :
    Ends (Configured P) resetBusOnce (Configured P) (MayFail P (exchangeErrors .resetClass)) :=
  Ends.withE fun s hs => by
    rw [hs]
    exact Ends.bindE (cmdExchange_ends hP .reset _ _ _ _) fun _ => Ends.pureE fun _ h => h

theorem writeBulkOnce_ends :
    Ends (Configured P) writeBulkOnce (Configured P) (MayFail P (exchangeErrors .writeClass)) :=
  Ends.bindE (r := Configured P) (Ends.modify fun _ h => h) fun _ => Ends.withE fun s hs => by
    rw [hs]
    exact Ends.bindE (cmdExchange_ends hP .dmaExtWrite _ _ _ _) fun _ =>
      Ends.bindE ((writeChunks_ends P _).mono (fun _ h => h) (fun _ h => h) fun c hc => .inl (hc ▸ by decide)) fun _ =>
      Ends.pureE fun _ h => h

end attempts

/-! ## The bulk read (R237) -/

/-- The reader may fetch, if the placeholders are the default ones: so it is behind the command of a bulk read (R179). -/
structure Fetching (P : Params) (s : State) : Prop where
  cfg : s.cfg = P
  fetch : P.pad = defaultPads P.scanBudget → s.dp.fetch = true

section bulk
variable {α : Type} {P : Params} {E : List Cause}

/-- A reader that may fetch has enough for a computation whatever it takes, and may fetch behind it. -/
theorem Ends.fetching {m : Eng α} (need : Nat → Nat)
    (h : ∀ ck k, Ends (Stocked P ck (need k)) m (Stocked P ck k) (MayFail P E)) :
    Ends (Fetching P) m (Fetching P) (MayFail P E) := by
  intro s hs
  have stocked : ∀ k, Stocked P s.session.checksumEnabled k s := fun k => ⟨hs.cfg, rfl, fun hd => .inl (hs.fetch hd)⟩
  have hbeyond := fun k => h s.session.checksumEnabled k s (stocked _)
  rcases hm : m s with ⟨a | c, t⟩
  · have ht : ∀ k, Stocked P s.session.checksumEnabled k t := fun k => by
      rcases hbeyond k with ⟨b, u, hu, ht⟩ | ⟨c, u, hu, -⟩
      · rw [hm] at hu
        cases hu
        exact ht
      · rw [hm] at hu
        nomatch hu
    exact .inl ⟨a, t, rfl, (ht 0).cfg, fun hd =>
      ((ht (t.dp.cap.length + 1)).supply hd).resolve_right (Nat.not_succ_le_self _)⟩
  · exact .inr ⟨c, t, rfl, (h s.session.checksumEnabled 0).error (stocked _) hm⟩

theorem readChunk_ends (ht : .transportError ∈ E) (hr : .resetRequired ∈ E) :
    Ends (Fetching P) readChunk (Fetching P) (MayFail P E) := by
  have read : ∀ n, Ends (Fetching P) (readNext n .field) (Fetching P) (MayFail P E) := fun n =>
    Ends.fetching (n + ·) fun _ _ => fixedRead_ends (Nat.le_refl _) ht
  refine Ends.withE fun s _ => Ends.bindE (r := Fetching P) (Ends.modify fun _ h => { h with }) fun _ =>
    Ends.bindE (r := Fetching P) (Ends.ite (Ends.pureE fun _ h => h)
      (Ends.fetching (P.scanBudget + ·) fun _ k => scanSentinel_ends _ k ht hr)) fun _ =>
    Ends.bindE (r := Fetching P) (Ends.modify fun _ h => { h with }) fun _ => Ends.bindE (read _) fun _ =>
    Ends.bindE (r := Fetching P) (Ends.modify fun _ h => { h with }) fun _ => Ends.bindE (r := Fetching P) ?_ fun _ =>
    Ends.modify fun _ h => { h with }
  exact Ends.withE fun _ _ => Ends.ite
    (Ends.bindE (r := Fetching P) (Ends.modify fun _ h => { h with }) fun _ => Ends.bindE (read _) fun _ =>
      Ends.pureE fun _ h => h)
    (Ends.pureE fun _ h => h)

theorem readChunks_ends (n : Nat) (ht : .transportError ∈ E) (hr : .resetRequired ∈ E) :
    Ends (Fetching P) (readChunks n) (Fetching P) (MayFail P E) := by
  induction n with
  | zero => exact Ends.pureE fun _ h => h
  | succ n ih =>
    exact Ends.withE fun _ _ => Ends.ite (Ends.bindE (readChunk_ends ht hr) fun _ => ih) (Ends.pureE fun _ h => h)

theorem readBulkOnce_ends (hP : paramsWf P = true) :
    Ends (Configured P) readBulkOnce (Configured P) (MayFail P (exchangeErrors .bulkRead)) :=
  Ends.bindE (r := Configured P) (Ends.modify fun _ h => h) fun _ => Ends.withE fun s hs => by
    rw [hs]
    exact Ends.bindE (cmdExchange_ends hP .dmaExtRead _ _ _ _) fun _ =>
      Ends.bindE (r := Fetching P) (Ends.modify fun _ h => ⟨h, fun _ => rfl⟩) fun _ =>
      Ends.bindE (readChunks_ends _ (by decide) (by decide)) fun _ =>
      Ends.bindE (r := Configured P) (Ends.modify fun _ h => h.cfg) fun _ => Ends.pureE fun _ h => h

end bulk

/-! ## The retry controller (R261, R267) -/

/-- From where an attempt begins to where a later one does, the session, the request and the return stack are kept (R320,
R322). -/
theorem BeginsAttempt.within {α : Type} {op : Eng α} {w : Scope} {s u : State} (hw : w.retry = true) (hop : Obeys w op)
    (h : BeginsAttempt op s u) : Within w s u := by
  induction h with
  | first s => exact Within.refl w s
  | @again s _ _ _ hs _ _ ih =>
    have hwithin := hop s
    rw [hs] at hwithin
    exact (((hwithin.trans (within_retry hw _ _ _ _)).trans (within_recover w _)).trans (within_retry hw _ _ _ _)).trans ih

/-- A wrapped operation ends with an error of one of its attempts. -/
theorem retryOp_ends {α : Type} {P : Params} {op : Eng α} {w : Scope} {E : Cause → Prop} (hP : paramsWf P = true)
    (hw : w.retry = true) (hop : Obeys w op) (h : Ends (Configured P) op (Configured P) E) :
    Ends (Configured P) (retryOp op) (Configured P) E :=
  Ends.configured (Obeys.retryOp hw hop) fun s c t hs hrun => by
    obtain ⟨n, hn⟩ := Nat.exists_eq_add_of_le' (paramsWf_bounds (hs ▸ hP)).1
    rw [retryOp, hn] at hrun
    obtain ⟨-, u, v, hbegin, hlast, -⟩ := retryLoop_err hrun
    exact h.error ((hbegin.within hw hop).cfg.trans hs) hlast

section operations
variable {P : Params} (hP : paramsWf P = true)
include hP

theorem readRegister_ends (addr : Word) :
    Ends (Configured P) (readRegister addr) (Configured P) (MayFail P (exchangeErrors .registerRead)) := by
  intro s hs
  rw [readRegister_eq, hs, ← readRoute_class P addr]
  exact retryOp_ends (w := { retry := true }) hP rfl (Obeys.readRegOnce _ _ _) (readRegOnce_ends hP _ _ _) s hs

theorem writeRegister_ends (addr v : Word) :
    Ends (Configured P) (writeRegister addr v) (Configured P) (MayFail P (exchangeErrors .writeClass)) := by
  intro s hs
  rw [writeRegister_eq, hs, ← writeRoute_class P addr]
  exact retryOp_ends (w := { retry := true }) hP rfl (Obeys.writeRegOnce _ _ _ _) (writeRegOnce_ends hP _ _ _ _) s hs

theorem readBulkOp_ends :
    Ends (Configured P) readBulkOp (Configured P) (MayFail P (exchangeErrors .bulkRead)) :=
  Ends.configured (Obeys.readBulkOp (w := { retry := true, bulk := true, mem := true }) rfl rfl rfl) fun s c t hs h => by
    have hop := retryOp_ends (w := { retry := true, bulk := true, mem := true }) hP rfl (Obeys.readBulkOnce rfl rfl)
      (readBulkOnce_ends hP)
    rcases hrun : retryOp readBulkOnce s with ⟨r, u⟩
    simp only [readBulkOp, hrun] at h
    cases h
    exact hop.error hs hrun

theorem writeBulkOp_ends :
    Ends (Configured P) (retryOp writeBulkOnce) (Configured P) (MayFail P (exchangeErrors .writeClass)) :=
  retryOp_ends (w := { retry := true, bulk := true }) hP rfl (Obeys.writeBulkOnce rfl) (writeBulkOnce_ends hP)

/-! ## The surrounding operations (R297 to R300) -/

theorem rdintLoop_ends (c : IntStatus) (n : Nat) :
    Ends (Configured P) (rdintLoop c n) (Configured P) (MayFail P (exchangeErrors .registerRead)) := by
  induction n with
  | zero =>
    exact Ends.bindE (readRegister_ends hP _) fun _ => Ends.withE fun _ _ => Ends.ite
      (Ends.bindE (r := Configured P) (Ends.modify fun _ h => h) fun _ => Ends.pureE fun _ h => h) (Ends.pureE fun _ h => h)
  | succ n ih =>
    exact Ends.bindE (readRegister_ends hP _) fun _ => Ends.withE fun _ _ => Ends.ite ih (Ends.pureE fun _ h => h)

theorem syncOp_ends (c : IntEnable) (count : Word) :
    Ends (Configured P) (syncOp c count) (Configured P) (MayFail P (exchangeErrors .registerRead)) :=
  Ends.bindE (readRegister_ends hP _) fun _ =>
    Ends.bindE ((writeRegister_ends hP _ _).mono (fun _ h => h) (fun _ h => h) fun _ h => h.mono (by decide)) fun _ =>
    Ends.bindE (r := Configured P) (Ends.modify fun _ h => h) fun _ => Ends.pureE fun _ h => h

/-! ## Negotiation (R281 to R288) -/

theorem livenessProbe_ends :
    Ends (Configured P) livenessProbe (Configured P) (MayFail P (exchangeErrors .registerRead)) := by
  have probe : Ends (Configured P) (under .negProbe (readRegister P.chipIdAddr)) (Configured P)
      (MayFail P (exchangeErrors .registerRead)) := by
    intro s hs
    rcases readRegister_ends hP P.chipIdAddr { s with seq := .negProbe, ret := .negProbe :: s.ret } hs with
      ⟨v, t, h, ht⟩ | ⟨c, t, h, hc⟩
    · exact .inl ⟨v, _, under_eq h, ht⟩
    · exact .inr ⟨c, _, under_eq h, hc⟩
  exact Ends.withE fun s hs => by
    rw [hs]
    exact Ends.bindE probe fun _ => Ends.pureE fun _ h => h

end operations

/-- The steps of negotiation catch the errors of their accesses and raise two of their own (R283 to R288). -/
theorem negotiationSteps_ends {E : List Cause} {P : Params} (hpeer : .peerNotPresent ∈ E)
    (hdead : .peerUnresponsive ∈ E) :
    Ends (fun _ => True) (bindE negStep1 fun _ => bindE negStep2 fun _ => bindE negStep4 fun _ =>
      bindE (modifyE setNegotiated) fun _ => pureE (0 : Word)) (fun _ => True) (MayFail P E) := by
  have value : ∀ {α : Type} (a : α), Ends (fun _ => True) (pureE a) (fun _ => True) (MayFail P E) :=
    fun _ => Ends.pureE fun _ h => h
  have write : ∀ f, Ends (fun _ => True) (modifyE f) (fun _ => True) (MayFail P E) := fun _ => Ends.modify fun _ h => h
  have fail : Ends (fun _ => True) (raiseE .peerUnresponsive : Eng Unit) (fun _ => True) (MayFail P E) :=
    Ends.raiseE (.inl hdead)
  have step1 : Ends (fun _ => True) negStep1 (fun _ => True) (MayFail P E) := by
    refine Ends.bindE (write _) fun _ => Ends.withE fun _ _ => Ends.bindE (Ends.tryE _) fun r1 => ?_
    split
    · exact Ends.raiseE (.inl hpeer)
    · exact value _
  have step3 : ∀ reg, Ends (fun _ => True) (negStep3 reg) (fun _ => True) (MayFail P E) := fun reg => by
    refine Ends.withE fun _ _ => Ends.bindE (Ends.tryE _) fun r3 => ?_
    cases r3 with
    | ok _ => exact write _
    | err _ => exact fail
  have step2b : Ends (fun _ => True) negStep2b (fun _ => True) (MayFail P E) := by
    refine Ends.bindE (write _) fun _ => Ends.withE fun _ _ => Ends.bindE (Ends.tryE _) fun r => ?_
    cases r with
    | ok _ => exact value _
    | err _ => exact fail
  have step2 : Ends (fun _ => True) negStep2 (fun _ => True) (MayFail P E) := by
    refine Ends.withE fun _ _ => Ends.bindE (Ends.tryE _) fun r2 => ?_
    cases r2 with
    | ok reg => exact step3 reg
    | err _ => exact step2b
  have step4 : Ends (fun _ => True) negStep4 (fun _ => True) (MayFail P E) := by
    refine Ends.withE fun _ _ => Ends.bindE (Ends.tryE _) fun r4 => ?_
    cases r4 with
    | ok v => exact Ends.ite (value _) fail
    | err _ => exact fail
  exact Ends.bindE step1 fun _ => Ends.bindE step2 fun _ => Ends.bindE step4 fun _ => Ends.bindE (write _) fun _ => value _

theorem negotiateOp_ends {P : Params} (hP : paramsWf P = true) (neg : Bool) :
    Ends (fun s => s.cfg = P ∧ s.session.negotiated = neg) negotiateOp (fun _ => True)
      (MayFail P (allowedErrors neg .negotiate)) := by
  rintro s ⟨hs, hneg⟩
  cases neg with
  | true =>
    rw [negotiateOp_negotiated hneg]
    exact ((livenessProbe_ends hP).mono (fun _ h => h) (fun _ _ => trivial) fun _ h => h) s hs
  | false =>
    rw [negotiateOp_unnegotiated hneg]
    exact negotiationSteps_ends (by decide) (by decide) s trivial

/-! ## Completions (R209, R326) -/

/-- If the state has completed an operation with an error, it is one the operation may give. -/
def FailsIn (P : Params) (E : List Cause) (t : State) : Prop :=
  t.compl.ok = false → ∃ c, MayFail P E c ∧ t.compl = failedWith c

section completions
variable {P : Params} {E : List Cause} {p q : State → Prop} {m : Eng Word} {s : State}

theorem refuseRequest_failsIn {c : Cause} (hc : c ∈ E) : FailsIn P E (refuseRequest c s) :=
  fun _ => ⟨c, .inl hc, rfl⟩

theorem Ends.finishRaw (h : Ends p m q (MayFail P E)) (hs : p s) : FailsIn P E (finishRaw m s) := by
  intro hfailed
  rcases h s hs with ⟨v, t, hm, -⟩ | ⟨c, t, hm, hc⟩
  · rw [finishRaw_eq hm] at hfailed
    nomatch hfailed
  · exact ⟨c, hc, by rw [finishRaw_eq hm]; rfl⟩

theorem Ends.finish {F : List Cause} (h : Ends p m q (MayFail P E)) (hs : p s) (hEF : E ⊆ F) :
    FailsIn P F (finish m s) := by
  intro hfailed
  rcases h s hs with ⟨v, t, hm, -⟩ | ⟨c, t, hm, hc⟩
  · rw [finish_eq hm] at hfailed
    nomatch hfailed
  · exact ⟨c, hc.mono hEF, by rw [finish_eq hm]; rfl⟩

end completions

/-- The errors allowed a wire command are those of its exchange (notes/assumptions/7.md). -/
theorem allowedErrors_wire {i : Instr} {k : Cmd} {addr data size : Word} {cl : Bool}
    (hi : wireOperands i = some (k, addr, data, size, cl)) (neg : Bool) :
    allowedErrors neg i = exchangeErrors (classOf k) := by
  cases i with
  | dmaWrite | dmaRead | internalWrite | internalRead | terminate | repeatCmd | dmaExtWrite | dmaExtRead | singleWrite
  | singleRead | reset => cases hi; rfl
  | _ => nomatch hi

theorem wire_failsIn {i : Instr} {k : Cmd} {addr data size : Word} {cl : Bool} {s : State} (hP : paramsWf s.cfg = true)
    (hi : wireOperands i = some (k, addr, data, size, cl)) (neg : Bool) :
    ∃ t, exec i s = .next t ∧ FailsIn s.cfg (allowedErrors neg i) t := by
  rw [allowedErrors_wire hi]
  by_cases hk : classOf k = .registerRead
  · obtain ⟨hexec, -, -⟩ := exec_registerRead hi hk s
    exact ⟨_, hexec, (readRegOnce_ends hP k addr cl).finishRaw rfl⟩
  · exact ⟨_, exec_command hi hk s, (Ends.bindE (cmdExchange_ends hP k addr data size cl) fun _ =>
      Ends.pureE fun _ h => h).finishRaw rfl⟩

theorem chunk_failsIn {i : Instr} {x : OrderTag} {payload : List Byte} (hi : chunkOperands i = some (x, payload))
    (s : State) :
    ∃ t, exec i s = .next t ∧ FailsIn s.cfg [.transportError] t :=
  ⟨_, exec_chunk hi s, ((sendChunk_ends s.cfg x payload).mono (fun _ h => h) (fun _ h => h) fun _ hc =>
    .inl (List.mem_singleton.2 hc)).finishRaw rfl⟩

/-- Every instruction that fails does so with an error its operation may give. -/
theorem exec_failsIn (i : Instr) {s : State} (hP : paramsWf s.cfg = true) :
    ∃ t, exec i s = .next t ∧ FailsIn s.cfg (allowedErrors s.session.negotiated i) t := by
  cases i with
  | dmaWrite | dmaRead | internalWrite | internalRead | terminate | repeatCmd | dmaExtWrite | dmaExtRead | singleWrite
  | singleRead | reset => exact wire_failsIn hP rfl _
  | dataFirst | dataMiddle | dataLast | dataSingle => exact chunk_failsIn rfl s
  | negotiate => exact ⟨_, rfl, (negotiateOp_ends hP s.session.negotiated).finish ⟨rfl, rfl⟩ fun _ h => h⟩
  | rdreg => exact ⟨_, rfl, (Ends.withE fun _ _ => readRegister_ends hP _).finish rfl fun _ h => h⟩
  | wrreg => exact ⟨_, rfl, (Ends.withE fun _ _ => writeRegister_ends hP _ _).finish rfl fun _ h => h⟩
  | rdbulk =>
    refine ⟨_, rfl, ?_⟩
    split
    · exact refuseRequest_failsIn (by simp [allowedErrors])
    · exact (readBulkOp_ends hP).finish rfl (by simp [allowedErrors, exchangeErrors])
  | wrbulk =>
    refine ⟨_, rfl, ?_⟩
    split
    · exact refuseRequest_failsIn (by simp [allowedErrors])
    · exact (writeBulkOp_ends hP).finish rfl (by simp [allowedErrors, exchangeErrors])
  | rdpend =>
    refine ⟨_, rfl, ?_⟩
    split
    · exact refuseRequest_failsIn (by simp [allowedErrors])
    · exact (readRegister_ends hP _).finish rfl (by simp [allowedErrors, exchangeErrors])
  | rdint =>
    refine ⟨_, rfl, ?_⟩
    split
    · exact refuseRequest_failsIn (by simp [allowedErrors])
    · exact (Ends.withE fun _ _ => rdintLoop_ends hP _ _).finish rfl (by simp [allowedErrors, exchangeErrors])
  | clrint =>
    refine ⟨_, rfl, ?_⟩
    split
    · exact refuseRequest_failsIn (by simp [allowedErrors])
    · exact (Ends.withE fun _ _ => writeRegister_ends hP _ _).finish rfl (by simp [allowedErrors, exchangeErrors])
  | sync =>
    refine ⟨_, rfl, ?_⟩
    split
    · exact refuseRequest_failsIn (by simp [allowedErrors])
    · split
      · exact refuseRequest_failsIn (by simp [allowedErrors])
      · exact (Ends.withE fun _ _ => syncOp_ends hP _ _).finish rfl (by simp [allowedErrors, exchangeErrors])
  | rstbus => exact ⟨_, rfl, (resetBusOnce_ends hP).finish rfl fun _ h => h⟩
  | reserved => exact ⟨_, rfl, refuseRequest_failsIn (by simp [allowedErrors])⟩

/-- Settles O57: with the default placeholders no capture is too short. -/
theorem completionErrorsAreTheAllowedOnes : Obligations.CompletionErrorsAreTheAllowedOnes := by
  intro i s t hP hpads hexec hfailed
  obtain ⟨u, hu, hfails⟩ := exec_failsIn i hP
  obtain rfl : t = u := Host.Outcome.next.inj (hexec.symm.trans hu)
  obtain ⟨c, hc, hcompl⟩ := hfails hfailed
  exact ⟨c, hc.resolve_right fun ⟨_, hother⟩ => hother hpads, hcompl⟩

end Sys2Proof.Machine
end

section
/-! The wrapped operations counted (spec 45 R261 to R267): every attempt is one exchange of its own, every failed attempt that
is retried is followed by one recovery, and the loop ends in the error of its last attempt. -/

namespace Sys2Proof.Machine

/-! ## One attempt, whatever is answered -/

/-- What the retry controller relies on in one attempt under the configuration `P`: it leaves the session alone (R27), it is
one attempt on the ports and no recovery (R263), and its errors are those that are retried and `FrameTooShort` (R262). -/
structure Attempt (P : Params) (op : Eng Word) : Prop where
  obeys : Obeys .sessionKept op
  tallied : ∀ s, s.cfg = P → ∃ ev, (op s).2.trace = s.trace ++ ev ∧ Tally s.ret ev 1 0
  errors : ∀ s c t, s.cfg = P → op s = (.err c, t) → retryable c = true ∨ c = .frameTooShort

theorem MayFail.retryable_or_short {P : Params} {k : CmdClass} {c : Cause} (h : MayFail P (exchangeErrors k) c) :
    retryable c = true ∨ c = .frameTooShort := by
  refine h.imp (fun hc => ?_) fun hc => hc.1
  have hall : ∀ d ∈ exchangeErrors k, retryable d = true := by cases k <;> decide
  exact hall c hc

/-- The events of a wrapped operation's attempt, counted. -/
theorem tally_of_tries {s t : State} {b : Option Byte}
    (h : t.ret = s.ret ∧ ∃ (e : Event) (ev : List Event), t.trace = s.trace ++ e :: ev ∧ e.seq = .cmdXfer ∧
      e.ret = s.ret ∧ isTransport e = true ∧ (sentBytes e).head? = b ∧ ∀ f ∈ ev, IsInner s.ret f) :
    ∃ ev, t.trace = s.trace ++ ev ∧ Tally s.ret ev 1 0 := by
  obtain ⟨-, e, ev, htrace, hseq, hret, hcall, -, hinner⟩ := h
  exact ⟨e :: ev, htrace, tally_attempt hseq hret hcall hinner⟩

theorem attemptOf_attempt {P : Params} {i : Instr} {op : Eng Word} (hP : paramsWf P = true) (h : attemptOf P i = some op) :
    Attempt P op := by
  cases i with
  | rdreg addr =>
    cases h
    refine ⟨Obeys.readRegOnce _ _ _, ?_, fun s c t hs ht => ((readRegOnce_ends hP _ _ _).error hs ht).retryable_or_short⟩
    rintro s rfl
    exact tally_of_tries (readRegOnce_tries hP _ _ _)
  | wrreg addr wdata =>
    cases h
    refine ⟨Obeys.writeRegOnce _ _ _ _, ?_,
      fun s c t hs ht => ((writeRegOnce_ends hP _ _ _ _).error hs ht).retryable_or_short⟩
    rintro s rfl
    exact tally_of_tries (writeRegOnce_tries hP _ _ _ _)
  | rdbulk addr len buf =>
    cases h
    refine ⟨Obeys.readBulkOnce rfl rfl, ?_, fun s c t hs ht => ((readBulkOnce_ends hP).error hs ht).retryable_or_short⟩
    rintro s rfl
    exact tally_of_tries (readBulkOnce_tries hP)
  | wrbulk addr len buf =>
    cases h
    refine ⟨Obeys.writeBulkOnce rfl, ?_, fun s c t hs ht => ((writeBulkOnce_ends hP).error hs ht).retryable_or_short⟩
    rintro s rfl
    exact tally_of_tries (writeBulkOnce_tries hP)
  | _ => nomatch h

/-- A wrapped host operation is its attempt under the retry controller, completed (R235, R270); a bulk read that failed has
left its buffer unspecified besides (R240). -/
theorem exec_wrapped {i : Instr} {op : Eng Word} {s t : State} (hi : wrapped s.cfg i = true)
    (hop : attemptOf s.cfg i = some op) (h : exec i s = .next t) :
    ∃ r u m, retryOp op (begun s i) = (r, u) ∧ t = present r (discard { u with mem := m }) := by
  rcases hrun : retryOp op (begun s i) with ⟨r, u⟩
  cases i with
  | rdreg addr =>
    cases hop
    exact ⟨r, u, u.mem, rfl, (Host.Outcome.next.inj h).symm.trans (finish_eq ((readRegister_eq addr _).trans hrun))⟩
  | wrreg addr wdata =>
    cases hop
    exact ⟨r, u, u.mem, rfl,
      (Host.Outcome.next.inj h).symm.trans (finish_eq ((writeRegister_eq addr wdata _).trans hrun))⟩
  | rdbulk addr len buf =>
    cases hop
    have hlen : bulkRejected s.cfg len = false := by simpa [wrapped] using hi
    simp only [begun, latched, hlen, Bool.false_eq_true, if_false] at hrun
    rw [exec_rdbulk_admitted hlen] at h
    have hread : readBulkOp (latchBulk 0x3 addr len buf s) = (r, spoilOnFailure r u) := by
      simp only [readBulkOp, latchBulk, hrun]
    refine ⟨r, u, (spoilOnFailure r u).mem, rfl, (Host.Outcome.next.inj h).symm.trans ((finish_eq hread).trans ?_)⟩
    cases r <;> rfl
  | wrbulk addr len buf =>
    cases hop
    have hlen : bulkRejected s.cfg len = false := by simpa [wrapped] using hi
    simp only [begun, latched, hlen, Bool.false_eq_true, if_false] at hrun
    rw [exec_wrbulk_admitted hlen] at h
    exact ⟨r, u, u.mem, rfl, (Host.Outcome.next.inj h).symm.trans (finish_eq hrun)⟩
  | _ => nomatch hop

theorem exists_attemptOf {P : Params} {i : Instr} (h : wrapped P i = true) : ∃ op, attemptOf P i = some op := by
  cases i with
  | rdreg | wrreg | rdbulk | wrbulk => exact ⟨_, rfl⟩
  | _ => nomatch h

/-! ## The loop counted (R261, R263, R264) -/

/-- How a loop with `n` attempts to make ends, by the count of its events: in an attempt that is not retried, or with the
error of its last attempt, recovered from, when none remains. -/
inductive LoopTally (base : List Seq) (ev : List Event) (n : Nat) : Res Word → Prop where
  | succeeded {k : Nat} (v : Word) (hk : k < n) (h : Tally base ev (k + 1) k) : LoopTally base ev n (.ok v)
  | tooShort {k : Nat} (hk : k < n) (h : Tally base ev (k + 1) k) : LoopTally base ev n (.err .frameTooShort)
  | exhausted {c : Cause} (hc : retryable c = true) (h : Tally base ev n n) : LoopTally base ev n (.err c)

/-- One failed attempt with its recovery, before the others. -/
theorem LoopTally.of_recovered {base : List Seq} {ev ev' : List Event} {n : Nat} {r : Res Word} (k : LoopTally base ev' n r)
    (h : Tally base ev 1 1) : LoopTally base (ev ++ ev') (n + 1) r := by
  have more : ∀ {a b : Nat}, Tally base ev' a b → Tally base (ev ++ ev') (a + 1) (b + 1) := fun ht => by
    simpa only [Nat.add_comm 1] using h.append ht
  cases k with
  | succeeded v hk ht => exact .succeeded v (Nat.succ_lt_succ hk) (more ht)
  | tooShort hk ht => exact .tooShort (Nat.succ_lt_succ hk) (more ht)
  | exhausted hc ht => exact .exhausted hc (more ht)

theorem retryLoop_tally {P : Params} {op : Eng Word} (hP : paramsWf P = true) (hop : Attempt P op) {n : Nat} {s t : State}
    {r : Res Word} (hs : s.cfg = P) (hlast : n = 0 → retryable s.retry.lastErr = true) (h : retryLoop op n s = (r, t)) :
    ∃ ev, t.trace = s.trace ++ ev ∧ LoopTally s.ret ev n r := by
  induction n generalizing s with
  | zero =>
    cases h
    exact ⟨[], by simp, .exhausted (hlast rfl) ⟨rfl, rfl, rfl, Nat.le_refl _, rfl⟩⟩
  | succ n ih =>
    obtain ⟨ev, htrace, htally⟩ := hop.tallied s hs
    have hw := hop.obeys s
    rcases hrun : op s with ⟨v | c, u⟩
    · rw [retryLoop_ok hrun] at h
      cases h
      rw [hrun] at htrace
      exact ⟨ev, htrace, .succeeded v n.succ_pos htally⟩
    · rw [hrun] at htrace hw
      cases hc : retryable c with
      | false =>
        rw [retryLoop_stop hrun hc] at h
        cases h
        obtain rfl : c = .frameTooShort := (hop.errors s c u hs hrun).resolve_left (by simp [hc])
        exact ⟨ev, htrace, .tooShort n.succ_pos htally⟩
      | true =>
        have hu : (takeError c u).cfg = P := hw.cfg.trans hs
        have hwrec := within_recover {} (takeError c u)
        obtain ⟨recovery, hrecovery, hone⟩ := tally_recover (s := takeError c u) (hu ▸ hP)
        rw [retryLoop_again hrun hc] at h
        obtain ⟨ev', htrace', hrest⟩ := ih (s := returnFromError (recover (takeError c u))) (hwrec.cfg.trans hu)
          (fun _ => by simpa [recover_retry] using hc) h
        rw [show (takeError c u).ret = s.ret from hw.ret] at hone
        rw [show (returnFromError (recover (takeError c u))).ret = s.ret from hwrec.ret.trans hw.ret] at hrest
        refine ⟨ev ++ recovery ++ ev', ?_, hrest.of_recovered (htally.append hone)⟩
        rw [htrace', returnFromError_trace, hrecovery, takeError_trace, htrace]
        simp

theorem causeCode_of_retryable {c : Cause} (h : retryable c = true) : causeCode c ≠ causeCode .frameTooShort := by
  revert h
  cases c <;> decide

theorem resetsIn_completed (base : List Seq) (ev : List Event) (q : List Seq) (c : Completion) :
    resetsIn base (ev ++ [{ seq := .done, ret := q, port := .complete c }]) = resetsIn base ev :=
  attemptsIn_completed _ _ _ _

/-- Settles O48: the three ways the loop ends, with the completion behind them. -/
theorem attemptsResetsAndDelaysAreCounted : Obligations.AttemptsResetsAndDelaysAreCounted := by
  intro i s t ev hP hi hexec htrace
  obtain ⟨op, hop⟩ := exists_attemptOf hi
  obtain ⟨r, u, m, hrun, rfl⟩ := exec_wrapped hi hop hexec
  have hbudget := (paramsWf_bounds hP).1
  obtain ⟨calls, hcalls, htally⟩ := retryLoop_tally (s := { begun s i with retry := { s.retry with attempt := 0 } }) hP
    (attemptOf_attempt hP hop) rfl (n := s.cfg.maxRetry) (by omega) hrun
  obtain rfl : ev = calls ++ [{ seq := .done, ret := u.ret, port := .complete (completionOf r) }] :=
    List.append_cancel_left (htrace.symm.trans (by simp [hcalls]))
  replace htally : LoopTally s.ret calls s.cfg.maxRetry r := htally
  simp only [resetsIn_completed, attemptsIn_completed, delaysIn_completed, logsIn_completed, present_compl]
  cases htally with
  | succeeded v hk h =>
    obtain ⟨ha, hr, hd, hl, hu⟩ := h
    rw [ha, hr]
    exact ⟨by omega, by omega, hd, hl, hu, fun _ => rfl, nofun, nofun⟩
  | tooShort hk h =>
    obtain ⟨ha, hr, hd, hl, hu⟩ := h
    rw [ha, hr]
    exact ⟨by omega, by omega, hd, hl, hu, nofun, fun _ hne => absurd rfl hne, fun _ _ => rfl⟩
  | exhausted hc h =>
    obtain ⟨ha, hr, hd, hl, hu⟩ := h
    rw [ha, hr]
    exact ⟨hbudget, Nat.le_refl _, hd, hl, hu, nofun, fun _ _ => ⟨rfl, rfl⟩,
      fun _ he => absurd he (causeCode_of_retryable hc)⟩

/-! ## The last attempt (R267, R320) -/

/-- Behind a failed attempt the loop that ends there makes no other: it ends at once, or behind the recovery. -/
theorem no_attempt_behind {P : Params} {e : Cause} {w t : State} (hP : paramsWf P = true) (hw : w.cfg = P)
    (h : retryable e = false ∧ t = takeError e w ∨ retryable e = true ∧ t = returnFromError (recover (takeError e w))) :
    ∃ post, t.trace = w.trace ++ post ∧ attemptsIn w.ret post = 0 := by
  rcases h with ⟨-, rfl⟩ | ⟨-, rfl⟩
  · exact ⟨[], by simp, rfl⟩
  · obtain ⟨ev, htrace, htally⟩ := tally_recover (s := takeError e w) (hw.symm ▸ hP)
    exact ⟨ev, htrace, htally.attempts⟩

/-- The run of `op` under the retry controller from `s` to `t` falls into `pre`, its last attempt, which shows `last` and ends
with the cause `e`, and `post`; that attempt begins in `u`, which differs from `s` only as attempts and recoveries may change
it. -/
structure LastAttempt (op : Eng Word) (e : Cause) (s t u v : State) (pre last post : List Event) : Prop where
  trace : t.trace = s.trace ++ (pre ++ last ++ post)
  within : Within .sessionKept s u
  before : u.trace = s.trace ++ pre
  answers : u.answers = s.answers.drop (callsIn pre)
  calls : u.calls = s.calls + callsIn pre
  run : op u = (.err e, v)
  shows : v.trace = u.trace ++ last
  one : attemptsIn s.ret last = 1
  none_behind : attemptsIn s.ret post = 0

theorem retryOp_lastAttempt {P : Params} {op : Eng Word} {e : Cause} {s t : State} (hP : paramsWf P = true)
    (hop : Attempt P op) (hs : s.cfg = P) (h : retryOp op s = (.err e, t)) :
    t.retry.lastErr = e ∧ e ≠ .ok ∧ ∃ u v pre last post, LastAttempt op e s t u v pre last post := by
  obtain ⟨n, hn⟩ := Nat.exists_eq_add_of_le' (paramsWf_bounds (hs ▸ hP)).1
  rw [retryOp, hn] at h
  obtain ⟨hsaved, u, v, hbegin, hrun, hend⟩ := retryLoop_err h
  have hbefore : Within .sessionKept s u :=
    (within_retry rfl s _ s.dp s.seq).trans (hbegin.within rfl hop.obeys)
  obtain ⟨pre, hpre, -, hcalls, hanswers⟩ := hbefore.ports
  have hu : u.cfg = P := hbefore.cfg.trans hs
  obtain ⟨last, hlast, htally⟩ := hop.tallied u hu
  have hw := hop.obeys u
  rw [hrun] at hlast hw
  obtain ⟨post, hpost, hnone⟩ := no_attempt_behind hP (hw.cfg.trans hu) hend
  refine ⟨hsaved, ?_, u, v, pre, last, post, by rw [hpost, hlast, hpre]; simp, hbefore, hpre, hanswers, hcalls, hrun, hlast,
    by rw [← hbefore.ret]; exact htally.attempts, by rw [← hbefore.ret, ← hw.ret]; exact hnone⟩
  rintro rfl
  rcases hop.errors u _ v hu hrun with h | h <;> nomatch h

/-- Settles O49: the completion follows the loop, and is no attempt. -/
theorem failureReportsTheLastError : Obligations.FailureReportsTheLastError := by
  intro i op s t ev hP hi hop hexec htrace hfailed
  obtain ⟨r, x, m, hrun, rfl⟩ := exec_wrapped hi hop hexec
  have hattempt := attemptOf_attempt hP hop
  have hw := Obeys.retryOp (w := .sessionKept) rfl hattempt.obeys (begun s i)
  rw [hrun] at hw
  cases r with
  | ok v => nomatch hfailed
  | err e =>
    obtain ⟨rfl, hne, u, v, pre, last, post, hl⟩ :=
      retryOp_lastAttempt (s := begun s i) hP hattempt rfl hrun
    obtain rfl : ev = pre ++ last ++ post ++
        [{ seq := .done, ret := x.ret, port := .complete (completionOf (.err x.retry.lastErr)) }] :=
      List.append_cancel_left (htrace.symm.trans (by simp [hl.trace]))
    exact ⟨rfl, hne, pre, last, _, u, v, List.append_assoc _ _ _, hl.within.cfg, hl.within.session rfl rfl, hl.within.ret,
      hl.within.req.trans hw.req.symm, hl.before, hl.answers, hl.calls, hl.run, hl.shows, hl.one,
      (attemptsIn_completed _ _ _ _).trans hl.none_behind⟩

end Sys2Proof.Machine
end

section
/-! A computation whose environment answers it with a given list (spec 42 R183, spec 43 R203, R204, spec 46 R297 to R300): its
outcome, its port events and the session it leaves, composed along the computation; and the surrounding operations answered
well. -/

namespace Sys2Proof.Machine

/-! ## Computations with their answers -/

/-- Under the configuration `P` and in the session `S` the computation takes exactly the answers `a`, shows the ports `ports`,
and ends with the outcome `r` in the session `S'`. -/
def Answered {α : Type} (P : Params) (S : Session) (m : Eng α) (a : List Answer) (r : Res α) (ports : List PortEvent)
    (S' : Session) : Prop :=
  ∀ (s : State) (more : List Answer), s.cfg = P → s.session = S → s.answers = a ++ more →
    ∃ t ev, m s = (r, t) ∧ t.cfg = P ∧ t.session = S' ∧ t.answers = more ∧ t.trace = s.trace ++ ev ∧
      ev.map (fun e => e.port) = ports

section answered
variable {α β : Type} {P : Params} {S S' S'' : Session} {a b : List Answer} {ports ports' : List PortEvent}

theorem Answered.pureE (v : α) : Answered P S (pureE v) [] (.ok v) [] S :=
  fun s _ hcfg hsession ha => ⟨s, [], rfl, hcfg, hsession, ha, by simp, rfl⟩

theorem Answered.raiseE (c : Cause) : Answered P S (raiseE c : Eng α) [] (.err c) [] S :=
  fun s _ hcfg hsession ha => ⟨s, [], rfl, hcfg, hsession, ha, by simp, rfl⟩

/-- A change of registers that the ports do not see. -/
theorem Answered.modify {f : State → State} (hcfg : ∀ s, (f s).cfg = s.cfg)
    (hsession : ∀ s : State, s.session = S → (f s).session = S') (hanswers : ∀ s, (f s).answers = s.answers) (htrace : ∀ s, (f s).trace = s.trace) :
    Answered P S (modifyE f) [] (.ok ()) [] S' :=
  fun s _ hP hS ha => ⟨f s, [], rfl, (hcfg s).trans hP, hsession s hS, (hanswers s).trans ha, by simp [htrace], rfl⟩

theorem Answered.logEvent (tag : LogTag) : Answered P S (modifyE (logEvent tag)) [] (.ok ()) [.log tag] S :=
  fun _ _ hcfg hsession ha => ⟨_, _, rfl, hcfg, hsession, ha, rfl, rfl⟩

theorem Answered.withE {f : State → Eng α} {r : Res α}
    (h : ∀ s, s.cfg = P → s.session = S → Answered P S (f s) a r ports S') : Answered P S (withE f) a r ports S' :=
  fun s more hcfg hsession => h s hcfg hsession s more hcfg hsession

theorem Answered.bindE {m : Eng α} {k : α → Eng β} {v : α} {r : Res β} (hm : Answered P S m a (.ok v) ports S')
    (hk : Answered P S' (k v) b r ports' S'') : Answered P S (bindE m k) (a ++ b) r (ports ++ ports') S'' := by
  intro s more hcfg hsession ha
  obtain ⟨t, ev, ht, htcfg, htsession, hrest, htrace, hports⟩ :=
    hm s (b ++ more) hcfg hsession (by rw [ha, List.append_assoc])
  obtain ⟨u, ev', hu, hucfg, husession, hmore, hutrace, hports'⟩ := hk t more htcfg htsession hrest
  exact ⟨u, ev ++ ev', by rw [Machine.bindE, ht]; exact hu, hucfg, husession, hmore,
    by rw [hutrace, htrace, List.append_assoc], by rw [List.map_append, hports, hports']⟩

/-- What follows takes no answer and shows no port event. -/
theorem Answered.bindE_silent {m : Eng α} {k : α → Eng β} {v : α} {r : Res β} (hm : Answered P S m a (.ok v) ports S')
    (hk : Answered P S' (k v) [] r [] S'') : Answered P S (Machine.bindE m k) a r ports S'' := by
  simpa only [List.append_nil] using hm.bindE hk

theorem Answered.tryE {m : Eng α} {r : Res α} (hm : Answered P S m a r ports S') :
    Answered P S (tryE m) a (.ok r) ports S' := by
  intro s more hcfg hsession ha
  obtain ⟨t, ev, ht, hleft⟩ := hm s more hcfg hsession ha
  exact ⟨t, ev, by rw [Machine.tryE, ht], hleft⟩

theorem Answered.under {m : Eng α} {r : Res α} (q : Seq) (hm : Answered P S m a r ports S') :
    Answered P S (under q m) a r ports S' := by
  intro s more hcfg hsession ha
  obtain ⟨t, ev, ht, hleft⟩ := hm { s with seq := q, ret := q :: s.ret } more hcfg hsession ha
  exact ⟨_, ev, under_eq ht, hleft⟩

/-- The attempt counter is no part of what an attempt is answered by (R261). -/
theorem Answered.retryOp {op : Eng α} {v : α} (hP : paramsWf P = true) (hop : Answered P S op a (.ok v) ports S') :
    Answered P S (retryOp op) a (.ok v) ports S' := by
  intro s more hcfg hsession ha
  obtain ⟨t, ev, ht, hleft⟩ := hop { s with retry := { s.retry with attempt := 0 } } more hcfg hsession ha
  exact ⟨t, ev, retryOp_first (hcfg ▸ hP) ht, hleft⟩

end answered

/-! ## Register accesses answered well (R200 to R204) -/

section accesses
variable {P : Params} {S : Session} {r : Reply} {x : Talk} (hP : paramsWf P = true)
include hP

theorem Answered.readRegOnce {k : Cmd} (hk : classOf k = .registerRead) (addr : Word) (cl : Bool)
    (hA : Answers P S.xferStyle S.checksumEnabled k r x) :
    Answered P S (readRegOnce (opcOf P.opc k) addr cl) (exchangeAnswers P S.xferStyle k S.checksumEnabled x)
      (.ok (payloadValue P.rdPayloadOrder r.payload))
      (exchangePorts P S.xferStyle k S.checksumEnabled (withCk P S.checksumEnabled (cmdBody P k addr 0 0 cl)) x) S := by
  rintro s more rfl rfl ha
  obtain ⟨t, ev, ht, hcfg, hsession, hmore, htrace, hports, -⟩ := readRegOnce_ready hP hk hA ha addr cl
  exact ⟨t, ev, ht, hcfg, hsession, hmore, htrace, hports⟩

theorem Answered.writeRegOnce {k : Cmd} (addr data : Word) (cl : Bool)
    (hA : Answers P S.xferStyle S.checksumEnabled k r x) :
    Answered P S (writeRegOnce (opcOf P.opc k) addr data cl) (exchangeAnswers P S.xferStyle k S.checksumEnabled x) (.ok 0)
      (exchangePorts P S.xferStyle k S.checksumEnabled (withCk P S.checksumEnabled (cmdBody P k addr data 0 cl)) x) S := by
  rintro s more rfl rfl ha
  obtain ⟨t, ev, ht, hcfg, hsession, hmore, htrace, hports, -⟩ := cmdExchange_done hP hA ha addr data 0 cl
  exact ⟨t, ev, ht, hcfg, hsession, hmore, htrace, hports⟩

theorem Answered.readRegister (addr : Word) (hA : Answers P S.xferStyle S.checksumEnabled (readRoute P addr).1 r x) :
    Answered P S (readRegister addr) (exchangeAnswers P S.xferStyle (readRoute P addr).1 S.checksumEnabled x)
      (.ok (payloadValue P.rdPayloadOrder r.payload))
      (exchangePorts P S.xferStyle (readRoute P addr).1 S.checksumEnabled
        (withCk P S.checksumEnabled (cmdBody P (readRoute P addr).1 addr 0 0 (readRoute P addr).2)) x) S := by
  intro s more hcfg
  rw [readRegister_eq, hcfg]
  exact ((Answered.readRegOnce hP (readRoute_class P addr) addr _ hA).retryOp hP) s more hcfg

theorem Answered.writeRegister (addr v : Word) (hA : Answers P S.xferStyle S.checksumEnabled (writeRoute P addr).1 r x) :
    Answered P S (writeRegister addr v) (exchangeAnswers P S.xferStyle (writeRoute P addr).1 S.checksumEnabled x) (.ok 0)
      (exchangePorts P S.xferStyle (writeRoute P addr).1 S.checksumEnabled
        (withCk P S.checksumEnabled (cmdBody P (writeRoute P addr).1 addr v 0 (writeRoute P addr).2)) x) S := by
  intro s more hcfg
  rw [writeRegister_eq, hcfg]
  exact ((Answered.writeRegOnce hP addr v _ hA).retryOp hP) s more hcfg

end accesses

/-- An operation answered from its beginning to its end, and its completion (R209). -/
theorem Answered.finish {m : Eng Word} {s : State} {a more : List Answer} {r : Res Word} {ports : List PortEvent}
    {S : Session} (h : Answered s.cfg s.session m a r ports S) (i : Instr) (ha : s.answers = a ++ more) :
    Completes s (finish m (begun s i)) (completionOf r) ports more ∧ (finish m (begun s i)).session = S := by
  obtain ⟨t, ev, ht, -, hsession, hmore, htrace, hports⟩ := h (begun s i) more rfl rfl ha
  rw [finish_eq ht]
  exact ⟨completes_outcome r ev htrace hports hmore, hsession⟩

/-! ## The surrounding operations, their parameters configured (R296) -/

theorem exec_rdpend_configured {s : State} {a : Word} (h : s.cfg.pendingSizeAddr = some a) :
    exec .rdpend s = .next (finish (readRegister a) (begun s .rdpend)) := by
  simp only [exec, execRdpend, h]
  rfl

theorem exec_rdint_configured {s : State} {c : IntStatus} (h : s.cfg.intStatus = some c) :
    exec .rdint s = .next (finish (rdintLoop c (s.cfg.maxRetry - 1)) (begun s .rdint)) := by
  simp only [exec, execRdint, h]
  exact congrArg Host.Outcome.next (finish_withE (fun t => rdintLoop c (t.cfg.maxRetry - 1)) (begun s .rdint))

theorem exec_clrint_configured {s : State} {a : Word} (mask : Word) (h : s.cfg.intClearAddr = some a) :
    exec (.clrint mask) s = .next (finish (writeRegister a mask) (begun s (.clrint mask))) := by
  simp only [exec, execClrint, h]
  exact congrArg Host.Outcome.next (finish_withE (fun t => writeRegister a t.req.wdata) (begun s (.clrint mask)))

theorem exec_sync_configured {s : State} {c : IntEnable} {count : Word} (hcount : count.toNat ≤ s.cfg.intLinesMax)
    (h : s.cfg.intEnable = some c) :
    exec (.sync count) s = .next (finish (syncOp c count) (begun s (.sync count))) := by
  simp only [exec, execSync, if_neg (Nat.not_lt.2 hcount), h]
  exact congrArg Host.Outcome.next (finish_withE (fun t => syncOp c t.req.wdata) (begun s (.sync count)))

/-! ## `RDPEND` and `CLRINT` (R297, R299) -/

/-- Settles O32: each is one access of its configured address. -/
theorem pendingReadAndInterruptClearComplete : Obligations.PendingReadAndInterruptClearComplete := by
  intro s a mask r x more hP
  refine ⟨fun hconf hA ha => ?_, fun hconf hA ha => ?_⟩
  · exact ⟨_, exec_rdpend_configured hconf, ((Answered.readRegister hP a hA).finish .rdpend ha).1⟩
  · exact ⟨_, exec_clrint_configured mask hconf, ((Answered.writeRegister hP a mask hA).finish (.clrint mask) ha).1⟩

/-! ## `SYNC` (R300) -/

theorem Answered.setLineCount {P : Params} {S : Session} (count : Word) :
    Answered P S (modifyE (setLineCount count)) [] (.ok ()) [] { S with interruptLineCount := count.truncate 4 } :=
  Answered.modify (fun _ => rfl) (fun s hs => by rw [setLineCount_session, hs]) (fun _ => rfl) fun _ => rfl

theorem Answered.syncOp {P : Params} {S : Session} {c : IntEnable} {a b : List Answer} {v w : Word}
    {ports ports' : List PortEvent} (count : Word) (hread : Answered P S (Machine.readRegister c.addr) a (.ok v) ports S)
    (hwrite : Answered P S (Machine.writeRegister c.addr (intEnableValue c v count.toNat)) b (.ok w) ports' S) :
    Answered P S (syncOp c count) (a ++ b) (.ok 0) (ports ++ ports')
      { S with interruptLineCount := count.truncate 4 } := by
  refine hread.bindE (k := fun v => Machine.bindE (Machine.writeRegister c.addr (intEnableValue c v count.toNat)) fun _ =>
    Machine.bindE (modifyE (Machine.setLineCount count)) fun _ => Machine.pureE 0) ?_
  exact hwrite.bindE_silent ((Answered.setLineCount count).bindE_silent (Answered.pureE 0))

/-- Settles O35: a read, a write of the value made of what was read, and the count recorded. -/
theorem synchronizeCompletes : Obligations.SynchronizeCompletes := by
  intro s c count r1 r2 x1 x2 more hP hconf hcount hread hwrite ha
  exact ⟨_, exec_sync_configured hcount hconf, Answered.finish (Answered.syncOp count
    (Answered.readRegister hP c.addr hread) (Answered.writeRegister hP c.addr _ hwrite)) (.sync count) ha⟩

/-! ## `RDINT` (R298) -/

theorem unexpectedBits_eq_false {c : IntStatus} {lines : BitVec 4} {v : Word} :
    unexpectedBits c lines v = false ↔ intLinesField c v >>> lines.toNat = 0 := by
  simp [unexpectedBits]

theorem unexpectedBits_eq_true {c : IntStatus} {lines : BitVec 4} {v : Word} :
    unexpectedBits c lines v = true ↔ intLinesField c v >>> lines.toNat ≠ 0 := by
  simp [unexpectedBits]

section rdint
variable {P : Params} {S : Session} {c : IntStatus} {a : List Answer} {ports : List PortEvent} {v : Word}

/-- A value without an unexpected line ends the loop, whatever reads remain. -/
theorem Answered.rdintLoop_clean (n : Nat) (hread : Answered P S (Machine.readRegister c.addr) a (.ok v) ports S)
    (hv : unexpectedBits c S.interruptLineCount v = false) : Answered P S (rdintLoop c n) a (.ok v) ports S := by
  cases n with
  | zero | succ =>
    refine hread.bindE_silent (Answered.withE fun s _ hs => ?_)
    rw [hs, hv]
    exact Answered.pureE v

/-- The last read's value ends the loop as it is; an unexpected line in it is logged. -/
theorem Answered.rdintLoop_last (hread : Answered P S (Machine.readRegister c.addr) a (.ok v) ports S)
    (hv : unexpectedBits c S.interruptLineCount v = true) :
    Answered P S (rdintLoop c 0) a (.ok v) (ports ++ [.log .unexpectedInterruptBits]) S := by
  rw [← List.append_nil a]
  refine hread.bindE (Answered.withE fun s _ hs => ?_)
  rw [hs, hv]
  exact (Answered.logEvent .unexpectedInterruptBits).bindE_silent (k := fun _ => Machine.pureE v) (Answered.pureE v)

/-- Reads that each show an unexpected line stand before what the loop does with the reads that remain. -/
theorem Answered.rdintLoop_rereads {l : List (Reply × Talk)} {n : Nat} {r : Res Word} (hP : paramsWf P = true)
    (hl : ∀ p ∈ l, Answers P S.xferStyle S.checksumEnabled (readRoute P c.addr).1 p.1 p.2 ∧
      unexpectedBits c S.interruptLineCount (payloadValue P.rdPayloadOrder p.1.payload) = true)
    (hrest : Answered P S (rdintLoop c n) a r ports S) :
    Answered P S (rdintLoop c (l.length + n)) (runAnswers P S.xferStyle (readRoute P c.addr).1 S.checksumEnabled l ++ a) r
      (runPorts P S.xferStyle (readRoute P c.addr).1 S.checksumEnabled
        (withCk P S.checksumEnabled (cmdBody P (readRoute P c.addr).1 c.addr 0 0 (readRoute P c.addr).2)) l ++ ports) S := by
  rintro s more rfl rfl ha
  obtain ⟨t, ev, ht, hcfg, hsession, hanswers, htrace, hports⟩ :=
    Machine.rdintLoop_rereads n hP hl (ha.trans (List.append_assoc _ _ _))
  obtain ⟨u, ev', hu, hucfg, husession, hmore, hutrace, hports'⟩ := hrest t more hcfg hsession hanswers
  exact ⟨u, ev ++ ev', ht.trans hu, hucfg, husession, hmore, by rw [hutrace, htrace, List.append_assoc],
    by rw [List.map_append, hports, hports']⟩

end rdint

theorem runAnswers_concat (P : Params) (style : XferStyle) (k : Cmd) (ck : Bool) (l : List (Reply × Talk)) (r : Reply)
    (x : Talk) : runAnswers P style k ck (l ++ [(r, x)]) = runAnswers P style k ck l ++ exchangeAnswers P style k ck x := by
  simp [runAnswers]

theorem runPorts_concat (P : Params) (style : XferStyle) (k : Cmd) (ck : Bool) (f : List Byte) (l : List (Reply × Talk))
    (r : Reply) (x : Talk) :
    runPorts P style k ck f (l ++ [(r, x)]) = runPorts P style k ck f l ++ exchangePorts P style k ck f x := by
  simp [runPorts]

/-- Settles O33: the reads before the last stand before it; its value is clean, or no read remains behind it. -/
theorem interruptReadCompletes : Obligations.InterruptReadCompletes := by
  intro s c l r x more hP hconf hl hbits hA ha
  have hread := Answered.readRegister hP c.addr hA
  have hbits' : ∀ p ∈ l, Answers s.cfg s.session.xferStyle s.session.checksumEnabled (readRoute s.cfg c.addr).1 p.1 p.2 ∧
      unexpectedBits c s.session.interruptLineCount (payloadValue s.cfg.rdPayloadOrder p.1.payload) = true :=
    fun p hp => (hbits p hp).imp_right unexpectedBits_eq_true.2
  rw [runAnswers_concat] at ha
  rw [runPorts_concat, exec_rdint_configured hconf]
  refine ⟨fun hv => ⟨_, rfl, ?_⟩, fun hv hlast => ⟨_, rfl, ?_⟩⟩
  · obtain ⟨n, hn⟩ := Nat.exists_eq_add_of_le (Nat.le_sub_one_of_lt hl)
    rw [hn]
    exact ((hread.rdintLoop_clean n (unexpectedBits_eq_false.2 hv)).rdintLoop_rereads hP hbits').finish .rdint ha |>.1
  · rw [← hlast, Nat.add_sub_cancel, List.append_assoc]
    exact ((hread.rdintLoop_last (unexpectedBits_eq_true.2 hv)).rdintLoop_rereads hP hbits').finish .rdint ha |>.1

end Sys2Proof.Machine
end

section
/-! Negotiation with a peer that answers every access well, with one that refuses every command with a checksum byte, and
without a peer (spec 46 R281 to R292, spec 60 R318): its steps composed from the accesses they try. -/

namespace Sys2Proof.Machine

/-! ## The accesses of negotiation (R202) -/

section accesses
variable {P : Params} {S : Session} (hP : paramsWf P = true)
include hP

theorem Answered.internalReadOp_good {r : Reply} {x : Talk} (addr : Word)
    (hA : Answers P S.xferStyle S.checksumEnabled .internalRead r x) :
    Answered P S (internalReadOp addr) (exchangeAnswers P S.xferStyle .internalRead S.checksumEnabled x)
      (.ok (payloadValue P.rdPayloadOrder r.payload))
      (exchangePorts P S.xferStyle .internalRead S.checksumEnabled
        (withCk P S.checksumEnabled (cmdBody P .internalRead addr 0 0 false)) x) S :=
  Answered.withE fun s hcfg _ => by
    rw [hcfg]
    exact (Answered.readRegOnce hP (k := .internalRead) rfl addr false hA).retryOp hP

theorem Answered.internalWriteOp_good {r : Reply} {x : Talk} (addr v : Word)
    (hA : Answers P S.xferStyle S.checksumEnabled .internalWrite r x) :
    Answered P S (internalWriteOp addr v) (exchangeAnswers P S.xferStyle .internalWrite S.checksumEnabled x) (.ok 0)
      (exchangePorts P S.xferStyle .internalWrite S.checksumEnabled
        (withCk P S.checksumEnabled (cmdBody P .internalWrite addr v 0 false)) x) S :=
  Answered.withE fun s hcfg _ => by
    rw [hcfg]
    exact (Answered.writeRegOnce hP (k := .internalWrite) addr v false hA).retryOp hP

/-- Every attempt of the read is NACKed, and every bus reset answered well (R291). -/
theorem Answered.internalReadOp_nacked {l : List NackedAttempt} (addr : Word) (hn : l.length = P.maxRetry)
    (hl : ∀ a ∈ l, a.Legal P S.xferStyle S.checksumEnabled .internalRead) :
    Answered P S (internalReadOp addr) (nackedAnswers P S.xferStyle S.checksumEnabled .internalRead l) (.err .badStatus)
      (nackedPorts P S.xferStyle S.checksumEnabled .internalRead
        (withCk P S.checksumEnabled (cmdBody P .internalRead addr 0 0 false)) l) S := by
  have hsome : l ≠ [] := by
    rintro rfl
    exact absurd (paramsWf_bounds hP).1 (by simp [← hn])
  rintro s more rfl rfl ha
  obtain ⟨t, ev, ht, hleft⟩ := retryLoop_nacked (s := { s with retry := { s.retry with attempt := 0 } }) hP addr false
    (fun h => absurd h hsome) hl ha
  rw [hn] at ht
  exact ⟨t, ev, ht, hleft⟩

/-- The transport is dead for every attempt and every bus reset (R265, R267). -/
theorem Answered.internalReadOp_dead {bs : List (List Byte)} (addr : Word) (hn : bs.length = 2 * P.maxRetry) :
    Answered P S (internalReadOp addr) (bs.map fun b => { ok := false, bytes := b }) (.err .transportError)
      (List.replicate P.maxRetry (deadAttempt P S.xferStyle .internalRead S.checksumEnabled
        (withCk P S.checksumEnabled (cmdBody P .internalRead addr 0 0 false)))).flatten S := by
  have hbudget := (paramsWf_bounds hP).1
  rintro s more rfl rfl ha
  obtain ⟨t, ev, ht, hmore, htrace, hports⟩ := retryLoop_dead
    (s := { s with retry := { s.retry with attempt := 0 } }) hP
    ((DiesAt.cmdExchange hP s.session .internalRead addr 0 0 false).bindE _) rfl rfl hn (by omega) ha
  have hw := Obeys.internalReadOp (w := .sessionKept) rfl addr s
  rw [show internalReadOp addr s = (.err .transportError, t) from ht] at hw
  exact ⟨t, ev, ht, hw.cfg, hw.session rfl rfl, hmore, htrace, hports⟩

end accesses

/-! ## The steps (R282 to R287) -/

section steps
variable {P : Params} {S : Session} {a b : List Answer} {ports ports' : List PortEvent} {v : Word}

/-- An access that a step tries, as the sequencer state `q`. -/
theorem Answered.tried {m : Eng Word} {r : Res Word} {S' : Session} (q : Seq) (h : Answered P S m a r ports S') :
    Answered P S (Machine.tryE (Machine.under q m)) a (.ok r) ports S' :=
  (h.under q).tryE

theorem Answered.setChecksum (ck : Bool) :
    Answered P S (modifyE (setChecksum ck)) [] (.ok ()) [] { S with checksumEnabled := ck } :=
  Answered.modify (fun _ => rfl) (fun s hs => by rw [setChecksum_session, hs]) (fun _ => rfl) fun _ => rfl

theorem Answered.setNegotiated : Answered P S (modifyE setNegotiated) [] (.ok ()) [] { S with negotiated := true } :=
  Answered.modify (fun _ => rfl) (fun s hs => by rw [setNegotiated_session, hs]) (fun _ => rfl) fun _ => rfl

/-- The value of the identity read is dropped (R282). -/
theorem Answered.livenessProbe_read (h : Answered P S (Machine.readRegister P.chipIdAddr) a (.ok v) ports S) :
    Answered P S livenessProbe a (.ok 0) ports S :=
  Answered.withE fun s hcfg _ => by
    rw [hcfg]
    exact (h.under .negProbe).bindE_silent (Answered.pureE 0)

/-- A probe that ends otherwise than with `TransportError` is passed, whatever its outcome (R283). -/
theorem Answered.negStep1_passed {r : Res Word}
    (h : Answered P { S with checksumEnabled := true } (internalReadOp P.probeAddr) a r ports
      { S with checksumEnabled := true }) (hr : r ≠ .err .transportError) :
    Answered P S negStep1 a (.ok ()) ports { S with checksumEnabled := true } := by
  refine (Answered.setChecksum true).bindE (Answered.withE fun s hcfg _ => ?_)
  rw [hcfg]
  refine (h.tried .neg1).bindE_silent ?_
  split
  · exact absurd rfl hr
  · exact Answered.pureE ()

/-- A probe that ends with `TransportError` ends negotiation (R283, R318). -/
theorem Answered.negStep1_noPeer
    (h : Answered P { S with checksumEnabled := true } (internalReadOp P.probeAddr) a (.err .transportError) ports
      { S with checksumEnabled := true }) :
    Answered P S negStep1 a (.err .peerNotPresent) ports { S with checksumEnabled := true } := by
  refine (Answered.setChecksum true).bindE (Answered.withE fun s hcfg _ => ?_)
  rw [hcfg]
  exact (h.tried .neg1).bindE_silent (Answered.raiseE .peerNotPresent)

theorem Answered.negStep3_written {reg : Word}
    (h : Answered P S (internalWriteOp P.protoCtrlAddr (negotiatedReg P S.chunkSize reg)) a (.ok v) ports S) :
    Answered P S (negStep3 reg) a (.ok ()) ports { S with checksumEnabled := false } :=
  Answered.withE fun s hcfg hsession => by
    rw [hcfg, hsession]
    exact (h.tried .neg3).bindE_silent (Answered.setChecksum false)

theorem Answered.negStep2b_read
    (h : Answered P { S with checksumEnabled := false } (internalReadOp P.protoCtrlAddr) a (.ok v) ports
      { S with checksumEnabled := false }) :
    Answered P S negStep2b a (.ok ()) ports { S with checksumEnabled := false } := by
  refine (Answered.setChecksum false).bindE (Answered.withE fun s hcfg _ => ?_)
  rw [hcfg]
  exact (h.tried .neg2b).bindE_silent (Answered.pureE ())

/-- The read with the checksum byte succeeds, and step 3 follows (R284, R285). -/
theorem Answered.negStep2_read {reg : Word} {S' : Session}
    (hread : Answered P S (internalReadOp P.protoCtrlAddr) a (.ok reg) ports S)
    (hwrite : Answered P S (negStep3 reg) b (.ok ()) ports' S') :
    Answered P S negStep2 (a ++ b) (.ok ()) (ports ++ ports') S' :=
  Answered.withE fun s hcfg _ => by
    rw [hcfg]
    exact (hread.tried .neg2a).bindE hwrite

/-- The read with the checksum byte fails, and the read without it stands for step 3 (R284). -/
theorem Answered.negStep2_fallback {c : Cause} {S' : Session}
    (hread : Answered P S (internalReadOp P.protoCtrlAddr) a (.err c) ports S)
    (hagain : Answered P S negStep2b b (.ok ()) ports' S') :
    Answered P S negStep2 (a ++ b) (.ok ()) (ports ++ ports') S' :=
  Answered.withE fun s hcfg _ => by
    rw [hcfg]
    exact (hread.tried .neg2a).bindE hagain

/-- An identity that is accepted (R286). -/
theorem Answered.negStep4_accepted (h : Answered P S (Machine.readRegister P.chipIdAddr) a (.ok v) ports S)
    (hid : chipIdAccepts P.chipIdOk v = true) :
    Answered P S negStep4 a (.ok ()) ports S :=
  Answered.withE fun s hcfg _ => by
    rw [hcfg]
    refine (h.tried .neg4).bindE_silent ?_
    simp only [hid, if_true]
    exact Answered.pureE ()

/-- The steps succeed, and checksum mode is off after step 2 or 3 (R281, R287). -/
theorem Answered.negotiateOp_steps {a1 a2 a4 : List Answer} {ports1 ports2 ports4 : List PortEvent}
    (hS : S.negotiated = false) (h1 : Answered P S negStep1 a1 (.ok ()) ports1 { S with checksumEnabled := true })
    (h2 : Answered P { S with checksumEnabled := true } negStep2 a2 (.ok ()) ports2
      { S with checksumEnabled := false })
    (h4 : Answered P { S with checksumEnabled := false } negStep4 a4 (.ok ()) ports4
      { S with checksumEnabled := false }) :
    Answered P S negotiateOp (a1 ++ (a2 ++ a4)) (.ok 0) (ports1 ++ (ports2 ++ ports4))
      { S with checksumEnabled := false, negotiated := true } := by
  refine Answered.withE fun s _ hsession => ?_
  rw [hsession, hS]
  exact h1.bindE (h2.bindE (h4.bindE_silent (Answered.setNegotiated.bindE_silent (Answered.pureE 0))))

/-- An error of step 1 is the outcome of negotiation (R283). -/
theorem Answered.negotiateOp_noPeer {S' : Session} {c : Cause} (hS : S.negotiated = false)
    (h : Answered P S negStep1 a (.err c) ports S') : Answered P S negotiateOp a (.err c) ports S' := by
  intro s more hcfg hsession ha
  obtain ⟨t, ev, ht, hleft⟩ := h s more hcfg hsession ha
  rw [negotiateOp_unnegotiated (by rw [hsession, hS])]
  exact ⟨t, ev, bindE_failed ht, hleft⟩

end steps

/-! ## Whole negotiations -/

/-- Settles O37: the liveness probe is all that is done. -/
theorem negotiatingAgainProbes : Obligations.NegotiatingAgainProbes := by
  intro s r x more hP hneg hA ha
  have hprobe : Answered s.cfg s.session negotiateOp _ (.ok 0) _ s.session := Answered.withE fun t _ hsession => by
    rw [hsession, hneg]
    exact (Answered.readRegister hP s.cfg.chipIdAddr hA).livenessProbe_read
  exact ⟨_, rfl, hprobe.finish .negotiate ha⟩

theorem nackedAnswers_append (P : Params) (style : XferStyle) (ck : Bool) (k : Cmd) (l l' : List NackedAttempt) :
    nackedAnswers P style ck k (l ++ l') = nackedAnswers P style ck k l ++ nackedAnswers P style ck k l' := by
  simp [nackedAnswers]

/-- Settles O36: with a good peer steps 1 to 4 in turn; with a peer that NACKs checksums, steps 1 and 2 fail with `BadStatus`,
and the read without the checksum byte stands for step 3. -/
theorem negotiationSucceeds : Obligations.NegotiationSucceeds := by
  refine ⟨fun s r1 r2 r3 r4 x1 x2 x3 x4 more hP hneg hA1 hA2 hA3 hA4 hid ha => ?_,
    fun s l1 l2 r3 r4 x3 x4 more hP hneg hn1 hn2 hl hA3 hA4 hid ha => ?_⟩
  · have hprobe := Answered.internalReadOp_good (S := { s.session with checksumEnabled := true }) hP s.cfg.probeAddr hA1
    have hread := Answered.internalReadOp_good (S := { s.session with checksumEnabled := true }) hP s.cfg.protoCtrlAddr hA2
    have hwrite := Answered.internalWriteOp_good (S := { s.session with checksumEnabled := true }) hP s.cfg.protoCtrlAddr
      (negotiatedReg s.cfg s.session.chunkSize (payloadValue s.cfg.rdPayloadOrder r2.payload)) hA3
    have hident := Answered.readRegister (S := { s.session with checksumEnabled := false }) hP s.cfg.chipIdAddr hA4
    have hstep2 := hread.negStep2_read hwrite.negStep3_written
    have hall := Answered.negotiateOp_steps hneg (hprobe.negStep1_passed (by simp)) hstep2 (hident.negStep4_accepted hid)
    rw [← List.append_assoc, ← List.append_assoc, ← List.append_assoc, ← List.append_assoc] at hall
    exact ⟨_, rfl, hall.finish .negotiate ha⟩
  · have hprobe := Answered.internalReadOp_nacked (S := { s.session with checksumEnabled := true }) hP s.cfg.probeAddr hn1
      fun a h => hl a (List.mem_append_left _ h)
    have hread := Answered.internalReadOp_nacked (S := { s.session with checksumEnabled := true }) hP s.cfg.protoCtrlAddr hn2
      fun a h => hl a (List.mem_append_right _ h)
    have hagain := Answered.internalReadOp_good (S := { s.session with checksumEnabled := false }) hP s.cfg.protoCtrlAddr hA3
    have hident := Answered.readRegister (S := { s.session with checksumEnabled := false }) hP s.cfg.chipIdAddr hA4
    have hstep2 := hread.negStep2_fallback (Answered.negStep2b_read (S := { s.session with checksumEnabled := true }) hagain)
    have hall := Answered.negotiateOp_steps hneg (hprobe.negStep1_passed (by simp)) hstep2 (hident.negStep4_accepted hid)
    rw [← List.append_assoc, ← List.append_assoc, ← List.append_assoc, ← List.append_assoc] at hall
    rw [nackedAnswers_append] at ha
    exact ⟨_, rfl, hall.finish .negotiate ha⟩

/-- Settles O56: the probe is the only access tried. -/
theorem negotiationWithoutAPeer : Obligations.NegotiationWithoutAPeer := by
  intro s bs more hP hneg hn ha
  have hprobe := Answered.internalReadOp_dead (S := { s.session with checksumEnabled := true }) hP s.cfg.probeAddr hn
  exact ⟨_, rfl, (Answered.negotiateOp_noPeer hneg hprobe.negStep1_noPeer).finish .negotiate ha⟩

end Sys2Proof.Machine
end

section
/-! `RDINT` counted (spec 46 R298, spec 70 R370, R372): every read is one access with the whole budget, at most `MAX_RETRY` reads
are made, and the log event stands behind the last of them alone. -/

namespace Sys2Proof.Machine

/-! ## One read (R261, R263) -/

theorem LoopTally.attempts_le {base : List Seq} {ev : List Event} {n : Nat} {r : Res Word} (h : LoopTally base ev n r) :
    attemptsIn base ev ≤ n := by
  cases h with
  | succeeded v hk h => exact h.attempts.trans_le hk
  | tooShort hk h => exact h.attempts.trans_le hk
  | exhausted hc h => exact h.attempts.le

theorem LoopTally.unexpected {base : List Seq} {ev : List Event} {n : Nat} {r : Res Word} (h : LoopTally base ev n r) :
    logsIn .unexpectedInterruptBits ev = 0 := by
  cases h with
  | succeeded v hk h => exact h.unexpected
  | tooShort hk h => exact h.unexpected
  | exhausted hc h => exact h.unexpected

theorem readRegister_tally {P : Params} {addr : Word} {s t : State} {r : Res Word} (hP : paramsWf P = true) (hs : s.cfg = P)
    (h : readRegister addr s = (r, t)) : ∃ ev, t.trace = s.trace ++ ev ∧ LoopTally s.ret ev P.maxRetry r := by
  subst hs
  have hbudget := (paramsWf_bounds hP).1
  rw [readRegister_eq] at h
  exact retryLoop_tally (s := { s with retry := { s.retry with attempt := 0 } }) hP
    (attemptOf_attempt (i := .rdreg addr) hP rfl) rfl (by omega) h

/-- A read that succeeds has left the exchange: what is logged behind it is no attempt. -/
theorem readRegister_outside {P : Params} {addr v : Word} {s t : State} (hP : paramsWf P = true) (hs : s.cfg = P)
    (h : readRegister addr s = (.ok v, t)) : t.seq ≠ .cmdXfer := by
  rcases readRegister_sent hP addr s (T := s.trace) ⟨hs, [], by simp, nofun⟩ with ⟨w, u, hu, hout⟩ | ⟨e, u, hu, -⟩
  · obtain ⟨-, rfl⟩ := Prod.mk.inj (h.symm.trans hu)
    exact hout.outside
  · nomatch h.symm.trans hu

/-! ## The loop (R298) -/

/-- How often the loop logs, by its outcome: once for a value with an unexpected line (R298, R339). -/
def unexpectedLogs (c : IntStatus) (lines : BitVec 4) : Res Word → Nat
  | .ok v => if intLinesField c v >>> lines.toNat = 0 then 0 else 1
  | .err _ => 0

/-- The events `ev` of a loop with at most `reads` reads that ended in `r`. -/
structure RdintTally (P : Params) (c : IntStatus) (s : State) (ev : List Event) (reads : Nat) (r : Res Word) : Prop where
  attempts : attemptsIn s.ret ev ≤ reads * P.maxRetry
  logs : logsIn .unexpectedInterruptBits ev = unexpectedLogs c s.session.interruptLineCount r

theorem RdintTally.of_read {P : Params} {c : IntStatus} {s : State} {ev : List Event} {r r' : Res Word} (n : Nat)
    (h : LoopTally s.ret ev P.maxRetry r') (hr : unexpectedLogs c s.session.interruptLineCount r = 0) :
    RdintTally P c s ev (n + 1) r where
  attempts := h.attempts_le.trans (Nat.le_mul_of_pos_left _ n.succ_pos)
  logs := h.unexpected.trans hr.symm

theorem RdintTally.of_reread {P : Params} {c : IntStatus} {s u : State} {ev ev' : List Event} {n : Nat} {r r' : Res Word}
    (h : LoopTally s.ret ev P.maxRetry r') (hret : u.ret = s.ret) (hsession : u.session = s.session)
    (k : RdintTally P c u ev' n r) : RdintTally P c s (ev ++ ev') (n + 1) r where
  attempts := by
    have hread := h.attempts_le
    have hrest := k.attempts
    rw [hret] at hrest
    rw [attemptsIn_append, Nat.succ_mul]
    omega
  logs := by rw [logsIn_append, h.unexpected, k.logs, hsession, Nat.zero_add]

section rdint
variable {c : IntStatus} {s u : State} {v : Word}

theorem rdintLoop_failed {e : Cause} (n : Nat) (h : readRegister c.addr s = (.err e, u)) : rdintLoop c n s = (.err e, u) := by
  cases n with
  | zero | succ => exact bindE_failed h

theorem rdintLoop_clean (n : Nat) (h : readRegister c.addr s = (.ok v, u))
    (hv : unexpectedBits c u.session.interruptLineCount v = false) : rdintLoop c n s = (.ok v, u) := by
  cases n with
  | zero | succ => simp only [rdintLoop, bindE, h, withE, hv, Bool.false_eq_true, if_false, pureE]

theorem rdintLoop_last (h : readRegister c.addr s = (.ok v, u))
    (hv : unexpectedBits c u.session.interruptLineCount v = true) :
    rdintLoop c 0 s = (.ok v, logEvent .unexpectedInterruptBits u) := by
  simp only [rdintLoop, bindE, h, withE, hv, if_true, modifyE, pureE]

theorem rdintLoop_again (n : Nat) (h : readRegister c.addr s = (.ok v, u))
    (hv : unexpectedBits c u.session.interruptLineCount v = true) : rdintLoop c (n + 1) s = rdintLoop c n u := by
  simp only [rdintLoop, bindE, h, withE, hv, if_true]

end rdint

theorem rdintLoop_tally {P : Params} (hP : paramsWf P = true) (c : IntStatus) (n : Nat) {s t : State} {r : Res Word}
    (hs : s.cfg = P) (h : rdintLoop c n s = (r, t)) :
    ∃ ev, t.trace = s.trace ++ ev ∧ RdintTally P c s ev (n + 1) r := by
  rcases hread : readRegister c.addr s with ⟨v | e, u⟩
  · obtain ⟨ev, htrace, htally⟩ := readRegister_tally hP hs hread
    have hw := Obeys.readRegister (w := .sessionKept) rfl c.addr s
    rw [hread] at hw
    have hsession := hw.session rfl rfl
    cases hv : unexpectedBits c u.session.interruptLineCount v with
    | false =>
      rw [rdintLoop_clean n hread hv] at h
      cases h
      rw [hsession, unexpectedBits_eq_false] at hv
      exact ⟨ev, htrace, .of_read n htally (if_pos hv)⟩
    | true =>
      cases n with
      | zero =>
        rw [rdintLoop_last hread hv] at h
        cases h
        rw [hsession, unexpectedBits_eq_true] at hv
        have hlog : attemptsIn s.ret [{ seq := u.seq, ret := u.ret, port := .log .unexpectedInterruptBits }] = 0 := by
          simp [attemptsIn, readRegister_outside hP hs hread]
        refine ⟨ev ++ [_], by rw [logEvent_trace, htrace, List.append_assoc], ?_, ?_⟩
        · rw [attemptsIn_append, hlog, Nat.zero_add, Nat.one_mul]
          exact htally.attempts_le
        · rw [logsIn_append, htally.unexpected, unexpectedLogs, if_neg hv]
          rfl
      | succ n =>
        rw [rdintLoop_again n hread hv] at h
        obtain ⟨ev', htrace', hrest⟩ := rdintLoop_tally hP c n (hw.cfg.trans hs) h
        exact ⟨ev ++ ev', by rw [htrace', htrace, List.append_assoc], .of_reread htally hw.ret hsession hrest⟩
  · obtain ⟨ev, htrace, htally⟩ := readRegister_tally hP hs hread
    rw [rdintLoop_failed n hread] at h
    cases h
    exact ⟨ev, htrace, .of_read n htally rfl⟩

/-- Settles O34: the loop makes `MAX_RETRY` reads at most, and the completion behind it is neither attempt nor log event. -/
theorem interruptReadIsCapped : Obligations.InterruptReadIsCapped := by
  intro s t c ev hP hconf hexec htrace
  rw [exec_rdint_configured hconf] at hexec
  rcases hrun : rdintLoop c (s.cfg.maxRetry - 1) (begun s .rdint) with ⟨r, u⟩
  rw [finish_eq hrun] at hexec
  obtain rfl := Host.Outcome.next.inj hexec
  obtain ⟨calls, hcalls, hattempts, hlogs⟩ := rdintLoop_tally (s := begun s .rdint) hP c _ rfl hrun
  obtain rfl : ev = calls ++ [{ seq := .done, ret := u.ret, port := .complete (completionOf r) }] :=
    List.append_cancel_left (htrace.symm.trans (by simp [hcalls]))
  rw [Nat.sub_add_cancel (paramsWf_bounds hP).1] at hattempts
  rw [attemptsIn_completed, logsIn_completed, hlogs]
  refine ⟨hattempts, fun hok => ?_, fun hfailed => ?_⟩
  · cases r with
    | ok v => rfl
    | err e => nomatch hok
  · cases r with
    | ok v => nomatch hfailed
    | err e => rfl

end Sys2Proof.Machine
end

section
/-! What a first `NEGOTIATE` leaves, whatever the environment answers (spec 46 R283 to R288): the steps that have been reached
stand on the return stack of the port events, and checksum mode and the error follow from them. -/

namespace Sys2Proof.Machine

/-! ## Where the events of an access stand (R33, R261) -/

/-- The event is of an attempt made from `base`, or of the bus reset of a recovery between two (R263, R264). -/
def Stacked (base : List Seq) (e : Event) : Prop :=
  e.ret = base ∨ e.ret = .retryReset :: base

/-- Whatever is answered, the computation makes an attempt from where it stands, and no event from elsewhere. -/
def ShowsAttempt {α : Type} (P : Params) (m : Eng α) : Prop :=
  ∀ s, s.cfg = P → ∃ ev, (m s).2.trace = s.trace ++ ev ∧ (∃ e ∈ ev, e.ret = s.ret) ∧ ∀ e ∈ ev, Stacked s.ret e

/-- An attempt shows the exchange and the reader's calls, all from where it stands. -/
theorem showsAttempt_of_tries {s t : State} {b : Option Byte}
    (h : t.ret = s.ret ∧ ∃ (e : Event) (ev : List Event), t.trace = s.trace ++ e :: ev ∧ e.seq = .cmdXfer ∧
      e.ret = s.ret ∧ isTransport e = true ∧ (sentBytes e).head? = b ∧ ∀ f ∈ ev, IsInner s.ret f) :
    ∃ ev, t.trace = s.trace ++ ev ∧ (∃ e ∈ ev, e.ret = s.ret) ∧ ∀ e ∈ ev, Stacked s.ret e := by
  obtain ⟨-, e, ev, htrace, -, hret, -, -, hinner⟩ := h
  exact ⟨e :: ev, htrace, ⟨e, List.mem_cons_self, hret⟩,
    List.forall_mem_cons.2 ⟨.inl hret, fun f hf => .inl (hinner f hf).1⟩⟩

theorem recover_stacked {s : State} (hP : paramsWf s.cfg = true) :
    ∃ ev, (recover s).trace = s.trace ++ ev ∧ ∀ e ∈ ev, Stacked s.ret e := by
  obtain ⟨d1, e, ev, logs, d2, htrace, -, hd1, -, -, hd2, -, -, hret, -, -, hinner, hlogs⟩ := recover_events hP
  refine ⟨d1 :: e :: ev ++ logs ++ [d2], by rw [htrace]; simp, fun f hf => ?_⟩
  simp only [List.cons_append, List.mem_cons, List.mem_append, List.not_mem_nil, or_false] at hf
  rcases hf with rfl | rfl | (hf | hf) | rfl
  · exact .inl hd1
  · exact .inr hret
  · exact .inr (hinner f hf).1
  · rcases hlogs with rfl | rfl
    · nomatch hf
    · exact .inl (by rw [List.mem_singleton.1 hf])
  · exact .inl hd2

/-- The retry controller adds the events of its recoveries. -/
theorem ShowsAttempt.retryOp {α : Type} {P : Params} {op : Eng α} (hP : paramsWf P = true) (hop : ShowsAttempt P op)
    (hw : Obeys .sessionKept op) : ShowsAttempt P (retryOp op) := by
  have loop : ∀ n s, s.cfg = P → ∃ ev, (retryLoop op n s).2.trace = s.trace ++ ev ∧
      (0 < n → ∃ e ∈ ev, e.ret = s.ret) ∧ ∀ e ∈ ev, Stacked s.ret e := by
    intro n
    induction n with
    | zero => exact fun s _ => ⟨[], by simp [retryLoop], nofun, nofun⟩
    | succ n ih =>
      intro s hs
      obtain ⟨ev, htrace, hone, hstack⟩ := hop s hs
      have hwithin := hw s
      rcases hrun : op s with ⟨v | c, u⟩
      · rw [retryLoop_ok hrun]
        rw [hrun] at htrace
        exact ⟨ev, htrace, fun _ => hone, hstack⟩
      · rw [hrun] at htrace hwithin
        cases hc : retryable c with
        | false =>
          rw [retryLoop_stop hrun hc]
          exact ⟨ev, htrace, fun _ => hone, hstack⟩
        | true =>
          have hwrec := within_recover {} (takeError c u)
          have hucfg : (takeError c u).cfg = P := hwithin.cfg.trans hs
          have huret : (takeError c u).ret = s.ret := hwithin.ret
          obtain ⟨recovery, hrecovery, hrecstack⟩ := recover_stacked (hucfg ▸ hP)
          obtain ⟨ev', htrace', -, hstack'⟩ := ih (returnFromError (recover (takeError c u))) (hwrec.cfg.trans hucfg)
          rw [huret] at hrecstack
          rw [show (returnFromError (recover (takeError c u))).ret = s.ret from hwrec.ret.trans huret] at hstack'
          rw [retryLoop_again hrun hc]
          refine ⟨ev ++ (recovery ++ ev'), ?_, fun _ => ?_, fun e he => ?_⟩
          · rw [htrace', returnFromError_trace, hrecovery, takeError_trace, htrace]
            simp
          · obtain ⟨e, he, hret⟩ := hone
            exact ⟨e, List.mem_append_left _ he, hret⟩
          · rw [List.mem_append, List.mem_append] at he
            exact he.elim (hstack e) fun h => h.elim (hrecstack e) (hstack' e)
  intro s hs
  obtain ⟨ev, htrace, hone, hstack⟩ := loop s.cfg.maxRetry { s with retry := { s.retry with attempt := 0 } } hs
  exact ⟨ev, htrace, hone (paramsWf_bounds (hs ▸ hP)).1, hstack⟩

/-- An access that a step of negotiation tries: it leaves the session alone, and its events stand where it is tried. -/
structure Access (P : Params) (m : Eng Word) : Prop where
  obeys : Obeys .sessionKept m
  attempts : ShowsAttempt P m

section accesses
variable {P : Params} (hP : paramsWf P = true)
include hP

theorem readRegOnce_showsAttempt (k : Cmd) (addr : Word) (cl : Bool) : ShowsAttempt P (readRegOnce (opcOf P.opc k) addr cl) := by
  rintro s rfl
  exact showsAttempt_of_tries (readRegOnce_tries hP k addr cl)

theorem writeRegOnce_showsAttempt (k : Cmd) (addr v : Word) (cl : Bool) :
    ShowsAttempt P (writeRegOnce (opcOf P.opc k) addr v cl) := by
  rintro s rfl
  exact showsAttempt_of_tries (writeRegOnce_tries hP k addr v cl)

theorem Access.internalReadOp (addr : Word) : Access P (internalReadOp addr) where
  obeys := Obeys.internalReadOp rfl addr
  attempts s hs := by
    rw [Machine.internalReadOp, withE, hs]
    exact (readRegOnce_showsAttempt hP .internalRead addr false).retryOp hP (Obeys.readRegOnce _ _ _) s hs

theorem Access.internalWriteOp (addr v : Word) : Access P (internalWriteOp addr v) where
  obeys := Obeys.internalWriteOp rfl addr v
  attempts s hs := by
    rw [Machine.internalWriteOp, withE, hs]
    exact (writeRegOnce_showsAttempt hP .internalWrite addr v false).retryOp hP (Obeys.writeRegOnce _ _ _ _) s hs

theorem Access.readRegister (addr : Word) : Access P (readRegister addr) where
  obeys := Obeys.readRegister rfl addr
  attempts s hs := by
    rw [readRegister_eq, hs]
    exact (readRegOnce_showsAttempt hP _ addr _).retryOp hP (Obeys.readRegOnce _ _ _) s hs

end accesses

/-! ## How far negotiation has come -/

/-- Some event was made in the step `q`. -/
def Reached (q : Seq) (ev : List Event) : Prop :=
  ∃ e ∈ ev, q ∈ e.ret

/-- During a negotiation begun with the trace `T`, nothing on the return stack: checksum mode is `ck`, and the steps 3 and 4
have been tried or not. -/
structure Stage (P : Params) (T : List Event) (ck : Bool) (step3 step4 : Prop) (s : State) : Prop where
  cfg : s.cfg = P
  ret : s.ret = []
  unnegotiated : s.session.negotiated = false
  checksum : s.session.checksumEnabled = ck
  events : ∃ ev, s.trace = T ++ ev ∧ (Reached .neg3 ev ↔ step3) ∧ (Reached .neg4 ev ↔ step4)

theorem reached_append (q : Seq) (ev ev' : List Event) : Reached q (ev ++ ev') ↔ Reached q ev ∨ Reached q ev' := by
  simp only [Reached, List.mem_append, or_and_right, exists_or]

/-- The events of an access tried in the step `x` are in that step and in no other of negotiation. -/
theorem reached_stacked {x q : Seq} {ev : List Event} (hq : q ≠ .retryReset) (hone : ∃ e ∈ ev, e.ret = [x])
    (hstack : ∀ e ∈ ev, Stacked [x] e) : Reached q ev ↔ q = x := by
  constructor
  · rintro ⟨e, he, hmem⟩
    rcases hstack e he with h | h <;> simpa [h, hq] using hmem
  · rintro rfl
    obtain ⟨e, he, hret⟩ := hone
    exact ⟨e, he, by simp [hret]⟩

section stages
variable {P : Params} {T : List Event} {ck : Bool} {step3 step4 : Prop}

theorem Stage.setChecksum {s : State} (h : Stage P T ck step3 step4 s) (b : Bool) :
    Stage P T b step3 step4 (setChecksum b s) :=
  { h with checksum := rfl }

/-- A tried access leads to the stage in which its step has been tried. -/
theorem Stage.tried {m : Eng Word} {s : State} (h : Stage P T ck step3 step4 s) (hm : Access P m) (x : Seq) :
    Stage P T ck (step3 ∨ .neg3 = x) (step4 ∨ .neg4 = x) (under x m s).2 := by
  obtain ⟨ev, htrace, hone, hstack⟩ := hm.attempts { s with seq := x, ret := x :: s.ret } h.cfg
  have hw := Obeys.under x hm.obeys s
  obtain ⟨ev0, htrace0, h3, h4⟩ := h.events
  simp only [h.ret] at hone hstack
  refine ⟨hw.cfg.trans h.cfg, hw.ret.trans h.ret, (hw.negotiated rfl).trans h.unnegotiated,
    (hw.checksum rfl).trans h.checksum, ev0 ++ ev, ?_, ?_, ?_⟩
  · rw [← List.append_assoc, ← htrace0]
    exact htrace
  · rw [reached_append, h3, reached_stacked (by decide) hone hstack]
  · rw [reached_append, h4, reached_stacked (by decide) hone hstack]

end stages

/-! ## Triples that know the error and the state it leaves -/

/-- From every state in `p` the computation ends in `q` with a value, or with an error and a state of which `e` holds together:
`Ensures` speaks of the state alone, `Ends` of the error alone, and each error of negotiation leaves a state of its own. -/
def Leaves {α : Type} (p : State → Prop) (m : Eng α) (q : State → Prop) (e : Cause → State → Prop) : Prop :=
  ∀ s, p s → (∃ a t, m s = (.ok a, t) ∧ q t) ∨ ∃ c t, m s = (.err c, t) ∧ e c t

section triples
variable {α β : Type} {p q r : State → Prop} {e : Cause → State → Prop}

theorem Leaves.pureE {a : α} (h : ∀ s, p s → q s) : Leaves p (pureE a) q e :=
  fun s hs => .inl ⟨a, s, rfl, h s hs⟩

theorem Leaves.raiseE {c : Cause} (h : ∀ s, p s → e c s) : Leaves p (raiseE c : Eng α) q e :=
  fun s hs => .inr ⟨c, s, rfl, h s hs⟩

theorem Leaves.modify {f : State → State} (h : ∀ s, p s → q (f s)) : Leaves p (modifyE f) q e :=
  fun s hs => .inl ⟨(), f s, rfl, h s hs⟩

theorem Leaves.bindE {m : Eng α} {k : α → Eng β} (hm : Leaves p m r e) (hk : ∀ a, Leaves r (k a) q e) :
    Leaves p (bindE m k) q e := by
  intro s hs
  rcases hm s hs with ⟨a, t, h, ht⟩ | ⟨c, t, h, ht⟩
  · simpa only [Machine.bindE, h] using hk a t ht
  · exact .inr ⟨c, t, bindE_failed h, ht⟩

theorem Leaves.withE {f : State → Eng α} (h : ∀ s, p s → Leaves p (f s) q e) : Leaves p (withE f) q e :=
  fun s hs => h s hs s hs

theorem Leaves.ite {c : Prop} [Decidable c] {m n : Eng α} (hm : Leaves p m q e) (hn : Leaves p n q e) :
    Leaves p (if c then m else n) q e := by
  split
  · exact hm
  · exact hn

/-- An access tried in a step of negotiation, whatever its outcome, and what the step does with the outcome. -/
theorem Leaves.tried {P : Params} {T : List Event} {ck : Bool} {step3 step4 : Prop} {m : Eng Word} {k : Res Word → Eng α}
    (hm : Access P m) (x : Seq)
    (hk : ∀ r, Leaves (Stage P T ck (step3 ∨ .neg3 = x) (step4 ∨ .neg4 = x)) (k r) q e) :
    Leaves (Stage P T ck step3 step4) (Machine.bindE (tryE (under x m)) k) q e :=
  Leaves.bindE (fun _ hs => .inl ⟨_, _, rfl, hs.tried hm x⟩) hk

end triples

/-! ## The steps (R283 to R287) -/

/-- How negotiation fails: without a peer in step 1, with checksum mode on; or later, with checksum mode on exactly when step 3
was tried and step 4 not reached (R283 to R288). -/
def FailedStage (P : Params) (T : List Event) (c : Cause) (s : State) : Prop :=
  c = .peerNotPresent ∧ Stage P T true False False s ∨
    c = .peerUnresponsive ∧ ∃ (ck : Bool) (step3 step4 : Prop),
      Stage P T ck step3 step4 s ∧ (ck = true ↔ step3 ∧ ¬ step4)

theorem Stage.failed {P : Params} {T : List Event} {ck : Bool} {step3 step4 : Prop} {s : State}
    (h : Stage P T ck step3 step4 s) (hck : ck = true ↔ step3 ∧ ¬ step4) : FailedStage P T .peerUnresponsive s :=
  .inr ⟨rfl, ck, step3, step4, h, hck⟩

/-- Behind the steps 1 to 3: checksum mode is off, and step 4 has not been reached. -/
def ModeOff (P : Params) (T : List Event) (s : State) : Prop :=
  ∃ step3, Stage P T false step3 False s

theorem Stage.congr {P : Params} {T : List Event} {ck : Bool} {step3 step4 step3' step4' : Prop} {s : State}
    (h : Stage P T ck step3 step4 s) (h3 : step3 ↔ step3') (h4 : step4 ↔ step4') : Stage P T ck step3' step4' s := by
  rwa [← propext h3, ← propext h4]

section steps
variable {P : Params} {T : List Event} (hP : paramsWf P = true)
include hP

theorem negStep1_leaves {ck : Bool} :
    Leaves (Stage P T ck False False) negStep1 (Stage P T true False False) (FailedStage P T) := by
  refine Leaves.bindE (r := Stage P T true False False) (Leaves.modify fun _ h => h.setChecksum true) fun _ =>
    Leaves.withE fun s hs => ?_
  rw [hs.cfg]
  refine Leaves.tried (Access.internalReadOp hP _) .neg1 fun r => ?_
  have unchanged : ∀ t, Stage P T true (False ∨ Seq.neg3 = .neg1) (False ∨ Seq.neg4 = .neg1) t →
      Stage P T true False False t := fun t ht => ht.congr (by simp) (by simp)
  split
  · exact Leaves.raiseE fun t ht => .inl ⟨rfl, unchanged t ht⟩
  · exact Leaves.pureE unchanged

theorem negStep3_leaves (reg : Word) :
    Leaves (Stage P T true False False) (negStep3 reg) (ModeOff P T) (FailedStage P T) := by
  refine Leaves.withE fun s hs => ?_
  rw [hs.cfg]
  refine Leaves.tried (Access.internalWriteOp hP _ _) .neg3 fun r => ?_
  cases r with
  | ok v => exact Leaves.modify fun t ht => ⟨True, (ht.setChecksum false).congr (by simp) (by simp)⟩
  | err c => exact Leaves.raiseE fun t ht => ht.failed (by simp)

theorem negStep2b_leaves :
    Leaves (Stage P T true False False) negStep2b (ModeOff P T) (FailedStage P T) := by
  refine Leaves.bindE (r := Stage P T false False False) (Leaves.modify fun _ h => h.setChecksum false) fun _ =>
    Leaves.withE fun s hs => ?_
  rw [hs.cfg]
  refine Leaves.tried (Access.internalReadOp hP _) .neg2b fun r => ?_
  cases r with
  | ok v => exact Leaves.pureE fun t ht => ⟨False, ht.congr (by simp) (by simp)⟩
  | err c => exact Leaves.raiseE fun t ht => ht.failed (by simp)

theorem negStep2_leaves :
    Leaves (Stage P T true False False) negStep2 (ModeOff P T) (FailedStage P T) := by
  refine Leaves.withE fun s hs => ?_
  rw [hs.cfg]
  refine Leaves.tried (Access.internalReadOp hP _) .neg2a fun r => ?_
  have unchanged : (Stage P T true (False ∨ Seq.neg3 = .neg2a) (False ∨ Seq.neg4 = .neg2a)) =
      Stage P T true False False := by simp
  rw [unchanged]
  cases r with
  | ok reg => exact negStep3_leaves hP reg
  | err c => exact negStep2b_leaves hP

theorem negStep4_leaves :
    Leaves (ModeOff P T) negStep4 (fun t => t.session.checksumEnabled = false) (FailedStage P T) := by
  rintro s ⟨step3, hs⟩
  refine Leaves.withE (p := Stage P T false step3 False) (fun u hu => ?_) s hs
  rw [hu.cfg]
  refine Leaves.tried (Access.readRegister hP _) .neg4 fun r => ?_
  have fail : Leaves (Stage P T false (step3 ∨ Seq.neg3 = .neg4) (False ∨ Seq.neg4 = .neg4))
      (raiseE .peerUnresponsive : Eng Unit) (fun t => t.session.checksumEnabled = false) (FailedStage P T) :=
    Leaves.raiseE fun t ht => ht.failed (by simp)
  cases r with
  | ok v => exact Leaves.ite (Leaves.pureE fun t ht => ht.checksum) fail
  | err c => exact fail

/-- A negotiation of a session not negotiated, from its beginning to its end. -/
theorem negotiateOp_leaves {ck : Bool} :
    Leaves (Stage P T ck False False) negotiateOp
      (fun t => t.session.checksumEnabled = false ∧ t.session.negotiated = true) (FailedStage P T) := by
  intro s hs
  rw [negotiateOp_unnegotiated hs.unnegotiated]
  exact Leaves.bindE (negStep1_leaves hP) (fun _ => Leaves.bindE (negStep2_leaves hP) fun _ =>
    Leaves.bindE (negStep4_leaves hP) fun _ => Leaves.bindE (Leaves.modify fun _ h => ⟨h, rfl⟩) fun _ =>
    Leaves.pureE fun _ h => h) s hs

end steps

/-! ## The whole operation -/

theorem bindE_ok {α β : Type} {m : Eng α} {k : α → Eng β} {s u : State} {v : β} (h : bindE m k s = (.ok v, u)) :
    ∃ a t, m s = (.ok a, t) ∧ k a t = (.ok v, u) := by
  rcases hm : m s with ⟨a | c, t⟩
  · exact ⟨a, t, rfl, by simpa only [bindE, hm] using h⟩
  · nomatch (bindE_failed hm).symm.trans h

theorem negotiateOp_value {s u : State} {v : Word} (hneg : s.session.negotiated = false)
    (h : negotiateOp s = (.ok v, u)) : v = 0 := by
  rw [negotiateOp_unnegotiated hneg] at h
  obtain ⟨-, t1, -, h⟩ := bindE_ok h
  obtain ⟨-, t2, -, h⟩ := bindE_ok h
  obtain ⟨-, t3, -, h⟩ := bindE_ok h
  cases h
  rfl

theorem Stage.begun {s : State} (hret : s.ret = []) (hneg : s.session.negotiated = false) (i : Instr) :
    Stage s.cfg s.trace s.session.checksumEnabled False False (begun s i) :=
  ⟨rfl, hret, hneg, rfl, [], by simp, by simp [Reached], by simp [Reached]⟩

/-- The completion is presented outside every step (R209). -/
theorem reached_completed (q : Seq) (ev : List Event) (c : Completion) :
    Reached q (ev ++ [{ seq := .done, ret := [], port := .complete c }]) ↔ Reached q ev := by
  simp [Reached]

/-- Settles O55: the stage in which negotiation ended, with the completion behind it. -/
theorem negotiationLeavesTheSession : Obligations.NegotiationLeavesTheSession := by
  intro s t ev hP hret hneg hexec htrace
  obtain ⟨_, _, _, hcompleted, hw⟩ := completedWithin_of_exec hexec
  have hlines : t.session.interruptLineCount = s.session.interruptLineCount := by
    rw [hcompleted]
    exact hw.lines rfl
  have hend : finish negotiateOp (begun s .negotiate) = t := Host.Outcome.next.inj hexec
  refine ⟨hlines, ?_⟩
  rcases negotiateOp_leaves hP _ (Stage.begun hret hneg .negotiate) with ⟨v, u, hrun, hoff, hdone⟩ | ⟨c, u, hrun, hfail⟩
  · rw [finish_eq hrun, negotiateOp_value (s := begun s .negotiate) hneg hrun] at hend
    subst hend
    exact ⟨fun _ => ⟨rfl, hoff, hdone⟩, nofun⟩
  · rw [finish_eq hrun] at hend
    subst hend
    refine ⟨nofun, fun _ => ?_⟩
    rcases hfail with ⟨rfl, hstage⟩ | ⟨rfl, ck, step3, step4, hstage, hck⟩
    · exact ⟨hstage.unnegotiated, .inl ⟨rfl, hstage.checksum⟩⟩
    · refine ⟨hstage.unnegotiated, .inr ⟨rfl, ?_⟩⟩
      obtain ⟨calls, hcalls, h3, h4⟩ := hstage.events
      obtain rfl : ev = calls ++ [{ seq := .done, ret := [], port := .complete (failedWith .peerUnresponsive) }] :=
        List.append_cancel_left (htrace.symm.trans (by simp [hcalls, hstage.ret, completionOf, failedWith]))
      change u.session.checksumEnabled = true ↔ Reached .neg3 _ ∧ ¬ Reached .neg4 _
      rw [reached_completed, reached_completed, h3, h4, hstage.checksum]
      exact hck

end Sys2Proof.Machine
end

section
/-! What taking an error does to the state (R320), with the retryable causes of R262 and R310 spelled out. O50 stands
here. -/

namespace Sys2Proof.Machine

/-- The four causes of a failed exchange, against those no repetition can mend (R262, R310, R327). -/
theorem retryable_iff (e : Cause) :
    retryable e = true ↔
      e = .transportError ∨ e = .commandEchoMismatch ∨ e = .badStatus ∨ e = .resetRequired := by
  cases e <;> simp [retryable]

/-- Settles O50: the entry tests the cause by `retryable`, which holds of the four causes named. -/
theorem takingAnErrorSavesItsCause : Obligations.TakingAnErrorSavesItsCause := by
  intro e s
  have hseq : (takeError e s).seq =
      if e = .transportError ∨ e = .commandEchoMismatch ∨ e = .badStatus ∨ e = .resetRequired
        then .retryDelayA else .done := by
    simp only [takeError_seq, retryable_iff]
  rw [← hseq]
  rfl

end Sys2Proof.Machine
end
